-- ==== Sys2Proof/Word.lean ====
section
/-! DEFINITION. The plain types of the IS-1604: link bytes, wrapping 16-bit numbers and the part's identifiers
(spec/00_scope.md, "Identifiers"). -/

namespace Sys2Proof

/-- One byte of the host link. -/
abbrev Byte := BitVec 8

/-- A 16-bit number that wraps from 0FFFFh to 0: sequence and cycle numbers, the frame check (00 "Tags, sequence and
cycle numbers"; R161). -/
abbrev Num16 := BitVec 16

/-- CORE0 to CORE3. -/
abbrev CoreId := Fin 4

/-- S0 to S15. -/
abbrev InputId := Fin 16

/-- C0 to C31. -/
abbrev ChannelId := Fin 32

/-- L0 to L7. -/
abbrev ListId := Fin 8

/-- T0 to T7. -/
abbrev TableId := Fin 8

/-- B0 to B8. -/
abbrev BankId := Fin 9

end Sys2Proof
end

