-- ==== Sys2Proof/Syntax.lean ====
section
/-! DEFINITION. The commands of the block: one constructor for each row of spec/opcode_table.json, in the table's order.
The table gives its rows no fields. A constructor carries what the event brings from outside the part: which core, input or
list it concerns, the periods and ticks a core counted, the bytes that arrived, the strap pins. A host command carries nothing: it
executes the frame in the oldest full command slot (R177, R178; assumption 4). -/

namespace Sys2Proof

/-- What a core has counted when an oscillation period ends: the number of the period in its phase and the ticks since the first
one began (R1). -/
structure PeriodCount where
  periods : Nat
  ticks : Nat
  deriving DecidableEq, Repr

/-- The rows of the table of operations and events. -/
inductive Instr where
  /-- POWER_ON_RESET (R24): `straps` are the pins BR1 and BR0 as read at the reset (R158). -/
  | powerOnReset (straps : BitVec 2)
  /-- PART_RESET (R174): the reset of RESET_PART; the straps are read again. -/
  | partReset (straps : BitVec 2)
  /-- IDENTIFY (R184). -/
  | identify
  /-- GET_STATUS (R185). -/
  | getStatus
  /-- RESET_PART (R186). -/
  | resetPart
  /-- GRANT_CREDITS (R150). -/
  | grantCredits
  /-- SET_CHANNEL (R35 to R37). -/
  | setChannel
  /-- GET_CHANNEL (R39). -/
  | getChannel
  /-- CLEAR_CHANNEL (R38). -/
  | clearChannel
  /-- SAMPLE (R85). -/
  | sample
  /-- SET_LIST (R46 to R48). -/
  | setList
  /-- GET_LIST (R50). -/
  | getList
  /-- CLEAR_LIST (R49). -/
  | clearList
  /-- START_LIST (R52). -/
  | startList
  /-- STOP_LIST with mode DRAIN (R67, R68), and STOP_LIST frames whose mode is refused. -/
  | stopListDrain
  /-- STOP_LIST with mode ABORT (R67, R69). -/
  | stopListAbort
  /-- TRIGGER_LIST (R56). -/
  | triggerList
  /-- BEGIN_TABLE (R111). -/
  | beginTable
  /-- LOAD_SEGMENTS (R112). -/
  | loadSegments
  /-- COMMIT_TABLE (R113, R114). -/
  | commitTable
  /-- ABANDON_TABLE (R115). -/
  | abandonTable
  /-- DROP_TABLE (R117). -/
  | dropTable
  /-- GET_TABLE (R118). -/
  | getTable
  /-- TAKE_CORE_OFFLINE (R19). -/
  | takeCoreOffline
  /-- RESTORE_CORE (R21). -/
  | restoreCore
  /-- UNKNOWN_COMMAND (R179, check 1): a frame whose kind is no command kind is refused. -/
  | unknownCommand
  /-- FRAME_RECEIVED (R160, R161): the bytes that arrive after the start byte, up to the second check byte. -/
  | frameReceived (bytes : List Byte)
  /-- INCOMPLETENESS_TIMEOUT (R162). -/
  | incompletenessTimeout
  /-- FRAMING_ERROR (R163): the line returned high before 24 bit times. -/
  | framingError
  /-- LINK_RESET (R167): the line has been low for 24 bit times. -/
  | linkReset
  /-- LINE_RETURNS_HIGH (R168). -/
  | lineReturnsHigh
  /-- TRANSMIT_FRAME_BEGIN (R170). -/
  | transmitFrameBegin
  /-- REPLY_FRAME_SENT (R171). -/
  | replyFrameSent
  /-- REPORT_FRAME_SENT (R152). -/
  | reportFrameSent
  /-- ALARM_FRAME_SENT (R134, R135). -/
  | alarmFrameSent
  /-- NOTICE_FRAME_SENT (R173). -/
  | noticeFrameSent
  /-- GRANT (R77 to R79): one grant of a grant pass. -/
  | grant
  /-- SETTLE_END (R5). -/
  | settleEnd (core : CoreId)
  /-- REF_PHASE_COMPLETE (R6): a reference period ended with this count; N periods complete the phase. -/
  | refPhaseComplete (core : CoreId) (count : PeriodCount)
  /-- REF_PHASE_TIMEOUT (R6). -/
  | refPhaseTimeout (core : CoreId)
  /-- SENSE_PHASE_COMPLETE (R7): a period ended with this count; N periods complete the phase. -/
  | sensePhaseComplete (core : CoreId) (count : PeriodCount)
  /-- SENSE_POS_COMPLETE (R8): a forward period ended with this count; N/2 periods complete the half. -/
  | sensePosComplete (core : CoreId) (count : PeriodCount)
  /-- SENSE_NEG_COMPLETE (R8): a reverse period ended with this count of its own half; N/2 periods complete it. -/
  | senseNegComplete (core : CoreId) (count : PeriodCount)
  /-- SENSE_TIMEOUT (R7, R8). -/
  | senseTimeout (core : CoreId)
  /-- DISCHARGE_END (R10, R11). -/
  | dischargeEnd (core : CoreId)
  /-- CHECK_PERIODS_COMPLETE (R17): a period ended with this count; 256 periods complete the check. -/
  | checkPeriodsComplete (core : CoreId) (count : PeriodCount)
  /-- CHECK_LIMIT_EXPIRY (R17). -/
  | checkLimitExpiry (core : CoreId)
  /-- CHECK_DISCHARGE_END (R17, R18, R22). -/
  | checkDischargeEnd (core : CoreId)
  /-- REST_END (R29). -/
  | restEnd (input : InputId)
  /-- PERIOD_EXPIRY (R55). -/
  | periodExpiry (list : ListId)
  /-- HOLD_SERVED (R93). -/
  | holdServed
  /-- EVALUATION_START (R94). -/
  | evaluationStart
  /-- EVALUATION_COMPLETE (R100). -/
  | evaluationComplete
  /-- RETIRE (R62, R63, R141): an attempt to retire the head entry of the list's window. -/
  | retire (list : ListId)
  /-- ABORT_COMPLETE (R70). -/
  | abortComplete (list : ListId)
  /-- SESSION_IDLE_TIMEOUT (R116). -/
  | sessionIdleTimeout
  /-- START_BYTE (R160): a byte 5Ah arrives. -/
  | startByte
  /-- LENGTH_OUT_OF_RANGE (R160): the LEN byte that arrives in LENGTH. -/
  | lengthOutOfRange (len : Byte)
  deriving DecidableEq, Repr

end Sys2Proof
end

