-- ==== Sys2Proof/Decode.lean ====
section
/-! DEFINITION. The host's question about words of the opcode table. No row of spec/opcode_table.json carries bits
("fields" is empty in all 58), so no word of the table spells a command (assumption 21). The bytes of the host link are
decoded by the machine itself: frames in Machine/Receiver.lean, payloads in Machine/Operands.lean. -/

namespace Sys2Proof

/-- The command that a word of `nbits` bits spells by the table: none, since the table gives no row any bits. -/
def decodeTableWord (_nbits _w : Nat) : Option Instr := none

end Sys2Proof
end

