-- ==== Sys2Proof/Config.lean ====
section
/-! DEFINITION. What the part fixes for every run (capacities and intervals, each with the rule that gives it) and the one
free value of the model. -/

namespace Sys2Proof.Config

/-- Places of the report queue (R139). -/
def reportPlaces : Nat := 64
/-- Places of the reply queue (R171). -/
def replyPlaces : Nat := 8
/-- Places of the evaluation queue (R90). -/
def evalPlaces : Nat := 6
/-- Entries of the deferred-reply table (R182). -/
def deferredPlaces : Nat := 4
/-- Command slots (R159). -/
def slotPlaces : Nat := 4
/-- Step places of the pool all lists share (R45). -/
def stepPlaces : Nat := 96
/-- The largest concurrency, and so the largest ordering window (R43, R59). -/
def maxWindow : Nat := 4
/-- Records, and alarm notices, that one frame carries at most (R151, R134). -/
def maxPerFrame : Nat := 8
/-- Credits the part holds at most (R150). -/
def maxCredits : Nat := 255
/-- The value at which the counts of notices and skipped starts stay (R54, R131, R172). -/
def saturation : Nat := 255
/-- The stall count at which a core goes OFFLINE (R14). -/
def stallLimit : Nat := 3

/-- Measurement-clock ticks in one millisecond: 16 MHz (R1). -/
def ticksPerMs : Nat := 16000
/-- Ticks in one settle unit of 0.1 ms (R5). -/
def settleUnit : Nat := 1600
/-- Ticks in one rest unit of 10 ms (R28). -/
def restUnit : Nat := 160000
/-- The 0.2 ms of DISCHARGE (R10, R17). -/
def dischargeTicks : Nat := 3200
/-- The periods that a check counts (R17). -/
def checkPeriods : Nat := 256
/-- The 50 ms limit of a check (R17). -/
def checkLimitTicks : Nat := 800000
/-- The 20 ms of the incompleteness timer (R162). -/
def incompletenessTicks : Nat := 320000
/-- The 5000 ms of the session idle timer (R110). -/
def sessionIdleTicks : Nat := 80000000

/-- The polynomial x^16 + x^12 + x^5 + 1 of the frame check (R161). -/
def crcPolynomial : Num16 := 0x1021#16
/-- The initial value of the frame check (R161). -/
def crcInitial : Num16 := 0xFFFF#16

/-- Bits of one byte on the line: start bit, eight data bits, stop bit (R158). -/
def bitsPerByte : Nat := 10
/-- Bit times for which the receive line is held low in a break (R167). -/
def breakBits : Nat := 24
/-- The bit rate in bit/s that a strap code selects (R158). -/
def bitsPerSecond (code : BitVec 2) : Nat :=
  if code = 0#2 then 115200 else if code = 1#2 then 460800 else if code = 2#2 then 921600 else 1843200

/-- FREE VALUE (assumption 8). R2 divides T_sense by T_ref and states no ratio for a reference count of 0. The ratio computed
then is this function of T_sense, of which nothing is known. -/
opaque ratioAtZeroReference : Nat → Nat

end Sys2Proof.Config
end

