-- ==== Sys2Proof/Machine/State.lean ====
section
/-! DEFINITION. The state of the IS-1604: every record, collection, counter and mark the spec gives it, as plain data, and its
value after a power-on reset. Each field's docstring cites the rule that names it. -/

namespace Sys2Proof.Machine

/-! ### Vocabularies (00 "Status vocabularies"; codes in Machine/Codes.lean) -/

/-- Conversion and evaluation statuses (R9, R82, R98). -/
inductive Status where
  | ok | saturated | refStall | openLead | short | asymmetric | overRange | noCore | noTable | outOfTable
  deriving DecidableEq, Repr

/-- Command outcomes (R188). -/
inductive OutcomeCode where
  | ok | okAfterCurrent | unknownCommand | badTag | tagInUse | badLength | badField | notDefined | inUse | wrongState
  | noRoom | chainLoop | stepPoolFull | banksBusy | sessionOpen | noSession | tableIncomplete | tableOrder | checkFailed
  deriving DecidableEq, Repr

/-- REFA or REFB (R31). -/
inductive Reference where
  | refA | refB
  deriving DecidableEq, Repr

/-- DC or ALTERNATING (R31). -/
inductive Excitation where
  | dc | alternating
  deriving DecidableEq, Repr

/-- Alarm states (R32). -/
inductive AlarmState where
  | inactive | pending | normal | high | low | fault
  deriving DecidableEq, Repr

/-- Why a core entered OFFLINE (R23). -/
inductive OfflineReason where
  | stalls | command | check
  deriving DecidableEq, Repr

/-- Why a list entered IDLE (R58, R68, R69). -/
inductive FinishReason where
  | countReached | drained | aborted
  deriving DecidableEq, Repr

/-- Full policy of a list (R43). -/
inductive FullPolicy where
  | discard | hold
  deriving DecidableEq, Repr

/-- Core states (R3). -/
inductive CoreState where
  | idle | select | ref | sense | sensePos | senseNeg | discharge | hold | checkA | checkB | offline
  deriving DecidableEq, Repr

/-- List states (R44, R51). -/
inductive ListState where
  | empty | idle | armed | running | draining | aborting
  deriving DecidableEq, Repr

/-- Bank states (R107). -/
inductive BankState where
  | free | staging | active | retiring
  deriving DecidableEq, Repr

/-- Receiver states (R159). -/
inductive RxState where
  | hunt | length | body | check
  deriving DecidableEq, Repr

/-- Command unit states (R176). -/
inductive UnitState where
  | starting | taking | stopped
  deriving DecidableEq, Repr

/-! ### Work in progress -/

/-- The origin of a conversion (R3): a window entry, named by its list and step index (a step index appears at most once in a
window, R59), or one particular entry of the deferred-reply table, named by its `uid` (assumption 10). -/
inductive Origin where
  | entry (list : ListId) (step : Nat)
  | sample (uid : Nat)
  deriving DecidableEq, Repr

/-- A result as it reaches its origin (R61, R86). -/
structure Result where
  status : Status
  ratio : Option Nat
  value : Option Int
  deriving DecidableEq, Repr

/-- What a core decides (R9): a fault status with the ratio attached, or a valid ratio. -/
inductive ConvOutcome where
  | fault (status : Status) (ratio : Option Nat)
  | valid (ratio : Nat)
  deriving DecidableEq, Repr

/-- The conversion parameters a core copies at its grant (R3, R5). -/
structure Params where
  origin : Origin
  channel : ChannelId
  input : InputId
  reference : Reference
  excitation : Excitation
  /-- Gate exponent g, 4 to 12: a measurement counts 2^g periods (R31). -/
  gate : Nat
  /-- Units of 0.1 ms. -/
  settle : Nat
  /-- Milliseconds, 1 to 1000. -/
  phaseLimit : Nat
  /-- Units of 10 ms. -/
  rest : Nat
  deriving DecidableEq, Repr

/-- The measurement state of a core (R3); a part that is not there yet is `none`. -/
structure Measurement where
  tRef : Option Nat := none
  forward : Option Nat := none
  reverse : Option Nat := none
  tSense : Option Nat := none
  outcome : Option ConvOutcome := none
  deriving DecidableEq, Repr

/-- A result latch (R12) or an entry of the evaluation queue (R90). -/
structure RatioEntry where
  origin : Origin
  channel : ChannelId
  ratio : Nat
  deriving DecidableEq, Repr

/-- The core record (R3). -/
structure Core where
  state : CoreState
  /-- Consecutive-stall count, 0 to 3. -/
  stalls : Nat
  offlinePending : Bool
  claimed : Option InputId
  params : Option Params
  cancelled : Bool
  meas : Measurement
  latch : Option RatioEntry
  /-- The moment at which the timer of the running settle, phase, discharge or check started (R1, R5, R8, R10, R17). -/
  phaseStart : Nat
  /-- In CHECK_A and CHECK_B: absent while the periods are counted, then whether the check passed, while its discharge
  runs (R17). -/
  checkPassed : Option Bool
  deriving DecidableEq, Repr

/-- The record of an input (R26): the claiming core is present in CLAIMED and the rest end in RESTING only. -/
inductive InputRec where
  | free
  | claimed (core : CoreId)
  | resting (restEnd : Nat)
  deriving DecidableEq, Repr

/-! ### Channels -/

/-- Alarm limits (R31). -/
structure Limits where
  low : Int
  high : Int
  hysteresis : Nat
  deriving DecidableEq, Repr

/-- The configuration of a channel (R31). -/
structure ChannelConfig where
  input : InputId
  reference : Reference
  excitation : Excitation
  gate : Nat
  settle : Nat
  phaseLimit : Nat
  rest : Nat
  /-- `none` is NONE. -/
  table : Option TableId
  /-- Smoothing shift k, 0 to 7. -/
  shift : Nat
  includeRaw : Bool
  limits : Option Limits
  deriving DecidableEq, Repr

/-- The channel record (R31, R32): UNDEFINED is `config = none`. -/
structure Channel where
  config : Option ChannelConfig
  smoothed : Option Int
  alarm : AlarmState
  deriving DecidableEq, Repr

/-! ### Scan lists -/

/-- The trigger of a list with the field that goes with it (R43). -/
inductive Trigger where
  | continuous
  | periodic (period : Nat)
  | onCommand
  | chained (source : ListId)
  deriving DecidableEq, Repr

/-- The configuration of a list (R43). -/
structure ListConfig where
  trigger : Trigger
  /-- 0 means endless. -/
  cycles : Nat
  priority : Fin 4
  concurrency : Nat
  policy : FullPolicy
  steps : List ChannelId
  deriving DecidableEq, Repr

/-- The stage of a window entry (R59); the result is held in READY only. -/
inductive Stage where
  | waiting
  | converting
  | evaluating
  | ready (result : Result)
  deriving DecidableEq, Repr

/-- A window entry (R59). -/
structure Entry where
  step : Nat
  channel : ChannelId
  cycle : Num16
  stage : Stage
  deriving DecidableEq, Repr

/-- Cycles remaining (R44). -/
inductive Remaining where
  | count (n : Nat)
  | endless
  deriving DecidableEq, Repr

/-- A running period timer (R44, R55). -/
structure PeriodTimer where
  anchor : Nat
  next : Nat
  deriving DecidableEq, Repr

/-- The list record (R43, R44). -/
structure ListRec where
  config : Option ListConfig
  state : ListState
  cycle : Num16
  cursor : Nat
  window : List Entry
  startPending : Bool
  skipped : Nat
  remaining : Remaining
  seq : Num16
  outstanding : Nat
  timer : Option PeriodTimer
  deriving DecidableEq, Repr

/-! ### Arbiter, engine and tables -/

/-- The priority of a request (R74). -/
inductive Priority where
  | urgent
  | level (p : Fin 4)
  deriving DecidableEq, Repr

/-- A request of the pool (R74). -/
structure Request where
  origin : Origin
  channel : ChannelId
  input : InputId
  priority : Priority
  age : Nat
  deriving DecidableEq, Repr

/-- The progress of an evaluation (R91): the segment found, the accumulator and the saturated mark. -/
structure Progress where
  segment : Option Nat
  acc : Int
  saturated : Bool
  deriving DecidableEq, Repr

/-- The evaluation in progress (R91). -/
structure Evaluation where
  origin : Origin
  channel : ChannelId
  ratio : Nat
  table : Option TableId
  bank : Option BankId
  void : Bool
  progress : Progress
  deriving DecidableEq, Repr

/-- A segment (R107). -/
structure Segment where
  xHi : Nat
  degree : Nat
  c0 : Int
  c1 : Int
  c2 : Int
  c3 : Int
  deriving DecidableEq, Repr

/-- The bank record (R107): one place per index, so the segment count is the number of places. -/
structure Bank where
  state : BankState
  table : Option TableId
  places : List (Option Segment)
  held : Bool
  deriving DecidableEq, Repr

/-- An OPEN session (R110). -/
structure Session where
  table : TableId
  bank : BankId
  count : Nat
  /-- The received-set: each index at most once. -/
  received : List Nat
  /-- Expiry of the idle timer. -/
  expiry : Nat
  deriving DecidableEq, Repr

/-! ### Notices, records and the link -/

/-- The transmission fields of an alarm notice being sent (R131). -/
structure AlarmSending where
  carried : AlarmState
  late : Nat
  deriving DecidableEq, Repr

/-- An alarm notice (R131). -/
structure AlarmNotice where
  channel : ChannelId
  prior : AlarmState
  newState : AlarmState
  count : Nat
  value : Option Int
  list : ListId
  cycle : Num16
  sending : Option AlarmSending
  deriving DecidableEq, Repr

/-- A record (R145 to R147). The presence flags are those of the optional fields. -/
structure Record where
  list : ListId
  step : Nat
  channel : ChannelId
  status : Status
  endOfCycle : Bool
  runStart : Bool
  seq : Num16
  cycle : Num16
  value : Option Int
  smoothed : Option Int
  raw : Option Nat
  skipped : Option Nat
  deriving DecidableEq, Repr

/-- A part event with the fields of its kind (R172). -/
inductive PartEvent where
  | ready
  | coreOffline (core : CoreId) (reason : OfflineReason)
  | listFinished (list : ListId) (reason : FinishReason)
  | linkError
  | commandOverrun (tag : Byte)
  | sessionExpired
  | linkReset
  deriving DecidableEq, Repr

/-- Kind and subject of a part notice: the set holds at most one notice for each (R172). -/
inductive NoticeKey where
  | ready
  | coreOffline (core : CoreId)
  | listFinished (list : ListId)
  | linkError
  | commandOverrun
  | sessionExpired
  | linkReset
  deriving DecidableEq, Repr

/-- A part notice (R172): the latest event of its kind and subject, the count, and while it is being sent its late count
(R173). -/
structure PartNotice where
  event : PartEvent
  count : Nat
  late : Option Nat
  deriving DecidableEq, Repr

/-- A frame from the host as a command slot holds it (R164). -/
structure Frame where
  kind : Byte
  tag : Byte
  payload : List Byte
  deriving DecidableEq, Repr

/-- The link receiver without its slots (R159). The frame under assembly is `len`, `body` and `check`. -/
structure Receiver where
  state : RxState
  len : Nat
  body : List Byte
  check : List Byte
  crc : Num16
  /-- Expiry of the incompleteness timer; stopped is `none`. -/
  expiry : Option Nat
  deriving DecidableEq, Repr

/-- A queued reply (R171, R188). -/
structure Reply where
  tag : Byte
  kind : Byte
  outcome : OutcomeCode
  data : List Byte
  deriving DecidableEq, Repr

/-- What a deferred reply waits for (R182). -/
inductive DeferredSubject where
  | sample (channel : ChannelId)
  | restore (core : CoreId)
  deriving DecidableEq, Repr

/-- An entry of the deferred-reply table (R182); `uid` is the model's own name for this one entry (R3; assumption 10). -/
structure Deferred where
  uid : Nat
  tag : Byte
  subject : DeferredSubject
  deriving DecidableEq, Repr

/-- The kind of the frame being sent; a REPORT frame with its record count (R151). -/
inductive TxKind where
  | reply
  | alarm
  | notice
  | report (count : Nat)
  deriving DecidableEq, Repr

/-- The frame being sent with the position of its next byte (R169), which is the byte on the line until it ends (assumption 3). -/
structure TxFrame where
  kind : TxKind
  bytes : List Byte
  position : Nat
  deriving DecidableEq, Repr

/-- The kinds of item that the transmitter may choose (R170). -/
inductive ItemKind where
  | reply
  | alarm
  | notice
  | report
  deriving DecidableEq, Repr

/-! ### The whole part -/

/-- The state of the part. -/
structure State where
  /-- The timebase, in ticks of the 16 MHz measurement clock (assumption 6). -/
  now : Nat
  /-- The strap code read at the last reset (R158). -/
  bitRate : BitVec 2
  /-- CORE0 to CORE3 (R3). -/
  cores : Vector Core 4
  /-- The input matrix (R26). -/
  inputs : Vector InputRec 16
  /-- The channel table (R31, R32). -/
  channels : Vector Channel 32
  /-- The list records (R43, R44). -/
  lists : Vector ListRec 8
  /-- The request pool in order of arrival (R73). -/
  pool : List Request
  /-- The number that the next grant event takes (R80): arrivals of requests, cores that become IDLE and inputs that become FREE
  are numbered in the order in which they are taken, and a request's age is the number of its arrival (R74; assumption 9). -/
  nextEvent : Nat
  /-- The grant event at which each core became IDLE last (R80; assumption 9). -/
  idleSince : Vector Nat 4
  /-- The grant event at which each input became FREE last (R80; assumption 9). -/
  freeSince : Vector Nat 16
  /-- The evaluation queue, oldest first (R90). -/
  evalQueue : List RatioEntry
  /-- The cores in HOLD, oldest first (R93). -/
  holdOrder : List CoreId
  /-- The engine: FREE is `none` (R91). -/
  engine : Option Evaluation
  /-- The table banks (R107). -/
  banks : Vector Bank 9
  /-- The loading session: CLOSED is `none` (R110). -/
  session : Option Session
  /-- The alarm notice set, oldest first (R130). -/
  alarms : List AlarmNotice
  /-- The report queue, oldest first (R139). -/
  reports : List Record
  /-- The credit count (R149). -/
  credits : Nat
  /-- The blocked order, oldest first (R140). -/
  blocked : List ListId
  /-- The run-start marks (R140). -/
  runStart : Vector Bool 8
  /-- The link receiver (R159). -/
  rx : Receiver
  /-- The full command slots, oldest first (R164, R165). -/
  slots : List Frame
  /-- A break has been taken and the receive line has not returned high (R167, R168). -/
  lineLow : Bool
  /-- The command unit (R176). -/
  cmdUnit : UnitState
  /-- The deferred-reply table (R182). -/
  deferred : List Deferred
  /-- The `uid` the next deferred entry takes (assumption 10). -/
  nextUid : Nat
  /-- The reply queue, oldest first (R171). -/
  replies : List Reply
  /-- The part notice set, oldest first (R172). -/
  notices : List PartNotice
  /-- The transmitter: IDLE is `none` (R169). -/
  tx : Option TxFrame
  /-- The byte of a cut frame that the transmitter is still sending after a link reset; a frame that begins follows it (R168;
  assumption 16). -/
  cutByte : Option Byte
  /-- The item that the transmitter, IDLE, has chosen and whose frame has not begun yet (R170; assumption 29). -/
  choice : Option ItemKind
  /-- The commands that wait, first in, first out. -/
  pending : List Instr
  deriving DecidableEq, Repr

/-- Why a step could stop with a fault. The spec gives the part no such condition: it answers, counts or reports whatever
goes wrong, so this type has no constructor (INVENTORY.md, Faults). -/
inductive Fault
  deriving DecidableEq, Repr

/-- Why a step could have no meaning. -/
inductive Refusal where
  /-- Raised by an arm of `exec` whose row has no meaning yet (none has); the machine stops, which is safe. -/
  | notModelled (mnemonic : String)
  deriving DecidableEq, Repr

/-! ### After a power-on reset -/

/-- A core after a power-on reset (R3): it has entered CHECK_A. -/
def Core.afterReset : Core :=
  { state := .checkA, stalls := 0, offlinePending := false, claimed := none, params := none, cancelled := false,
    meas := {}, latch := none, phaseStart := 0, checkPassed := none }

/-- An UNDEFINED channel (R32, R38). -/
def Channel.undefined : Channel := { config := none, smoothed := none, alarm := .inactive }

/-- An EMPTY list (R44). -/
def ListRec.emptyList : ListRec :=
  { config := none, state := .empty, cycle := 0#16, cursor := 0, window := [], startPending := false, skipped := 0,
    remaining := .count 0, seq := 0#16, outstanding := 0, timer := none }

/-- A FREE bank (R107). -/
def Bank.freeBank : Bank := { state := .free, table := none, places := [], held := false }

/-- The receiver after a reset (R159). -/
def Receiver.afterReset : Receiver :=
  { state := .hunt, len := 0, body := [], check := [], crc := Config.crcInitial, expiry := none }

/-- The part right after a power-on reset: the "After power-on reset and RESET_PART" columns of R3, R26, R32, R44, R107,
R110, R140, R159 and the rules R73, R90, R91, R104, R130, R139, R169, R171, R172, R176. The strap code, the clock and the
model's own counters are chosen (assumptions 12, 13, 14). -/
def State.reset : State :=
  { now := 0
    bitRate := 0#2
    cores := Vector.replicate 4 Core.afterReset
    inputs := Vector.replicate 16 InputRec.free
    channels := Vector.replicate 32 Channel.undefined
    lists := Vector.replicate 8 ListRec.emptyList
    pool := []
    nextEvent := 0
    idleSince := Vector.replicate 4 0
    freeSince := Vector.replicate 16 0
    evalQueue := []
    holdOrder := []
    engine := none
    banks := Vector.replicate 9 Bank.freeBank
    session := none
    alarms := []
    reports := []
    credits := 0
    blocked := []
    runStart := Vector.replicate 8 false
    rx := Receiver.afterReset
    slots := []
    lineLow := false
    cmdUnit := .starting
    deferred := []
    nextUid := 0
    replies := []
    notices := []
    tx := none
    cutByte := none
    choice := none
    pending := [] }

end Sys2Proof.Machine
end

