-- ==== Sys2Proof/Machine/Codes.lean ====
section
/-! DEFINITION. The codes of the message catalogue (R187, R188), in both directions where a payload carries them in. -/

namespace Sys2Proof.Machine

/-- Status codes (R188). -/
def Status.code : Status → Byte
  | .ok => 0 | .saturated => 1 | .refStall => 2 | .openLead => 3 | .short => 4 | .asymmetric => 5 | .overRange => 6
  | .noCore => 7 | .noTable => 8 | .outOfTable => 9

/-- Outcome codes (R188). -/
def OutcomeCode.code : OutcomeCode → Byte
  | .ok => 0x00 | .okAfterCurrent => 0x01 | .unknownCommand => 0x10 | .badTag => 0x11 | .tagInUse => 0x12
  | .badLength => 0x13 | .badField => 0x14 | .notDefined => 0x20 | .inUse => 0x21 | .wrongState => 0x22
  | .noRoom => 0x23 | .chainLoop => 0x24 | .stepPoolFull => 0x25 | .banksBusy => 0x26 | .sessionOpen => 0x27
  | .noSession => 0x28 | .tableIncomplete => 0x29 | .tableOrder => 0x2A | .checkFailed => 0x2B

/-- Reference codes (R188). -/
def Reference.code : Reference → Byte
  | .refA => 0 | .refB => 1

/-- Excitation codes (R188). -/
def Excitation.code : Excitation → Byte
  | .dc => 0 | .alternating => 1

/-- Alarm state codes (R188). -/
def AlarmState.code : AlarmState → Byte
  | .inactive => 0 | .pending => 1 | .normal => 2 | .high => 3 | .low => 4 | .fault => 5

/-- Offline reason codes (R188). -/
def OfflineReason.code : OfflineReason → Byte
  | .stalls => 1 | .command => 2 | .check => 3

/-- Finishing reason codes (R188). -/
def FinishReason.code : FinishReason → Byte
  | .countReached => 1 | .drained => 2 | .aborted => 3

/-- Full policy codes (R188). -/
def FullPolicy.code : FullPolicy → Byte
  | .discard => 0 | .hold => 1

/-- Core state codes (R188). -/
def CoreState.code : CoreState → Byte
  | .idle => 0 | .select => 1 | .ref => 2 | .sense => 3 | .sensePos => 4 | .senseNeg => 5 | .discharge => 6 | .hold => 7
  | .checkA => 8 | .checkB => 9 | .offline => 10

/-- List state codes (R188). -/
def ListState.code : ListState → Byte
  | .empty => 0 | .idle => 1 | .armed => 2 | .running => 3 | .draining => 4 | .aborting => 5

/-- Bank state codes (R188). -/
def BankState.code : BankState → Byte
  | .free => 0 | .staging => 1 | .active => 2 | .retiring => 3

/-- Window stage codes (R188). -/
def Stage.code : Stage → Byte
  | .waiting => 0 | .converting => 1 | .evaluating => 2 | .ready _ => 3

/-- Trigger codes (R188). -/
def Trigger.code : Trigger → Byte
  | .continuous => 0 | .periodic _ => 1 | .onCommand => 2 | .chained _ => 3

/-- no 0, yes 1 (R188). -/
def boolCode (b : Bool) : Byte := if b then 1 else 0

/-- Table codes: T0 to T7 as 0 to 7, NONE as 0FFh (R188). -/
def tableCode : Option TableId → Byte
  | none => 0xFF
  | some t => BitVec.ofNat 8 t.val

/-- Notice kind codes (R188). -/
def NoticeKey.kindCode : NoticeKey → Byte
  | .ready => 1 | .coreOffline _ => 2 | .listFinished _ => 3 | .linkError => 4 | .commandOverrun => 5
  | .sessionExpired => 6 | .linkReset => 7

/-- The subject byte of a NOTICE payload (R193). -/
def NoticeKey.subjectCode : NoticeKey → Byte
  | .coreOffline c => BitVec.ofNat 8 c.val
  | .listFinished l => BitVec.ofNat 8 l.val
  | _ => 0

/-- The detail byte of a NOTICE payload (R193). -/
def PartEvent.detailCode : PartEvent → Byte
  | .coreOffline _ r => r.code
  | .listFinished _ r => r.code
  | .commandOverrun t => t
  | _ => 0

/-! ### Kind codes (R187) -/

def kindIdentify : Byte := 0x01
def kindGetStatus : Byte := 0x02
def kindResetPart : Byte := 0x03
def kindGrantCredits : Byte := 0x04
def kindSetChannel : Byte := 0x08
def kindGetChannel : Byte := 0x09
def kindClearChannel : Byte := 0x0A
def kindSample : Byte := 0x0B
def kindSetList : Byte := 0x10
def kindGetList : Byte := 0x11
def kindClearList : Byte := 0x12
def kindStartList : Byte := 0x13
def kindStopList : Byte := 0x14
def kindTriggerList : Byte := 0x15
def kindBeginTable : Byte := 0x18
def kindLoadSegments : Byte := 0x19
def kindCommitTable : Byte := 0x1A
def kindAbandonTable : Byte := 0x1B
def kindDropTable : Byte := 0x1C
def kindGetTable : Byte := 0x1D
def kindTakeCoreOffline : Byte := 0x1E
def kindRestoreCore : Byte := 0x1F
def kindReply : Byte := 0x80
def kindReport : Byte := 0x81
def kindAlarm : Byte := 0x82
def kindNotice : Byte := 0x83

/-- The command kinds, host to part (R187). -/
def commandKinds : List Byte :=
  [kindIdentify, kindGetStatus, kindResetPart, kindGrantCredits, kindSetChannel, kindGetChannel, kindClearChannel,
   kindSample, kindSetList, kindGetList, kindClearList, kindStartList, kindStopList, kindTriggerList, kindBeginTable,
   kindLoadSegments, kindCommitTable, kindAbandonTable, kindDropTable, kindGetTable, kindTakeCoreOffline, kindRestoreCore]

/-- The kinds the part sends, which the receiver discards as link errors (R161, R187). -/
def partKinds : List Byte := [kindReply, kindReport, kindAlarm, kindNotice]

end Sys2Proof.Machine
end

