-- ==== Sys2Proof/Machine/Flags.lean ====
section
/-! DEFINITION. The flag bytes of the message catalogue: the flags of a record (R147, R191) and the presence byte of a SAMPLE
reply (10.5). -/

namespace Sys2Proof.Machine

/-- One flag at its bit. -/
def flagBit (b : Bool) (n : Nat) : Byte := if b then BitVec.ofNat 8 (2 ^ n) else 0

/-- The flags byte of a record: bit 0 end of cycle, 1 run start, 2 value, 3 smoothed, 4 raw, 5 skipped; 6 and 7 are sent
as 0 (R191). -/
def Record.flags (r : Record) : Byte :=
  flagBit r.endOfCycle 0 ||| flagBit r.runStart 1 ||| flagBit r.value.isSome 2 ||| flagBit r.smoothed.isSome 3 |||
    flagBit r.raw.isSome 4 ||| flagBit r.skipped.isSome 5

/-- The presence byte of a SAMPLE reply: bit 0 the ratio, bit 1 the value (10.5). -/
def Result.presence (r : Result) : Byte := flagBit r.ratio.isSome 0 ||| flagBit r.value.isSome 1

end Sys2Proof.Machine
end

