-- ==== Sys2Proof/Machine/Wire.lean ====
section
/-! DEFINITION. Bytes on the host link: their bits on the line (R158), byte order (00 "Byte order"), the frame check (R161), the
frame layout (R187) and the payloads the part sends (10.5, R184, R185, R188 to R193). -/

namespace Sys2Proof.Machine

/-! ### A byte on the line (R158) -/

/-- The idle level of both lines is high. -/
def idleLevel : Bool := true

/-- The levels of a byte on a line, one for each bit time: the start bit low, the eight data bits, least significant bit first,
the stop bit high. There is no parity bit. -/
def byteLevels (b : Byte) : List Bool := false :: (List.range 8).map b.getLsbD ++ [true]

/-- The number that bits spell, least significant bit first. -/
def bitsValue : List Bool → Nat
  | [] => 0
  | b :: bs => b.toNat + 2 * bitsValue bs

/-- The byte that the levels spell which the receiver samples in the middle of each bit, from the start bit on; a stop bit
sampled low is a framing error, and no byte (R163). -/
def byteOfLevels (levels : List Bool) : Option Byte :=
  if levels[Config.bitsPerByte - 1]? = some true then
    some (BitVec.ofNat 8 (bitsValue ((levels.drop 1).take 8)))
  else none

/-! ### Byte order -/

/-- A natural number in `n` bytes, least significant byte first. -/
def leBytes : Nat → Nat → List Byte
  | 0, _ => []
  | n + 1, v => BitVec.ofNat 8 v :: leBytes n (v / 256)

/-- The number that bytes spell, least significant byte first. -/
def leValue : List Byte → Nat
  | [] => 0
  | b :: bs => b.toNat + 256 * leValue bs

/-- A signed 32-bit field as four bytes, two's complement. -/
def int32Bytes (v : Int) : List Byte := leBytes 4 (v % 4294967296).toNat

/-- The two's complement reading of a 32-bit field. -/
def signed32 (n : Nat) : Int := if n < 2147483648 then (n : Int) else (n : Int) - 4294967296

/-- A number as one byte. -/
def byte (n : Nat) : Byte := BitVec.ofNat 8 n

/-! ### The frame check (R161) -/

/-- One bit of a byte enters the running check. -/
def crcBit (crc : Num16) (bit : Bool) : Num16 :=
  if crc.msb != bit then (crc <<< 1) ^^^ Config.crcPolynomial else crc <<< 1

/-- The `n` low bits of a byte enter, the most significant first. -/
def crcBits : Nat → Num16 → Byte → Num16
  | 0, crc, _ => crc
  | n + 1, crc, b => crcBits n (crcBit crc (b.getLsbD n)) b

/-- A byte enters the running check, most significant bit first. -/
def crcByte (crc : Num16) (b : Byte) : Num16 := crcBits 8 crc b

/-- Bytes enter the running check in the order sent. -/
def crcBytes (crc : Num16) (bs : List Byte) : Num16 := bs.foldl crcByte crc

/-! ### Frames (R187) -/

/-- The bytes of a frame: start, LEN, kind, tag, payload, check low byte first. LEN counts kind, tag and payload. -/
def frameBytes (kind tag : Byte) (payload : List Byte) : List Byte :=
  let covered := byte (payload.length + 2) :: kind :: tag :: payload
  0x5A#8 :: covered ++ leBytes 2 (crcBytes Config.crcInitial covered).toNat

/-! ### Replies (R188) -/

/-- A REPLY payload: kind code, outcome code, data. -/
def Reply.payload (r : Reply) : List Byte := r.kind :: r.outcome.code :: r.data

/-- The reply data of a completed SAMPLE: channel, status, presence, ratio, value; an absent field is sent as 0 (10.5). -/
def sampleData (ch : ChannelId) (r : Result) : List Byte :=
  [byte ch.val, r.status.code, r.presence] ++ leBytes 3 (r.ratio.getD 0) ++ int32Bytes (r.value.getD 0)

/-- The 25 bytes of a channel configuration (R189); absent limits are reported as 0 (10.5). -/
def channelBytes (ch : ChannelId) (c : ChannelConfig) : List Byte :=
  [byte ch.val, byte c.input.val, c.reference.code, c.excitation.code, byte c.gate, byte c.settle] ++
    leBytes 2 c.phaseLimit ++ [byte c.rest, tableCode c.table, byte c.shift, boolCode c.includeRaw,
      boolCode c.limits.isSome] ++
    match c.limits with
    | none => List.replicate 12 0
    | some l => int32Bytes l.low ++ int32Bytes l.high ++ leBytes 4 l.hysteresis

/-- The reply data of GET_CHANNEL: the 25 bytes, smoothed present, smoothed, alarm state, use count (10.5). -/
def channelData (ch : ChannelId) (c : ChannelConfig) (k : Channel) (useCount : Nat) : List Byte :=
  channelBytes ch c ++ [boolCode k.smoothed.isSome] ++ int32Bytes (k.smoothed.getD 0) ++ [k.alarm.code, byte useCount]

/-- The source byte of a list payload; 0 where none is stored (10.5). -/
def Trigger.sourceByte : Trigger → Byte
  | .chained s => byte s.val
  | _ => 0

/-- The period of a list payload; 0 where none is stored (10.5). -/
def Trigger.periodField : Trigger → Nat
  | .periodic p => p
  | _ => 0

/-- The SET_LIST payload of a configuration (R190). -/
def listBytes (l : ListId) (c : ListConfig) : List Byte :=
  [byte l.val, c.trigger.code, c.trigger.sourceByte] ++ leBytes 2 c.trigger.periodField ++ leBytes 2 c.cycles ++
    [byte c.priority.val, byte c.concurrency, c.policy.code, byte c.steps.length] ++ c.steps.map (fun ch => byte ch.val)

/-- The status byte of a window entry: 0 unless READY (10.5). -/
def Stage.statusByte : Stage → Byte
  | .ready r => r.status.code
  | _ => 0

/-- One window entry of a GET_LIST reply: step, channel, cycle, stage, status (10.5). -/
def Entry.bytes (e : Entry) : List Byte :=
  [byte e.step, byte e.channel.val] ++ leBytes 2 e.cycle.toNat ++ [e.stage.code, e.stage.statusByte]

/-- The cycles remaining field: 0 when endless (10.5). -/
def Remaining.field : Remaining → Nat
  | .count n => n
  | .endless => 0

/-- Whether cycles remaining is endless. -/
def Remaining.isEndless : Remaining → Bool
  | .endless => true
  | .count _ => false

/-- The reply data of GET_LIST (R50, 10.5). -/
def listData (l : ListId) (c : ListConfig) (r : ListRec) : List Byte :=
  listBytes l c ++ [r.state.code] ++ leBytes 2 r.cycle.toNat ++
    [byte r.cursor, boolCode r.startPending, byte r.skipped] ++ leBytes 2 r.remaining.field ++
    [boolCode r.remaining.isEndless] ++ leBytes 2 r.seq.toNat ++ [byte r.outstanding, byte r.window.length] ++
    r.window.flatMap Entry.bytes

/-- A segment in 20 bytes: x_hi, degree, c0 to c3 (R190). -/
def Segment.bytes (g : Segment) : List Byte :=
  leBytes 3 g.xHi ++ [byte g.degree] ++ int32Bytes g.c0 ++ int32Bytes g.c1 ++ int32Bytes g.c2 ++ int32Bytes g.c3

/-- The reply data of IDENTIFY (R184). -/
def identifyData (bitRate : BitVec 2) : List Byte :=
  [0x2E] ++ leBytes 2 0x1604 ++ [0x01, byte bitRate.toNat, 16, 4, 32, 8, 96, 8, 9, 16, 64, 8, 6, 4, 4]

/-- The two bytes of a bank in GET_STATUS: state code and table id, 0 when FREE (R185). -/
def Bank.statusBytes (b : Bank) : List Byte :=
  [b.state.code, match b.table with | none => 0 | some t => byte t.val]

/-- The five bytes of the session in GET_STATUS (R185). -/
def sessionBytes : Option Session → List Byte
  | none => [0, 0, 0, 0, 0]
  | some s => [1, byte s.table.val, byte s.bank.val, byte s.count, byte s.received.length]

/-! ### REPORT, ALARM and NOTICE payloads -/

/-- A record: the fixed part of 9 bytes and the optional fields present, in order (R191). -/
def Record.bytes (r : Record) : List Byte :=
  [byte r.list.val, byte r.step, byte r.channel.val, r.status.code, r.flags] ++ leBytes 2 r.seq.toNat ++
    leBytes 2 r.cycle.toNat ++
    (match r.value with | some v => int32Bytes v | none => []) ++
    (match r.smoothed with | some v => int32Bytes v | none => []) ++
    (match r.raw with | some v => leBytes 3 v | none => []) ++
    (match r.skipped with | some v => [byte v] | none => [])

/-- A REPORT payload: the count and the records in queue order (R191). -/
def reportPayload (rs : List Record) : List Byte := byte rs.length :: rs.flatMap Record.bytes

/-- An alarm notice in an ALARM frame: 7 bytes, and the value unless the new state is FAULT (R192). -/
def AlarmNotice.bytes (n : AlarmNotice) : List Byte :=
  [byte n.channel.val, n.prior.code, n.newState.code, byte n.count, byte n.list.val] ++ leBytes 2 n.cycle.toNat ++
    (match n.value with | some v => int32Bytes v | none => [])

/-- An ALARM payload (R192). -/
def alarmPayload (ns : List AlarmNotice) : List Byte := byte ns.length :: ns.flatMap AlarmNotice.bytes

/-- Kind and subject of an event (R172). -/
def PartEvent.key : PartEvent → NoticeKey
  | .ready => .ready
  | .coreOffline c _ => .coreOffline c
  | .listFinished l _ => .listFinished l
  | .linkError => .linkError
  | .commandOverrun _ => .commandOverrun
  | .sessionExpired => .sessionExpired
  | .linkReset => .linkReset

/-- A NOTICE payload: kind, subject, count, detail (R193). -/
def PartNotice.payload (n : PartNotice) : List Byte :=
  [n.event.key.kindCode, n.event.key.subjectCode, byte n.count, n.event.detailCode]

end Sys2Proof.Machine
end

