-- ==== Sys2Proof/Machine/Ops.lean ====
section
/-! DEFINITION. The named operations that the blocks share: access to the numbered records, the timebase, the ring of cores,
part notices, the delivery of results to their origins, and the transitions of a core. -/

namespace Sys2Proof.Machine

/-! ### The numbered records -/

/-- The record of a core. -/
def State.core (s : State) (c : CoreId) : Core := s.cores.get c
/-- Write the record of a core. -/
def State.setCore (s : State) (c : CoreId) (x : Core) : State := { s with cores := s.cores.set c x }
/-- The record of an input. -/
def State.input (s : State) (i : InputId) : InputRec := s.inputs.get i
/-- Write the record of an input. -/
def State.setInput (s : State) (i : InputId) (x : InputRec) : State := { s with inputs := s.inputs.set i x }
/-- The record of a channel. -/
def State.channel (s : State) (ch : ChannelId) : Channel := s.channels.get ch
/-- Write the record of a channel. -/
def State.setChannel (s : State) (ch : ChannelId) (x : Channel) : State := { s with channels := s.channels.set ch x }
/-- The record of a list. -/
def State.list (s : State) (l : ListId) : ListRec := s.lists.get l
/-- Write the record of a list. -/
def State.setList (s : State) (l : ListId) (x : ListRec) : State := { s with lists := s.lists.set l x }
/-- The record of a bank. -/
def State.bank (s : State) (b : BankId) : Bank := s.banks.get b
/-- Write the record of a bank. -/
def State.setBank (s : State) (b : BankId) (x : Bank) : State := { s with banks := s.banks.set b x }
/-- The run-start mark of a list. -/
def State.runMark (s : State) (l : ListId) : Bool := s.runStart.get l
/-- Write the run-start mark of a list. -/
def State.setRunMark (s : State) (l : ListId) (b : Bool) : State := { s with runStart := s.runStart.set l b }

/-! ### Timebase (assumption 6) -/

/-- An event that falls at the moment `t` is taken: the clock is then at `t`, or later if it already was. -/
def State.advanceTo (t : Nat) (s : State) : State := { s with now := max s.now t }

/-! ### The ring of cores (R25) -/

/-- The primary core of an input: core q for quad q. -/
def primaryCore (i : InputId) : CoreId := ⟨i.val / 4, by omega⟩

/-- The secondary core of an input: core (q+3) mod 4 for quad q. -/
def secondaryCore (i : InputId) : CoreId := ⟨(i.val / 4 + 3) % 4, by omega⟩

/-- The core can reach the input. -/
def serves (c : CoreId) (i : InputId) : Bool := decide (c = primaryCore i) || decide (c = secondaryCore i)

/-- Offline is OFFLINE, CHECK_A and CHECK_B; health is not stored (R4). -/
def CoreState.isOffline : CoreState → Bool
  | .offline | .checkA | .checkB => true
  | _ => false

/-- Both serving cores of the input are offline (R82). -/
def State.unreachable (s : State) (i : InputId) : Bool :=
  (s.core (primaryCore i)).state.isOffline && (s.core (secondaryCore i)).state.isOffline

/-! ### The byte on the transmit line (R168, R169) -/

/-- The byte that the transmitter is sending: the last one of a frame that a link reset has cut, until it ends, and else one of
the frame being sent, which follows it on the line (R168; assumption 16). DESIGN CHOICE (assumption 3): "the position of its
next byte" (R169) and "the byte it is sending" (R168) are one place; the byte at `position`, which is 0 at the frame's
beginning, is the one on the line until it ends. -/
def State.byteSending (s : State) : Option Byte :=
  match s.cutByte with
  | some b => some b
  | none => s.tx.bind (fun f => f.bytes[f.position]?)

/-! ### Part notices (R172) -/

/-- The count of a notice one higher; it stays at 255. -/
def saturate (n : Nat) : Nat := min Config.saturation (n + 1)

/-- An event meets the set: the notice of its kind and subject is updated in its place, and if there is none one joins the
tail with count 1. A notice being sent counts the event as late too (R173). -/
def raiseIn (e : PartEvent) : List PartNotice → List PartNotice
  | [] => [{ event := e, count := 1, late := none }]
  | n :: ns =>
    if n.event.key = e.key then { event := e, count := saturate n.count, late := n.late.map saturate } :: ns
    else n :: raiseIn e ns

/-- A part event is raised. -/
def State.raise (e : PartEvent) (s : State) : State := { s with notices := raiseIn e s.notices }

/-! ### Use of channels and step places, computed (assumption 15) -/

/-- The steps of a list; an EMPTY list has none. -/
def ListRec.steps (r : ListRec) : List ChannelId :=
  match r.config with
  | none => []
  | some c => c.steps

/-- The use count of a channel: steps of all defined lists that name it, plus SAMPLE entries that name it (R34). -/
def State.useCount (s : State) (ch : ChannelId) : Nat :=
  ((List.finRange 8).map (fun l => (s.list l).steps.count ch)).sum +
    s.deferred.countP (fun d => decide (d.subject = .sample ch))

/-- A list that is neither EMPTY nor IDLE (R36). -/
def ListState.isActive : ListState → Bool
  | .armed | .running | .draining | .aborting => true
  | .empty | .idle => false

/-- The channel is in active use (R36). -/
def State.activeUse (s : State) (ch : ChannelId) : Bool :=
  (List.finRange 8).any (fun l => (s.list l).state.isActive && (s.list l).steps.contains ch) ||
    s.deferred.any (fun d => decide (d.subject = .sample ch))

/-- The places of the step pool in use (R45). -/
def State.stepPlacesInUse (s : State) : Nat := ((List.finRange 8).map (fun l => (s.list l).steps.length)).sum

/-! ### Results reach their origins (R61, R86) -/

/-- The entry of a step index takes a stage. -/
def setStage (step : Nat) (st : Stage) (w : List Entry) : List Entry :=
  w.map (fun e => if e.step = step then { e with stage := st } else e)

/-- The window entry an origin names takes a stage; a SAMPLE origin has none (R79). -/
def State.setOriginStage (o : Origin) (st : Stage) (s : State) : State :=
  match o with
  | .entry l k => s.setList l { s.list l with window := setStage k st (s.list l).window }
  | .sample _ => s

/-- The deferred SAMPLE entry of a `uid` is still in the table. -/
def State.findSample (s : State) (u : Nat) : Option (Deferred × ChannelId) :=
  s.deferred.findSome? (fun d => match d.subject with
    | .sample ch => if d.uid = u then some (d, ch) else none
    | .restore _ => none)

/-- The origin exists: a window entry does until it is cancelled or voided, a SAMPLE while its own entry is in the table
(R3, R11, R101). -/
def State.originExists (s : State) : Origin → Bool
  | .entry _ _ => true
  | .sample u => (s.findSample u).isSome

/-- A SAMPLE completes: its reply joins the reply queue and its entry is removed; with no entry the result is discarded
(R86, R101). -/
def State.completeSample (u : Nat) (r : Result) (s : State) : State :=
  match s.findSample u with
  | none => s
  | some (d, ch) =>
    { s with
      replies := s.replies ++ [{ tag := d.tag, kind := kindSample, outcome := .ok, data := sampleData ch r }]
      deferred := s.deferred.filter (fun x => decide (x.uid ≠ u)) }

/-- A result reaches its origin: a window entry becomes READY, a SAMPLE completes. -/
def State.deliver (o : Origin) (r : Result) (s : State) : State :=
  match o with
  | .entry l k => s.setOriginStage (.entry l k) (.ready r)
  | .sample u => s.completeSample u r

/-- The result of a request no core can serve (R82). -/
def noCoreResult : Result := { status := .noCore, ratio := none, value := none }

/-- A list learns that cancelled or void work of its own has ended (R70). -/
def State.outstandingDone (o : Origin) (s : State) : State :=
  match o with
  | .entry l _ => s.setList l { s.list l with outstanding := (s.list l).outstanding - 1 }
  | .sample _ => s

/-! ### The request pool (R73 to R75, R82, R83) -/

/-- A grant event has been taken, with a pass of its own: what comes after it belongs to later ones (R80, R81;
assumption 9). -/
def State.newGrantEvent (s : State) : State := { s with nextEvent := s.nextEvent + 1 }

/-- A core enters IDLE, in the grant event that is being taken (R80). -/
def State.enterIdle (c : CoreId) (s : State) : State :=
  { s.setCore c { s.core c with state := .idle } with idleSince := s.idleSince.set c s.nextEvent }

/-- An input becomes FREE, in the grant event that is being taken (R80). -/
def State.freeInput (i : InputId) (s : State) : State :=
  { s.setInput i .free with freeSince := s.freeSince.set i s.nextEvent }

/-- A request arrives, which is a grant event: with both serving cores offline it completes with NO_CORE, else it waits in the
pool (R75, R80, R82). -/
def State.arrive (o : Origin) (ch : ChannelId) (i : InputId) (p : Priority) (s : State) : State :=
  let s1 := s.newGrantEvent
  if s1.unreachable i then s1.deliver o noCoreResult
  else { s1 with pool := s1.pool ++ [{ origin := o, channel := ch, input := i, priority := p, age := s.nextEvent }] }

/-- The request meets the test of R83 when core `c` has become offline. -/
def State.lostRequest (s : State) (c : CoreId) (r : Request) : Bool := serves c r.input && s.unreachable r.input

/-- A core has become offline: each request that it served and whose other core is offline too completes with NO_CORE, oldest
first (R83). -/
def State.noCoreSweep (c : CoreId) (s : State) : State :=
  (s.pool.filter (s.lostRequest c)).foldl (fun t r => t.deliver r.origin noCoreResult)
    { s with pool := s.pool.filter (fun r => !s.lostRequest c r) }

/-! ### Transitions of a core -/

/-- A core enters OFFLINE from an ONLINE state: its mark is cleared, the notice raised and the pool swept (R14, R19, R20,
R83). -/
def State.enterOffline (c : CoreId) (why : OfflineReason) (s : State) : State :=
  ((s.setCore c { s.core c with state := .offline, offlinePending := false }).raise (.coreOffline c why)).noCoreSweep c

/-- The next state after a conversion: OFFLINE at three stalls or under the mark, else IDLE (R11, R14, R20). -/
def State.settleCore (c : CoreId) (s : State) : State :=
  if (s.core c).stalls = Config.stallLimit then s.enterOffline c .stalls
  else if (s.core c).offlinePending then s.enterOffline c .command
  else s.enterIdle c

/-- A core leaves HOLD: its latch is gone, it leaves the HOLD order and enters IDLE, which is a grant event, or OFFLINE under
the mark, which is none (R12, R80, R93). Where one row frees several cores, each has its own event, and R81 leaves open whose
is taken first: here the lowest core's (DESIGN CHOICE, assumption 26). -/
def State.leaveHold (c : CoreId) (s : State) : State :=
  let s1 := { s.setCore c { s.core c with latch := none } with holdOrder := s.holdOrder.erase c }
  if (s1.core c).offlinePending then s1.enterOffline c .command
  else (s1.enterIdle c).newGrantEvent

/-- The input is released: it rests for the copied rest, or is FREE at once with a rest of 0 (R10, R28). -/
def State.releaseInput (i : InputId) (rest : Nat) (s : State) : State :=
  if rest = 0 then s.freeInput i else s.setInput i (.resting (s.now + rest * Config.restUnit))

/-- A ratio joins the evaluation queue at its tail; its window entry becomes EVALUATING (R92, R93). -/
def State.joinQueue (e : RatioEntry) (s : State) : State :=
  { s with evalQueue := s.evalQueue ++ [e] }.setOriginStage e.origin .evaluating

/-! ### Banks (R108, R114, R117) -/

/-- An ACTIVE bank leaves ACTIVE: RETIRING while it is held, else FREE with its contents removed. -/
def Bank.outOfService (b : Bank) : Bank := if b.held then { b with state := .retiring } else Bank.freeBank

/-- The engine drops its reference: a RETIRING bank becomes FREE, an ACTIVE one stays. -/
def Bank.dropReference (b : Bank) : Bank :=
  if b.state = .retiring then Bank.freeBank else { b with held := false }

/-- The bank that is ACTIVE for a table id. -/
def State.activeBank (s : State) (t : TableId) : Option BankId :=
  (List.finRange 9).find? (fun b => decide ((s.bank b).state = .active) && decide ((s.bank b).table = some t))

/-- The FREE bank with the lowest number. -/
def State.lowestFreeBank (s : State) : Option BankId :=
  (List.finRange 9).find? (fun b => decide ((s.bank b).state = .free))

/-- The session is closed and its staging bank is FREE (R115, R116, R119). -/
def State.abandonSession (s : State) : State :=
  match s.session with
  | none => s
  | some ss => { s.setBank ss.bank Bank.freeBank with session := none }

end Sys2Proof.Machine
end

