-- ==== Sys2Proof/Machine/Arbiter.lean ====
section
/-! DEFINITION. The conversion arbiter's grant (04) and the end of a rest (02). -/

namespace Sys2Proof.Machine

/-- The core is ONLINE and in IDLE. -/
def State.coreIdle (s : State) (c : CoreId) : Bool := decide ((s.core c).state = .idle)

/-- A request is eligible: its input is FREE, one of its serving cores is IDLE, and its channel has the configuration that the
core is to copy (R76). -/
def State.eligible (s : State) (r : Request) : Bool :=
  decide (s.input r.input = .free) && (s.coreIdle (primaryCore r.input) || s.coreIdle (secondaryCore r.input)) &&
    (s.channel r.channel).config.isSome

/-- URGENT ranks first, then 0 to 3 (R74). -/
def Priority.rank : Priority → Nat
  | .urgent => 0
  | .level p => p.val + 1

/-- The first by priority, and the older among equal priorities; the list is in order of arrival (R77). -/
def firstByRank : List Request → Option Request
  | [] => none
  | r :: rest =>
    match firstByRank rest with
    | none => some r
    | some q => if q.priority.rank < r.priority.rank then some q else some r

/-- The core has been IDLE since grant event `n` or an earlier one. -/
def State.idleBy (s : State) (n : Nat) (c : CoreId) : Bool := s.coreIdle c && decide (s.idleSince.get c ≤ n)

/-- The pass of grant event `n` finds the request eligible: it is eligible, and its arrival, the release of its input and the
freeing of one of its IDLE cores are grant events up to `n` (R76, R80, R81; assumption 9). -/
def State.eligibleAt (s : State) (n : Nat) (r : Request) : Bool :=
  s.eligible r && decide (max r.age (s.freeSince.get r.input) ≤ n) &&
    (s.idleBy n (primaryCore r.input) || s.idleBy n (secondaryCore r.input))

/-- For each IDLE core of the request, the first grant event whose pass can grant it that core: the last of its arrival, the
release of its input and the freeing of the core. -/
def State.eventsOf (s : State) (r : Request) : List Nat :=
  ([primaryCore r.input, secondaryCore r.input].filter s.coreIdle).map
    (fun c => max (max r.age (s.freeSince.get r.input)) (s.idleSince.get c))

/-- The first grant event whose pass has a request to grant: every event has its own pass, and they are made in the order of
the events (R75, R80, R81). -/
def State.firstPass (s : State) : Option Nat := ((s.pool.filter s.eligible).flatMap s.eventsOf).min?

/-- The grant that is made next: in the first pass that has one, the request that stands first there, and its pass (R77). -/
def State.nextGrant (s : State) : Option (Nat × Request) :=
  match s.firstPass with
  | none => none
  | some n => (firstByRank (s.pool.filter (s.eligibleAt n))).map (fun r => (n, r))

/-- The core that the pass of event `n` grants a request: the primary if it is IDLE by then, else the secondary (R78). -/
def State.chosenCore (s : State) (n : Nat) (r : Request) : CoreId :=
  if s.idleBy n (primaryCore r.input) then primaryCore r.input else secondaryCore r.input

/-- The conversion parameters a core copies from the channel record (R5). -/
def paramsFor (r : Request) (c : ChannelConfig) : Params :=
  { origin := r.origin, channel := r.channel, input := r.input, reference := c.reference, excitation := c.excitation,
    gate := c.gate, settle := c.settle, phaseLimit := c.phaseLimit, rest := c.rest }

/-- A core accepts a grant: parameters, claimed input, cleared mark and measurement state, SELECT (R5). -/
def Core.granted (k : Core) (p : Params) (now : Nat) : Core :=
  { k with state := .select, claimed := some p.input, params := some p, cancelled := false, meas := {},
           phaseStart := now }

/-- The effects of a grant: the input is claimed, the core enters SELECT, the origin learns of it (R79). -/
def State.grantTo (r : Request) (c : CoreId) (s : State) : State :=
  match (s.channel r.channel).config with
  | none => s
  | some cfg =>
    let s1 := { s with pool := s.pool.erase r }.setInput r.input (.claimed c)
    let s2 := s1.setCore c ((s1.core c).granted (paramsFor r cfg) s.now)
    s2.setOriginStage r.origin .converting

/-- One grant of a grant pass (R77 to R79). -/
def State.grantNext (s : State) : State :=
  match s.nextGrant with
  | none => s
  | some (n, r) => s.grantTo r (s.chosenCore n r)

/-- The meaning of GRANT. -/
def execGrant (s : State) : Host.Outcome State Fault Refusal := .next s.grantNext

/-- The rest end of a RESTING input is reached: it is FREE, a grant event (R29). -/
def State.endRest (i : InputId) (s : State) : State :=
  match s.input i with
  | .resting t => ((s.advanceTo t).freeInput i).newGrantEvent
  | _ => s

/-- The meaning of REST_END. -/
def execRestEnd (input : InputId) (s : State) : Host.Outcome State Fault Refusal := .next (s.endRest input)

end Sys2Proof.Machine
end

