-- ==== Sys2Proof/Machine/Choice.lean ====
section
/-! DEFINITION. The transmitter's choice of its next frame (R151, R170, R174): when it may choose and what it takes. The meanings
of all rows that can make an item available end with `State.choose`. -/

namespace Sys2Proof.Machine

/-- The reply of an executed RESET_PART: its kind with outcome OK (R186; a refused one has another outcome). -/
def Reply.isReset (r : Reply) : Bool := decide (r.kind = kindResetPart) && decide (r.outcome = .ok)

/-- The reset of RESET_PART is due: the unit is STOPPED and that reply has been sent or removed (R174; assumption 23). -/
def State.resetDue (s : State) : Bool := decide (s.cmdUnit = .stopped) && !s.replies.any Reply.isReset

/-- The transmitter chooses when it is IDLE, no break holds the line (R168) and no reset is due. A cut leaves it IDLE (R169),
while the last byte of the cut frame goes on to its end. -/
def State.mayChoose (s : State) : Bool := s.tx.isNone && !s.lineLow && !s.resetDue

/-- The first available item in the order REPLY, ALARM, NOTICE, REPORT (R151, R170). -/
def State.firstItem (s : State) : Option ItemKind :=
  if s.replies ≠ [] then some .reply
  else if s.alarms ≠ [] then some .alarm
  else if s.notices ≠ [] then some .notice
  else if 0 < s.credits ∧ s.reports ≠ [] then some .report
  else none

/-- The transmitter chooses: when it becomes IDLE, and at each event that makes an item available while it is IDLE, it takes the
first available item. A choice made stands, so an item that comes later waits, whatever its rank (R170). The items that one
row makes available are ranked together (assumption 29). -/
def State.choose (s : State) : State :=
  { s with choice := if s.mayChoose ∧ s.choice = none then s.firstItem else s.choice }

end Sys2Proof.Machine
end

