-- ==== Sys2Proof/Machine/Operands.lean ====
section
/-! DEFINITION. The operands of host commands: the fields of a payload (R181, R189, R190), their range checks in number order,
and the configurations they spell. -/

namespace Sys2Proof.Machine

/-- The unsigned field of `n` bytes at an offset of the payload. -/
def fieldAt (p : List Byte) (offset n : Nat) : Nat := leValue ((p.drop offset).take n)

/-- The one-byte field at an offset. -/
def byteAt (p : List Byte) (offset : Nat) : Nat := fieldAt p offset 1

/-- The signed 32-bit field at an offset. -/
def signedAt (p : List Byte) (offset : Nat) : Int := signed32 (fieldAt p offset 4)

/-- The number of the first field whose check fails (R181). -/
def firstBad : List (Nat × Bool) → Option Nat
  | [] => none
  | (n, good) :: rest => if good then firstBad rest else some n

/-- The channel number a field gives. -/
def channelOf (n : Nat) : ChannelId := Fin.ofNat 32 n
/-- The list number a field gives. -/
def listOf (n : Nat) : ListId := Fin.ofNat 8 n
/-- The table id a field gives. -/
def tableOf (n : Nat) : TableId := Fin.ofNat 8 n
/-- The core number a field gives. -/
def coreOf (n : Nat) : CoreId := Fin.ofNat 4 n

/-! ### SET_CHANNEL (R35, R189) -/

/-- The range checks of a SET_CHANNEL payload, in field order; a check of two fields stands at the later (R35). -/
def channelChecks (p : List Byte) : List (Nat × Bool) :=
  let limits := byteAt p 12 = 1
  [(1, decide (byteAt p 0 ≤ 31)),
   (2, decide (byteAt p 1 ≤ 15)),
   (3, decide (byteAt p 2 ≤ 1)),
   (4, decide (byteAt p 3 ≤ 1)),
   (5, decide (4 ≤ byteAt p 4 ∧ byteAt p 4 ≤ 12 ∧ (byteAt p 3 = 1 → 5 ≤ byteAt p 4))),
   (7, decide (1 ≤ fieldAt p 6 2 ∧ fieldAt p 6 2 ≤ 1000)),
   (9, decide (byteAt p 9 ≤ 7 ∨ byteAt p 9 = 255)),
   (10, decide (byteAt p 10 ≤ 7)),
   (11, decide (byteAt p 11 ≤ 1)),
   (12, decide (byteAt p 12 ≤ 1)),
   (14, decide (limits → signedAt p 13 < signedAt p 17)),
   (15, decide (limits → (fieldAt p 21 4 : Int) ≤ signedAt p 17 - signedAt p 13))]

/-- The limits a SET_CHANNEL payload carries; marked absent, they are not stored (R35). -/
def limitsOf (p : List Byte) : Option Limits :=
  if byteAt p 12 = 1 then some { low := signedAt p 13, high := signedAt p 17, hysteresis := fieldAt p 21 4 } else none

/-- The configuration a SET_CHANNEL payload carries (R189). -/
def channelConfigOf (p : List Byte) : ChannelConfig :=
  { input := Fin.ofNat 16 (byteAt p 1)
    reference := if byteAt p 2 = 0 then .refA else .refB
    excitation := if byteAt p 3 = 0 then .dc else .alternating
    gate := byteAt p 4
    settle := byteAt p 5
    phaseLimit := fieldAt p 6 2
    rest := byteAt p 8
    table := if byteAt p 9 = 255 then none else some (tableOf (byteAt p 9))
    shift := byteAt p 10
    includeRaw := decide (byteAt p 11 = 1)
    limits := limitsOf p }

/-! ### SET_LIST (R46, R190) -/

/-- The length a SET_LIST payload must have: at least 11, and 11 plus the step count it carries (R180). -/
def listLength (p : List Byte) : Bool := decide (11 ≤ p.length ∧ p.length = 11 + byteAt p 10)

/-- The range checks of a SET_LIST payload; field 3 only for CHAINED, field 4 only for PERIODIC (R46, R190). -/
def listChecks (p : List Byte) : List (Nat × Bool) :=
  [(1, decide (byteAt p 0 ≤ 7)),
   (2, decide (byteAt p 1 ≤ 3)),
   (3, decide (byteAt p 1 = 3 → byteAt p 2 ≤ 7)),
   (4, decide (byteAt p 1 = 1 → 10 ≤ fieldAt p 3 2 ∧ fieldAt p 3 2 ≤ 60000)),
   (6, decide (byteAt p 7 ≤ 3)),
   (7, decide (1 ≤ byteAt p 8 ∧ byteAt p 8 ≤ 4)),
   (8, decide (byteAt p 9 ≤ 1)),
   (9, decide (1 ≤ byteAt p 10 ∧ byteAt p 10 ≤ 32))] ++
  (List.range (byteAt p 10)).map (fun j => (10 + j, decide (byteAt p (11 + j) ≤ 31)))

/-- The trigger a SET_LIST payload carries; a source or period that does not belong to it is not stored (R46). -/
def triggerOf (p : List Byte) : Trigger :=
  match byteAt p 1 with
  | 0 => .continuous
  | 1 => .periodic (fieldAt p 3 2)
  | 2 => .onCommand
  | _ => .chained (listOf (byteAt p 2))

/-- The configuration a SET_LIST payload carries (R190). -/
def listConfigOf (p : List Byte) : ListConfig :=
  { trigger := triggerOf p
    cycles := fieldAt p 5 2
    priority := Fin.ofNat 4 (byteAt p 7)
    concurrency := byteAt p 8
    policy := if byteAt p 9 = 0 then .discard else .hold
    steps := (List.range (byteAt p 10)).map (fun j => channelOf (byteAt p (11 + j))) }

/-! ### LOAD_SEGMENTS (R112, R190) -/

/-- One byte and 1 to 4 segments of 20 bytes (R180). -/
def loadLength (p : List Byte) : Bool := decide (p.length = 21 ∨ p.length = 41 ∨ p.length = 61 ∨ p.length = 81)

/-- The number of segments carried. -/
def segmentCount (p : List Byte) : Nat := p.length / 20

/-- Segment `j` of the payload. -/
def segmentOf (p : List Byte) (j : Nat) : Segment :=
  let o := 1 + 20 * j
  { xHi := fieldAt p o 3, degree := byteAt p (o + 3), c0 := signedAt p (o + 4), c1 := signedAt p (o + 8),
    c2 := signedAt p (o + 12), c3 := signedAt p (o + 16) }

/-- The range checks of a LOAD_SEGMENTS payload: the first index, then each degree at its field 3 + 6j (R112, R190). -/
def loadChecks (p : List Byte) : List (Nat × Bool) :=
  (1, decide (byteAt p 0 ≤ 15)) ::
    (List.range (segmentCount p)).map (fun j => (3 + 6 * j, decide (byteAt p (4 + 20 * j) ≤ 3)))

end Sys2Proof.Machine
end

