-- ==== Sys2Proof/Machine/Monitor.lean ====
section
/-! DEFINITION. The channel monitor and the alarm notice set (07): smoothing, alarm classification, and the notices that
transitions create or update. It runs as step 1 of a retirement (R121). -/

namespace Sys2Proof.Machine

/-- The value a valid result carries; a fault result carries none (R123). -/
def Result.validValue (r : Result) : Option Int :=
  match r.status with
  | .ok | .saturated => r.value
  | _ => none

/-- The smoothed value after a valid result `v` under smoothing shift `k` (R123); Int division by a positive number floors. -/
def smooth (k : Nat) (old : Option Int) (v : Int) : Option Int :=
  if k = 0 then none
  else match old with
    | none => some v
    | some a => some (a + (v - a) / 2 ^ k)

/-- The monitored quantity: the smoothed value, or the value itself where smoothing is off (R123). -/
def monitored (k : Nat) (old : Option Int) (v : Int) : Int := (smooth k old v).getD v

/-- The alarm state after a monitored quantity (R127): the classification is made first, and hysteresis acts only in the
return from HIGH or LOW to NORMAL. -/
def classify (lim : Limits) (old : AlarmState) (x : Int) : AlarmState :=
  if lim.high < x then .high
  else if x < lim.low then .low
  else match old with
    | .high => if x ≤ lim.high - lim.hysteresis then .normal else .high
    | .low => if lim.low + lim.hysteresis ≤ x then .normal else .low
    | _ => .normal

/-- The alarm state after a retirement: a fault result puts a channel with limits in FAULT (R127, R128). -/
def nextAlarm (lim : Limits) (old : AlarmState) : Option Int → AlarmState
  | some x => classify lim old x
  | none => .fault

/-- A transition as it is handed to the alarm notice set (R129). -/
structure Transition where
  channel : ChannelId
  old : AlarmState
  new : AlarmState
  value : Option Int
  list : ListId
  cycle : Num16
  deriving DecidableEq, Repr

/-- The transition raises a notice: every change does, except PENDING to NORMAL (R129). -/
def Transition.raisesNotice (t : Transition) : Bool :=
  decide (t.old ≠ t.new) && !(decide (t.old = .pending) && decide (t.new = .normal))

/-- A transition on a channel with a notice updates it in its place; one on a notice being sent is late (R133, R135). -/
def AlarmNotice.update (n : AlarmNotice) (t : Transition) : AlarmNotice :=
  { n with
    newState := t.new
    value := t.value
    list := t.list
    cycle := t.cycle
    count := saturate n.count
    sending := n.sending.map (fun k => { k with late := saturate k.late }) }

/-- A transition meets the alarm notice set: the channel's notice is updated, or a new one joins the tail (R132, R133). -/
def noteTransition (t : Transition) : List AlarmNotice → List AlarmNotice
  | [] => [{ channel := t.channel, prior := t.old, newState := t.new, count := 1, value := t.value, list := t.list,
             cycle := t.cycle, sending := none }]
  | n :: ns => if n.channel = t.channel then n.update t :: ns else n :: noteTransition t ns

/-- The channel record after the monitor's work on a result (R123, R124, R126, R127). -/
def Channel.afterResult (k : Channel) (cfg : ChannelConfig) (r : Result) : Channel :=
  { k with
    smoothed := match r.validValue with
      | some v => smooth cfg.shift k.smoothed v
      | none => k.smoothed
    alarm := match cfg.limits with
      | none => k.alarm
      | some lim => nextAlarm lim k.alarm (r.validValue.map (monitored cfg.shift k.smoothed)) }

/-- The monitor processes a retiring result of a list: smoothed value, alarm state, alarm notice (R121). -/
def State.monitor (l : ListId) (e : Entry) (r : Result) (s : State) : State :=
  let k := s.channel e.channel
  match k.config with
  | none => s
  | some cfg =>
    let k' := k.afterResult cfg r
    let s1 := s.setChannel e.channel k'
    let t : Transition :=
      { channel := e.channel, old := k.alarm, new := k'.alarm,
        value := r.validValue.map (monitored cfg.shift k.smoothed), list := l, cycle := e.cycle }
    if t.raisesNotice then { s1 with alarms := noteTransition t s.alarms } else s1

end Sys2Proof.Machine
end

