-- ==== Sys2Proof/Machine/Sequencer.lean ====
section
/-! DEFINITION. The list sequencers and the admission of records (03, 08): issue, cycle start and end, triggers, retirement,
and the hand-out of opened places. -/

namespace Sys2Proof.Machine

/-! ### Issue and cycle start -/

/-- One step is issued: a WAITING entry joins the window, the cursor moves on and the request arrives (R60). -/
def State.issueStep (l : ListId) (cfg : ListConfig) (ch : ChannelId) (s : State) : State :=
  let r := s.list l
  let s1 := s.setList l { r with
    window := r.window ++ [{ step := r.cursor, channel := ch, cycle := r.cycle, stage := .waiting }]
    cursor := r.cursor + 1 }
  match (s.channel ch).config with
  | none => s1
  | some k => s1.arrive (.entry l r.cursor) ch k.input (.level cfg.priority)

/-- Steps are issued while the list is RUNNING, the window has room and steps remain (R60), at most `n`. -/
def State.issue : Nat → ListId → State → State
  | 0, _, s => s
  | n + 1, l, s =>
    let r := s.list l
    match r.config with
    | none => s
    | some cfg =>
      if r.state = .running ∧ r.window.length < cfg.concurrency then
        match cfg.steps[r.cursor]? with
        | none => s
        | some ch => (s.issueStep l cfg ch).issue n l
      else s

/-- The sequencer issues all it can: a window holds at most 4 entries (R43, R59). -/
def State.issueSteps (l : ListId) (s : State) : State := s.issue Config.maxWindow l

/-- A cycle starts (R53). -/
def State.startCycle (l : ListId) (s : State) : State :=
  (s.setList l { s.list l with cycle := (s.list l).cycle + 1, cursor := 0, state := .running }).issueSteps l

/-- A trigger is taken (R54). -/
def State.trigger (l : ListId) (s : State) : State :=
  match (s.list l).state with
  | .armed => s.startCycle l
  | .running =>
    if (s.list l).startPending then s.setList l { s.list l with skipped := saturate (s.list l).skipped }
    else s.setList l { s.list l with startPending := true }
  | _ => s

/-- The list names `source` as its CHAINED source. -/
def ListRec.chainedTo (r : ListRec) (source : ListId) : Bool :=
  match r.config with
  | none => false
  | some c => decide (c.trigger = .chained source)

/-- The lists chained to a list take its trigger one after another, in ascending list number (R57). -/
def State.triggerChained (source : ListId) (s : State) : State :=
  (List.finRange 8).foldl (fun t m => if (t.list m).chainedTo source then t.trigger m else t) s

/-! ### Cycle end and finish -/

/-- A list enters IDLE: the timer stops, start-pending is cleared, the skipped starts are set to 0 and LIST_FINISHED is
raised (R58, R68, R69, R70). -/
def State.finishList (l : ListId) (why : FinishReason) (s : State) : State :=
  (s.setList l { s.list l with state := .idle, timer := none, startPending := false, skipped := 0 }).raise
    (.listFinished l why)

/-- Cycles remaining one lower, unless endless (R58, R68). -/
def Remaining.decrement : Remaining → Remaining
  | .count n => .count (n - 1)
  | .endless => .endless

/-- Cycles remaining is decremented. -/
def State.countCycle (l : ListId) (s : State) : State :=
  s.setList l { s.list l with remaining := (s.list l).remaining.decrement }

/-- The list's trigger is CONTINUOUS. -/
def ListRec.isContinuous (r : ListRec) : Bool :=
  match r.config with
  | none => false
  | some c => decide (c.trigger = .continuous)

/-- A cycle ends in RUNNING (R58): finish at the cycle count, or the next cycle, or ARMED. -/
def State.endCycle (l : ListId) (s : State) : State :=
  let s1 := s.countCycle l
  if (s1.list l).remaining = .count 0 then s1.finishList l .countReached
  else if (s1.list l).isContinuous then s1.startCycle l
  else if (s1.list l).startPending then (s1.setList l { s1.list l with startPending := false }).startCycle l
  else s1.setList l { s1.list l with state := .armed }

/-- A draining list whose window is empty enters IDLE (R68). -/
def State.endDrain (l : ListId) (s : State) : State :=
  if (s.list l).window = [] then s.finishList l .drained else s

/-- What follows the departure of a retired entry (R63, step 7): cycle end and chained triggers, further issue, or the drain;
`last` says that it was the last step of the list. -/
def State.afterRetire (l : ListId) (last : Bool) (s : State) : State :=
  match (s.list l).state with
  | .running => if last then (s.endCycle l).triggerChained l else s.issueSteps l
  | .draining => if last then ((s.countCycle l).endDrain l).triggerChained l else s.endDrain l
  | _ => s

/-! ### Retirement (R63) and admission (R141, R142) -/

/-- The smoothed field of a record, from the channel after the monitor's step (R146). -/
def Channel.smoothedField (k : Channel) : Option Int :=
  match k.config with
  | none => none
  | some c => if c.shift = 0 then none else k.smoothed

/-- The raw ratio field of a record (R146). -/
def Channel.rawField (k : Channel) (ratio : Option Nat) : Option Nat :=
  match k.config with
  | none => none
  | some c => if c.includeRaw then ratio else none

/-- The skipped-starts field of the record of an entry (R63, step 4). -/
def ListRec.skippedField (r : ListRec) (e : Entry) : Option Nat :=
  if e.step = 0 ∧ 0 < r.skipped then some r.skipped else none

/-- The record of a retiring entry (R63, R145 to R147); `k` is its channel after the monitor's step. -/
def buildRecord (l : ListId) (cfg : ListConfig) (r : ListRec) (mark : Bool) (k : Channel) (e : Entry) (res : Result) :
    Record :=
  { list := l, step := e.step, channel := e.channel, status := res.status,
    endOfCycle := decide (e.step + 1 = cfg.steps.length), runStart := mark, seq := r.seq, cycle := e.cycle,
    value := res.validValue, smoothed := k.smoothedField, raw := k.rawField res.ratio, skipped := r.skippedField e }

/-- The READY head of a list's window with its configuration, the entries behind it and its result. -/
def ListRec.readyHead (r : ListRec) : Option (ListConfig × Entry × List Entry × Result) :=
  match r.config, r.window with
  | some cfg, e :: rest =>
    match e.stage with
    | .ready res => some (cfg, e, rest, res)
    | _ => none
  | _, _ => none

/-- The list after a retirement: the number is consumed, a reported skip count is set to 0, the entry leaves (R63). -/
def ListRec.afterHead (r : ListRec) (e : Entry) (rest : List Entry) : ListRec :=
  { r with seq := r.seq + 1, skipped := if e.step = 0 then 0 else r.skipped, window := rest }

/-- A record is appended, and the run-start mark it carried is cleared (R139, R140). -/
def State.appendRecord (record : Record) (s : State) : State :=
  { s with reports := s.reports ++ [record] }.setRunMark record.list false

/-- The READY head of a list retires; its record is appended when `admitted`, else dropped (R63). -/
def State.retireHead (l : ListId) (admitted : Bool) (s : State) : State :=
  match (s.list l).readyHead with
  | none => s
  | some (cfg, e, rest, res) =>
    let s1 := s.monitor l e res
    let record := buildRecord l cfg (s.list l) (s.runMark l) (s1.channel e.channel) e res
    let s2 := s1.setList l ((s1.list l).afterHead e rest)
    let s3 := if admitted then s2.appendRecord record else s2
    s3.afterRetire l record.endOfCycle

/-- The full policy of a list; an EMPTY list has no records to hold. -/
def ListRec.policy (r : ListRec) : FullPolicy :=
  match r.config with
  | none => .discard
  | some c => c.policy

/-- The report queue answers an attempt at retirement: admitted below 64, else dropped under DISCARD or refused under HOLD,
where the list joins the blocked order if it is not in it (R141). -/
def State.attemptRetire (l : ListId) (s : State) : State :=
  match (s.list l).readyHead with
  | none => s
  | some _ =>
    if s.reports.length < Config.reportPlaces then ({ s with blocked := s.blocked.erase l }.retireHead l true).choose
    else match (s.list l).policy with
      | .discard => (s.retireHead l false).choose
      | .hold => if l ∈ s.blocked then s else { s with blocked := s.blocked ++ [l] }

/-- A list that got a place rejoins the blocked order with its next READY head, in RUNNING or DRAINING (R142, step 3). -/
def State.rejoin (l : ListId) (s : State) : State :=
  if (s.list l).readyHead.isSome ∧ ((s.list l).state = .running ∨ (s.list l).state = .draining) then
    { s with blocked := s.blocked ++ [l] }
  else s

/-- The opened places are given one at a time to the blocked order, oldest first (R142). -/
def State.handOut : Nat → State → State
  | 0, s => s
  | n + 1, s =>
    match s.blocked with
    | [] => s
    | l :: rest => ((({ s with blocked := rest } : State).retireHead l true).rejoin l).handOut n

end Sys2Proof.Machine
end

