-- ==== Sys2Proof/Machine/CommandUnit.lean ====
section
/-! DEFINITION. The command unit (10): when it takes the frame in the oldest full slot, the checks common to every command, and
what an answer does. Every host command's meaning is `State.runCommand` over its own checks and effect. -/

namespace Sys2Proof.Machine

/-- How a command's own part ends. -/
inductive Answer where
  /-- Refused; nothing changes but the reply queue and the slot (R178). -/
  | refused (o : OutcomeCode)
  /-- Refused with BAD_FIELD naming a field (R181). -/
  | badField (n : Nat)
  /-- Executed and answered at once, with the state the effect leaves. -/
  | done (o : OutcomeCode) (data : List Byte) (s : State)
  /-- Executed with its reply deferred (R182). -/
  | deferred (s : State)
  deriving DecidableEq, Repr

/-- A reply joins the tail of the reply queue (R171). -/
def State.queueReply (r : Reply) (s : State) : State := { s with replies := s.replies ++ [r] }

/-- The unit is TAKING and the room condition holds: replies and deferred entries together are below 8 (R177). -/
def State.canTake (s : State) : Bool :=
  decide (s.cmdUnit = .taking) && decide (s.replies.length + s.deferred.length < Config.replyPlaces)

/-- A deferred entry holds the tag (R179, check 3). -/
def State.tagHeld (s : State) (tag : Byte) : Bool := s.deferred.any (fun d => decide (d.tag = tag))

/-- The common checks in order, then the command's own part (R179). -/
def commandAnswer (allowed : List Byte → Bool) (own : Frame → State → Answer) (f : Frame) (s : State) : Answer :=
  if f.kind ∉ commandKinds then .refused .unknownCommand
  else if f.tag = 0 then .refused .badTag
  else if s.tagHeld f.tag then .refused .tagInUse
  else if !allowed f.payload then .refused .badLength
  else own f s

/-- The answer to a frame is given: the reply joins the queue, or none is queued yet (R178, R188). -/
def State.giveAnswer (f : Frame) (s : State) : Answer → State
  | .refused o => s.queueReply { tag := f.tag, kind := f.kind, outcome := o, data := [] }
  | .badField n => s.queueReply { tag := f.tag, kind := f.kind, outcome := .badField, data := [byte n] }
  | .done o data t => t.queueReply { tag := f.tag, kind := f.kind, outcome := o, data := data }
  | .deferred t => t

/-- The slot of the executed command is emptied (R165, R178). -/
def State.emptySlot (s : State) : State := { s with slots := s.slots.tail }

/-- The command unit executes the frame in the oldest full slot, if it is one of this command and may be taken; otherwise the
frame stays where it is (R177, R178). The reply, and whatever else the execution makes available, is a choice for an IDLE
transmitter (R170). -/
def State.runCommand (mine : Frame → Bool) (allowed : List Byte → Bool) (own : Frame → State → Answer) (s : State) :
    State :=
  match s.slots with
  | [] => s
  | f :: _ => if s.canTake && mine f then (s.giveAnswer f (commandAnswer allowed own f s)).emptySlot.choose else s

/-- The frame is of the kind. -/
def ofKind (k : Byte) (f : Frame) : Bool := decide (f.kind = k)

/-- The payload has exactly `n` bytes (R180). -/
def exactly (n : Nat) (p : List Byte) : Bool := decide (p.length = n)

/-- The range checks are made in field order before the command's own state checks (R179, checks 5 and 6). -/
def withFields (checks : List (Nat × Bool)) (next : Answer) : Answer :=
  match firstBad checks with
  | some n => .badField n
  | none => next

end Sys2Proof.Machine
end

