-- ==== Sys2Proof/Machine/ChannelCommands.lean ====
section
/-! DEFINITION. The commands of the channel table (02) and SAMPLE (04). -/

namespace Sys2Proof.Machine

/-- The channel field of a one-byte payload (R181). -/
def channelField (p : List Byte) : List (Nat × Bool) := [(1, decide (byteAt p 0 ≤ 31))]

/-- A channel right after an accepted SET_CHANNEL (R37). -/
def Channel.configured (c : ChannelConfig) : Channel :=
  { config := some c, smoothed := none, alarm := if c.limits.isSome then .pending else .inactive }

/-- SET_CHANNEL: field checks, then IN_USE in active use, else the record is replaced (R35 to R37). -/
def setChannelOwn (f : Frame) (s : State) : Answer :=
  withFields (channelChecks f.payload)
    (let ch := channelOf (byteAt f.payload 0)
     if s.activeUse ch then .refused .inUse
     else .done .ok [] (s.setChannel ch (Channel.configured (channelConfigOf f.payload))))

/-- The meaning of SET_CHANNEL. -/
def execSetChannel (s : State) : Host.Outcome State Fault Refusal :=
  .next (s.runCommand (ofKind kindSetChannel) (exactly 25) setChannelOwn)

/-- GET_CHANNEL: NOT_DEFINED for an UNDEFINED channel, else the record is reported (R39). -/
def getChannelOwn (f : Frame) (s : State) : Answer :=
  withFields (channelField f.payload)
    (let ch := channelOf (byteAt f.payload 0)
     match (s.channel ch).config with
     | none => .refused .notDefined
     | some c => .done .ok (channelData ch c (s.channel ch) (s.useCount ch)) s)

/-- The meaning of GET_CHANNEL. -/
def execGetChannel (s : State) : Host.Outcome State Fault Refusal :=
  .next (s.runCommand (ofKind kindGetChannel) (exactly 1) getChannelOwn)

/-- CLEAR_CHANNEL: IN_USE with a use count, else the channel is UNDEFINED (R38). -/
def clearChannelOwn (f : Frame) (s : State) : Answer :=
  withFields (channelField f.payload)
    (let ch := channelOf (byteAt f.payload 0)
     if 0 < s.useCount ch then .refused .inUse
     else match (s.channel ch).config with
       | none => .done .ok [] s
       | some _ => .done .ok [] (s.setChannel ch Channel.undefined))

/-- The meaning of CLEAR_CHANNEL. -/
def execClearChannel (s : State) : Host.Outcome State Fault Refusal :=
  .next (s.runCommand (ofKind kindClearChannel) (exactly 1) clearChannelOwn)

/-- A deferred entry is created (R182). -/
def State.defer (tag : Byte) (subject : DeferredSubject) (s : State) : State :=
  { s with deferred := s.deferred ++ [{ uid := s.nextUid, tag := tag, subject := subject }], nextUid := s.nextUid + 1 }

/-- SAMPLE: NOT_DEFINED, NO_ROOM, else the entry is created and an URGENT request arrives (R85). -/
def sampleOwn (f : Frame) (s : State) : Answer :=
  withFields (channelField f.payload)
    (let ch := channelOf (byteAt f.payload 0)
     match (s.channel ch).config with
     | none => .refused .notDefined
     | some c =>
       if Config.deferredPlaces ≤ s.deferred.length then .refused .noRoom
       else .deferred ((s.defer f.tag (.sample ch)).arrive (.sample s.nextUid) ch c.input .urgent))

/-- The meaning of SAMPLE. -/
def execSample (s : State) : Host.Outcome State Fault Refusal :=
  .next (s.runCommand (ofKind kindSample) (exactly 1) sampleOwn)

end Sys2Proof.Machine
end

