-- ==== Sys2Proof/Machine/Cores.lean ====
section
/-! DEFINITION. The conversion cores (01): the phases of a conversion, the outcome tests, the end of DISCHARGE, the checks, and
the commands that take a core offline and restore it. A row that is not due in the core's state changes nothing
(assumption 2). -/

namespace Sys2Proof.Machine

/-! ### Phases -/

/-- The ticks of the phase limit of a conversion (R1). -/
def Params.limitTicks (p : Params) : Nat := p.phaseLimit * Config.ticksPerMs

/-- N = 2^g, the periods of a reference measurement and of a DC sense measurement (R6, R7, R31). -/
def Params.periods (p : Params) : Nat := 2 ^ p.gate

/-- N/2, the periods of each half of an ALTERNATING sense measurement (R8). -/
def Params.halfPeriods (p : Params) : Nat := p.periods / 2

/-- The period that has ended is the last of the phase, and the count is within the limit: the phase completes (R1). At an
earlier period the phase goes on, and a later one does not come (assumptions 2 and 7). -/
def phaseCompletes (n : PeriodCount) (last limit : Nat) : Bool := decide (n.periods = last) && decide (n.ticks ≤ limit)

/-- A core enters a state in which a new phase timer starts now. -/
def Core.enter (k : Core) (st : CoreState) (now : Nat) : Core := { k with state := st, phaseStart := now }

/-- The settle time ends: SELECT to REF (R5). -/
def State.endSettle (c : CoreId) (s : State) : State :=
  let k := s.core c
  match k.state, k.params with
  | .select, some p =>
    let s1 := s.advanceTo (k.phaseStart + p.settle * Config.settleUnit)
    s1.setCore c (k.enter .ref s1.now)
  | _, _ => s

/-- The meaning of SETTLE_END. -/
def execSettleEnd (core : CoreId) (s : State) : Host.Outcome State Fault Refusal := .next (s.endSettle core)

/-- The sense state that follows the reference phase (R6). -/
def senseState : Excitation → CoreState
  | .dc => .sense
  | .alternating => .sensePos

/-- The reference phase completes after N periods: T_ref is kept, the stall count is 0, the sense measurement begins (R6,
R13). -/
def State.completeRef (c : CoreId) (n : PeriodCount) (s : State) : State :=
  let k := s.core c
  match k.state, k.params with
  | .ref, some p =>
    if phaseCompletes n p.periods p.limitTicks then
      let s1 := s.advanceTo (k.phaseStart + n.ticks)
      s1.setCore c ({ k with meas := { k.meas with tRef := some n.ticks }, stalls := 0 }.enter (senseState p.excitation) s1.now)
    else s
  | _, _ => s

/-- The meaning of REF_PHASE_COMPLETE. -/
def execRefPhaseComplete (core : CoreId) (count : PeriodCount) (s : State) : Host.Outcome State Fault Refusal :=
  .next (s.completeRef core count)

/-- The stall count one higher; it is 3 at most (R13). -/
def stallsUp (n : Nat) : Nat := min Config.stallLimit (n + 1)

/-- The reference phase times out: REF_STALL, one more stall, DISCHARGE (R6, R13). -/
def State.timeoutRef (c : CoreId) (s : State) : State :=
  let k := s.core c
  match k.state, k.params with
  | .ref, some p =>
    let s1 := s.advanceTo (k.phaseStart + p.limitTicks)
    s1.setCore c ({ k with meas := { k.meas with outcome := some (.fault .refStall none) }, stalls := stallsUp k.stalls }.enter
      .discharge s1.now)
  | _, _ => s

/-- The meaning of REF_PHASE_TIMEOUT. -/
def execRefPhaseTimeout (core : CoreId) (s : State) : Host.Outcome State Fault Refusal := .next (s.timeoutRef core)

/-! ### Ratio and outcome (R2, R9) -/

/-- The computed ratio: floor(T_sense × 65536 / T_ref); for a reference count of 0 a free value (R2; assumption 8). -/
def computedRatio (tRef tSense : Nat) : Nat :=
  if tRef = 0 then Config.ratioAtZeroReference tSense else tSense * 65536 / tRef

/-- The ratio attached to an OVER_RANGE or ASYMMETRIC status: 0FFFFFFh at 1000000h or more (R2). -/
def cappedRatio (r : Nat) : Nat := if 0x1000000 ≤ r then 0xFFFFFF else r

/-- The larger half-count is more than twice the smaller (R9, test 3). -/
def asymmetric (fwd rev : Nat) : Bool := decide (2 * min fwd rev < max fwd rev)

/-- Tests 3 to 6 of R9 on a completed measurement; `halves` are the half-counts of an ALTERNATING one. -/
def decideOutcome (halves : Option (Nat × Nat)) (ratio : Nat) : ConvOutcome :=
  if halves.any (fun h => asymmetric h.1 h.2) then .fault .asymmetric (some (cappedRatio ratio))
  else if ratio < 256 then .fault .short (some ratio)
  else if 0x1000000 ≤ ratio then .fault .overRange (some (cappedRatio ratio))
  else .valid ratio

/-- N DC periods complete: T_sense is kept, the outcome decided, DISCHARGE (R7, R9). -/
def State.completeSense (c : CoreId) (n : PeriodCount) (s : State) : State :=
  let k := s.core c
  match k.state, k.params with
  | .sense, some p =>
    if phaseCompletes n p.periods p.limitTicks then
      let s1 := s.advanceTo (k.phaseStart + n.ticks)
      let outcome := decideOutcome none (computedRatio (k.meas.tRef.getD 0) n.ticks)
      s1.setCore c ({ k with meas := { k.meas with tSense := some n.ticks, outcome := some outcome } }.enter .discharge s1.now)
    else s
  | _, _ => s

/-- The meaning of SENSE_PHASE_COMPLETE. -/
def execSensePhaseComplete (core : CoreId) (count : PeriodCount) (s : State) : Host.Outcome State Fault Refusal :=
  .next (s.completeSense core count)

/-- N/2 forward periods complete: the half-count is kept and SENSE_NEG entered; the limit timer runs on (R8). -/
def State.completeForward (c : CoreId) (n : PeriodCount) (s : State) : State :=
  let k := s.core c
  match k.state, k.params with
  | .sensePos, some p =>
    if phaseCompletes n p.halfPeriods p.limitTicks then
      (s.advanceTo (k.phaseStart + n.ticks)).setCore c
        { k with meas := { k.meas with forward := some n.ticks }, state := .senseNeg }
    else s
  | _, _ => s

/-- The meaning of SENSE_POS_COMPLETE. -/
def execSensePosComplete (core : CoreId) (count : PeriodCount) (s : State) : Host.Outcome State Fault Refusal :=
  .next (s.completeForward core count)

/-- N/2 reverse periods complete: T_sense is the sum of the halves, which the one limit spans; the outcome is decided (R8,
R9). -/
def State.completeReverse (c : CoreId) (n : PeriodCount) (s : State) : State :=
  let k := s.core c
  match k.state, k.params with
  | .senseNeg, some p =>
    let fwd := k.meas.forward.getD 0
    if phaseCompletes { n with ticks := fwd + n.ticks } p.halfPeriods p.limitTicks then
      let s1 := s.advanceTo (k.phaseStart + (fwd + n.ticks))
      let outcome := decideOutcome (some (fwd, n.ticks)) (computedRatio (k.meas.tRef.getD 0) (fwd + n.ticks))
      s1.setCore c ({ k with meas := { k.meas with
        reverse := some n.ticks, tSense := some (fwd + n.ticks), outcome := some outcome } }.enter .discharge s1.now)
    else s
  | _, _ => s

/-- The meaning of SENSE_NEG_COMPLETE. -/
def execSenseNegComplete (core : CoreId) (count : PeriodCount) (s : State) : Host.Outcome State Fault Refusal :=
  .next (s.completeReverse core count)

/-- The core is in a sense measurement. -/
def CoreState.isSensing : CoreState → Bool
  | .sense | .sensePos | .senseNeg => true
  | _ => false

/-- The sense limit expires: OPEN, DISCHARGE (R7 to R9). -/
def State.timeoutSense (c : CoreId) (s : State) : State :=
  let k := s.core c
  match k.params with
  | some p =>
    if k.state.isSensing then
      let s1 := s.advanceTo (k.phaseStart + p.limitTicks)
      s1.setCore c ({ k with meas := { k.meas with outcome := some (.fault .openLead none) } }.enter .discharge s1.now)
    else s
  | none => s

/-- The meaning of SENSE_TIMEOUT. -/
def execSenseTimeout (core : CoreId) (s : State) : Host.Outcome State Fault Refusal := .next (s.timeoutSense core)

/-! ### The end of DISCHARGE (R10, R11) -/

/-- The release at the end of DISCHARGE: the claimed input rests, the parameters and the measurement state are removed
(R10, R11). -/
def State.releaseCore (c : CoreId) (p : Params) (s : State) : State :=
  let k := s.core c
  let s1 := match k.claimed with
    | none => s
    | some i => s.releaseInput i p.rest
  s1.setCore c { k with claimed := none, params := none, meas := {} }

/-- The offer of a valid ratio finds a place: the queue is below 6 and no core in HOLD waits for one (R92; assumption 11). -/
def State.placeFree (s : State) : Bool := decide (s.evalQueue.length < Config.evalPlaces) && s.holdOrder.isEmpty

/-- A valid ratio finds the queue full: the latch is loaded and the core enters HOLD, last in the HOLD order (R11, R92, R93). -/
def State.enterHold (c : CoreId) (e : RatioEntry) (s : State) : State :=
  { s.setCore c { s.core c with state := .hold, latch := some e } with holdOrder := s.holdOrder ++ [c] }

/-- The hand-off and the next state (R11); `k` is the core as DISCHARGE ended. -/
def State.handOff (c : CoreId) (k : Core) (p : Params) (s : State) : State :=
  if k.cancelled then (s.outstandingDone p.origin).settleCore c
  else if !s.originExists p.origin then s.settleCore c
  else match k.meas.outcome with
    | none => s.settleCore c
    | some (.fault st r) => (s.deliver p.origin { status := st, ratio := r, value := none }).settleCore c
    | some (.valid r) =>
      let e : RatioEntry := { origin := p.origin, channel := p.channel, ratio := r }
      if s.placeFree then (s.joinQueue e).settleCore c else s.enterHold c e

/-- DISCHARGE ends: release, hand-off, next state; one grant event (R10, R11, R80). -/
def State.endDischarge (c : CoreId) (s : State) : State :=
  let k := s.core c
  match k.state, k.params with
  | .discharge, some p =>
    (((s.advanceTo (k.phaseStart + Config.dischargeTicks)).releaseCore c p).handOff c k p).newGrantEvent.choose
  | _, _ => s

/-- The meaning of DISCHARGE_END. -/
def execDischargeEnd (core : CoreId) (s : State) : Host.Outcome State Fault Refusal := .next (s.endDischarge core)

/-! ### Checks (R17, R18, R22) -/

/-- The core counts the periods of a check. -/
def Core.checking (k : Core) : Bool := (decide (k.state = .checkA) || decide (k.state = .checkB)) && k.checkPassed.isNone

/-- A check's count ends, passed or failed: its discharge starts at the moment `t` (R17). -/
def State.endCheckCount (c : CoreId) (passed : Bool) (t : Nat) (s : State) : State :=
  let s1 := s.advanceTo t
  s1.setCore c { s.core c with checkPassed := some passed, phaseStart := s1.now }

/-- 256 periods complete within the limit: the check passes (R17). -/
def State.passCheck (c : CoreId) (n : PeriodCount) (s : State) : State :=
  if (s.core c).checking && phaseCompletes n Config.checkPeriods Config.checkLimitTicks then
    s.endCheckCount c true ((s.core c).phaseStart + n.ticks)
  else s

/-- The meaning of CHECK_PERIODS_COMPLETE. -/
def execCheckPeriodsComplete (core : CoreId) (count : PeriodCount) (s : State) : Host.Outcome State Fault Refusal :=
  .next (s.passCheck core count)

/-- The 50 ms limit expires: the check fails (R17). -/
def State.failCheck (c : CoreId) (s : State) : State :=
  if (s.core c).checking then s.endCheckCount c false ((s.core c).phaseStart + Config.checkLimitTicks) else s

/-- The meaning of CHECK_LIMIT_EXPIRY. -/
def execCheckLimitExpiry (core : CoreId) (s : State) : Host.Outcome State Fault Refusal := .next (s.failCheck core)

/-- A core in a check pair. -/
def CoreState.isCheck : CoreState → Bool
  | .checkA | .checkB => true
  | _ => false

/-- All four start-up pairs have ended: READY is raised and the unit takes commands (R18, R176). -/
def State.readyIfDone (s : State) : State :=
  if (List.finRange 4).any (fun c => (s.core c).state.isCheck) then s
  else { s.raise .ready with cmdUnit := .taking }

/-- A start-up pair ends: IDLE, or OFFLINE with a CORE_OFFLINE notice, reason CHECK (R18). -/
def State.endStartupPair (c : CoreId) (failed : Option Reference) (s : State) : State :=
  let k := { s.core c with checkPassed := none }
  match failed with
  | none => ((s.setCore c k).enterIdle c).newGrantEvent.readyIfDone
  | some _ => ((s.setCore c { k with state := .offline }).raise (.coreOffline c .check)).readyIfDone

/-- The deferred reply of a RESTORE_CORE: OK with the core, or CHECK_FAILED with the core and the reference (R22, R188). -/
def restoreReply (tag : Byte) (c : CoreId) : Option Reference → Reply
  | none => { tag := tag, kind := kindRestoreCore, outcome := .ok, data := [byte c.val] }
  | some r => { tag := tag, kind := kindRestoreCore, outcome := .checkFailed, data := [byte c.val, r.code] }

/-- The deferred RESTORE_CORE of a core is answered and removed, if a link reset has not removed it (R22). -/
def State.answerRestore (c : CoreId) (failed : Option Reference) (s : State) : State :=
  match s.deferred.find? (fun d => decide (d.subject = .restore c)) with
  | none => s
  | some d =>
    { s with
      replies := s.replies ++ [restoreReply d.tag c failed]
      deferred := s.deferred.filter (fun x => decide (x.uid ≠ d.uid)) }

/-- A pair started by RESTORE_CORE ends: IDLE with a stall count of 0, a grant event, or OFFLINE with the count unchanged
(R22). -/
def State.endRestorePair (c : CoreId) (failed : Option Reference) (s : State) : State :=
  let k := { s.core c with checkPassed := none }
  match failed with
  | none => (((s.setCore c { k with stalls := 0 }).enterIdle c).answerRestore c none).newGrantEvent
  | some r => (s.setCore c { k with state := .offline }).answerRestore c (some r)

/-- A check pair ends (R18, R22): while the unit is STARTING it is a start-up pair. -/
def State.endPair (c : CoreId) (failed : Option Reference) (s : State) : State :=
  (if s.cmdUnit = .starting then s.endStartupPair c failed else s.endRestorePair c failed).choose

/-- The discharge after a check ends: CHECK_B, or the end of the pair (R17). -/
def State.endCheckDischarge (c : CoreId) (s : State) : State :=
  let k := s.core c
  let s1 := s.advanceTo (k.phaseStart + Config.dischargeTicks)
  match k.state, k.checkPassed with
  | .checkA, some true => s1.setCore c { k with state := .checkB, checkPassed := none, phaseStart := s1.now }
  | .checkA, some false => s1.endPair c (some .refA)
  | .checkB, some true => s1.endPair c none
  | .checkB, some false => s1.endPair c (some .refB)
  | _, _ => s

/-- The meaning of CHECK_DISCHARGE_END. -/
def execCheckDischargeEnd (core : CoreId) (s : State) : Host.Outcome State Fault Refusal :=
  .next (s.endCheckDischarge core)

/-! ### Commands (R19, R21) -/

/-- The core field of a one-byte payload (R181). -/
def coreField (p : List Byte) : List (Nat × Bool) := [(1, decide (byteAt p 0 ≤ 3))]

/-- TAKE_CORE_OFFLINE by the core's state (R19). -/
def takeCoreOfflineOwn (f : Frame) (s : State) : Answer :=
  withFields (coreField f.payload)
    (let c := coreOf (byteAt f.payload 0)
     match (s.core c).state with
     | .idle => .done .ok [byte c.val] (s.enterOffline c .command)
     | .offline => .done .ok [byte c.val] s
     | .checkA | .checkB => .refused .wrongState
     | _ => .done .okAfterCurrent [byte c.val] (s.setCore c { s.core c with offlinePending := true }))

/-- The meaning of TAKE_CORE_OFFLINE. -/
def execTakeCoreOffline (s : State) : Host.Outcome State Fault Refusal :=
  .next (s.runCommand (ofKind kindTakeCoreOffline) (exactly 1) takeCoreOfflineOwn)

/-- RESTORE_CORE: WRONG_STATE unless OFFLINE, NO_ROOM, else a deferred entry and CHECK_A (R21). -/
def restoreCoreOwn (f : Frame) (s : State) : Answer :=
  withFields (coreField f.payload)
    (let c := coreOf (byteAt f.payload 0)
     if (s.core c).state ≠ .offline then .refused .wrongState
     else if Config.deferredPlaces ≤ s.deferred.length then .refused .noRoom
     else .deferred ((s.defer f.tag (.restore c)).setCore c
       { (s.core c).enter .checkA s.now with checkPassed := none }))

/-- The meaning of RESTORE_CORE. -/
def execRestoreCore (s : State) : Host.Outcome State Fault Refusal :=
  .next (s.runCommand (ofKind kindRestoreCore) (exactly 1) restoreCoreOwn)

end Sys2Proof.Machine
end

