-- ==== Sys2Proof/Machine/Engine.lean ====
section
/-! DEFINITION. The evaluation engine (05): serving cores in HOLD, the start, the arithmetic and the completion. -/

namespace Sys2Proof.Machine

/-! ### Serving a core in HOLD -/

/-- A free place goes to the oldest core in HOLD: its latch joins the queue and the core leaves HOLD (R93). -/
def State.serveHold (s : State) : State :=
  match s.holdOrder with
  | [] => s
  | c :: _ =>
    match (s.core c).latch with
    | none => s
    | some e => if s.evalQueue.length < Config.evalPlaces then ((s.joinQueue e).leaveHold c).choose else s

/-- The meaning of HOLD_SERVED. -/
def execHoldServed (s : State) : Host.Outcome State Fault Refusal := .next s.serveHold

/-! ### Segment search (R96) -/

/-- The segments of a bank; every place of an ACTIVE bank holds one (R107). -/
def Bank.segments (b : Bank) : List Segment := b.places.filterMap id

/-- The index of the first segment whose x_hi is at or above the ratio. -/
def findSegment (gs : List Segment) (ratio : Nat) : Option Nat := gs.findIdx? (fun g => decide (ratio ≤ g.xHi))

/-- The lower bound of a segment: the x_hi of the one before it, 0 for the first. -/
def lowerBound (gs : List Segment) : Nat → Nat
  | 0 => 0
  | n + 1 => match gs[n]? with
    | none => 0
    | some g => g.xHi

/-! ### Polynomial arithmetic (R97) -/

/-- The clamp to the signed 32-bit range (00 "sat32"). -/
def sat32 (x : Int) : Int := max (-2147483648) (min 2147483647 x)

/-- The leading coefficient, c_n for degree n. -/
def Segment.leading (g : Segment) : Int :=
  match g.degree with
  | 0 => g.c0
  | 1 => g.c1
  | 2 => g.c2
  | _ => g.c3

/-- The coefficients below the leading one, from c_(n-1) down to c_0. -/
def Segment.lower (g : Segment) : List Int :=
  match g.degree with
  | 0 => []
  | 1 => [g.c0]
  | 2 => [g.c1, g.c0]
  | _ => [g.c2, g.c1, g.c0]

/-- The sum of one step before the clamp: the floored quotient plus c_k. -/
def hornerSum (d : Nat) (acc ck : Int) : Int := acc * d / 65536 + ck

/-- Horner's scheme over the coefficients that remain, with the accumulator and the saturated mark. -/
def horner (d : Nat) : Int → Bool → List Int → Int × Bool
  | acc, mark, [] => (acc, mark)
  | acc, mark, ck :: rest =>
    let sum := hornerSum d acc ck
    horner d (sat32 sum) (mark || decide (sat32 sum ≠ sum)) rest

/-- The progress an evaluation starts with: the segment found and its leading coefficient in the accumulator (R96, R97
step 1; assumption 17). Where the search fails the spec gives it no contents: no segment, 0, mark clear (DESIGN CHOICE,
assumption 27). -/
def startProgress (gs : List Segment) (ratio : Nat) : Progress :=
  match findSegment gs ratio with
  | none => { segment := none, acc := 0, saturated := false }
  | some i =>
    { segment := some i
      acc := match gs[i]? with
        | none => 0
        | some g => g.leading
      saturated := false }

/-- The value and saturated mark that the progress of an evaluation comes to in its bank (R97 steps 2 and 3). -/
def finishProgress (gs : List Segment) (ratio : Nat) (p : Progress) (i : Nat) : Int × Bool :=
  match gs[i]? with
  | none => (p.acc, p.saturated)
  | some g => horner (ratio - lowerBound gs i) p.acc p.saturated g.lower

/-- Status and value of an evaluation from its course and arithmetic (R98). -/
def State.evaluationResult (s : State) (e : Evaluation) : Result :=
  match e.table with
  | none => { status := .ok, ratio := some e.ratio, value := some e.ratio }
  | some _ =>
    match e.bank with
    | none => { status := .noTable, ratio := some e.ratio, value := none }
    | some b =>
      match e.progress.segment with
      | none => { status := .outOfTable, ratio := some e.ratio, value := none }
      | some i =>
        let v := finishProgress (s.bank b).segments e.ratio e.progress i
        { status := if v.2 then .saturated else .ok, ratio := some e.ratio, value := some v.1 }

/-! ### Start (R94, R95) -/

/-- The table field of the channel as it stands; an UNDEFINED channel takes the course for NONE (R94). -/
def State.tableOfChannel (s : State) (ch : ChannelId) : Option TableId :=
  match (s.channel ch).config with
  | none => none
  | some c => c.table

/-- The bank an evaluation references: the one ACTIVE for its table at the start (R95). -/
def State.bankFor (s : State) : Option TableId → Option BankId
  | none => none
  | some t => s.activeBank t

/-- The progress of an evaluation at its start. On the courses without a bank (NONE, NO_TABLE) the spec gives it no contents: no
segment, 0, mark clear (DESIGN CHOICE, assumption 27). -/
def State.progressIn (s : State) (ratio : Nat) : Option BankId → Progress
  | none => { segment := none, acc := 0, saturated := false }
  | some b => startProgress (s.bank b).segments ratio

/-- The store marks the referenced bank as held (R108). -/
def State.holdBank (s : State) : Option BankId → State
  | none => s
  | some b => s.setBank b { s.bank b with held := true }

/-- The engine starts on the head entry: it leaves the queue and its place opens (R94). -/
def State.startEvaluation (s : State) : State :=
  match s.engine, s.evalQueue with
  | none, e :: rest =>
    let t := s.tableOfChannel e.channel
    let b := s.bankFor t
    { s.holdBank b with
      evalQueue := rest
      engine := some { origin := e.origin, channel := e.channel, ratio := e.ratio, table := t, bank := b, void := false,
                       progress := s.progressIn e.ratio b } }
  | _, _ => s

/-- The meaning of EVALUATION_START. -/
def execEvaluationStart (s : State) : Host.Outcome State Fault Refusal := .next s.startEvaluation

/-! ### Completion (R100, R101) -/

/-- The result goes to the origin, or is discarded: a void one lowers its list's outstanding count (R101). -/
def State.handResult (e : Evaluation) (r : Result) (s : State) : State :=
  if e.void then s.outstandingDone e.origin else s.deliver e.origin r

/-- The engine drops its bank reference, if one is held (R100, step 2). -/
def State.releaseBank (s : State) : Option BankId → State
  | none => s
  | some b => s.setBank b (s.bank b).dropReference

/-- The evaluation completes: result, bank reference, engine FREE, in that order (R100). -/
def State.completeEvaluation (s : State) : State :=
  match s.engine with
  | none => s
  | some e => { (s.handResult e (s.evaluationResult e)).releaseBank e.bank with engine := none }.choose

/-- The meaning of EVALUATION_COMPLETE. -/
def execEvaluationComplete (s : State) : Host.Outcome State Fault Refusal := .next s.completeEvaluation

end Sys2Proof.Machine
end

