-- ==== Sys2Proof/Machine/ListCommands.lean ====
section
/-! DEFINITION. The commands of the list store (03): SET_LIST, GET_LIST, CLEAR_LIST, START_LIST, STOP_LIST, TRIGGER_LIST. -/

namespace Sys2Proof.Machine

/-- The list field of a one-byte payload (R181). -/
def listField (p : List Byte) : List (Nat × Bool) := [(1, decide (byteAt p 0 ≤ 7))]

/-- Following sources from `src`, list `target` is reached; a walk visits at most eight lists (R47). -/
def State.chainReaches (s : State) (target : ListId) : Nat → ListId → Bool
  | 0, src => decide (src = target)
  | n + 1, src =>
    if src = target then true
    else match (s.list src).config with
      | none => false
      | some c => match c.trigger with
        | .chained next => s.chainReaches target n next
        | _ => false

/-- The state checks of SET_LIST that involve the trigger (R46, checks 4 and 5). -/
def State.chainRefusal (s : State) (l : ListId) : Trigger → Option OutcomeCode
  | .chained src =>
    if s.chainReaches l 8 src then some .chainLoop
    else if (s.list src).state = .empty then some .notDefined
    else none
  | _ => none

/-- The places in use, less the list's old steps, plus its new steps (R45). -/
def State.stepPlacesWith (s : State) (l : ListId) (c : ListConfig) : Nat :=
  s.stepPlacesInUse - (s.list l).steps.length + c.steps.length

/-- A list right after an accepted SET_LIST (R44, R48). -/
def ListRec.configured (c : ListConfig) : ListRec := { ListRec.emptyList with config := some c, state := .idle }

/-- SET_LIST: field checks, then the state checks in order, else the list is replaced and IDLE (R46, R48); its run-start mark is
cleared (R140). -/
def setListOwn (f : Frame) (s : State) : Answer :=
  withFields (listChecks f.payload)
    (let l := listOf (byteAt f.payload 0)
     let c := listConfigOf f.payload
     if (s.list l).state ≠ .empty ∧ (s.list l).state ≠ .idle then .refused .wrongState
     else if c.steps.any (fun ch => (s.channel ch).config.isNone) then .refused .notDefined
     else match s.chainRefusal l c.trigger with
       | some o => .refused o
       | none =>
         if Config.stepPlaces < s.stepPlacesWith l c then .refused .stepPoolFull
         else .done .ok [] ((s.setList l (ListRec.configured c)).setRunMark l false))

/-- The meaning of SET_LIST. -/
def execSetList (s : State) : Host.Outcome State Fault Refusal :=
  .next (s.runCommand (ofKind kindSetList) listLength setListOwn)

/-- GET_LIST: NOT_DEFINED for an EMPTY list, else the list is reported (R50). -/
def getListOwn (f : Frame) (s : State) : Answer :=
  withFields (listField f.payload)
    (let l := listOf (byteAt f.payload 0)
     match (s.list l).config with
     | none => .refused .notDefined
     | some c => .done .ok (listData l c (s.list l)) s)

/-- The meaning of GET_LIST. -/
def execGetList (s : State) : Host.Outcome State Fault Refusal :=
  .next (s.runCommand (ofKind kindGetList) (exactly 1) getListOwn)

/-- CLEAR_LIST: IN_USE for a source, WRONG_STATE unless IDLE, else EMPTY (R49); its run-start mark is cleared (R140). -/
def clearListOwn (f : Frame) (s : State) : Answer :=
  withFields (listField f.payload)
    (let l := listOf (byteAt f.payload 0)
     if (s.list l).state = .empty then .done .ok [] s
     else if (List.finRange 8).any (fun m => (s.list m).chainedTo l) then .refused .inUse
     else if (s.list l).state ≠ .idle then .refused .wrongState
     else .done .ok [] ((s.setList l ListRec.emptyList).setRunMark l false))

/-- The meaning of CLEAR_LIST. -/
def execClearList (s : State) : Host.Outcome State Fault Refusal :=
  .next (s.runCommand (ofKind kindClearList) (exactly 1) clearListOwn)

/-- Cycles remaining at START_LIST: endless for a cycles field of 0 (R52). -/
def ListConfig.startRemaining (c : ListConfig) : Remaining := if c.cycles = 0 then .endless else .count c.cycles

/-- The numbering and counts of a list as START_LIST sets them (R52). -/
def ListRec.started (r : ListRec) (c : ListConfig) : ListRec :=
  { r with cycle := 0, seq := 0, startPending := false, skipped := 0, outstanding := 0, remaining := c.startRemaining }

/-- What an accepted START_LIST does by trigger; the run-start mark is set (R52, R55, R140). -/
def State.startList (l : ListId) (c : ListConfig) (s : State) : State :=
  let s1 := (s.setList l ((s.list l).started c)).setRunMark l true
  match c.trigger with
  | .continuous => s1.startCycle l
  | .periodic p =>
    (s1.setList l { s1.list l with timer := some { anchor := s.now, next := s.now + p * Config.ticksPerMs } }).startCycle l
  | .onCommand => s1.setList l { s1.list l with state := .armed }
  | .chained _ => s1.setList l { s1.list l with state := .armed }

/-- START_LIST: NOT_DEFINED for EMPTY, WRONG_STATE unless IDLE (R52). -/
def startListOwn (f : Frame) (s : State) : Answer :=
  withFields (listField f.payload)
    (let l := listOf (byteAt f.payload 0)
     match (s.list l).config with
     | none => .refused .notDefined
     | some c =>
       if (s.list l).state ≠ .idle then .refused .wrongState
       else .done .ok [] (s.startList l c))

/-- The meaning of START_LIST. -/
def execStartList (s : State) : Host.Outcome State Fault Refusal :=
  .next (s.runCommand (ofKind kindStartList) (exactly 1) startListOwn)

/-- The fields of STOP_LIST: the list, and a mode of DRAIN or ABORT (R67). -/
def stopFields (p : List Byte) : List (Nat × Bool) := [(1, decide (byteAt p 0 ≤ 7)), (2, decide (byteAt p 1 ≤ 1))]

/-- A STOP_LIST frame whose mode byte is ABORT. -/
def isAbortFrame (f : Frame) : Bool := ofKind kindStopList f && decide (byteAt f.payload 1 = 1)

/-- A STOP_LIST frame with any other mode byte: DRAIN, or one that is refused (assumption 4). -/
def isDrainFrame (f : Frame) : Bool := ofKind kindStopList f && !decide (byteAt f.payload 1 = 1)

/-- STOP_LIST DRAIN by the list's state (R67, R68). -/
def State.drainList (l : ListId) (s : State) : State :=
  match (s.list l).state with
  | .armed => s.finishList l .drained
  | .running => s.setList l { s.list l with state := .draining, timer := none, startPending := false }
  | _ => s

/-- STOP_LIST with mode DRAIN (R67). -/
def stopListDrainOwn (f : Frame) (s : State) : Answer :=
  withFields (stopFields f.payload)
    (let l := listOf (byteAt f.payload 0)
     if (s.list l).state = .empty then .refused .notDefined else .done .ok [] (s.drainList l))

/-- The meaning of STOP_LIST_DRAIN. -/
def execStopListDrain (s : State) : Host.Outcome State Fault Refusal :=
  .next (s.runCommand isDrainFrame (exactly 2) stopListDrainOwn)

/-- The origin is a window entry of the list. -/
def Origin.ofList (l : ListId) : Origin → Bool
  | .entry m _ => decide (m = l)
  | .sample _ => false

/-- A core that holds an input: SELECT to DISCHARGE (R4). -/
def CoreState.isConverting : CoreState → Bool
  | .select | .ref | .sense | .sensePos | .senseNeg | .discharge => true
  | _ => false

/-- The core converts for an entry of the list. -/
def Core.convertsFor (k : Core) (l : ListId) : Bool := k.state.isConverting && k.params.any (fun p => p.origin.ofList l)

/-- The core's latch belongs to an entry of the list. -/
def Core.latchesFor (k : Core) (l : ListId) : Bool :=
  decide (k.state = .hold) && k.latch.any (fun e => e.origin.ofList l)

/-- The abort reaches a core: its conversion is cancelled into DISCHARGE, or its latch is discarded (R15). -/
def State.abortCore (l : ListId) (s : State) (c : CoreId) : State :=
  let k := s.core c
  if k.convertsFor l then
    if k.state = .discharge then s.setCore c { k with cancelled := true }
    else s.setCore c { k with cancelled := true, state := .discharge, phaseStart := s.now }
  else if k.latchesFor l then s.leaveHold c
  else s

/-- The engine works for an entry of the list. -/
def State.evaluatesFor (s : State) (l : ListId) : Bool := s.engine.any (fun e => e.origin.ofList l)

/-- The outstanding count an abort sets: cancelled conversions, and one for a void evaluation (R69). -/
def State.abortCount (s : State) (l : ListId) : Nat :=
  (List.finRange 4).countP (fun c => (s.core c).convertsFor l) + (if s.evaluatesFor l then 1 else 0)

/-- The evaluation in progress is marked void where its origin is an entry of the list (R102). -/
def Evaluation.voidFor (l : ListId) (e : Evaluation) : Evaluation :=
  if e.origin.ofList l then { e with void := true } else e

/-- STOP_LIST ABORT of a RUNNING or DRAINING list (R69): requests withdrawn, cores cancelled, latches and queue entries
discarded, the evaluation void, the window emptied, the list out of the blocked order (R144). Cores are reached in ascending
number (assumptions 18 and 26). -/
def State.abortWork (l : ListId) (s : State) : State :=
  let n := s.abortCount l
  let s1 := { s with pool := s.pool.filter (fun r => !r.origin.ofList l) }
  let s2 := (List.finRange 4).foldl (State.abortCore l) s1
  let s3 := { s2 with
    evalQueue := s2.evalQueue.filter (fun e => !e.origin.ofList l)
    engine := s2.engine.map (Evaluation.voidFor l)
    blocked := s2.blocked.erase l }
  let s4 := s3.setList l { s3.list l with
    window := [], timer := none, startPending := false, skipped := 0, outstanding := n }
  if n = 0 then s4.finishList l .aborted else s4.setList l { s4.list l with state := .aborting }

/-- STOP_LIST ABORT by the list's state (R67, R69). -/
def State.abortList (l : ListId) (s : State) : State :=
  match (s.list l).state with
  | .armed => s.finishList l .aborted
  | .running | .draining => s.abortWork l
  | _ => s

/-- STOP_LIST with mode ABORT (R67). -/
def stopListAbortOwn (f : Frame) (s : State) : Answer :=
  withFields (stopFields f.payload)
    (let l := listOf (byteAt f.payload 0)
     if (s.list l).state = .empty then .refused .notDefined else .done .ok [] (s.abortList l))

/-- The meaning of STOP_LIST_ABORT. -/
def execStopListAbort (s : State) : Host.Outcome State Fault Refusal :=
  .next (s.runCommand isAbortFrame (exactly 2) stopListAbortOwn)

/-- TRIGGER_LIST: NOT_DEFINED, WRONG_STATE for another trigger or in IDLE, DRAINING, ABORTING, else one trigger (R56). -/
def triggerListOwn (f : Frame) (s : State) : Answer :=
  withFields (listField f.payload)
    (let l := listOf (byteAt f.payload 0)
     match (s.list l).config with
     | none => .refused .notDefined
     | some c =>
       if c.trigger ≠ .onCommand then .refused .wrongState
       else if (s.list l).state ≠ .armed ∧ (s.list l).state ≠ .running then .refused .wrongState
       else .done .ok [] (s.trigger l))

/-- The meaning of TRIGGER_LIST. -/
def execTriggerList (s : State) : Host.Outcome State Fault Refusal :=
  .next (s.runCommand (ofKind kindTriggerList) (exactly 1) triggerListOwn)

end Sys2Proof.Machine
end

