-- ==== Sys2Proof/Machine/Lists.lean ====
section
/-! DEFINITION. The list sequencers' own rows (03): the period timer, the attempt at retirement, the end of an abort. -/

namespace Sys2Proof.Machine

/-- The period timer expires: the next expiry is one period after this one, whatever the cycles do, and the expiry is one
trigger (R55). -/
def State.expirePeriod (l : ListId) (s : State) : State :=
  match (s.list l).timer, (s.list l).config with
  | some t, some c =>
    let s1 := s.advanceTo t.next
    let s2 := s1.setList l { s1.list l with
      timer := some { t with next := t.next + c.trigger.periodField * Config.ticksPerMs } }
    s2.trigger l
  | _, _ => s

/-- The meaning of PERIOD_EXPIRY. -/
def execPeriodExpiry (list : ListId) (s : State) : Host.Outcome State Fault Refusal :=
  .next (s.expirePeriod list)

/-- The meaning of RETIRE: the sequencer attempts to retire the READY head of its window (R62, R63, R141). -/
def execRetire (list : ListId) (s : State) : Host.Outcome State Fault Refusal :=
  .next (s.attemptRetire list)

/-- The outstanding count of an ABORTING list has reached 0: IDLE, LIST_FINISHED with reason ABORTED (R70). -/
def State.completeAbort (l : ListId) (s : State) : State :=
  if (s.list l).state = .aborting ∧ (s.list l).outstanding = 0 then (s.finishList l .aborted).choose else s

/-- The meaning of ABORT_COMPLETE. -/
def execAbortComplete (list : ListId) (s : State) : Host.Outcome State Fault Refusal := .next (s.completeAbort list)

end Sys2Proof.Machine
end

