-- ==== Sys2Proof/Machine/PartCommands.lean ====
section
/-! DEFINITION. The commands of the command unit itself and of the report queue's credits: IDENTIFY, GET_STATUS, RESET_PART,
GRANT_CREDITS, and the refusal of an unknown kind. -/

namespace Sys2Proof.Machine

/-- IDENTIFY: the fixed fields, nothing changes (R184). -/
def identifyOwn (_ : Frame) (s : State) : Answer := .done .ok (identifyData s.bitRate) s

/-- The meaning of IDENTIFY. -/
def execIdentify (s : State) : Host.Outcome State Fault Refusal :=
  .next (s.runCommand (ofKind kindIdentify) (exactly 0) identifyOwn)

/-- The reply data of GET_STATUS: the part as it stands, before its own reply joins the queue (R185). -/
def State.statusData (s : State) : List Byte :=
  (List.finRange 4).flatMap (fun c => [(s.core c).state.code, byte (s.core c).stalls]) ++
    (List.finRange 8).map (fun l => (s.list l).state.code) ++
    [byte s.stepPlacesInUse, byte s.pool.length, byte s.evalQueue.length, boolCode s.engine.isSome, byte s.reports.length,
     byte s.credits, byte s.replies.length, byte s.deferred.length] ++
    (List.finRange 9).flatMap (fun b => (s.bank b).statusBytes) ++ sessionBytes s.session

/-- GET_STATUS: nothing changes (R185). -/
def getStatusOwn (_ : Frame) (s : State) : Answer := .done .ok s.statusData s

/-- The meaning of GET_STATUS. -/
def execGetStatus (s : State) : Host.Outcome State Fault Refusal :=
  .next (s.runCommand (ofKind kindGetStatus) (exactly 0) getStatusOwn)

/-- RESET_PART: its OK reply is queued and the unit is STOPPED (R186). -/
def resetPartOwn (_ : Frame) (s : State) : Answer := .done .ok [] { s with cmdUnit := .stopped }

/-- The meaning of RESET_PART. -/
def execResetPart (s : State) : Host.Outcome State Fault Refusal :=
  .next (s.runCommand (ofKind kindResetPart) (exactly 0) resetPartOwn)

/-- The credit count after a grant (R150). -/
def grantedCredits (credits amount : Nat) : Nat := min Config.maxCredits (credits + amount)

/-- GRANT_CREDITS: an amount of 0 is a field error; the reply carries the new count (R150). -/
def grantCreditsOwn (f : Frame) (s : State) : Answer :=
  withFields [(1, decide (1 ≤ byteAt f.payload 0))]
    (let n := grantedCredits s.credits (byteAt f.payload 0)
     .done .ok [byte n] { s with credits := n })

/-- The meaning of GRANT_CREDITS. -/
def execGrantCredits (s : State) : Host.Outcome State Fault Refusal :=
  .next (s.runCommand (ofKind kindGrantCredits) (exactly 1) grantCreditsOwn)

/-- The frame's kind is no command kind (R179, check 1). -/
def unknownKind (f : Frame) : Bool := decide (f.kind ∉ commandKinds)

/-- UNKNOWN_COMMAND has no payload rule and no effect of its own: check 1 has refused it already. -/
def unknownOwn (_ : Frame) (_ : State) : Answer := .refused .unknownCommand

/-- The meaning of UNKNOWN_COMMAND. -/
def execUnknownCommand (s : State) : Host.Outcome State Fault Refusal :=
  .next (s.runCommand unknownKind (fun _ => true) unknownOwn)

end Sys2Proof.Machine
end

