-- ==== Sys2Proof/Machine/Receiver.lean ====
section
/-! DEFINITION. The link receiver (09): bytes one by one, the judgement of a frame, slots, link errors, breaks. -/

namespace Sys2Proof.Machine

/-- The receiver is in HUNT with no frame under assembly and its timer stopped (R159, R166). -/
def Receiver.hunting (r : Receiver) : Receiver :=
  { r with state := .hunt, len := 0, body := [], check := [], expiry := none }

/-- A link error: the frame under assembly is discarded, the receiver hunts, LINK_ERROR is raised (R166). -/
def State.linkError (s : State) : State := ({ s with rx := s.rx.hunting }.raise .linkError).choose

/-- The moment at which the incompleteness timer expires when it starts now (R162). -/
def State.rxExpiry (s : State) : Option Nat := some (s.now + Config.incompletenessTicks)

/-- A good frame is placed in an empty slot; with all four full it is dropped and COMMAND_OVERRUN raised with its tag
(R164). -/
def State.placeFrame (f : Frame) (s : State) : State :=
  if s.slots.length < Config.slotPlaces then { s with slots := s.slots ++ [f] }
  else (s.raise (.commandOverrun f.tag)).choose

/-- The frame that the body bytes spell: kind, tag, payload (R160, R187). -/
def frameOf : List Byte → Option Frame
  | kind :: tag :: payload => some { kind := kind, tag := tag, payload := payload }
  | _ => none

/-- The frame under assembly is judged with its last check byte `hi` (R161): a mismatch or a part-side kind is a link error,
any other frame is good. -/
def State.judge (lo hi : Byte) (s : State) : State :=
  if leValue [lo, hi] ≠ s.rx.crc.toNat then s.linkError
  else match frameOf s.rx.body with
    | none => s.linkError
    | some f =>
      if f.kind ∈ partKinds then s.linkError
      else ({ s with rx := s.rx.hunting } : State).placeFrame f

/-- A body byte is kept; after LEN of them the state is CHECK (R160). -/
def State.takeBody (b : Byte) (s : State) : State :=
  { s with rx := { s.rx with
      body := s.rx.body ++ [b]
      crc := crcByte s.rx.crc b
      expiry := s.rxExpiry
      state := if s.rx.body.length + 1 = s.rx.len then .check else .body } }

/-- A byte in LENGTH: 2 to 242 is kept as LEN, anything else discards the frame as a link error (R160). -/
def State.takeLength (b : Byte) (s : State) : State :=
  if 2 ≤ b.toNat ∧ b.toNat ≤ 242 then
    { s with rx := { s.rx with len := b.toNat, crc := crcByte s.rx.crc b, expiry := s.rxExpiry, state := .body } }
  else s.linkError

/-- A byte in HUNT: 5Ah begins a frame, anything else is discarded (R160). -/
def State.takeStart (b : Byte) (s : State) : State :=
  if b = 0x5A#8 then
    { s with rx := { state := .length, len := 0, body := [], check := [], crc := Config.crcInitial, expiry := s.rxExpiry } }
  else s

/-- A byte in CHECK: the first is kept as the low byte, with the second the frame is judged (R160). -/
def State.takeCheck (b : Byte) (s : State) : State :=
  match s.rx.check with
  | [] => { s with rx := { s.rx with check := [b], expiry := s.rxExpiry } }
  | lo :: _ => s.judge lo b

/-- The receiver takes one byte (R160). -/
def State.takeByte (s : State) (b : Byte) : State :=
  match s.rx.state with
  | .hunt => s.takeStart b
  | .length => s.takeLength b
  | .body => s.takeBody b
  | .check => s.takeCheck b

/-- The receiver takes bytes in the order they arrive; while a break holds the line low it takes none (R163, R167). -/
def State.takeBytes (bs : List Byte) (s : State) : State := if s.lineLow then s else bs.foldl State.takeByte s

/-- The levels of one byte arrive on the receive line: the byte is taken, or the framing error is counted (R158, R160, R163).
The rows bring whole bytes and framing errors (assumption 25). -/
def State.takeLevels (s : State) (levels : List Bool) : State :=
  match byteOfLevels levels with
  | some b => s.takeBytes [b]
  | none => if s.lineLow then s else s.linkError

/-- The meaning of FRAME_RECEIVED: the bytes arrive, each by R160 (assumption 5). -/
def execFrameReceived (bytes : List Byte) (s : State) : Host.Outcome State Fault Refusal := .next (s.takeBytes bytes)

/-- The meaning of START_BYTE: 5Ah is taken in HUNT (R160). -/
def execStartByte (s : State) : Host.Outcome State Fault Refusal :=
  .next (if s.rx.state = .hunt then s.takeBytes [0x5A#8] else s)

/-- The meaning of LENGTH_OUT_OF_RANGE: a LEN byte out of range is taken in LENGTH (R160). -/
def execLengthOutOfRange (len : Byte) (s : State) : Host.Outcome State Fault Refusal :=
  .next (if s.rx.state = .length ∧ ¬ (2 ≤ len.toNat ∧ len.toNat ≤ 242) then s.takeBytes [len] else s)

/-- The incompleteness timer expires: the frame under assembly is discarded as a link error (R162). -/
def State.expireFrame (s : State) : State :=
  match s.rx.expiry with
  | none => s
  | some t => (s.advanceTo t).linkError

/-- The meaning of INCOMPLETENESS_TIMEOUT. -/
def execIncompletenessTimeout (s : State) : Host.Outcome State Fault Refusal := .next s.expireFrame

/-- The meaning of FRAMING_ERROR: one link error, in HUNT too; no start bit is detected while a break holds the line low
(R163). -/
def execFramingError (s : State) : Host.Outcome State Fault Refusal := .next (if s.lineLow then s else s.linkError)

/-! ### Break (R167, R168) -/

/-- The origin is a SAMPLE entry. -/
def Origin.isSample : Origin → Bool
  | .sample _ => true
  | .entry _ _ => false

/-- The link reset reaches a core: a latch in HOLD whose SAMPLE it cancels is discarded (R16). -/
def State.dropSampleLatch (s : State) (c : CoreId) : State :=
  if (s.core c).state = .hold ∧ (s.core c).latch.any (fun e => e.origin.isSample) then s.leaveHold c else s

/-- A frame being sent is cut, and one that was chosen does not begin (R168; assumption 29): the byte that is being sent goes on
to its end and no other of the frame is sent; its notices stay in their sets without their transmission fields, its records stay
in the queue (R136, R154, R168, R173). -/
def State.cutFrame (s : State) : State :=
  { s with
    tx := none
    cutByte := s.byteSending
    choice := none
    alarms := s.alarms.map (fun n => { n with sending := none })
    notices := s.notices.map (fun n => { n with late := none }) }

/-- A link reset (R167): SAMPLE requests withdrawn, the deferred table, slots, reply queue and credits emptied, latches of
cancelled SAMPLEs discarded, the frame being sent cut, the session abandoned, LINK_RESET raised. It is taken once for each low
period. Cores are reached in ascending number (assumptions 18 and 26). -/
def State.resetLink (s : State) : State :=
  if s.lineLow then s
  else
    let s1 := { s with
      lineLow := true
      rx := { s.rx.hunting with crc := Config.crcInitial }
      slots := []
      pool := s.pool.filter (fun r => !r.origin.isSample)
      deferred := []
      replies := []
      credits := 0 }
    (((List.finRange 4).foldl State.dropSampleLatch s1.cutFrame).abandonSession).raise .linkReset

/-- The meaning of LINK_RESET. -/
def execLinkReset (s : State) : Host.Outcome State Fault Refusal := .next s.resetLink

/-- The meaning of LINE_RETURNS_HIGH: the receiver takes bytes again and the transmitter chooses (R167, R168, R170). -/
def execLineReturnsHigh (s : State) : Host.Outcome State Fault Refusal := .next { s with lineLow := false }.choose

end Sys2Proof.Machine
end

