-- ==== Sys2Proof/Machine/Transmitter.lean ====
section
/-! DEFINITION. The link transmitter (09): the beginning of the frame chosen, its contents, and the end of each kind of frame. -/

namespace Sys2Proof.Machine

/-- A frame begins; its contents are fixed (R169). -/
def State.beginFrame (kind : TxKind) (bytes : List Byte) (s : State) : State :=
  { s with tx := some { kind := kind, bytes := bytes, position := 0 }, choice := none }

/-- A REPLY frame carries the oldest reply and its tag (R170, R183). -/
def State.beginReply (r : Reply) (s : State) : State := s.beginFrame .reply (frameBytes kindReply r.tag r.payload)

/-- An alarm notice taken into a frame is marked with its new state as carried and a late count of 0 (R134). -/
def AlarmNotice.mark (n : AlarmNotice) : AlarmNotice := { n with sending := some { carried := n.newState, late := 0 } }

/-- An ALARM frame carries the oldest notices, up to 8 (R134). -/
def State.beginAlarm (s : State) : State :=
  let taken := s.alarms.take Config.maxPerFrame
  { s with alarms := taken.map AlarmNotice.mark ++ s.alarms.drop Config.maxPerFrame }.beginFrame .alarm
    (frameBytes kindAlarm 0 (alarmPayload taken))

/-- A NOTICE frame carries the oldest part notice, which is marked with a late count of 0 (R173). -/
def State.beginNotice (n : PartNotice) (rest : List PartNotice) (s : State) : State :=
  { s with notices := { n with late := some 0 } :: rest }.beginFrame .notice (frameBytes kindNotice 0 n.payload)

/-- The record count of a REPORT frame: the least of the credit count, 8 and the records queued (R151). -/
def State.reportCount (s : State) : Nat := min s.credits (min Config.maxPerFrame s.reports.length)

/-- A REPORT frame carries the oldest records (R151). -/
def State.beginReport (s : State) : State :=
  s.beginFrame (.report s.reportCount) (frameBytes kindReport 0 (reportPayload (s.reports.take s.reportCount)))

/-- The frame of the chosen item begins: the oldest reply, the oldest notices, the oldest part notice or the records that the
report queue offers (R151, R169, R170). -/
def State.beginItem (s : State) : ItemKind → State
  | .reply => match s.replies with
    | r :: _ => s.beginReply r
    | [] => s
  | .alarm => if s.alarms ≠ [] then s.beginAlarm else s
  | .notice => match s.notices with
    | n :: rest => s.beginNotice n rest
    | [] => s
  | .report => if 0 < s.credits ∧ s.reports ≠ [] then s.beginReport else s

/-- The frame of the item that the choice has fixed begins; where it is still to be made it is made now (R170). -/
def State.beginChosen (s : State) : State :=
  match s.choose.choice with
  | none => s
  | some k => s.beginItem k

/-- The meaning of TRANSMIT_FRAME_BEGIN. -/
def execTransmitFrameBegin (s : State) : Host.Outcome State Fault Refusal :=
  .next (if s.mayChoose then s.beginChosen else s)

/-- The kind of the frame being sent. -/
def State.sendingKind (s : State) : Option TxKind := s.tx.map TxFrame.kind

/-- The last byte of a REPLY frame is sent: the reply leaves the queue (R171). A byte of a frame cut before it has then ended too
(assumption 16). -/
def State.replySent (s : State) : State :=
  if s.sendingKind = some .reply then { s with tx := none, cutByte := none, replies := s.replies.tail }.choose else s

/-- The meaning of REPLY_FRAME_SENT. -/
def execReplyFrameSent (s : State) : Host.Outcome State Fault Refusal := .next s.replySent

/-- A carried alarm notice at the end of its frame: it leaves, or stays for its late transitions (R134, R135). -/
def AlarmNotice.afterFrame (n : AlarmNotice) : Option AlarmNotice :=
  match n.sending with
  | none => some n
  | some k => if k.late = 0 then none else some { n with prior := k.carried, count := k.late, sending := none }

/-- The last byte of an ALARM frame is sent (R134, R135). -/
def State.alarmSent (s : State) : State :=
  if s.sendingKind = some .alarm then
    { s with tx := none, cutByte := none, alarms := s.alarms.filterMap AlarmNotice.afterFrame }.choose
  else s

/-- The meaning of ALARM_FRAME_SENT. -/
def execAlarmFrameSent (s : State) : Host.Outcome State Fault Refusal := .next s.alarmSent

/-- The carried part notice at the end of its frame: it leaves, or stays with its late count (R173). -/
def PartNotice.afterFrame (n : PartNotice) : Option PartNotice :=
  match n.late with
  | none => some n
  | some k => if k = 0 then none else some { n with count := k, late := none }

/-- The last byte of a NOTICE frame is sent (R173). -/
def State.noticeSent (s : State) : State :=
  if s.sendingKind = some .notice then
    { s with tx := none, cutByte := none, notices := s.notices.filterMap PartNotice.afterFrame }.choose
  else s

/-- The meaning of NOTICE_FRAME_SENT. -/
def execNoticeFrameSent (s : State) : Host.Outcome State Fault Refusal := .next s.noticeSent

/-- The last byte of a REPORT frame is sent: its records leave, its credits are spent, the opened places are handed out
(R152). -/
def State.reportSent (s : State) : State :=
  match s.sendingKind with
  | some (.report n) =>
    (({ s with tx := none, cutByte := none, reports := s.reports.drop n, credits := s.credits - n } : State).handOut n).choose
  | _ => s

/-- The meaning of REPORT_FRAME_SENT; the hand-out may issue steps. -/
def execReportFrameSent (s : State) : Host.Outcome State Fault Refusal := .next s.reportSent

/-- The frame being sent moves on by one byte, up to its last, whose sending is the end of the frame (R169;
assumption 3). -/
def TxFrame.advance (f : TxFrame) : TxFrame :=
  if f.position + 1 < f.bytes.length then { f with position := f.position + 1 } else f

/-- The level of the transmit line in bit time `n`, 0 to 9, of the byte being sent; between frames, and so from the release of
reset on, the part drives the line high (R158, R168, R169). -/
def State.transmitLevel (s : State) (n : Nat) : Bool :=
  match s.byteSending with
  | none => idleLevel
  | some b => (byteLevels b).getD n idleLevel

/-- What the part does while no command waits: the byte on the transmit line ends. The first byte of a frame that has begun
follows the last one of a cut frame, and the next byte of the frame follows any other (R168, R169; assumptions 3 and 16). -/
def State.idle (s : State) : State :=
  if s.cutByte.isSome then { s with cutByte := none } else { s with tx := s.tx.map TxFrame.advance }

end Sys2Proof.Machine
end

