-- ==== Sys2Proof/Machine/Resets.lean ====
section
/-! DEFINITION. The two resets that return every block to its reset state (R24, R104, R156, R174). -/

namespace Sys2Proof.Machine

/-- The part as a power-on reset leaves it, with the straps read at it (R158); the queue of commands is no part of it. -/
def State.powerOn (straps : BitVec 2) (s : State) : State := { State.reset with bitRate := straps, pending := s.pending }

/-- The meaning of POWER_ON_RESET, in any state (R24). -/
def execPowerOnReset (straps : BitVec 2) (s : State) : Host.Outcome State Fault Refusal := .next (s.powerOn straps)

/-- The meaning of PART_RESET: the reset of a RESET_PART whose reply has been sent or removed (R174). -/
def execPartReset (straps : BitVec 2) (s : State) : Host.Outcome State Fault Refusal :=
  .next (if s.resetDue then s.powerOn straps else s)

end Sys2Proof.Machine
end

