-- ==== Sys2Proof/Machine/TableCommands.lean ====
section
/-! DEFINITION. The loading session and the commands of the table store (06). -/

namespace Sys2Proof.Machine

/-- The table id field (R181). -/
def tableField (p : List Byte) : Nat × Bool := (1, decide (byteAt p 0 ≤ 7))

/-- The expiry of the session idle timer when it starts at this moment (R110). -/
def State.sessionExpiry (s : State) : Nat := s.now + Config.sessionIdleTicks

/-- A session opens on a bank, which becomes STAGING with every place empty (R111). -/
def State.openSession (t : TableId) (n : Nat) (b : BankId) (s : State) : State :=
  { s.setBank b { state := .staging, table := some t, places := List.replicate n none, held := false } with
    session := some { table := t, bank := b, count := n, received := [], expiry := s.sessionExpiry } }

/-- BEGIN_TABLE: SESSION_OPEN, BANKS_BUSY, else the lowest FREE bank is staged (R111). -/
def beginTableOwn (f : Frame) (s : State) : Answer :=
  withFields [tableField f.payload, (2, decide (1 ≤ byteAt f.payload 1 ∧ byteAt f.payload 1 ≤ 16))]
    (if s.session.isSome then .refused .sessionOpen
     else match s.lowestFreeBank with
       | none => .refused .banksBusy
       | some b =>
         .done .ok [byte b.val] (s.openSession (tableOf (byteAt f.payload 0)) (byteAt f.payload 1) b))

/-- The meaning of BEGIN_TABLE. -/
def execBeginTable (s : State) : Host.Outcome State Fault Refusal :=
  .next (s.runCommand (ofKind kindBeginTable) (exactly 2) beginTableOwn)

/-- An index joins the received-set; one already in it stays in it once (R112). -/
def receiveIndex (received : List Nat) (i : Nat) : List Nat := if i ∈ received then received else received ++ [i]

/-- Segments are stored from index `first` on, in payload order (R112). -/
def storeSegments (first : Nat) (gs : List Segment) (places : List (Option Segment)) : List (Option Segment) :=
  (gs.zipIdx first).foldl (fun ps g => ps.set g.2 (some g.1)) places

/-- An accepted LOAD_SEGMENTS: the places are filled, the indices received, the idle timer restarts (R112). -/
def State.storeInSession (ss : Session) (first : Nat) (gs : List Segment) (s : State) : State :=
  let b := s.bank ss.bank
  { s.setBank ss.bank { b with places := storeSegments first gs b.places } with
    session := some { ss with
      received := (List.range' first gs.length).foldl receiveIndex ss.received
      expiry := s.sessionExpiry } }

/-- LOAD_SEGMENTS: field checks, NO_SESSION, the last index below the count (BAD_FIELD 1), else the segments are stored
(R112). -/
def loadSegmentsOwn (f : Frame) (s : State) : Answer :=
  withFields (loadChecks f.payload)
    (match s.session with
     | none => .refused .noSession
     | some ss =>
       let first := byteAt f.payload 0
       let n := segmentCount f.payload
       if ss.count ≤ first + n - 1 then .badField 1
       else .done .ok [] (s.storeInSession ss first ((List.range n).map (segmentOf f.payload))))

/-- The meaning of LOAD_SEGMENTS. -/
def execLoadSegments (s : State) : Host.Outcome State Fault Refusal :=
  .next (s.runCommand (ofKind kindLoadSegments) loadLength loadSegmentsOwn)

/-- The received-set holds every index below the count (R113, check 2). -/
def Session.complete (ss : Session) : Bool := (List.range ss.count).all (fun i => ss.received.contains i)

/-- The upper bounds rise strictly; `below` is the bound of the segment before, if any (R113, check 3). -/
def risingFrom : Option Nat → List (Option Segment) → Bool
  | _, [] => true
  | _, none :: _ => false
  | none, some g :: rest => risingFrom (some g.xHi) rest
  | some x, some g :: rest => decide (x < g.xHi) && risingFrom (some g.xHi) rest

/-- The bank that was ACTIVE for a table id, if any, leaves ACTIVE (R114, step 1). -/
def State.retireActive (t : TableId) (s : State) : State :=
  match s.activeBank t with
  | none => s
  | some b => s.setBank b (s.bank b).outOfService

/-- An accepted COMMIT_TABLE in one step: the old bank out, the staging bank ACTIVE, the session closed (R114). -/
def State.commit (ss : Session) (s : State) : State :=
  let s1 := s.retireActive ss.table
  { s1.setBank ss.bank { s1.bank ss.bank with state := .active } with session := none }

/-- COMMIT_TABLE: NO_SESSION, TABLE_INCOMPLETE, TABLE_ORDER, else committed (R113, R114). -/
def commitTableOwn (f : Frame) (s : State) : Answer :=
  withFields [tableField f.payload]
    (match s.session with
     | none => .refused .noSession
     | some ss =>
       if ss.table ≠ tableOf (byteAt f.payload 0) then .refused .noSession
       else if !ss.complete then .refused .tableIncomplete
       else if !risingFrom none (s.bank ss.bank).places then .refused .tableOrder
       else .done .ok [byte ss.bank.val] (s.commit ss))

/-- The meaning of COMMIT_TABLE. -/
def execCommitTable (s : State) : Host.Outcome State Fault Refusal :=
  .next (s.runCommand (ofKind kindCommitTable) (exactly 1) commitTableOwn)

/-- ABANDON_TABLE: NO_SESSION, else the staging bank is FREE and the session closed (R115). -/
def abandonTableOwn (_ : Frame) (s : State) : Answer :=
  if s.session.isNone then .refused .noSession else .done .ok [] s.abandonSession

/-- The meaning of ABANDON_TABLE. -/
def execAbandonTable (s : State) : Host.Outcome State Fault Refusal :=
  .next (s.runCommand (ofKind kindAbandonTable) (exactly 0) abandonTableOwn)

/-- DROP_TABLE: NOT_DEFINED with no ACTIVE bank, else the bank leaves ACTIVE (R117). -/
def dropTableOwn (f : Frame) (s : State) : Answer :=
  withFields [tableField f.payload]
    (let t := tableOf (byteAt f.payload 0)
     match s.activeBank t with
     | none => .refused .notDefined
     | some _ => .done .ok [] (s.retireActive t))

/-- The meaning of DROP_TABLE. -/
def execDropTable (s : State) : Host.Outcome State Fault Refusal :=
  .next (s.runCommand (ofKind kindDropTable) (exactly 1) dropTableOwn)

/-- A segment that is not there reads as zeros; an ACTIVE bank has none such (R107). -/
def Segment.zero : Segment := { xHi := 0, degree := 0, c0 := 0, c1 := 0, c2 := 0, c3 := 0 }

/-- The reply data of GET_TABLE (R118). -/
def tableData (t : TableId) (b : BankId) (k : Bank) (first : Nat) : List Byte :=
  [byte t.val, byte b.val, byte k.places.length, byte first] ++
    ((k.places.drop first).take 4).flatMap (fun g => (g.getD Segment.zero).bytes)

/-- GET_TABLE: NOT_DEFINED, a first index at or above the count (BAD_FIELD 2), else up to four segments (R118). -/
def getTableOwn (f : Frame) (s : State) : Answer :=
  withFields [tableField f.payload, (2, decide (byteAt f.payload 1 ≤ 15))]
    (let t := tableOf (byteAt f.payload 0)
     match s.activeBank t with
     | none => .refused .notDefined
     | some b =>
       if (s.bank b).places.length ≤ byteAt f.payload 1 then .badField 2
       else .done .ok (tableData t b (s.bank b) (byteAt f.payload 1)) s)

/-- The meaning of GET_TABLE. -/
def execGetTable (s : State) : Host.Outcome State Fault Refusal :=
  .next (s.runCommand (ofKind kindGetTable) (exactly 2) getTableOwn)

/-- The idle timer of an OPEN session expires: the session is abandoned and the notice raised (R116). -/
def State.expireSession (s : State) : State :=
  match s.session with
  | none => s
  | some ss => (((s.advanceTo ss.expiry).abandonSession).raise .sessionExpired).choose

/-- The meaning of SESSION_IDLE_TIMEOUT. -/
def execSessionIdleTimeout (s : State) : Host.Outcome State Fault Refusal := .next s.expireSession

end Sys2Proof.Machine
end

