-- ==== Sys2Proof/Machine/Dispatch.lean ====
section
/-! DEFINITION. The dispatch: one arm per row of spec/opcode_table.json, each one call of the row's meaning. -/

namespace Sys2Proof.Machine

/-- The effect of a command on everything but the queue. -/
def exec (i : Instr) (s : State) : Host.Outcome State Fault Refusal :=
  match i with
  | .powerOnReset straps => Sys2Proof.Machine.execPowerOnReset straps s
  | .partReset straps => Sys2Proof.Machine.execPartReset straps s
  | .identify => Sys2Proof.Machine.execIdentify s
  | .getStatus => Sys2Proof.Machine.execGetStatus s
  | .resetPart => Sys2Proof.Machine.execResetPart s
  | .grantCredits => Sys2Proof.Machine.execGrantCredits s
  | .setChannel => Sys2Proof.Machine.execSetChannel s
  | .getChannel => Sys2Proof.Machine.execGetChannel s
  | .clearChannel => Sys2Proof.Machine.execClearChannel s
  | .sample => Sys2Proof.Machine.execSample s
  | .setList => Sys2Proof.Machine.execSetList s
  | .getList => Sys2Proof.Machine.execGetList s
  | .clearList => Sys2Proof.Machine.execClearList s
  | .startList => Sys2Proof.Machine.execStartList s
  | .stopListDrain => Sys2Proof.Machine.execStopListDrain s
  | .stopListAbort => Sys2Proof.Machine.execStopListAbort s
  | .triggerList => Sys2Proof.Machine.execTriggerList s
  | .beginTable => Sys2Proof.Machine.execBeginTable s
  | .loadSegments => Sys2Proof.Machine.execLoadSegments s
  | .commitTable => Sys2Proof.Machine.execCommitTable s
  | .abandonTable => Sys2Proof.Machine.execAbandonTable s
  | .dropTable => Sys2Proof.Machine.execDropTable s
  | .getTable => Sys2Proof.Machine.execGetTable s
  | .takeCoreOffline => Sys2Proof.Machine.execTakeCoreOffline s
  | .restoreCore => Sys2Proof.Machine.execRestoreCore s
  | .unknownCommand => Sys2Proof.Machine.execUnknownCommand s
  | .frameReceived bytes => Sys2Proof.Machine.execFrameReceived bytes s
  | .incompletenessTimeout => Sys2Proof.Machine.execIncompletenessTimeout s
  | .framingError => Sys2Proof.Machine.execFramingError s
  | .linkReset => Sys2Proof.Machine.execLinkReset s
  | .lineReturnsHigh => Sys2Proof.Machine.execLineReturnsHigh s
  | .transmitFrameBegin => Sys2Proof.Machine.execTransmitFrameBegin s
  | .replyFrameSent => Sys2Proof.Machine.execReplyFrameSent s
  | .reportFrameSent => Sys2Proof.Machine.execReportFrameSent s
  | .alarmFrameSent => Sys2Proof.Machine.execAlarmFrameSent s
  | .noticeFrameSent => Sys2Proof.Machine.execNoticeFrameSent s
  | .grant => Sys2Proof.Machine.execGrant s
  | .settleEnd core => Sys2Proof.Machine.execSettleEnd core s
  | .refPhaseComplete core count => Sys2Proof.Machine.execRefPhaseComplete core count s
  | .refPhaseTimeout core => Sys2Proof.Machine.execRefPhaseTimeout core s
  | .sensePhaseComplete core count => Sys2Proof.Machine.execSensePhaseComplete core count s
  | .sensePosComplete core count => Sys2Proof.Machine.execSensePosComplete core count s
  | .senseNegComplete core count => Sys2Proof.Machine.execSenseNegComplete core count s
  | .senseTimeout core => Sys2Proof.Machine.execSenseTimeout core s
  | .dischargeEnd core => Sys2Proof.Machine.execDischargeEnd core s
  | .checkPeriodsComplete core count => Sys2Proof.Machine.execCheckPeriodsComplete core count s
  | .checkLimitExpiry core => Sys2Proof.Machine.execCheckLimitExpiry core s
  | .checkDischargeEnd core => Sys2Proof.Machine.execCheckDischargeEnd core s
  | .restEnd input => Sys2Proof.Machine.execRestEnd input s
  | .periodExpiry list => Sys2Proof.Machine.execPeriodExpiry list s
  | .holdServed => Sys2Proof.Machine.execHoldServed s
  | .evaluationStart => Sys2Proof.Machine.execEvaluationStart s
  | .evaluationComplete => Sys2Proof.Machine.execEvaluationComplete s
  | .retire list => Sys2Proof.Machine.execRetire list s
  | .abortComplete list => Sys2Proof.Machine.execAbortComplete list s
  | .sessionIdleTimeout => Sys2Proof.Machine.execSessionIdleTimeout s
  | .startByte => Sys2Proof.Machine.execStartByte s
  | .lengthOutOfRange len => Sys2Proof.Machine.execLengthOutOfRange len s

end Sys2Proof.Machine
end

