-- ==== Sys2Proof/Machine/Analog.lean ====
section
/-! DEFINITION. What a core does at its analog side (00 "Scope of this manual", R5 to R8, R10, R17, R25): its switches, the
excitation of the sensor and the use of its capacitor. All of it follows from the core's record and the input records, so no
field of State holds it (assumption 25). -/

namespace Sys2Proof.Machine

/-- The polarity of the excitation with which a core drives a sensor (R5, R8). -/
inductive Polarity where
  | forward
  | reverse
  deriving DecidableEq, Repr

/-- What a core does with its timing capacitor. -/
inductive Capacitor where
  /-- No rule has it in use. -/
  | unused
  /-- It oscillates through the core's own resistor at that reference position (R6, R17, R33). -/
  | throughReference (r : Reference)
  /-- It oscillates through the sensor at the claimed input (R7, R8). -/
  | throughSensor
  /-- It is discharged: shorted to its lower rail (R10, R17). -/
  | shorted
  deriving DecidableEq, Repr

/-- The position of the core's reference switch: the channel's reference, from SELECT on for as long as the core holds the
conversion parameters (R5, R6); in a check the reference that is checked (R17). -/
def Core.referenceSwitch (k : Core) : Option Reference :=
  match k.state with
  | .checkA => some .refA
  | .checkB => some .refB
  | _ => k.params.map Params.reference

/-- The excitation with which the core drives the sensor it is connected to: forward in SELECT, SENSE and SENSE_POS, reversed in
SENSE_NEG (R5, R7, R8), and none in the other states (assumption 28). -/
def Core.excitation (k : Core) : Option Polarity :=
  match k.state with
  | .select | .sense | .sensePos => some .forward
  | .senseNeg => some .reverse
  | _ => none

/-- The use of the core's capacitor: it oscillates through the selected reference in REF and in a check, through the sensor in a
sense measurement, and is shorted in DISCHARGE and in the discharge of a check (R6 to R8, R10, R17). -/
def Core.capacitor (k : Core) : Capacitor :=
  let reference := match k.referenceSwitch with
    | none => .unused
    | some r => .throughReference r
  match k.state with
  | .ref => reference
  | .sense | .sensePos | .senseNeg => .throughSensor
  | .discharge => .shorted
  | .checkA | .checkB => if k.checkPassed.isNone then reference else .shorted
  | _ => .unused

/-- The inputs to whose switches a core is connected: those whose claiming core it is (R25). -/
def State.connected (s : State) (c : CoreId) (i : InputId) : Bool := decide (s.input i = .claimed c)

/-- The excitation of the sensor at an input: that of the claiming core; an input that no core claims is disconnected (R25). -/
def State.excitationAt (s : State) (i : InputId) : Option Polarity :=
  match s.input i with
  | .claimed c => (s.core c).excitation
  | _ => none

/-- The sensor at an input carries oscillator current: its claiming core oscillates through it. In REF the sensor stays
connected and carries none (R6, R25). -/
def State.oscillatesAt (s : State) (i : InputId) : Bool :=
  match s.input i with
  | .claimed c => decide ((s.core c).capacitor = .throughSensor)
  | _ => false

end Sys2Proof.Machine
end

