-- ==== Sys2Proof/Safety.lean ====
section
/-! DEFINITION. What counts as a safe run: the properties of a state that the spec says every step keeps, in the terms the
obligations use. Each is a property of one state; a run is safe when all its states have them. -/

namespace Sys2Proof.Safety

open Sys2Proof.Machine

/-- A step from a state with the property leads only to states with it. -/
def KeptByStep (P : State → Prop) : Prop := ∀ s t : State, P s → step s = .next t → P t

/-- No step of the part ends in a fault or a refusal. -/
def NeverStops : Prop := ∀ s : State, ∃ t : State, step s = .next t

/-! ### Capacities (R90, R139, R149, R164, R171, R182) -/

/-- What a frame being sent promises of its collection: a REPORT frame carries 1 to 8 records that are in the queue and for
which there is credit (R139, R149, R151), a REPLY frame the reply at the head (R171). -/
def SendingSound (s : State) : Prop :=
  match s.sendingKind with
  | some (.report n) => 1 ≤ n ∧ n ≤ 8 ∧ n ≤ s.reports.length ∧ n ≤ s.credits
  | some .reply => s.replies ≠ []
  | _ => True

/-- No collection holds more than its places, and while the last byte of a cut frame is being sent, a frame that has begun
behind it is at its first byte (R168, R169; assumptions 3 and 16). -/
def WithinCapacity (s : State) : Prop :=
  s.slots.length ≤ 4 ∧ s.deferred.length ≤ 4 ∧ s.replies.length + s.deferred.length ≤ 8 ∧ s.reports.length ≤ 64 ∧
    s.credits ≤ 255 ∧ s.evalQueue.length ≤ 6 ∧ SendingSound s ∧
    (s.cutByte = none ∨ ∀ f, s.tx = some f → f.position = 0)

/-! ### Names held once (R130, R172, R182) -/

/-- No two deferred entries carry the same tag, and none carries tag 0 (R182). -/
def TagsDistinct (s : State) : Prop := (s.deferred.map Deferred.tag).Nodup ∧ ∀ d ∈ s.deferred, d.tag ≠ 0

/-- A count of a notice is 1 to 255. -/
def CountInRange (n : Nat) : Prop := 1 ≤ n ∧ n ≤ 255

/-- At most one alarm notice per channel and one part notice per kind and subject, each with a count of 1 to 255 (R130, R131,
R172). -/
def NoticesDistinct (s : State) : Prop :=
  (s.alarms.map AlarmNotice.channel).Nodup ∧ (∀ n ∈ s.alarms, CountInRange n.count) ∧
    (∀ n ∈ s.alarms, ∀ k, n.sending = some k → k.late ≤ 255) ∧
    (s.notices.map (fun n => n.event.key)).Nodup ∧ (∀ n ∈ s.notices, CountInRange n.count) ∧
    ∀ n ∈ s.notices, ∀ k, n.late = some k → k ≤ 255

/-! ### Ordering windows (R51, R53, R59) -/

/-- A list record with its window as the spec describes it: a configuration in range exactly when not EMPTY; entries exactly in
RUNNING and DRAINING, at most concurrency of them; they are the steps issued last, in step order, each with the channel the
step names and the list's cycle number; the cursor is at most the step count. -/
def ListSound (r : ListRec) : Prop :=
  match r.config with
  | none => r.state = .empty ∧ r.window = []
  | some c =>
    r.state ≠ .empty ∧ (1 ≤ c.concurrency ∧ c.concurrency ≤ 4) ∧ (1 ≤ c.steps.length ∧ c.steps.length ≤ 32) ∧
      (r.window ≠ [] ↔ r.state = .running ∨ r.state = .draining) ∧ r.window.length ≤ c.concurrency ∧
      r.window.length ≤ r.cursor ∧ r.cursor ≤ c.steps.length ∧
      r.window.map Entry.step = List.range' (r.cursor - r.window.length) r.window.length ∧
      ∀ e ∈ r.window, c.steps[e.step]? = some e.channel ∧ e.cycle = r.cycle

/-- Every list has a sound record. -/
def WindowsOrdered (s : State) : Prop := ∀ l : ListId, ListSound (s.list l)

/-- Triggers and timers of a list: the period timer runs exactly for a PERIODIC list in ARMED or RUNNING, start-pending is set
in RUNNING only, and an EMPTY or IDLE list holds no skipped starts, of which there are at most 255 (R44, R51, R54, R58). -/
def TriggerSound (r : ListRec) : Prop :=
  (r.timer.isSome = true ↔
      (∃ c p, r.config = some c ∧ c.trigger = .periodic p) ∧ (r.state = .armed ∨ r.state = .running)) ∧
    (r.startPending = true → r.state = .running) ∧ (r.state = .empty ∨ r.state = .idle → r.skipped = 0) ∧
    r.skipped ≤ 255 ∧ (r.state = .empty ↔ r.config = none)

/-- Every list has sound triggers. -/
def TriggersSound (s : State) : Prop := ∀ l : ListId, TriggerSound (s.list l)

/-! ### Claims (R3, R4, R26, R27) -/

/-- A core claims an input exactly when the matrix records it as the claiming core; it serves that input; and it claims one
exactly in SELECT to DISCHARGE. -/
def ClaimsAgree (s : State) : Prop :=
  (∀ c : CoreId, ∀ i : InputId, (s.core c).claimed = some i ↔ s.input i = .claimed c) ∧
    (∀ c : CoreId, ∀ i : InputId, (s.core c).claimed = some i → serves c i = true) ∧
    ∀ c : CoreId, (s.core c).claimed.isSome = (s.core c).state.isConverting

/-! ### The HOLD order (R3, R93) -/

/-- A latch is present exactly in HOLD, and the HOLD order lists exactly the cores in HOLD, each once. -/
abbrev HoldSound (s : State) : Prop :=
  (∀ c : CoreId, (s.core c).latch.isSome = decide ((s.core c).state = .hold)) ∧
    (∀ c : CoreId, c ∈ s.holdOrder ↔ (s.core c).state = .hold) ∧ s.holdOrder.Nodup

/-! ### Banks and session (R107, R108, R110) -/

/-- The engine's evaluation references the bank. -/
def References (s : State) (b : BankId) : Prop := ∃ e, s.engine = some e ∧ e.bank = some b

/-- The banks and the session: a bank is STAGING exactly when it is the open session's; at most one bank is ACTIVE for a table
id; a bank is held exactly while the engine references it; a held bank is ACTIVE or RETIRING, and a RETIRING bank is held; a
FREE bank holds nothing. -/
def BanksSound (s : State) : Prop :=
  (∀ b : BankId, (s.bank b).state = .staging ↔ ∃ ss, s.session = some ss ∧ ss.bank = b) ∧
    (∀ ss, s.session = some ss → (s.bank ss.bank).table = some ss.table ∧ (s.bank ss.bank).places.length = ss.count) ∧
    (∀ b b' : BankId, ∀ t, (s.bank b).state = .active → (s.bank b').state = .active → (s.bank b).table = some t →
      (s.bank b').table = some t → b = b') ∧
    (∀ b : BankId, (s.bank b).held = true ↔ References s b) ∧
    (∀ b : BankId, (s.bank b).held = true → (s.bank b).state = .active ∨ (s.bank b).state = .retiring) ∧
    (∀ b : BankId, (s.bank b).state = .retiring → (s.bank b).held = true) ∧
    ∀ b : BankId, (s.bank b).state = .free → s.bank b = Bank.freeBank

/-! ### Definitions (R38, R47) -/

/-- Every step of a defined list names a DEFINED channel (R38). -/
def StepsDefined (s : State) : Prop :=
  ∀ l : ListId, ∀ ch ∈ (s.list l).steps, (s.channel ch).config.isSome = true

/-- Following sources from `src`, the list `target` is reached: the relation that the chain test of SET_LIST decides (R47). -/
inductive Reaches (s : State) (target : ListId) : ListId → Prop where
  | here : Reaches s target target
  | next (a b : ListId) : (s.list a).chainedTo b = true → Reaches s target b → Reaches s target a

/-- A list has a configuration exactly when it is not EMPTY; every CHAINED list names a defined source; the sources of the
defined lists form no loop (R47). -/
def SourcesSound (s : State) : Prop :=
  (∀ l : ListId, (s.list l).state = .empty ↔ (s.list l).config = none) ∧
    ∀ l m : ListId, (s.list l).chainedTo m = true → (s.list m).config.isSome = true ∧ ¬ Reaches s l m

/-! ### Outstanding work (R69 to R71) -/

/-- The core runs the DISCHARGE of a cancelled conversion of the list. -/
def cancelledFor (k : Core) (l : ListId) : Bool :=
  decide (k.state = .discharge) && k.cancelled && k.params.any (fun p => p.origin.ofList l)

/-- The evaluation in progress is void and of the list. -/
def voidFor (s : State) (l : ListId) : Bool := s.engine.any (fun e => e.void && e.origin.ofList l)

/-- The cancelled and void work of a list still in cores and engine. -/
def cancelledWork (s : State) (l : ListId) : Nat :=
  (List.finRange 4).countP (fun c => cancelledFor (s.core c) l) + (if voidFor s l then 1 else 0)

/-- The outstanding count of every list counts exactly its work still in cores and engine, only an ABORTING list has any, and
no core that has an input before DISCHARGE carries the cancelled mark (R5, R15, R71). -/
def OutstandingExact (s : State) : Prop :=
  (∀ l : ListId, (s.list l).outstanding = cancelledWork s l ∧ ((s.list l).state ≠ .aborting → cancelledWork s l = 0)) ∧
    ∀ c : CoreId, (s.core c).cancelled = true → (s.core c).state.isConverting = true → (s.core c).state = .discharge

/-! ### Where the work of a window entry or SAMPLE is (R3, R59, R61, R71, R73, R182) -/

/-- A conversion on a core that is not cancelled: its origin. -/
def convertingFor (k : Core) : Option Origin :=
  if k.state.isConverting ∧ k.cancelled = false then k.params.map Params.origin else none

/-- The origin of the latch of a core in HOLD. -/
def latchedFor (k : Core) : Option Origin := if k.state = .hold then k.latch.map RatioEntry.origin else none

/-- The origin of an evaluation in progress that is not void. -/
def evaluatingFor (s : State) : List Origin :=
  match s.engine with
  | none => []
  | some e => if e.void then [] else [e.origin]

/-- All live work: each origin with the stage that a window entry with its work there is in. -/
def liveWork (s : State) : List (Origin × Stage) :=
  s.pool.map (fun r => (r.origin, .waiting)) ++
    (List.finRange 4).filterMap (fun c => (convertingFor (s.core c)).map (fun o => (o, .converting))) ++
    (List.finRange 4).filterMap (fun c => (latchedFor (s.core c)).map (fun o => (o, .converting))) ++
    s.evalQueue.map (fun e => (e.origin, .evaluating)) ++ (evaluatingFor s).map (fun o => (o, .evaluating))

/-- The stage is READY. -/
def isReady : Stage → Bool
  | .ready _ => true
  | _ => false

/-- Every window entry that is not READY has its work in exactly one place, the one its stage names, and there is no other live
work of a list. -/
def EntriesHaveWork (s : State) : Prop :=
  ∀ (l : ListId) (k : Nat) (st : Stage), isReady st = false →
    (liveWork s).count (.entry l k, st) = ((s.list l).window.map (fun e => (e.step, e.stage))).count (k, st)

/-- Every pending SAMPLE has its work in exactly one place, no SAMPLE origin has two, a request of the pool has a pending SAMPLE,
and every `uid` in use is an old one. -/
def SamplesHaveWork (s : State) : Prop :=
  (s.deferred.map Deferred.uid).Nodup ∧ (∀ d ∈ s.deferred, d.uid < s.nextUid) ∧
    (∀ u, ((liveWork s).map Prod.fst).count (.sample u) ≤ 1) ∧
    (∀ u, .sample u ∈ (liveWork s).map Prod.fst → u < s.nextUid) ∧
    (∀ d ∈ s.deferred, ∀ ch, d.subject = .sample ch → .sample d.uid ∈ (liveWork s).map Prod.fst) ∧
    ∀ r ∈ s.pool, ∀ u, r.origin = .sample u → (s.findSample u).isSome = true

/-- A core from SELECT to DISCHARGE has its parameters, and one in DISCHARGE has its outcome unless it is cancelled (R3, R9). -/
def CoresSound (s : State) : Prop :=
  ∀ c : CoreId, ((s.core c).state.isConverting = true → (s.core c).params.isSome = true) ∧
    ((s.core c).state = .discharge → (s.core c).cancelled = false → (s.core c).meas.outcome.isSome = true)

/-- Every piece of promised work is somewhere, once: the windows, the HOLD order and the cores are sound, and every window entry
and every pending SAMPLE has its work in the one place its stage names. -/
def WorkSound (s : State) : Prop :=
  WindowsOrdered s ∧ StepsDefined s ∧ HoldSound s ∧ CoresSound s ∧ EntriesHaveWork s ∧ SamplesHaveWork s

/-- The pool is in order of arrival, and its ages are those of grant events that have been taken (R73, R74). -/
def PoolInOrder (s : State) : Prop :=
  s.pool.Pairwise (fun x y => x.age < y.age) ∧ ∀ r ∈ s.pool, r.age < s.nextEvent

/-! ### The blocked order (R140 to R142) -/

/-- The blocked order holds each list at most once, each with a READY head and full policy HOLD, and only while the report queue
is full: a free place and a blocked list do not exist together. -/
def BlockedSound (s : State) : Prop :=
  s.blocked.Nodup ∧ (∀ l ∈ s.blocked, (s.list l).readyHead.isSome = true ∧ (s.list l).policy = .hold) ∧
    (s.blocked ≠ [] → s.reports.length = 64)

/-! ### Table contents (R107, R110) -/

/-- Every place of an ACTIVE or RETIRING bank holds a segment and the upper bounds rise strictly; the received-set of the open
session names each index once and exactly those whose place holds a segment; a bank that is not FREE has 1 to 16 places. -/
def TablesSound (s : State) : Prop :=
  (∀ b : BankId, (s.bank b).state = .active ∨ (s.bank b).state = .retiring → risingFrom none (s.bank b).places = true) ∧
    (∀ b : BankId, (s.bank b).state ≠ .free → 1 ≤ (s.bank b).places.length ∧ (s.bank b).places.length ≤ 16) ∧
    ∀ ss, s.session = some ss → ss.received.Nodup ∧
      ∀ i, i ∈ ss.received ↔ ∃ g, (s.bank ss.bank).places[i]? = some (some g)

/-! ### Vocabulary of the statements: the transmitter's choice (R151, R170, R174) -/

/-- The transmitter is IDLE, no break holds the line, and the reset of RESET_PART is not due (R168, R170; assumption 23). -/
abbrev FreeToChoose (s : State) : Prop :=
  s.tx = none ∧ s.lineLow = false ∧
    (s.cmdUnit = .stopped → ∃ r ∈ s.replies, r.kind = 0x03#8 ∧ r.outcome = .ok)

/-- The first available item in the order REPLY, ALARM, NOTICE, REPORT; records are offered while there are credits (R151,
R170). -/
def firstAvailable (s : State) : Option ItemKind :=
  if s.replies ≠ [] then some .reply
  else if s.alarms ≠ [] then some .alarm
  else if s.notices ≠ [] then some .notice
  else if 0 < s.credits ∧ s.reports ≠ [] then some .report
  else none

/-- The state after the choice of a transmitter that may choose and has not yet: it takes the first available item. Any other
choice is as it was, and so is all else (R170; assumption 29). -/
def chosen (s : State) : State :=
  { s with choice := if FreeToChoose s ∧ s.choice = none then firstAvailable s else s.choice }

/-- The item whose frame begins next: the one chosen, and where the choice is still to be made the first available. -/
abbrev BeginsNext (s : State) (k : ItemKind) : Prop := s.choice = some k ∨ s.choice = none ∧ firstAvailable s = some k

/-- The choice stands only while the transmitter is IDLE on a line that is free, and on an item that there is; and where the
transmitter may choose and has not, nothing is available. That a choice stands before its frame begins is the model's own
(assumption 29), and while the reset is due there is no choice to make (assumption 23). -/
def ChoiceSound (s : State) : Prop :=
  (∀ k, s.choice = some k → s.tx = none ∧ s.lineLow = false ∧ match k with
      | .reply => s.replies ≠ []
      | .alarm => s.alarms ≠ []
      | .notice => s.notices ≠ []
      | .report => 0 < s.credits ∧ s.reports ≠ []) ∧
    (FreeToChoose s → s.choice = none → firstAvailable s = none)

/-! ### Vocabulary of the statements: the command unit (R177, R179 to R181) -/

/-- The unit is TAKING, has room for one more reply, and `f` is the frame in the oldest full slot (R177). -/
abbrev Takes (s : State) (f : Frame) (rest : List Frame) : Prop :=
  s.slots = f :: rest ∧ s.cmdUnit = .taking ∧ s.replies.length + s.deferred.length < 8

/-- The frame that the unit takes is of the kind and passes the checks of its tag (R179, checks 1 to 3). -/
abbrev Addressed (kind : Byte) (s : State) (f : Frame) (rest : List Frame) : Prop :=
  Takes s f rest ∧ f.kind = kind ∧ f.tag ≠ 0 ∧ ∀ d ∈ s.deferred, d.tag ≠ f.tag

/-- The state after an execution that leaves `s` and queues a reply: the slot is emptied, and an IDLE transmitter has chosen
(R170, R178, R188; assumption 29). -/
def answered (s : State) (f : Frame) (rest : List Frame) (o : OutcomeCode) (data : List Byte) : State :=
  chosen { s with replies := s.replies ++ [{ tag := f.tag, kind := f.kind, outcome := o, data := data }], slots := rest }

/-- The row that executes a frame, by the kind codes of R187; a STOP_LIST frame by its mode byte. -/
def rowOf (f : Frame) : Instr :=
  match f.kind.toNat with
  | 0x01 => .identify
  | 0x02 => .getStatus
  | 0x03 => .resetPart
  | 0x04 => .grantCredits
  | 0x08 => .setChannel
  | 0x09 => .getChannel
  | 0x0A => .clearChannel
  | 0x0B => .sample
  | 0x10 => .setList
  | 0x11 => .getList
  | 0x12 => .clearList
  | 0x13 => .startList
  | 0x14 => if f.payload[1]? = some 1#8 then .stopListAbort else .stopListDrain
  | 0x15 => .triggerList
  | 0x18 => .beginTable
  | 0x19 => .loadSegments
  | 0x1A => .commitTable
  | 0x1B => .abandonTable
  | 0x1C => .dropTable
  | 0x1D => .getTable
  | 0x1E => .takeCoreOffline
  | 0x1F => .restoreCore
  | _ => .unknownCommand

/-- The rows that execute a frame of a command slot. -/
def hostRows : List Instr :=
  [.identify, .getStatus, .resetPart, .grantCredits, .setChannel, .getChannel, .clearChannel, .sample, .setList, .getList,
   .clearList, .startList, .stopListDrain, .stopListAbort, .triggerList, .beginTable, .loadSegments, .commitTable,
   .abandonTable, .dropTable, .getTable, .takeCoreOffline, .restoreCore, .unknownCommand]

/-- The payload lengths a kind allows (R180 and the command summary of 10.5); false for a kind that is no command. -/
def lengthFits (f : Frame) : Bool :=
  let n := f.payload.length
  match f.kind.toNat with
  | 0x01 | 0x02 | 0x03 | 0x1B => decide (n = 0)
  | 0x04 | 0x09 | 0x0A | 0x0B | 0x11 | 0x12 | 0x13 | 0x15 | 0x1A | 0x1C | 0x1E | 0x1F => decide (n = 1)
  | 0x14 | 0x18 | 0x1D => decide (n = 2)
  | 0x08 => decide (n = 25)
  | 0x10 => decide (11 ≤ n ∧ n = 11 + (f.payload.getD 10 0).toNat)
  | 0x19 => decide (n = 21 ∨ n = 41 ∨ n = 61 ∨ n = 81)
  | _ => false

/-- The refusal that the first four common checks give, in their order (R179). -/
def commonRefusal (s : State) (f : Frame) : Option OutcomeCode :=
  if rowOf f = .unknownCommand then some .unknownCommand
  else if f.tag = 0 then some .badTag
  else if ∃ d ∈ s.deferred, d.tag = f.tag then some .tagInUse
  else if lengthFits f = false then some .badLength
  else none

/-- The greatest value of field 1 of a command whose payload begins with the number of its subject (10.5). -/
def subjectLimit (kind : Byte) : Option Nat :=
  match kind.toNat with
  | 0x09 | 0x0A | 0x0B => some 31
  | 0x11 | 0x12 | 0x13 | 0x14 | 0x15 | 0x18 | 0x1A | 0x1C | 0x1D => some 7
  | 0x1E | 0x1F => some 3
  | _ => none

/-! ### Vocabulary: codes (R188) -/

/-- The status codes. -/
def statusCode (st : Status) : Byte :=
  byte (([.ok, .saturated, .refStall, .openLead, .short, .asymmetric, .overRange, .noCore, .noTable, .outOfTable] :
    List Status).idxOf st)

/-- The alarm state codes. -/
def alarmCode (a : AlarmState) : Byte :=
  byte (([.inactive, .pending, .normal, .high, .low, .fault] : List AlarmState).idxOf a)

/-- The core state codes. -/
def coreCode (st : CoreState) : Byte :=
  byte (([.idle, .select, .ref, .sense, .sensePos, .senseNeg, .discharge, .hold, .checkA, .checkB, .offline] :
    List CoreState).idxOf st)

/-- The list state codes. -/
def listCode (st : ListState) : Byte :=
  byte (([.empty, .idle, .armed, .running, .draining, .aborting] : List ListState).idxOf st)

/-- The bank state codes. -/
def bankCode (st : BankState) : Byte := byte (([.free, .staging, .active, .retiring] : List BankState).idxOf st)

/-- The window stage codes. -/
def stageCode : Stage → Byte
  | .waiting => 0
  | .converting => 1
  | .evaluating => 2
  | .ready _ => 3

/-- The trigger codes. -/
def triggerCode : Trigger → Byte
  | .continuous => 0
  | .periodic _ => 1
  | .onCommand => 2
  | .chained _ => 3

/-- The outcome codes. -/
def outcomeCode (o : OutcomeCode) : Byte :=
  ([(.ok, 0x00), (.okAfterCurrent, 0x01), (.unknownCommand, 0x10), (.badTag, 0x11), (.tagInUse, 0x12), (.badLength, 0x13),
    (.badField, 0x14), (.notDefined, 0x20), (.inUse, 0x21), (.wrongState, 0x22), (.noRoom, 0x23), (.chainLoop, 0x24),
    (.stepPoolFull, 0x25), (.banksBusy, 0x26), (.sessionOpen, 0x27), (.noSession, 0x28), (.tableIncomplete, 0x29),
    (.tableOrder, 0x2A), (.checkFailed, 0x2B)] : List (OutcomeCode × Byte)).lookup o |>.getD 0

/-! ### Vocabulary: layouts (R187, R189, R190, 10.5) -/

/-- A number in two bytes, the low one first. -/
def twoBytes (n : Nat) : List Byte := [byte n, byte (n / 256)]

/-- A signed 32-bit number in four bytes, two's complement, the lowest first. -/
def fourBytes (v : Int) : List Byte :=
  let n := (v % 4294967296).toNat
  [byte n, byte (n / 256), byte (n / 65536), byte (n / 16777216)]

/-- The 25 bytes of a channel configuration in the order of R189; absent limits are 0 (10.5). -/
def channelLayout (ch : ChannelId) (c : ChannelConfig) : List Byte :=
  [byte ch.val, byte c.input.val, if c.reference = .refA then 0 else 1, if c.excitation = .dc then 0 else 1, byte c.gate,
    byte c.settle] ++ twoBytes c.phaseLimit ++
    [byte c.rest, match c.table with | none => 255 | some t => byte t.val, byte c.shift, if c.includeRaw then 1 else 0] ++
    match c.limits with
    | none => List.replicate 13 0
    | some k => [1] ++ fourBytes k.low ++ fourBytes k.high ++ fourBytes k.hysteresis

/-- The bytes of a list configuration in the order of R190 with a source byte and a period. -/
def listLayoutWith (l : ListId) (c : ListConfig) (source : Byte) (period : Nat) : List Byte :=
  [byte l.val, triggerCode c.trigger, source] ++ twoBytes period ++ twoBytes c.cycles ++
    [byte c.priority.val, byte c.concurrency, if c.policy = .discard then 0 else 1, byte c.steps.length] ++
    c.steps.map (fun ch => byte ch.val)

/-- The bytes of a list configuration as GET_LIST reports it: a source and a period that are not stored are 0 (10.5). -/
def listLayout (l : ListId) (c : ListConfig) : List Byte :=
  match c.trigger with
  | .chained m => listLayoutWith l c (byte m.val) 0
  | .periodic p => listLayoutWith l c 0 p
  | _ => listLayoutWith l c 0 0

/-- A segment in the 20 bytes of R190. -/
def segmentLayout (g : Segment) : List Byte :=
  [byte g.xHi, byte (g.xHi / 256), byte (g.xHi / 65536), byte g.degree] ++ fourBytes g.c0 ++ fourBytes g.c1 ++
    fourBytes g.c2 ++ fourBytes g.c3

/-- The reply data of a SAMPLE (10.5): channel, status, presence (bit 0 the ratio, bit 1 the value), three bytes of ratio, four
of value; an absent field is 0. -/
def sampleLayout (ch : ChannelId) (r : Result) : List Byte :=
  let ratio := r.ratio.getD 0
  [byte ch.val, statusCode r.status, byte ((if r.ratio.isSome then 1 else 0) + (if r.value.isSome then 2 else 0)),
    byte ratio, byte (ratio / 256), byte (ratio / 65536)] ++ fourBytes (r.value.getD 0)

/-- One bit enters the check register, which shifts left; where the bit shifted out differs from it, 1021h is added modulo 2
(R161). -/
def checkStep (crc : Num16) (bit : Bool) : Num16 := if crc.getLsbD 15 = bit then crc <<< 1 else crc <<< 1 ^^^ 0x1021#16

/-- The check of bytes in the order sent, each with its most significant bit first, from 0FFFFh (R161). -/
def checkOf (bs : List Byte) : Num16 :=
  (bs.flatMap (fun b => [b.getLsbD 7, b.getLsbD 6, b.getLsbD 5, b.getLsbD 4, b.getLsbD 3, b.getLsbD 2, b.getLsbD 1,
    b.getLsbD 0])).foldl checkStep 0xFFFF#16

/-! ### Vocabulary: payloads (R35, R46, R189, R190) -/

/-- The byte of a payload as a number. -/
def num (p : List Byte) (i : Nat) : Nat := (p.getD i 0).toNat

/-- Two bytes of a payload, the low one first. -/
def num16 (p : List Byte) (i : Nat) : Nat := num p i + 256 * num p (i + 1)

/-- Four bytes of a payload, the lowest first. -/
def num32 (p : List Byte) (i : Nat) : Nat := num16 p i + 65536 * num16 p (i + 2)

/-- Four bytes of a payload as a two's complement number. -/
def int32 (p : List Byte) (i : Nat) : Int :=
  if num32 p i < 2147483648 then (num32 p i : Int) else (num32 p i : Int) - 4294967296

/-- The first field of a SET_CHANNEL payload that is out of range (R35, R189). -/
def channelFault (p : List Byte) : Option Nat :=
  if 31 < num p 0 then some 1
  else if 15 < num p 1 then some 2
  else if 1 < num p 2 then some 3
  else if 1 < num p 3 then some 4
  else if num p 4 < 4 ∨ 12 < num p 4 ∨ (num p 3 = 1 ∧ num p 4 = 4) then some 5
  else if num16 p 6 = 0 ∨ 1000 < num16 p 6 then some 7
  else if 7 < num p 9 ∧ num p 9 ≠ 255 then some 9
  else if 7 < num p 10 then some 10
  else if 1 < num p 11 then some 11
  else if 1 < num p 12 then some 12
  else if num p 12 = 1 ∧ int32 p 17 ≤ int32 p 13 then some 14
  else if num p 12 = 1 ∧ int32 p 17 - int32 p 13 < num32 p 21 then some 15
  else none

/-- The configuration of a channel is in the ranges of R31. -/
def ValidChannel (c : ChannelConfig) : Prop :=
  (4 ≤ c.gate ∧ c.gate ≤ 12) ∧ (c.excitation = .alternating → 5 ≤ c.gate) ∧ c.settle ≤ 255 ∧
    (1 ≤ c.phaseLimit ∧ c.phaseLimit ≤ 1000) ∧ c.rest ≤ 255 ∧ c.shift ≤ 7 ∧
    ∀ k, c.limits = some k → -2147483648 ≤ k.low ∧ k.low < k.high ∧ k.high ≤ 2147483647 ∧ (k.hysteresis : Int) ≤ k.high - k.low

/-- The payload spells the configuration for the channel in the layout of R189; with limits marked absent the last twelve bytes
may be any. -/
def ChannelPayload (ch : ChannelId) (c : ChannelConfig) (p : List Byte) : Prop :=
  p.length = 25 ∧ p.take 13 = (channelLayout ch c).take 13 ∧ (c.limits.isSome = true → p = channelLayout ch c)

/-- A step of a list in ARMED, RUNNING, DRAINING or ABORTING names the channel, or a pending SAMPLE does (R36). -/
abbrev ActiveUse (s : State) (ch : ChannelId) : Prop :=
  (∃ l : ListId, (s.list l).state ≠ .empty ∧ (s.list l).state ≠ .idle ∧ ch ∈ (s.list l).steps) ∨
    ∃ d ∈ s.deferred, d.subject = .sample ch

/-- The first field of a SET_LIST payload that is out of range (R46, R190). -/
def listFault (p : List Byte) : Option Nat :=
  if 7 < num p 0 then some 1
  else if 3 < num p 1 then some 2
  else if num p 1 = 3 ∧ 7 < num p 2 then some 3
  else if num p 1 = 1 ∧ (num16 p 3 < 10 ∨ 60000 < num16 p 3) then some 4
  else if 3 < num p 7 then some 6
  else if num p 8 = 0 ∨ 4 < num p 8 then some 7
  else if 1 < num p 9 then some 8
  else if num p 10 = 0 ∨ 32 < num p 10 then some 9
  else ((List.range (num p 10)).find? (fun j => decide (31 < num p (11 + j)))).map (fun j => 10 + j)

/-- The configuration of a list is in the ranges of R43. -/
def ValidList (c : ListConfig) : Prop :=
  c.cycles ≤ 65535 ∧ (1 ≤ c.concurrency ∧ c.concurrency ≤ 4) ∧ (1 ≤ c.steps.length ∧ c.steps.length ≤ 32) ∧
    ∀ p, c.trigger = .periodic p → 10 ≤ p ∧ p ≤ 60000

/-- The payload spells the configuration for the list in the layout of R190; a source byte or a period that does not belong to
the trigger may be any. -/
def ListPayload (l : ListId) (c : ListConfig) (p : List Byte) : Prop :=
  ∃ (source : Byte) (period : Nat),
    (∀ m, c.trigger = .chained m → source = byte m.val) ∧ (∀ q, c.trigger = .periodic q → period = q) ∧
      p = listLayoutWith l c source period

/-- A segment in the ranges of R107. -/
def ValidSegment (g : Segment) : Prop :=
  g.xHi ≤ 0xFFFFFF ∧ g.degree ≤ 3 ∧ ∀ c ∈ [g.c0, g.c1, g.c2, g.c3], -2147483648 ≤ c ∧ c ≤ 2147483647

/-! ### Vocabulary: part notices, lists, cores -/

/-- A list enters IDLE for a reason: timer stopped, start-pending clear, no skipped starts, LIST_FINISHED raised (R58, R68,
R69). -/
def finished (s : State) (l : ListId) (why : FinishReason) : State :=
  { s.setList l { s.list l with state := .idle, timer := none, startPending := false, skipped := 0 } with
    notices := raiseIn (.listFinished l why) s.notices }

/-- The state of a list after one trigger that does not start a cycle (R54). -/
def triggeredRunning (r : ListRec) : ListRec :=
  if r.startPending then { r with skipped := min 255 (r.skipped + 1) } else { r with startPending := true }

/-- Both serving cores of the input are in OFFLINE, CHECK_A or CHECK_B (R4, R82). -/
abbrev BothOffline (s : State) (i : InputId) : Prop :=
  ∀ c : CoreId, serves c i = true → (s.core c).state = .offline ∨ (s.core c).state = .checkA ∨ (s.core c).state = .checkB

/-- A request may be granted now: its input is FREE, a serving core is IDLE, and its channel is DEFINED (R76). -/
abbrev Eligible (s : State) (r : Request) : Prop :=
  s.input r.input = .free ∧ (∃ c : CoreId, serves c r.input = true ∧ (s.core c).state = .idle) ∧
    (s.channel r.channel).config.isSome = true

/-- The pass of grant event `n` can grant the request: it is eligible, and its arrival, the freeing of its input and the freeing
of one of its IDLE cores came at that event or before (R75, R76, R80, R81; assumption 9). -/
abbrev EligibleAt (s : State) (n : Nat) (r : Request) : Prop :=
  Eligible s r ∧ r.age ≤ n ∧ s.freeSince.get r.input ≤ n ∧
    ∃ c : CoreId, serves c r.input = true ∧ (s.core c).state = .idle ∧ s.idleSince.get c ≤ n

/-- A request stands before another or is it: by priority, URGENT first, and then by age (R74, R77). -/
abbrev StandsFirst (r q : Request) : Prop :=
  r.priority.rank < q.priority.rank ∨ (r.priority.rank = q.priority.rank ∧ r.age ≤ q.age)

/-- The core takes its state after a conversion: OFFLINE with reason STALLS at three stalls, OFFLINE with reason COMMAND under
the mark, else IDLE (R11, R14, R20). -/
def afterConversion (s : State) (c : CoreId) : State :=
  if (s.core c).stalls = 3 then s.enterOffline c .stalls
  else if (s.core c).offlinePending = true then s.enterOffline c .command
  else { s.setCore c { s.core c with state := .idle } with idleSince := s.idleSince.set c s.nextEvent }

/-- The bank reference of an evaluation is dropped: a RETIRING bank becomes FREE, any other is no longer held (R100, R108). -/
def bankDropped (s : State) : Option BankId → State
  | none => s
  | some b => s.setBank b (if (s.bank b).state = .retiring then Bank.freeBank else { s.bank b with held := false })

/-- A bank that leaves ACTIVE: RETIRING while it is held, else FREE (R114, R117). -/
def outOfActive (b : Bank) : Bank := if b.held = true then { b with state := .retiring } else Bank.freeBank

/-- The bank is ACTIVE for the table id and no other bank is (R107). -/
abbrev OnlyActive (s : State) (t : TableId) (b : BankId) : Prop :=
  ∀ x : BankId, ((s.bank x).state = .active ∧ (s.bank x).table = some t) ↔ x = b

/-- No bank is ACTIVE for the table id. -/
abbrev NoActive (s : State) (t : TableId) : Prop :=
  ∀ x : BankId, ¬ ((s.bank x).state = .active ∧ (s.bank x).table = some t)

/-- The result of a request that no core can serve (R82). -/
def noCore : Result := { status := .noCore, ratio := none, value := none }

/-! ### Vocabulary: requests that no core can serve, latches that are discarded (R12, R15, R16, R82, R83) -/

/-- The requests that the cores `cs`, gone offline, leave without a core: one of them served the input, and both its serving
cores are offline (R83). -/
def lostWith (s : State) (cs : List CoreId) : List Request :=
  s.pool.filter (fun r => decide (BothOffline s r.input ∧ ∃ c ∈ cs, serves c r.input = true))

/-- The same where the cores go offline one after another: each request is lost at the last of them that serves its input, and
those lost at one core are in order of age (R83; assumption 26). -/
def lostInTurn (s : State) (cs : List CoreId) : List Request :=
  cs.flatMap (fun c => (lostWith s [c]).filter (fun r => decide (∀ d ∈ cs, serves d r.input = true → d ≤ c)))

/-- The replies of the pending SAMPLEs among the requests, in their order: OK under the entry's tag, with the channel, NO_CORE
(7), and neither ratio nor value (R82, R86). -/
def noCoreReplies (s : State) (lost : List Request) : List Reply :=
  lost.filterMap (fun r => s.deferred.findSome? (fun d => match d.subject with
    | .sample ch =>
      if r.origin = .sample d.uid then
        some { tag := d.tag, kind := 0x0B, outcome := .ok, data := [byte ch.val, 7, 0, 0, 0, 0, 0, 0, 0, 0] }
      else none
    | .restore _ => none))

/-- A window entry of the list is READY with NO_CORE if one of the requests came from it (R82). -/
def completedEntry (lost : List Request) (l : ListId) (e : Entry) : Entry :=
  if ∃ r ∈ lost, r.origin = .entry l e.step then { e with stage := .ready noCore } else e

/-- The requests have completed with NO_CORE: they are gone from the pool, the window entries they came from are READY, their
SAMPLE entries are removed and answered, and nothing else has changed (R82, R86). -/
def completedNoCore (s : State) (lost : List Request) : State :=
  { s with
    pool := s.pool.filter (fun r => decide (r ∉ lost))
    lists := Vector.ofFn (fun l => { s.list l with window := (s.list l).window.map (completedEntry lost l) })
    deferred := s.deferred.filter (fun d => decide (∀ r ∈ lost, r.origin ≠ .sample d.uid))
    replies := s.replies ++ noCoreReplies s lost }

/-- A core whose latch is discarded: OFFLINE under the mark, else IDLE (R12, R15, R16). -/
def latchDiscarded (k : Core) : Core :=
  { k with latch := none, offlinePending := false, state := if k.offlinePending then .offline else .idle }

/-- A core whose conversion is cancelled: in DISCHARGE, from now on unless it was there already (R15). -/
def conversionCancelled (now : Nat) (k : Core) : Core :=
  { k with
    cancelled := true, state := .discharge, phaseStart := if k.state = .discharge then k.phaseStart else now }

/-- The cores with a property that are offline-pending, in ascending number. -/
def pendingAmong (s : State) (p : Core → Bool) : List CoreId :=
  (List.finRange 4).filter (fun c => p (s.core c) && (s.core c).offlinePending)

/-- The cores with a property that become IDLE when they leave HOLD, in ascending number (R12; assumption 26). -/
def freedFromHold (s : State) (p : Core → Bool) : List CoreId :=
  (List.finRange 4).filter (fun c => p (s.core c) && !(s.core c).offlinePending)

/-- The grant events at which the cores became IDLE last, after these have become IDLE one after another (R80, R81). -/
def idleSinceAfter (s : State) (cs : List CoreId) : Vector Nat 4 :=
  Vector.ofFn (fun c => if c ∈ cs then s.nextEvent + cs.idxOf c else s.idleSince.get c)

/-- The part notices after these cores have gone OFFLINE with reason COMMAND, in this order (R14; assumption 18). -/
def offlineNotices (cs : List CoreId) (ns : List PartNotice) : List PartNotice :=
  cs.foldl (fun ns c => raiseIn (.coreOffline c .command) ns) ns

/-- The state after an abort has dealt with every entry of the list, `n` of which leave work behind, but for the requests of
others that a core gone offline leaves without a core (R15, R69, R102, R144). -/
def aborted (s : State) (l : ListId) (n : Nat) : State :=
  let ns := offlineNotices (pendingAmong s (fun k => k.latchesFor l)) s.notices
  { s with
    pool := s.pool.filter (fun r => !r.origin.ofList l)
    idleSince := idleSinceAfter s (freedFromHold s (fun k => k.latchesFor l))
    nextEvent := s.nextEvent + (freedFromHold s (fun k => k.latchesFor l)).length
    cores := s.cores.map (fun k =>
      if k.convertsFor l then conversionCancelled s.now k else if k.latchesFor l then latchDiscarded k else k)
    holdOrder := s.holdOrder.filter (fun c => !(s.core c).latchesFor l)
    evalQueue := s.evalQueue.filter (fun e => !e.origin.ofList l)
    engine := s.engine.map (fun e => if e.origin.ofList l then { e with void := true } else e)
    blocked := s.blocked.erase l
    lists := s.lists.set l { s.list l with
      window := [], timer := none, startPending := false, skipped := 0, outstanding := n,
      state := if n = 0 then .idle else .aborting }
    notices := if n = 0 then raiseIn (.listFinished l .aborted) ns else ns }

/-- The core holds the latch of a SAMPLE. -/
def holdsSample (k : Core) : Bool := decide (k.state = .hold) && k.latch.any (fun e => e.origin.isSample)

/-- The state after a link reset has emptied the link side and discarded the latches of the SAMPLEs, but for the requests that
a core gone offline leaves without a core (R16, R84, R87, R119, R136, R154, R167, R168, R173). -/
def linkEmptied (s : State) : State :=
  { s with
    lineLow := true
    rx := { state := .hunt, len := 0, body := [], check := [], crc := 0xFFFF#16, expiry := none }
    slots := []
    deferred := []
    replies := []
    credits := 0
    tx := none
    choice := none
    cutByte := match s.cutByte, s.tx with
      | some b, _ => some b
      | none, some f => f.bytes[f.position]?
      | none, none => none
    banks := match s.session with
      | none => s.banks
      | some k => s.banks.set k.bank { state := .free, table := none, places := [], held := false }
    session := none
    alarms := s.alarms.map (fun n => { n with sending := none })
    pool := s.pool.filter (fun r => !r.origin.isSample)
    idleSince := idleSinceAfter s (freedFromHold s holdsSample)
    nextEvent := s.nextEvent + (freedFromHold s holdsSample).length
    cores := s.cores.map (fun k => if holdsSample k then latchDiscarded k else k)
    holdOrder := s.holdOrder.filter (fun c => !holdsSample (s.core c))
    notices := raiseIn .linkReset
      (offlineNotices (pendingAmong s holdsSample) (s.notices.map (fun n => { n with late := none }))) }

/-- Kind, subject and detail of a part notice as a NOTICE frame carries them (R188, R193). -/
def noticeCodes : PartEvent → Byte × Byte × Byte
  | .ready => (1, 0, 0)
  | .coreOffline c .stalls => (2, byte c.val, 1)
  | .coreOffline c .command => (2, byte c.val, 2)
  | .coreOffline c .check => (2, byte c.val, 3)
  | .listFinished l .countReached => (3, byte l.val, 1)
  | .listFinished l .drained => (3, byte l.val, 2)
  | .listFinished l .aborted => (3, byte l.val, 3)
  | .linkError => (4, 0, 0)
  | .commandOverrun tag => (5, 0, tag)
  | .sessionExpired => (6, 0, 0)
  | .linkReset => (7, 0, 0)

/-- The state of one list after a trigger, by R54: a cycle starts in ARMED, start-pending or a skipped start in RUNNING, and
elsewhere nothing. -/
def triggered (s : State) (l : ListId) : State :=
  match (s.list l).state with
  | .armed => s.startCycle l
  | .running => s.setList l (triggeredRunning (s.list l))
  | _ => s

/-- The window entry that a starting cycle issues for step `j`: READY with NO_CORE where no core can serve the input (R60,
R82). -/
def issuedEntry (s : State) (l : ListId) (c : ListConfig) (j : Nat) : Option Entry :=
  (c.steps[j]?).bind (fun ch => (s.channel ch).config.map (fun k =>
    { step := j, channel := ch, cycle := (s.list l).cycle + 1,
      stage := if s.unreachable k.input then .ready noCore else .waiting }))

/-- The request that a starting cycle places for step `j`, if a core can serve it (R60, R74, R75). -/
def issuedRequest (s : State) (l : ListId) (c : ListConfig) (j : Nat) : Option Request :=
  (c.steps[j]?).bind (fun ch => (s.channel ch).config.bind (fun k =>
    if s.unreachable k.input then none
    else some { origin := .entry l j, channel := ch, input := k.input, priority := .level c.priority, age := s.nextEvent + j }))

/-- The state of a list whose cycle starts: the steps that fit into the window are issued in step order (R53, R60). -/
def cycleStarted (s : State) (l : ListId) (c : ListConfig) : State :=
  let n := min c.concurrency c.steps.length
  let requests := (List.range n).filterMap (issuedRequest s l c)
  { s.setList l { s.list l with
      state := .running, cycle := (s.list l).cycle + 1, cursor := n,
      window := (List.range n).filterMap (issuedEntry s l c) } with
    pool := s.pool ++ requests, nextEvent := s.nextEvent + n }

/-- The channel after the monitor's work on a result (R121); an UNDEFINED channel keeps its record. -/
def monitoredChannel (k : Channel) (r : Result) : Channel :=
  match k.config with
  | none => k
  | some cfg => k.afterResult cfg r

/-- The transition that a retiring entry's result makes on its channel's alarm state (R129). -/
def alarmChange (s : State) (l : ListId) (e : Entry) (r : Result) : Transition :=
  { channel := e.channel, old := (s.channel e.channel).alarm, new := (monitoredChannel (s.channel e.channel) r).alarm,
    value := (s.channel e.channel).config.bind (fun cfg =>
      r.validValue.map (monitored cfg.shift (s.channel e.channel).smoothed))
    list := l, cycle := e.cycle }

/-- The record of a retiring entry (R63, R145 to R147). -/
def recordOf (s : State) (l : ListId) (c : ListConfig) (e : Entry) (r : Result) : Record :=
  let k := monitoredChannel (s.channel e.channel) r
  { list := l, step := e.step, channel := e.channel, status := r.status,
    endOfCycle := decide (e.step + 1 = c.steps.length), runStart := s.runMark l, seq := (s.list l).seq, cycle := e.cycle,
    value := if r.status = .ok ∨ r.status = .saturated then r.value else none,
    smoothed := k.config.bind (fun cfg => if cfg.shift = 0 then none else k.smoothed),
    raw := k.config.bind (fun cfg => if cfg.includeRaw then r.ratio else none),
    skipped := if e.step = 0 ∧ 0 < (s.list l).skipped then some (s.list l).skipped else none }

/-- The state after steps 1 to 6 of the retirement of a head entry with the window `w` behind it, its record admitted to the
report queue or dropped (R63, R129, R140). -/
def retired (s : State) (l : ListId) (c : ListConfig) (e : Entry) (w : List Entry) (r : Result) (admitted : Bool) : State :=
  let t := alarmChange s l e r
  { (s.setChannel e.channel (monitoredChannel (s.channel e.channel) r)).setList l { s.list l with
      seq := (s.list l).seq + 1, skipped := if e.step = 0 then 0 else (s.list l).skipped, window := w } with
    alarms := if t.old = t.new ∨ (t.old = .pending ∧ t.new = .normal) then s.alarms else noteTransition t s.alarms
    reports := if admitted then s.reports ++ [recordOf s l c e r] else s.reports
    runStart := if admitted then s.runStart.set l false else s.runStart }

/-- Cycles remaining, one fewer unless endless (R58, R68). -/
def oneFewer : Remaining → Remaining
  | .count n => .count (n - 1)
  | .endless => .endless

/-- Step 7 of a retirement (R63): a RUNNING list ends its cycle with its last step and else issues further; a DRAINING list
counts the cycle with its last step, and enters IDLE with an empty window (R68); a cycle end triggers the chained lists
(R57). -/
def goesOn (s : State) (l : ListId) (last : Bool) : State :=
  let counted := if last then s.setList l { s.list l with remaining := oneFewer (s.list l).remaining } else s
  let drained := if (s.list l).window = [] then finished counted l .drained else counted
  match (s.list l).state with
  | .running => if last then (s.endCycle l).triggerChained l else s.issueSteps l
  | .draining => if last then drained.triggerChained l else drained
  | _ => s

/-- The list can start a cycle: its window is empty, its concurrency is at most 4 and its steps name DEFINED channels (R38, R43,
R53). -/
abbrev MayStart (s : State) (l : ListId) (c : ListConfig) : Prop :=
  (s.list l).config = some c ∧ (s.list l).window = [] ∧ c.concurrency ≤ 4 ∧
    ∀ ch ∈ c.steps, (s.channel ch).config.isSome = true

end Sys2Proof.Safety
end

