-- ==== Sys2Proof/Certificates/Slice0/Obligations.lean ====
section
/-! DEFINITION. The statements for the provers, block by block: what each command of the block does, what it leaves alone, and
the properties that every step keeps. The vocabulary stands in Safety.lean. -/

open Sys2Proof Sys2Proof.Machine Sys2Proof.Safety

/-! ### The machine as a whole -/

/-- A step takes the command at the front of the queue and is its meaning on the state with the rest of the queue, which no
command touches. On an empty queue the part idles, but for the end of the byte being sent: the next one of the frame follows,
and the last byte of a cut frame is gone, so that the first byte of a frame that has begun behind it follows (the model's
choice: assumptions 3 and 16). -/
def Obligations.StepRunsTheFrontCommand : Prop :=
  (∀ (c : Instr) (rest : List Instr) (s : State), step { s with pending := c :: rest } = exec c { s with pending := rest }) ∧
    (∀ (c : Instr) (s t : State), exec c s = .next t → t.pending = s.pending) ∧
    ∀ s : State, s.pending = [] → step s = .next
      (if s.cutByte.isSome = true then { s with cutByte := none } else { s with tx := s.tx.map TxFrame.advance })

/-- A power-on reset returns every block to its reset state and reads the straps (R24, R158). RESET_PART queues its OK reply and
stops the unit (R186); its reset does the same as a power-on reset once that reply has left the reply queue, and until then
nothing (R174; the row's waiting is assumption 23). After either the clock and the model's own counters are 0 and the line is
high (the model's choices: assumptions 12 and 14). That an IDLE transmitter chooses at the end of the row and keeps the choice
until its frame begins is the model's choice (R170; assumption 29). -/
def Obligations.ResetsReturnEveryBlock : Prop :=
  (∀ (straps : BitVec 2) (s : State),
      exec (.powerOnReset straps) s = .next { State.reset with bitRate := straps, pending := s.pending }) ∧
    (∀ (s : State) (f : Frame) (rest : List Frame), Addressed 0x03 s f rest → f.payload = [] →
      exec .resetPart s = .next (answered { s with cmdUnit := .stopped } f rest .ok [])) ∧
    (∀ (straps : BitVec 2) (s : State), s.cmdUnit = .stopped → (∀ r ∈ s.replies, ¬ (r.kind = 0x03#8 ∧ r.outcome = .ok)) →
      exec (.partReset straps) s = .next { State.reset with bitRate := straps, pending := s.pending }) ∧
    ∀ (straps : BitVec 2) (s : State), (s.cmdUnit ≠ .stopped ∨ ∃ r ∈ s.replies, r.kind = 0x03#8 ∧ r.outcome = .ok) →
      exec (.partReset straps) s = .next s

/-- What the spec says a power-on reset leaves in every block (the reset columns of R3, R26, R32, R44, R107,
R110, R140 and R159, and R73, R90, R91, R130, R139, R158, R169, R171, R172, R176, R182): no frame is sent and the transmit line
is high. -/
def Obligations.AfterPowerOnReset : Prop :=
  (∀ c, (State.reset.core c).state = .checkA ∧ (State.reset.core c).stalls = 0 ∧
      (State.reset.core c).offlinePending = false ∧ (State.reset.core c).claimed = none ∧
      (State.reset.core c).params = none ∧ (State.reset.core c).cancelled = false ∧ (State.reset.core c).meas = {} ∧
      (State.reset.core c).latch = none) ∧
    (∀ i, State.reset.input i = .free) ∧
    (∀ ch, State.reset.channel ch = { config := none, smoothed := none, alarm := .inactive }) ∧
    (∀ l, State.reset.list l =
      { config := none, state := .empty, cycle := 0, cursor := 0, window := [], startPending := false, skipped := 0,
        remaining := .count 0, seq := 0, outstanding := 0, timer := none }) ∧
    (∀ b, State.reset.bank b = { state := .free, table := none, places := [], held := false }) ∧
    (∀ l, State.reset.runMark l = false) ∧ State.reset.session = none ∧ State.reset.pool = [] ∧
    State.reset.evalQueue = [] ∧ State.reset.engine = none ∧ State.reset.holdOrder = [] ∧ State.reset.alarms = [] ∧
    State.reset.reports = [] ∧ State.reset.credits = 0 ∧ State.reset.blocked = [] ∧ State.reset.rx.state = .hunt ∧
    State.reset.rx.crc = 0xFFFF#16 ∧ State.reset.rx.expiry = none ∧ State.reset.slots = [] ∧
    State.reset.cmdUnit = .starting ∧ State.reset.deferred = [] ∧ State.reset.replies = [] ∧ State.reset.notices = [] ∧
    State.reset.tx = none ∧ State.reset.choice = none ∧ State.reset.cutByte = none ∧ ∀ n, State.reset.transmitLevel n = true

/-! ### The command unit -/

/-- The common checks are made in their order and the first that fails decides; the command changes nothing but the reply queue
and its slot (R178 to R180); a frame of no command kind is answered by the row UNKNOWN_COMMAND. A subject number out of range is
refused with BAD_FIELD naming field 1 (R181). That a STOP_LIST frame whose mode byte is missing or not 1 is answered by the row
STOP_LIST_DRAIN is the model's choice (assumption 4). That an IDLE transmitter chooses at the end of the row and keeps the
choice until its frame begins is the model's choice (R170; assumption 29). -/
def Obligations.CommonChecksRefuse : Prop :=
  (∀ (s : State) (f : Frame) (rest : List Frame) (o : OutcomeCode), Takes s f rest → commonRefusal s f = some o →
      exec (rowOf f) s = .next (answered s f rest o [])) ∧
    (∀ (s : State) (f : Frame) (rest : List Frame), Takes s f rest → rowOf f = .unknownCommand →
      exec .unknownCommand s = .next (answered s f rest .unknownCommand [])) ∧
    ∀ (s : State) (f : Frame) (rest : List Frame) (limit : Nat), Takes s f rest → commonRefusal s f = none →
      subjectLimit f.kind = some limit → limit < num f.payload 0 →
      exec (rowOf f) s = .next (answered s f rest .badField [1])

/-- A frame waits in its slot while the unit is not TAKING or the room condition fails (R177), and the row of another command
leaves it there (the model's reading of the rows: assumptions 2 and 4). -/
def Obligations.CommandsWaitInTheirSlots : Prop :=
  ∀ (c : Instr) (s : State), c ∈ hostRows → (∀ f rest, Takes s f rest → rowOf f ≠ c) → exec c s = .next s

/-- IDENTIFY answers the fixed fields and the strap code, and changes nothing (R184). That an IDLE transmitter chooses at the
end of the row and keeps the choice until its frame begins is the model's choice (R170; assumption 29). -/
def Obligations.IdentifyReportsThePart : Prop :=
  ∀ (s : State) (f : Frame) (rest : List Frame), Addressed 0x01 s f rest → f.payload = [] →
    exec .identify s = .next (answered s f rest .ok
      [0x2E, 0x04, 0x16, 0x01, byte s.bitRate.toNat, 16, 4, 32, 8, 96, 8, 9, 16, 64, 8, 6, 4, 4])

/-- GET_STATUS answers 47 bytes that report the part as it stands, each at its place and with its code, and changes nothing
(R185, R188). That an IDLE transmitter chooses at the end of the row and keeps the choice until its frame begins is the model's
choice (R170; assumption 29). -/
def Obligations.StatusReportsThePart : Prop :=
  ∀ (s : State) (f : Frame) (rest : List Frame), Addressed 0x02 s f rest → f.payload = [] →
    ∃ data : List Byte, exec .getStatus s = .next (answered s f rest .ok data) ∧ data.length = 47 ∧
      (∀ c : CoreId, data[2 * c.val]? = some (coreCode (s.core c).state) ∧ data[2 * c.val + 1]? = some (byte (s.core c).stalls)) ∧
      (∀ l : ListId, data[8 + l.val]? = some (listCode (s.list l).state)) ∧
      data[16]? = some (byte s.stepPlacesInUse) ∧ data[17]? = some (byte s.pool.length) ∧
      data[18]? = some (byte s.evalQueue.length) ∧ data[19]? = some (if s.engine = none then 0 else 1) ∧
      data[20]? = some (byte s.reports.length) ∧ data[21]? = some (byte s.credits) ∧
      data[22]? = some (byte s.replies.length) ∧ data[23]? = some (byte s.deferred.length) ∧
      (∀ b : BankId, data[24 + 2 * b.val]? = some (bankCode (s.bank b).state) ∧
        data[25 + 2 * b.val]? = some (match (s.bank b).table with | none => 0 | some t => byte t.val)) ∧
      data.drop 42 = match s.session with
        | none => [0, 0, 0, 0, 0]
        | some k => [1, byte k.table.val, byte k.bank.val, byte k.count, byte k.received.length]

/-- GRANT_CREDITS raises the credit count, to 255 at most, and answers the new count; an amount of 0 is refused (R150). An IDLE
transmitter chooses at the end of the row. Of the items that the row makes available together it takes a REPLY before an ALARM,
a NOTICE and a REPORT: R170 leaves that to the order the world gives, and the ranking is the model's choice (assumption 29). -/
def Obligations.CreditsAreGranted : Prop :=
  ∀ (s : State) (f : Frame) (rest : List Frame) (a : Byte), Addressed 0x04 s f rest → f.payload = [a] →
    exec .grantCredits s = .next
      (if a = 0 then answered s f rest .badField [1]
       else answered { s with credits := min 255 (s.credits + a.toNat) } f rest .ok
         [byte (min 255 (s.credits + a.toNat))])

/-! ### Channels -/

/-- SET_CHANNEL of a channel not in active use stores the configuration its payload spells, every field of it, makes the channel
DEFINED and restarts its runtime fields (R37, R189). That an IDLE transmitter chooses at the end of the row and keeps the choice
until its frame begins is the model's choice (R170; assumption 29). -/
def Obligations.SetChannelStoresWhatItsPayloadSpells : Prop :=
  ∀ (s : State) (f : Frame) (rest : List Frame) (ch : ChannelId) (c : ChannelConfig), Addressed 0x08 s f rest →
    ChannelPayload ch c f.payload → ValidChannel c → ¬ ActiveUse s ch →
    exec .setChannel s = .next (answered
      (s.setChannel ch { config := some c, smoothed := none, alarm := if c.limits.isSome then .pending else .inactive })
      f rest .ok [])

/-- SET_CHANNEL is refused at the first field out of range, and with IN_USE for a channel in active use; a payload of 25 bytes
with no such field spells a configuration in range (R35, R36). That an IDLE transmitter chooses at the end of the row and keeps
the choice until its frame begins is the model's choice (R170; assumption 29). -/
def Obligations.SetChannelRefuses : Prop :=
  (∀ (s : State) (f : Frame) (rest : List Frame) (n : Nat), Addressed 0x08 s f rest → f.payload.length = 25 →
      channelFault f.payload = some n →
      exec .setChannel s = .next (answered s f rest .badField [byte n])) ∧
    (∀ (s : State) (f : Frame) (rest : List Frame) (ch : ChannelId) (c : ChannelConfig), Addressed 0x08 s f rest →
        ChannelPayload ch c f.payload → ValidChannel c → ActiveUse s ch →
      exec .setChannel s = .next (answered s f rest .inUse [])) ∧
    ∀ p : List Byte, p.length = 25 → channelFault p = none → ∃ ch c, ChannelPayload ch c p ∧ ValidChannel c

/-- GET_CHANNEL reports a DEFINED channel in the 25 bytes of SET_CHANNEL and its runtime fields (R39); CLEAR_CHANNEL is refused
with a use count and otherwise leaves the channel UNDEFINED (R38). That an IDLE transmitter chooses at the end of the row and
keeps the choice until its frame begins is the model's choice (R170; assumption 29). -/
def Obligations.ChannelsAreReadAndCleared : Prop :=
  (∀ (s : State) (f : Frame) (rest : List Frame) (ch : ChannelId), Addressed 0x09 s f rest → f.payload = [byte ch.val] →
      (s.channel ch).config = none →
      exec .getChannel s = .next (answered s f rest .notDefined [])) ∧
    (∀ (s : State) (f : Frame) (rest : List Frame) (ch : ChannelId) (c : ChannelConfig), Addressed 0x09 s f rest →
        f.payload = [byte ch.val] → (s.channel ch).config = some c →
      exec .getChannel s = .next (answered s f rest .ok
        (channelLayout ch c ++ ([if (s.channel ch).smoothed = none then 0 else 1] : List Byte) ++
          int32Bytes ((s.channel ch).smoothed.getD 0) ++ [alarmCode (s.channel ch).alarm, byte (s.useCount ch)]))) ∧
    (∀ (s : State) (f : Frame) (rest : List Frame) (ch : ChannelId), Addressed 0x0A s f rest → f.payload = [byte ch.val] →
        0 < s.useCount ch →
      exec .clearChannel s = .next (answered s f rest .inUse [])) ∧
    ∀ (s : State) (f : Frame) (rest : List Frame) (ch : ChannelId), Addressed 0x0A s f rest → f.payload = [byte ch.val] →
      s.useCount ch = 0 →
      exec .clearChannel s = .next (answered
        (if (s.channel ch).config = none then s
         else s.setChannel ch { config := none, smoothed := none, alarm := .inactive }) f rest .ok [])

/-- SAMPLE is refused for an UNDEFINED channel and for a full table. Accepted, it creates its entry and an URGENT request, or is
answered at once with NO_CORE when both cores of its input are offline (R82, R85, R86). The `uid` and the numbers of the grant
events are the model's own (assumptions 9 and 10). An IDLE transmitter chooses at the end of the row. Of the items that the row
makes available together it takes a REPLY before an ALARM, a NOTICE and a REPORT: R170 leaves that to the order the world gives,
and the ranking is the model's choice (assumption 29). -/
def Obligations.SampleAsksForOneConversion : Prop :=
  (∀ (s : State) (f : Frame) (rest : List Frame) (ch : ChannelId), Addressed 0x0B s f rest → f.payload = [byte ch.val] →
      (s.channel ch).config = none →
      exec .sample s = .next (answered s f rest .notDefined [])) ∧
    (∀ (s : State) (f : Frame) (rest : List Frame) (ch : ChannelId) (c : ChannelConfig), Addressed 0x0B s f rest →
        f.payload = [byte ch.val] → (s.channel ch).config = some c →
      4 ≤ s.deferred.length → exec .sample s = .next (answered s f rest .noRoom [])) ∧
    (∀ (s : State) (f : Frame) (rest : List Frame) (ch : ChannelId) (c : ChannelConfig), Addressed 0x0B s f rest →
        f.payload = [byte ch.val] → (s.channel ch).config = some c →
      s.deferred.length < 4 → ¬ BothOffline s c.input →
      exec .sample s = .next (chosen { s with
        deferred := s.deferred ++ [{ uid := s.nextUid, tag := f.tag, subject := .sample ch }]
        nextUid := s.nextUid + 1
        pool := s.pool ++
          [{ origin := .sample s.nextUid, channel := ch, input := c.input, priority := .urgent, age := s.nextEvent }]
        nextEvent := s.nextEvent + 1
        slots := rest })) ∧
    ∀ (s : State) (f : Frame) (rest : List Frame) (ch : ChannelId) (c : ChannelConfig), Addressed 0x0B s f rest →
      f.payload = [byte ch.val] → (s.channel ch).config = some c →
      s.deferred.length < 4 → BothOffline s c.input → (∀ d ∈ s.deferred, d.uid ≠ s.nextUid) →
      exec .sample s = .next (answered { s with nextUid := s.nextUid + 1, nextEvent := s.nextEvent + 1 } f rest .ok
        [byte ch.val, 7, 0, 0, 0, 0, 0, 0, 0, 0])

/-! ### Lists -/

/-- SET_LIST of a list in EMPTY or IDLE stores the configuration its payload spells, puts the list in IDLE with fresh runtime
fields and clears its run-start mark (R44, R48, R140, R190). That an IDLE transmitter chooses at the end of the row and keeps
the choice until its frame begins is the model's choice (R170; assumption 29). -/
def Obligations.SetListStoresWhatItsPayloadSpells : Prop :=
  ∀ (s : State) (f : Frame) (rest : List Frame) (l : ListId) (c : ListConfig), Addressed 0x10 s f rest →
    ListPayload l c f.payload → ValidList c →
    ((s.list l).state = .empty ∨ (s.list l).state = .idle) → (∀ ch ∈ c.steps, (s.channel ch).config.isSome = true) →
    (∀ m, c.trigger = .chained m → ¬ Reaches s l m ∧ (s.list m).state ≠ .empty) →
    s.stepPlacesInUse - (s.list l).steps.length + c.steps.length ≤ 96 →
    exec .setList s = .next (answered
      ((s.setList l
        { config := some c, state := .idle, cycle := 0, cursor := 0, window := [], startPending := false, skipped := 0,
          remaining := .count 0, seq := 0, outstanding := 0, timer := none }).setRunMark l false) f rest .ok [])

/-- SET_LIST is refused with the first outcome of R46 that applies; the chain test finds every walk over the sources that
returns (R46, R47). That an IDLE transmitter chooses at the end of the row and keeps the choice until its frame begins is the
model's choice (R170; assumption 29). -/
def Obligations.SetListRefuses : Prop :=
  (∀ (s : State) (f : Frame) (rest : List Frame) (n : Nat), Addressed 0x10 s f rest → lengthFits f = true →
      listFault f.payload = some n →
      exec .setList s = .next (answered s f rest .badField [byte n])) ∧
    ∀ (s : State) (f : Frame) (rest : List Frame) (l : ListId) (c : ListConfig), Addressed 0x10 s f rest →
      ListPayload l c f.payload → ValidList c →
      ((s.list l).state ≠ .empty ∧ (s.list l).state ≠ .idle →
        exec .setList s = .next (answered s f rest .wrongState [])) ∧
      ((s.list l).state = .empty ∨ (s.list l).state = .idle →
        ((∃ ch ∈ c.steps, (s.channel ch).config = none) →
          exec .setList s = .next (answered s f rest .notDefined [])) ∧
        ((∀ ch ∈ c.steps, (s.channel ch).config.isSome = true) →
          (∀ m, c.trigger = .chained m → Reaches s l m →
            exec .setList s = .next (answered s f rest .chainLoop [])) ∧
          (∀ m, c.trigger = .chained m → ¬ Reaches s l m → (s.list m).state = .empty →
            exec .setList s = .next (answered s f rest .notDefined [])) ∧
          ((∀ m, c.trigger = .chained m → ¬ Reaches s l m ∧ (s.list m).state ≠ .empty) →
            96 < s.stepPlacesInUse - (s.list l).steps.length + c.steps.length →
            exec .setList s = .next (answered s f rest .stepPoolFull []))))

/-- GET_LIST reports a defined list as it stands, in the layout and the codes of the catalogue (R50, R188, R190); CLEAR_LIST is
refused for a source and for a list that is not IDLE, and otherwise leaves the list EMPTY (R49, R140). That an IDLE transmitter
chooses at the end of the row and keeps the choice until its frame begins is the model's choice (R170; assumption 29). -/
def Obligations.ListsAreReadAndCleared : Prop :=
  (∀ (s : State) (f : Frame) (rest : List Frame) (l : ListId), Addressed 0x11 s f rest → f.payload = [byte l.val] →
      (s.list l).config = none →
      exec .getList s = .next (answered s f rest .notDefined [])) ∧
    (∀ (s : State) (f : Frame) (rest : List Frame) (l : ListId) (c : ListConfig), Addressed 0x11 s f rest →
        f.payload = [byte l.val] → (s.list l).config = some c →
      exec .getList s = .next (answered s f rest .ok
        (listLayout l c ++ [listCode (s.list l).state] ++ leBytes 2 (s.list l).cycle.toNat ++
          ([byte (s.list l).cursor, if (s.list l).startPending then 1 else 0, byte (s.list l).skipped] : List Byte) ++
          leBytes 2 (match (s.list l).remaining with | .count n => n | .endless => 0) ++
          ([match (s.list l).remaining with | .count _ => 0 | .endless => 1] : List Byte) ++ leBytes 2 (s.list l).seq.toNat ++
          [byte (s.list l).outstanding, byte (s.list l).window.length] ++
          (s.list l).window.flatMap (fun e => [byte e.step, byte e.channel.val] ++ leBytes 2 e.cycle.toNat ++
            ([stageCode e.stage, match e.stage with | .ready r => statusCode r.status | _ => 0] : List Byte))))) ∧
    ∀ (s : State) (f : Frame) (rest : List Frame) (l : ListId), Addressed 0x12 s f rest → f.payload = [byte l.val] →
      exec .clearList s = .next
        (if (s.list l).state = .empty then answered s f rest .ok []
         else if ∃ m : ListId, (s.list m).chainedTo l = true then answered s f rest .inUse []
         else if (s.list l).state ≠ .idle then answered s f rest .wrongState []
         else answered ((s.setList l
           { config := none, state := .empty, cycle := 0, cursor := 0, window := [], startPending := false, skipped := 0,
             remaining := .count 0, seq := 0, outstanding := 0, timer := none }).setRunMark l false) f rest .ok [])

/-- START_LIST is refused for an EMPTY list and outside IDLE. Accepted, it restarts the numbering and sets the run-start mark;
ON_COMMAND and CHAINED lists are ARMED, CONTINUOUS and PERIODIC ones start their first cycle, a PERIODIC one with its timer
anchored (R52, R55, R140). That an IDLE transmitter chooses at the end of the row and keeps the choice until its frame begins is
the model's choice (R170; assumption 29). -/
def Obligations.StartListStartsByTrigger : Prop :=
  (∀ (s : State) (f : Frame) (rest : List Frame) (l : ListId), Addressed 0x13 s f rest → f.payload = [byte l.val] →
      (s.list l).config = none →
      exec .startList s = .next (answered s f rest .notDefined [])) ∧
    ∀ (s : State) (f : Frame) (rest : List Frame) (l : ListId) (c : ListConfig), Addressed 0x13 s f rest →
      f.payload = [byte l.val] → (s.list l).config = some c →
      ((s.list l).state ≠ .idle → exec .startList s = .next (answered s f rest .wrongState [])) ∧
      ((s.list l).state = .idle →
        let numbered : ListRec := { s.list l with
          cycle := 0, seq := 0, startPending := false, skipped := 0, outstanding := 0,
          remaining := if c.cycles = 0 then .endless else .count c.cycles }
        (c.trigger = .onCommand ∨ (∃ m, c.trigger = .chained m) →
          exec .startList s = .next
            (answered ((s.setList l { numbered with state := .armed }).setRunMark l true) f rest .ok [])) ∧
        (c.trigger = .continuous → exec .startList s = .next (answered
          (((s.setList l numbered).setRunMark l true).startCycle l) f rest .ok [])) ∧
        ∀ p, c.trigger = .periodic p → exec .startList s = .next (answered
          (((s.setList l { numbered with
            timer := some { anchor := s.now, next := s.now + p * 16000 } }).setRunMark l true).startCycle l)
          f rest .ok []))

/-- A starting cycle takes the next cycle number and issues its first steps, as many as the concurrency and the step count
allow, in step order: one window entry each, and one request each unless no core can serve its input (R53, R60, R75, R82). A
RUNNING list whose window has room for one more issues the step at its cursor; with a full window, or with no step left, it
issues none (R60). The numbers of the arrivals among the grant events are the model's own form of the order of
arrival (assumption 9). -/
def Obligations.CycleStartIssuesTheFirstSteps : Prop :=
  (∀ (s : State) (l : ListId) (c : ListConfig), MayStart s l c → s.startCycle l = cycleStarted s l c) ∧
    (∀ (s : State) (l : ListId) (c : ListConfig) (ch : ChannelId) (k : ChannelConfig), (s.list l).config = some c →
      (s.list l).state = .running → (s.list l).window.length + 1 = c.concurrency →
      c.steps[(s.list l).cursor]? = some ch → (s.channel ch).config = some k →
      (∀ e ∈ (s.list l).window, e.step ≠ (s.list l).cursor) →
      s.issueSteps l =
        if BothOffline s k.input then
          { s.setList l { s.list l with
              cursor := (s.list l).cursor + 1
              window := (s.list l).window ++ [{
                step := (s.list l).cursor, channel := ch, cycle := (s.list l).cycle, stage := .ready noCore }] } with
            nextEvent := s.nextEvent + 1 }
        else
          { s.setList l { s.list l with
              cursor := (s.list l).cursor + 1
              window := (s.list l).window ++ [{
                step := (s.list l).cursor, channel := ch, cycle := (s.list l).cycle, stage := .waiting }] } with
            pool := s.pool ++ [{
              origin := .entry l (s.list l).cursor, channel := ch, input := k.input, priority := .level c.priority,
              age := s.nextEvent }]
            nextEvent := s.nextEvent + 1 }) ∧
    ∀ (s : State) (l : ListId) (c : ListConfig), (s.list l).config = some c →
      ((s.list l).state ≠ .running ∨ c.concurrency ≤ (s.list l).window.length ∨ c.steps.length ≤ (s.list l).cursor) →
      s.issueSteps l = s

/-- The end of a cycle in RUNNING (R58): one cycle fewer remains unless endless; at 0 the list finishes, else a CONTINUOUS list
or one with start-pending set starts its next cycle at once, else it is ARMED. -/
def Obligations.CycleEndGoesOn : Prop :=
  ∀ (s : State) (l : ListId) (c : ListConfig) (left : Remaining), (s.list l).config = some c →
    left = (match (s.list l).remaining with | .count n => Remaining.count (n - 1) | .endless => .endless) →
    (left = .count 0 → s.endCycle l = finished (s.setList l { s.list l with remaining := left }) l .countReached) ∧
    (left ≠ .count 0 → c.trigger = .continuous →
      s.endCycle l = (s.setList l { s.list l with remaining := left }).startCycle l) ∧
    (left ≠ .count 0 → c.trigger ≠ .continuous → (s.list l).startPending = true →
      s.endCycle l = (s.setList l { s.list l with remaining := left, startPending := false }).startCycle l) ∧
    (left ≠ .count 0 → c.trigger ≠ .continuous → (s.list l).startPending = false →
      s.endCycle l = s.setList l { s.list l with remaining := left, state := .armed })

/-- STOP_LIST by the list's state, but for the abort of a RUNNING or DRAINING list, and ABORT_COMPLETE (R67 to R70). That
STOP_LIST_DRAIN answers a mode out of range is the model's choice (assumption 4). ABORT_COMPLETE is not due while work is
outstanding (assumption 2). An IDLE transmitter chooses at the end of the row. Of the items that the row makes available
together it takes a REPLY before an ALARM, a NOTICE and a REPORT: R170 leaves that to the order the world gives, and the ranking
is the model's choice (assumption 29). -/
def Obligations.StopListActsByState : Prop :=
  (∀ (s : State) (f : Frame) (rest : List Frame) (l : ListId) (m : Byte), Addressed 0x14 s f rest →
      f.payload = [byte l.val, m] → 1 < m.toNat →
      exec .stopListDrain s = .next (answered s f rest .badField [2])) ∧
    (∀ (s : State) (f : Frame) (rest : List Frame) (l : ListId), Addressed 0x14 s f rest → f.payload = [byte l.val, 0] →
      exec .stopListDrain s = .next
        (match (s.list l).state with
         | .empty => answered s f rest .notDefined []
         | .idle | .draining | .aborting => answered s f rest .ok []
         | .armed => answered (finished s l .drained) f rest .ok []
         | .running => answered (s.setList l { s.list l with state := .draining, timer := none, startPending := false })
             f rest .ok [])) ∧
    (∀ (s : State) (f : Frame) (rest : List Frame) (l : ListId), Addressed 0x14 s f rest → f.payload = [byte l.val, 1] →
      ((s.list l).state = .empty → exec .stopListAbort s = .next (answered s f rest .notDefined [])) ∧
      ((s.list l).state = .idle ∨ (s.list l).state = .aborting →
        exec .stopListAbort s = .next (answered s f rest .ok [])) ∧
      ((s.list l).state = .armed →
        exec .stopListAbort s = .next (answered (finished s l .aborted) f rest .ok []))) ∧
    ∀ (s : State) (l : ListId), exec (.abortComplete l) s = .next
      (if (s.list l).state = .aborting ∧ (s.list l).outstanding = 0 then chosen (finished s l .aborted) else s)

/-- STOP_LIST ABORT of a RUNNING or DRAINING list deals with each entry where its work stands: requests and queue entries are
gone, conversions are cancelled into DISCHARGE, latches discarded, the evaluation is void, and the outstanding count counts the
cancelled and the void work (R15, R69, R102, R144). The state after it is given whole: what belongs to no entry of the list
stays. Where an offline-pending core whose latch is discarded goes OFFLINE, the requests of others that it leaves without a core
complete with NO_CORE as well (R82, R83, R86). Each core that becomes IDLE is a grant event (R80, R81). That all such cores go
in ascending number is the model's choice (assumptions 18 and 26), the numbers of the events are its own (assumption 9). An IDLE
transmitter chooses at the end of the row. Of the items that the row makes available together it takes a REPLY before an ALARM,
a NOTICE and a REPORT: R170 leaves that to the order the world gives, and the ranking is the model's choice (assumption 29). -/
def Obligations.AbortDealsWithEveryEntry : Prop :=
  ∀ (s : State) (f : Frame) (rest : List Frame) (l : ListId) (n : Nat), Addressed 0x14 s f rest → f.payload = [byte l.val, 1] →
    ((s.list l).state = .running ∨ (s.list l).state = .draining) → HoldSound s →
    n = (List.finRange 4).countP (fun c => (s.core c).convertsFor l) + (s.engine.any (fun e => e.origin.ofList l)).toNat →
    ((∀ c, (s.core c).latchesFor l = true → (s.core c).offlinePending = false) →
      exec .stopListAbort s = .next (answered (aborted s l n) f rest .ok [])) ∧
    (SamplesHaveWork s → exec .stopListAbort s = .next (answered
      (completedNoCore (aborted s l n) (lostInTurn (aborted s l n) (pendingAmong s (fun k => k.latchesFor l)))) f rest .ok []))

/-- A trigger starts a cycle in ARMED, and in RUNNING sets start-pending or counts a skipped start (R54): TRIGGER_LIST with its
refusals (R56), a period expiry, after which the next is due one period later whatever the cycles do (R55), and a cycle end of
the source, which the lists chained to it take one after another in ascending list number, be they none, one or several (R57).
With no timer the row PERIOD_EXPIRY is not due (assumption 2). The clock moves to the moment of the expiry (the model's own:
assumption 6). That an IDLE transmitter chooses at the end of the row and keeps the choice until its frame begins is the model's
choice (R170; assumption 29). -/
def Obligations.TriggersActByState : Prop :=
  (∀ (s : State) (f : Frame) (rest : List Frame) (l : ListId), Addressed 0x15 s f rest → f.payload = [byte l.val] →
      (s.list l).config = none →
      exec .triggerList s = .next (answered s f rest .notDefined [])) ∧
    (∀ (s : State) (f : Frame) (rest : List Frame) (l : ListId) (c : ListConfig), Addressed 0x15 s f rest →
        f.payload = [byte l.val] → (s.list l).config = some c →
      exec .triggerList s = .next
        (if c.trigger ≠ .onCommand then answered s f rest .wrongState []
         else match (s.list l).state with
           | .armed => answered (s.startCycle l) f rest .ok []
           | .running => answered (s.setList l (triggeredRunning (s.list l))) f rest .ok []
           | _ => answered s f rest .wrongState [])) ∧
    (∀ (s : State) (l : ListId) (c : ListConfig) (k : PeriodTimer) (p : Nat), (s.list l).config = some c →
        c.trigger = .periodic p → (s.list l).timer = some k →
      let later : ListRec := { s.list l with timer := some { k with next := k.next + p * 16000 } }
      exec (.periodExpiry l) s = .next
        (match (s.list l).state with
         | .armed => ({ s with now := max s.now k.next }.setList l later).startCycle l
         | .running => { s with now := max s.now k.next }.setList l (triggeredRunning later)
         | _ => { s with now := max s.now k.next }.setList l later)) ∧
    (∀ (s : State) (l : ListId), (s.list l).timer = none → exec (.periodExpiry l) s = .next s) ∧
    (∀ (s : State) (source : ListId), s.triggerChained source =
      ((List.finRange 8).filter (fun m => (s.list m).chainedTo source)).foldl triggered s) ∧
    (∀ (s : State) (source : ListId), (∀ m, (s.list m).chainedTo source = false) → s.triggerChained source = s) ∧
    ∀ (s : State) (source l : ListId), (∀ m, (s.list m).chainedTo source = true ↔ m = l) →
      s.triggerChained source =
        match (s.list l).state with
        | .armed => s.startCycle l
        | .running => s.setList l (triggeredRunning (s.list l))
        | _ => s

/-- A READY head retires when the report queue has room: its record, as R63 and R145 to R147 build it, joins the tail, the
monitor writes its channel and the alarm notices, the number is consumed, the run-start mark it carried is cleared, and the list
goes on (R63, R68, R121, R140, R141). With a full queue the head stays under HOLD, its list joining the blocked order once, and
retires without a record under DISCARD, the run-start mark kept. With no READY head the row is not due (assumption 2). An IDLE
transmitter chooses at the end of the row. Of the items that the row makes available together it takes a REPLY before an ALARM,
a NOTICE and a REPORT: R170 leaves that to the order the world gives, and the ranking is the model's choice (assumption 29). -/
def Obligations.RetirementBuildsTheRecord : Prop :=
  (∀ (s : State) (l : ListId) (c : ListConfig) (e : Entry) (w : List Entry) (r : Result), (s.list l).config = some c →
      (s.list l).window = e :: w → e.stage = .ready r →
      (s.reports.length < 64 → exec (.retire l) s = .next
        (chosen
          (goesOn (retired { s with blocked := s.blocked.erase l } l c e w r true) l (decide (e.step + 1 = c.steps.length))))) ∧
      (64 ≤ s.reports.length → c.policy = .discard → exec (.retire l) s = .next
        (chosen (goesOn (retired s l c e w r false) l (decide (e.step + 1 = c.steps.length))))) ∧
      (64 ≤ s.reports.length → c.policy = .hold → exec (.retire l) s = .next
        (if l ∈ s.blocked then s else { s with blocked := s.blocked ++ [l] }))) ∧
    ∀ (s : State) (l : ListId), (s.list l).readyHead = none → exec (.retire l) s = .next s

/-! ### Tables -/

/-- BEGIN_TABLE is refused for a count out of range, for an open session and with no FREE bank; accepted, it stages the FREE
bank with the lowest number, every place empty, and opens the session with its timer running (R110, R111). That an IDLE
transmitter chooses at the end of the row and keeps the choice until its frame begins is the model's choice (R170; assumption
29). -/
def Obligations.SessionOpensOnTheLowestFreeBank : Prop :=
  (∀ (s : State) (f : Frame) (rest : List Frame) (t : TableId) (n : Byte),
      Addressed 0x18 s f rest → f.payload = [byte t.val, n] → (n = 0 ∨ 16 < n.toNat) →
      exec .beginTable s = .next (answered s f rest .badField [2])) ∧
    ∀ (s : State) (f : Frame) (rest : List Frame) (t : TableId) (n : Byte),
      Addressed 0x18 s f rest → f.payload = [byte t.val, n] → n ≠ 0 → n.toNat ≤ 16 →
      (s.session.isSome = true → exec .beginTable s = .next (answered s f rest .sessionOpen [])) ∧
      (s.session = none → (∀ b, (s.bank b).state ≠ .free) →
        exec .beginTable s = .next (answered s f rest .banksBusy [])) ∧
      ∀ b, s.session = none → (s.bank b).state = .free → (∀ x, x < b → (s.bank x).state ≠ .free) →
        exec .beginTable s = .next (answered
          { s.setBank b { state := .staging, table := some t, places := List.replicate n.toNat none, held := false } with
            session := some { table := t, bank := b, count := n.toNat, received := [], expiry := s.now + 80000000 } }
          f rest .ok [byte b.val])

/-- LOAD_SEGMENTS stores the segments its payload spells at their indices and no other place changes, takes the indices into the
received-set and restarts the idle timer; it is refused, with nothing stored, for a field out of range, without a session and
past the session's count (R112, R190). That an IDLE transmitter chooses at the end of the row and keeps the choice until its
frame begins is the model's choice (R170; assumption 29). -/
def Obligations.SegmentsAreStoredAtTheirIndices : Prop :=
  ∀ (s : State) (f : Frame) (rest : List Frame) (first : Byte) (gs : List Segment),
    Addressed 0x19 s f rest → f.payload = first :: gs.flatMap segmentLayout → 1 ≤ gs.length → gs.length ≤ 4 →
    (15 < first.toNat → exec .loadSegments s = .next (answered s f rest .badField [1])) ∧
    (first.toNat ≤ 15 → ∀ j g, gs[j]? = some g → 3 < g.degree → g.degree ≤ 255 →
      (∀ i, i < j → ∃ h, gs[i]? = some h ∧ h.degree ≤ 3) →
      exec .loadSegments s = .next (answered s f rest .badField [byte (3 + 6 * j)])) ∧
    (first.toNat ≤ 15 → (∀ g ∈ gs, ValidSegment g) →
      (s.session = none → exec .loadSegments s = .next (answered s f rest .noSession [])) ∧
      ∀ k, s.session = some k →
        (k.count < first.toNat + gs.length → exec .loadSegments s = .next (answered s f rest .badField [1])) ∧
        (first.toNat + gs.length ≤ k.count → (s.bank k.bank).places.length = k.count →
          ∃ places received,
            exec .loadSegments s = .next (answered
              { s.setBank k.bank { s.bank k.bank with places := places } with
                session := some { k with received := received, expiry := s.now + 80000000 } } f rest .ok []) ∧
            places.length = k.count ∧
            (∀ i, i < gs.length → places[first.toNat + i]? = some gs[i]?) ∧
            (∀ i, i < first.toNat ∨ first.toNat + gs.length ≤ i → places[i]? = (s.bank k.bank).places[i]?) ∧
            (∀ i, i ∈ received ↔ i ∈ k.received ∨ (first.toNat ≤ i ∧ i < first.toNat + gs.length)) ∧
            (k.received.Nodup → received.Nodup)))

/-- COMMIT_TABLE is refused without a session for the id, with an index missing and with bounds that do not rise; accepted, in
one step the bank that was ACTIVE for the id leaves ACTIVE, RETIRING while it is held and else FREE, the staging bank is ACTIVE
with its segments, and the session is closed (R113, R114). That an IDLE transmitter chooses at the end of the row and keeps the
choice until its frame begins is the model's choice (R170; assumption 29). -/
def Obligations.CommitPutsTheVersionInService : Prop :=
  ∀ (s : State) (f : Frame) (rest : List Frame) (t : TableId),
    Addressed 0x1A s f rest → f.payload = [byte t.val] →
    ((∀ k, s.session = some k → k.table ≠ t) → exec .commitTable s = .next (answered s f rest .noSession [])) ∧
    ∀ k, s.session = some k → k.table = t →
      ((∃ i, i < k.count ∧ i ∉ k.received) → exec .commitTable s = .next (answered s f rest .tableIncomplete [])) ∧
      ((∀ i, i < k.count → i ∈ k.received) → ∀ gs : List Segment, (s.bank k.bank).places = gs.map some →
        (¬ gs.Pairwise (fun g h => g.xHi < h.xHi) →
          exec .commitTable s = .next (answered s f rest .tableOrder [])) ∧
        (gs.Pairwise (fun g h => g.xHi < h.xHi) → (s.bank k.bank).state = .staging →
          (NoActive s t → exec .commitTable s = .next (answered
            { s.setBank k.bank { s.bank k.bank with state := .active } with session := none } f rest .ok
            [byte k.bank.val])) ∧
          ∀ b, OnlyActive s t b → exec .commitTable s = .next (answered
            { (s.setBank b (outOfActive (s.bank b))).setBank k.bank { s.bank k.bank with state := .active } with
              session := none } f rest .ok [byte k.bank.val])))

/-- ABANDON_TABLE is refused without a session; otherwise the staging bank is FREE, the session is closed, and nothing else
changes (R115). That an IDLE transmitter chooses at the end of the row and keeps the choice until its frame begins is the
model's choice (R170; assumption 29). -/
def Obligations.AbandonDiscardsTheSession : Prop :=
  ∀ (s : State) (f : Frame) (rest : List Frame), Addressed 0x1B s f rest → f.payload = [] →
    (s.session = none → exec .abandonTable s = .next (answered s f rest .noSession [])) ∧
    ∀ k, s.session = some k → exec .abandonTable s = .next (answered
      { s.setBank k.bank { state := .free, table := none, places := [], held := false } with session := none } f rest .ok [])

/-- DROP_TABLE takes the ACTIVE bank of the id out of service (R117); GET_TABLE reads it back, up to four segments from the
first index on (R118); both are refused when no bank is ACTIVE for the id. That an IDLE transmitter chooses at the end of the
row and keeps the choice until its frame begins is the model's choice (R170; assumption 29). -/
def Obligations.TablesAreDroppedAndRead : Prop :=
  (∀ (s : State) (f : Frame) (rest : List Frame) (t : TableId), Addressed 0x1C s f rest → f.payload = [byte t.val] →
      (NoActive s t → exec .dropTable s = .next (answered s f rest .notDefined [])) ∧
      ∀ b, OnlyActive s t b →
        exec .dropTable s = .next (answered (s.setBank b (outOfActive (s.bank b))) f rest .ok [])) ∧
    ∀ (s : State) (f : Frame) (rest : List Frame) (t : TableId) (first : Byte),
      Addressed 0x1D s f rest → f.payload = [byte t.val, first] →
      (15 < first.toNat → exec .getTable s = .next (answered s f rest .badField [2])) ∧
      (first.toNat ≤ 15 → NoActive s t → exec .getTable s = .next (answered s f rest .notDefined [])) ∧
      ∀ b (gs : List Segment), first.toNat ≤ 15 → OnlyActive s t b → (s.bank b).places = gs.map some →
        (gs.length ≤ first.toNat → exec .getTable s = .next (answered s f rest .badField [2])) ∧
        (first.toNat < gs.length → exec .getTable s = .next (answered s f rest .ok
          ([byte t.val, byte b.val, byte gs.length, first] ++ ((gs.drop first.toNat).take 4).flatMap segmentLayout)))

/-! ### Inputs, arbiter and timers -/

/-- The end of a rest frees a RESTING input (R29) and the idle timer of an open session abandons it and raises the notice
(R116); the clock is then at the timer's moment or later (the model's choice: assumption 6). A row that is not due changes
nothing (assumption 2). The end of a rest is a grant event (R80); its number is the model's own (assumption 9). After the
session's notice an IDLE transmitter chooses (R170; when, and that the choice is kept until its frame begins, is the model's
choice: assumption 29). -/
def Obligations.RestAndSessionTimersExpire : Prop :=
  (∀ (s : State) (i : InputId) (t : Nat), s.input i = .resting t →
      exec (.restEnd i) s = .next { s.setInput i .free with
        now := max s.now t, freeSince := s.freeSince.set i s.nextEvent, nextEvent := s.nextEvent + 1 }) ∧
    (∀ (s : State) (i : InputId), (∀ t, s.input i ≠ .resting t) → exec (.restEnd i) s = .next s) ∧
    (∀ (s : State) (k : Session), s.session = some k → exec .sessionIdleTimeout s = .next
      (chosen { s.setBank k.bank { state := .free, table := none, places := [], held := false } with
        now := max s.now k.expiry, session := none, notices := raiseIn .sessionExpired s.notices })) ∧
    ∀ s : State, s.session = none → exec .sessionIdleTimeout s = .next s

/-- Every grant event has a pass of its own, and the passes are made in the order of the events (R75, R80, R81). A grant belongs
to the first event `n` whose pass has a request to grant: an eligible one whose arrival, whose input's freeing and one of whose
IDLE cores' freeing came up to that event. Of these it takes the one that stands first, by priority and then age, out of the
pool, to its primary core if that was IDLE by then and else to its secondary: the input is claimed, the core copies the
parameters and enters SELECT, the window entry is CONVERTING (R5, R27, R74, R76 to R79). The numbers of the events are the model's
own form of their order (assumption 9). With no eligible request the row is not due and nothing changes (assumption 2). -/
def Obligations.GrantGoesToTheFirstEligible : Prop :=
  (∀ (s : State) (n : Nat) (r : Request) (k : ChannelConfig) (c : CoreId),
      (∀ m, m < n → ∀ q ∈ s.pool, ¬ EligibleAt s m q) → s.pool.Pairwise (fun x y => x.age < y.age) →
      r ∈ s.pool → EligibleAt s n r → (∀ q ∈ s.pool, EligibleAt s n q → StandsFirst r q) →
      (s.channel r.channel).config = some k →
      c = (if (s.core (primaryCore r.input)).state = .idle ∧ s.idleSince.get (primaryCore r.input) ≤ n
        then primaryCore r.input else secondaryCore r.input) →
      exec .grant s = .next (({ (s.setInput r.input (.claimed c)).setCore c { s.core c with
          state := .select, claimed := some r.input,
          params := some {
            origin := r.origin, channel := r.channel, input := r.input, reference := k.reference,
            excitation := k.excitation, gate := k.gate, settle := k.settle, phaseLimit := k.phaseLimit, rest := k.rest },
          cancelled := false, meas := {}, phaseStart := s.now } with
        pool := s.pool.erase r } : State).setOriginStage r.origin .converting)) ∧
    ∀ s : State, (∀ q ∈ s.pool, ¬ Eligible s q) → exec .grant s = .next s

/-! ### Cores -/

/-- The reference side of a conversion: SELECT ends into REF; a reference phase whose N = 2^g periods end within its limit keeps
T_ref, clears the stall count and goes on to SENSE or SENSE_POS, and it completes at no other number of periods (R31); one that
times out is REF_STALL, counts one stall (3 at most) and goes to DISCHARGE (R1, R5, R6, R13). The clock moves to the end of the
phase (assumption 6). A count equal to the limit completes (assumption 7). The limit is the channel's phase limit in ticks. A
row that is not due changes nothing (assumption 2). In SELECT and REF the claimed input is connected to the core and to no other,
the reference switch stands at the channel's reference, and no oscillator current flows in the sensor: R6 says so of REF, and of
SELECT it is the model's reading (assumption 28); in SELECT the excitation is forward (R5), in REF the capacitor oscillates
through the reference (R6). An input that no core claims is disconnected and carries no current (R25). -/
def Obligations.ReferencePhaseEnds : Prop :=
  (∀ (s : State) (c : CoreId) (p : Params) (now : Nat), (s.core c).state = .select → (s.core c).params = some p →
      now = max s.now ((s.core c).phaseStart + p.settle * 1600) →
      exec (.settleEnd c) s = .next
        { s.setCore c { s.core c with state := .ref, phaseStart := now } with now := now }) ∧
    (∀ (s : State) (c : CoreId) (p : Params) (n : PeriodCount), (s.core c).state = .ref → (s.core c).params = some p →
      n.periods ≠ 2 ^ p.gate ∨ p.phaseLimit * 16000 < n.ticks → exec (.refPhaseComplete c n) s = .next s) ∧
    (∀ (s : State) (c : CoreId) (p : Params) (ticks now : Nat), (s.core c).state = .ref → (s.core c).params = some p →
      ticks ≤ p.phaseLimit * 16000 → now = max s.now ((s.core c).phaseStart + ticks) →
      exec (.refPhaseComplete c { periods := 2 ^ p.gate, ticks := ticks }) s = .next
        { s.setCore c { s.core c with
            state := if p.excitation = .dc then .sense else .sensePos, phaseStart := now, stalls := 0,
            meas := { (s.core c).meas with tRef := some ticks } } with now := now }) ∧
    (∀ (s : State) (c : CoreId) (p : Params) (now : Nat), (s.core c).state = .ref → (s.core c).params = some p →
      now = max s.now ((s.core c).phaseStart + p.phaseLimit * 16000) →
      exec (.refPhaseTimeout c) s = .next
        { s.setCore c { s.core c with
            state := .discharge, phaseStart := now, stalls := min 3 ((s.core c).stalls + 1),
            meas := { (s.core c).meas with outcome := some (.fault .refStall none) } } with now := now }) ∧
    (∀ (s : State) (c : CoreId), (s.core c).state ≠ .select → exec (.settleEnd c) s = .next s) ∧
    (∀ (s : State) (c : CoreId) (n : PeriodCount), (s.core c).state ≠ .ref →
      exec (.refPhaseComplete c n) s = .next s ∧ exec (.refPhaseTimeout c) s = .next s) ∧
    (∀ (s : State) (c : CoreId) (p : Params) (i : InputId), (s.core c).params = some p → s.input i = .claimed c →
      ((s.core c).state = .select ∨ (s.core c).state = .ref →
        (∀ d, s.connected d i = true ↔ d = c) ∧ (s.core c).referenceSwitch = some p.reference ∧
          s.oscillatesAt i = false) ∧
      ((s.core c).state = .select → s.excitationAt i = some .forward) ∧
      ((s.core c).state = .ref → (s.core c).capacitor = .throughReference p.reference)) ∧
    ∀ (s : State) (i : InputId), (∀ c, s.input i ≠ .claimed c) →
      s.excitationAt i = none ∧ s.oscillatesAt i = false ∧ ∀ c, s.connected c i = false

/-- The outcome tests 3 to 6 of R9 in their order, for a reference count above 0: half-counts more than 2 to 1 apart are
ASYMMETRIC, below 256 is SHORT, 1000000h or more is OVER_RANGE, anything else is valid; an attached ratio of 1000000h or more
is 0FFFFFFh (R2, R9). -/
def Obligations.OutcomeTestsAreOrdered : Prop :=
  ∀ (tRef tSense : Nat) (halves : Option (Nat × Nat)) (ratio attached : Nat), tRef ≠ 0 →
    ratio * tRef ≤ tSense * 65536 → tSense * 65536 < (ratio + 1) * tRef →
    attached = (if 0x1000000 ≤ ratio then 0xFFFFFF else ratio) →
    computedRatio tRef tSense = ratio ∧
    ((∃ x y, halves = some (x, y) ∧ (2 * x < y ∨ 2 * y < x)) →
      decideOutcome halves ratio = .fault .asymmetric (some attached)) ∧
    ((∀ x y, halves = some (x, y) → y ≤ 2 * x ∧ x ≤ 2 * y) →
      (ratio < 256 → decideOutcome halves ratio = .fault .short (some ratio)) ∧
      (256 ≤ ratio → ratio < 0x1000000 → decideOutcome halves ratio = .valid ratio) ∧
      (0x1000000 ≤ ratio → decideOutcome halves ratio = .fault .overRange (some 0xFFFFFF)))

/-- The sense side of a conversion: the DC phase of N = 2^g periods, or the two halves of N/2 periods under one limit, completes
at that number of periods and no other (R31) and decides the outcome on the ratio of the counts, or the limit expires and the
outcome is OPEN; the core is then in DISCHARGE (R1, R7 to R9). The clock moves to the end of the phase, and a count equal to the
limit completes (the model's readings: assumptions 6 and 7). A kept reference count of 0 gives a free ratio (assumption 8). A
row that is not due changes nothing (assumption 2), and so does the end of the reverse half once both halves together are above
the limit (R8). In a sense measurement the capacitor oscillates through the sensor at the
claimed input, with forward excitation in SENSE and SENSE_POS and reversed in SENSE_NEG (R7, R8). -/
def Obligations.SensePhaseEnds : Prop :=
  (∀ (s : State) (c : CoreId) (p : Params) (ticks now tRef : Nat), (s.core c).state = .sense →
      (s.core c).params = some p → (s.core c).meas.tRef = some tRef → ticks ≤ p.phaseLimit * 16000 →
      now = max s.now ((s.core c).phaseStart + ticks) →
      exec (.sensePhaseComplete c { periods := 2 ^ p.gate, ticks := ticks }) s = .next
        { s.setCore c { s.core c with
            state := .discharge, phaseStart := now,
            meas := { (s.core c).meas with
              tSense := some ticks, outcome := some (decideOutcome none (computedRatio tRef ticks)) } } with now := now }) ∧
    (∀ (s : State) (c : CoreId) (p : Params) (ticks : Nat), (s.core c).state = .sensePos → (s.core c).params = some p →
      ticks ≤ p.phaseLimit * 16000 →
      exec (.sensePosComplete c { periods := 2 ^ p.gate / 2, ticks := ticks }) s = .next
        { s.setCore c { s.core c with
            state := .senseNeg, meas := { (s.core c).meas with forward := some ticks } } with
          now := max s.now ((s.core c).phaseStart + ticks) }) ∧
    (∀ (s : State) (c : CoreId) (p : Params) (ticks forward now tRef : Nat), (s.core c).state = .senseNeg →
      (s.core c).params = some p → (s.core c).meas.tRef = some tRef → (s.core c).meas.forward = some forward →
      forward + ticks ≤ p.phaseLimit * 16000 → now = max s.now ((s.core c).phaseStart + (forward + ticks)) →
      exec (.senseNegComplete c { periods := 2 ^ p.gate / 2, ticks := ticks }) s = .next
        { s.setCore c { s.core c with
            state := .discharge, phaseStart := now,
            meas := { (s.core c).meas with
              reverse := some ticks, tSense := some (forward + ticks),
              outcome := some (decideOutcome (some (forward, ticks)) (computedRatio tRef (forward + ticks))) } } with
          now := now }) ∧
    (∀ (s : State) (c : CoreId) (p : Params) (now : Nat),
      ((s.core c).state = .sense ∨ (s.core c).state = .sensePos ∨ (s.core c).state = .senseNeg) →
      (s.core c).params = some p → now = max s.now ((s.core c).phaseStart + p.phaseLimit * 16000) →
      exec (.senseTimeout c) s = .next
        { s.setCore c { s.core c with
            state := .discharge, phaseStart := now,
            meas := { (s.core c).meas with outcome := some (.fault .openLead none) } } with now := now }) ∧
    (∀ (s : State) (c : CoreId) (p : Params) (n : PeriodCount), (s.core c).params = some p →
      (n.periods ≠ 2 ^ p.gate ∨ p.phaseLimit * 16000 < n.ticks → exec (.sensePhaseComplete c n) s = .next s) ∧
      (n.periods ≠ 2 ^ p.gate / 2 ∨ p.phaseLimit * 16000 < n.ticks →
        exec (.sensePosComplete c n) s = .next s ∧ exec (.senseNegComplete c n) s = .next s) ∧
      ∀ forward, (s.core c).meas.forward = some forward → p.phaseLimit * 16000 < forward + n.ticks →
        exec (.senseNegComplete c n) s = .next s) ∧
    (∀ (s : State) (c : CoreId) (n : PeriodCount),
      ((s.core c).state ≠ .sense → exec (.sensePhaseComplete c n) s = .next s) ∧
      ((s.core c).state ≠ .sensePos → exec (.sensePosComplete c n) s = .next s) ∧
      ((s.core c).state ≠ .senseNeg → exec (.senseNegComplete c n) s = .next s) ∧
      ((s.core c).state ≠ .sense ∧ (s.core c).state ≠ .sensePos ∧ (s.core c).state ≠ .senseNeg →
        exec (.senseTimeout c) s = .next s)) ∧
    ∀ (s : State) (c : CoreId) (i : InputId), s.input i = .claimed c →
      ((s.core c).state = .sense ∨ (s.core c).state = .sensePos →
        s.excitationAt i = some .forward ∧ s.oscillatesAt i = true ∧ (s.core c).capacitor = .throughSensor) ∧
      ((s.core c).state = .senseNeg →
        s.excitationAt i = some .reverse ∧ s.oscillatesAt i = true ∧ (s.core c).capacitor = .throughSensor)

/-- The end of DISCHARGE: the input is released and rests for the copied rest, and the conversion is removed from the core; then
a cancelled conversion is counted off, a result with no origin is dropped, a fault goes to its origin, a valid ratio joins the
evaluation queue or, with no place for it, the core enters HOLD; in all but the last the core takes its next state; all of it is
one grant event (R10, R11, R28, R80, R92; an offer behind cores in HOLD finds no place: assumption 11). A result reaches its
window entry, which is READY with it, or its pending SAMPLE, whose reply carries it in the bytes of 10.5 (R61, R86). That the
core keeps its cancelled mark, set, after the end of a cancelled conversion is the model's reading (assumption 19). The clock
moves to the end of the 0.2 ms (assumption 6), and the number of the grant event is the model's own (assumption 9). A row that
is not due changes nothing (assumption 2). In DISCHARGE the capacitor is shorted (R10). What the entry into OFFLINE with a
reason does is spelled in CoresGoOffline. An IDLE transmitter chooses at the end of the row. Of the items that the row makes
available together it takes a REPLY before an ALARM, a NOTICE and a REPORT: R170 leaves that to the order the world gives, and
the ranking is the model's choice (assumption 29). -/
def Obligations.DischargeReleasesAndHandsOff : Prop :=
  (∀ (s u : State) (c : CoreId) (p : Params) (i : InputId) (now : Nat),
      (s.core c).state = .discharge → (s.core c).params = some p → (s.core c).claimed = some i →
      now = max s.now ((s.core c).phaseStart + 3200) →
      u = { (s.setInput i (if p.rest = 0 then .free else .resting (now + p.rest * 160000))).setCore c
              { s.core c with claimed := none, params := none, meas := {} } with
            now := now, freeSince := if p.rest = 0 then s.freeSince.set i s.nextEvent else s.freeSince } →
      ((s.core c).cancelled = true → ∀ l k, p.origin = .entry l k → exec (.dischargeEnd c) s = .next
        (chosen { afterConversion (u.setList l { u.list l with outstanding := (u.list l).outstanding - 1 }) c with
          nextEvent := s.nextEvent + 1 })) ∧
      ((∀ w, p.origin = .sample w → (s.core c).cancelled = true ∨ (s.findSample w).isSome = false →
        exec (.dischargeEnd c) s = .next (chosen { afterConversion u c with nextEvent := s.nextEvent + 1 }))) ∧
      ((s.core c).cancelled = false → ((∃ l k, p.origin = .entry l k) ∨ ∃ w, p.origin = .sample w ∧ (s.findSample w).isSome) →
        (∀ st x, (s.core c).meas.outcome = some (.fault st x) → exec (.dischargeEnd c) s = .next
          (chosen { afterConversion (u.deliver p.origin { status := st, ratio := x, value := none }) c with
            nextEvent := s.nextEvent + 1 })) ∧
        (∀ x, (s.core c).meas.outcome = some (.valid x) →
          (s.evalQueue.length < 6 → s.holdOrder = [] → exec (.dischargeEnd c) s = .next
            (chosen { afterConversion (({ u with
                evalQueue := u.evalQueue ++ [{ origin := p.origin, channel := p.channel, ratio := x }] } : State).setOriginStage
                p.origin .evaluating) c with nextEvent := s.nextEvent + 1 })) ∧
          ((6 ≤ s.evalQueue.length ∨ s.holdOrder ≠ []) → exec (.dischargeEnd c) s = .next
            (chosen { u.setCore c { u.core c with
                state := .hold, latch := some { origin := p.origin, channel := p.channel, ratio := x } } with
              holdOrder := s.holdOrder ++ [c], nextEvent := s.nextEvent + 1 }))))) ∧
    (∀ (s : State) (c : CoreId), ((s.core c).state ≠ .discharge → exec (.dischargeEnd c) s = .next s) ∧
      ((s.core c).state = .discharge → (s.core c).capacitor = .shorted)) ∧
    (∀ (u : State) (l : ListId) (k : Nat) (r : Result), u.deliver (.entry l k) r = u.setList l { u.list l with
      window := (u.list l).window.map (fun w => if w.step = k then { w with stage := .ready r } else w) }) ∧
    ∀ (u : State) (w : Nat) (r : Result) (before after : List Deferred) (d : Deferred) (ch : ChannelId),
      u.deferred = before ++ d :: after → d.uid = w → d.subject = .sample ch → (∀ x ∈ before ++ after, x.uid ≠ w) →
      u.deliver (.sample w) r = { u with
        deferred := before ++ after
        replies := u.replies ++ [{ tag := d.tag, kind := 0x0B, outcome := .ok, data := sampleLayout ch r }] }

/-- Checks: 256 periods within 50 ms pass, and no other number of periods does; the limit's expiry fails; after the discharge of
0.2 ms CHECK_A passed goes on to CHECK_B, and the pair ends otherwise (R17). At start-up a passed core is IDLE, a failed one
OFFLINE with a CORE_OFFLINE notice, and the last pair raises READY and starts the command unit (R18, R176). A core that becomes
IDLE is a grant event (R80), whose number is the model's own (assumption 9). The clock moves to the end of each phase, and a
count at the limit passes (the model's readings: assumptions 6 and 7). The capacitor oscillates through REFA in CHECK_A and
through REFB in CHECK_B while the periods are counted, and is shorted in the discharge (R17). An IDLE transmitter chooses at the
end of the row. Of the items that the row makes available together it takes a REPLY before an ALARM, a NOTICE and a REPORT: R170
leaves that to the order the world gives, and the ranking is the model's choice (assumption 29). -/
def Obligations.ChecksRunInPairs : Prop :=
  (∀ (s : State) (c : CoreId) (ticks now : Nat),
      ((s.core c).state = .checkA ∨ (s.core c).state = .checkB) → (s.core c).checkPassed = none →
      (ticks ≤ 800000 → now = max s.now ((s.core c).phaseStart + ticks) →
        exec (.checkPeriodsComplete c { periods := 256, ticks := ticks }) s = .next
          { s.setCore c { s.core c with checkPassed := some true, phaseStart := now } with now := now }) ∧
      (now = max s.now ((s.core c).phaseStart + 800000) →
        exec (.checkLimitExpiry c) s = .next
          { s.setCore c { s.core c with checkPassed := some false, phaseStart := now } with now := now })) ∧
    (∀ (s : State) (c : CoreId) (n : PeriodCount), n.periods ≠ 256 ∨ 800000 < n.ticks →
      exec (.checkPeriodsComplete c n) s = .next s) ∧
    (∀ k : Core, (k.state = .checkA ∨ k.state = .checkB) → k.capacitor =
      (if k.checkPassed.isSome then .shorted else .throughReference (if k.state = .checkA then .refA else .refB))) ∧
    (∀ (s : State) (c : CoreId) (now : Nat), (s.core c).state = .checkA → (s.core c).checkPassed = some true →
      now = max s.now ((s.core c).phaseStart + 3200) →
      exec (.checkDischargeEnd c) s = .next
        { s.setCore c { s.core c with state := .checkB, checkPassed := none, phaseStart := now } with now := now }) ∧
    ∀ (s u v : State) (c : CoreId) (failed : Bool), s.cmdUnit = .starting →
      (((s.core c).state = .checkB ∧ (s.core c).checkPassed = some (!failed)) ∨
        ((s.core c).state = .checkA ∧ (s.core c).checkPassed = some false ∧ failed = true)) →
      u = { s.setCore c { s.core c with checkPassed := none, state := if failed then .offline else .idle } with
        now := max s.now ((s.core c).phaseStart + 3200)
        idleSince := if failed then s.idleSince else s.idleSince.set c s.nextEvent
        nextEvent := if failed then s.nextEvent else s.nextEvent + 1 } →
      v = (if failed then { u with notices := raiseIn (.coreOffline c .check) u.notices } else u) →
      exec (.checkDischargeEnd c) s = .next
        (chosen (if ∃ d, (v.core d).state = .checkA ∨ (v.core d).state = .checkB then v
          else { v with notices := raiseIn .ready v.notices, cmdUnit := .taking }))

/-- RESTORE_CORE is refused outside OFFLINE and for a full table; accepted, its entry is created and the core enters CHECK_A
(R21). The end of its pair sets the core's state and stall count and answers the entry, or answers nothing where a link reset
has removed it (R22). The clock, the number of the grant event that a core which becomes IDLE makes (R80) and the entry's `uid`
are the model's own (assumptions 6, 9 and 10). An IDLE transmitter chooses at the end of the row. Of the items that the row
makes available together it takes a REPLY before an ALARM, a NOTICE and a REPORT: R170 leaves that to the order the world gives,
and the ranking is the model's choice (assumption 29). -/
def Obligations.RestoredCoresAreChecked : Prop :=
  (∀ (s : State) (f : Frame) (rest : List Frame) (c : CoreId), Addressed 0x1F s f rest → f.payload = [byte c.val] →
      ((s.core c).state ≠ .offline → exec .restoreCore s = .next (answered s f rest .wrongState [])) ∧
      ((s.core c).state = .offline → 4 ≤ s.deferred.length →
        exec .restoreCore s = .next (answered s f rest .noRoom [])) ∧
      ((s.core c).state = .offline → s.deferred.length < 4 → exec .restoreCore s = .next
        (chosen { s.setCore c { s.core c with state := .checkA, phaseStart := s.now, checkPassed := none } with
          deferred := s.deferred ++ [{ uid := s.nextUid, tag := f.tag, subject := .restore c }]
          nextUid := s.nextUid + 1
          slots := rest }))) ∧
    ∀ (s u : State) (c : CoreId) (failed : Option Reference), s.cmdUnit ≠ .starting →
      ((failed = none ∧ (s.core c).state = .checkB ∧ (s.core c).checkPassed = some true) ∨
        (failed = some .refA ∧ (s.core c).state = .checkA ∧ (s.core c).checkPassed = some false) ∨
        (failed = some .refB ∧ (s.core c).state = .checkB ∧ (s.core c).checkPassed = some false)) →
      u = { s.setCore c (match failed with
              | none => { s.core c with checkPassed := none, state := .idle, stalls := 0 }
              | some _ => { s.core c with checkPassed := none, state := .offline }) with
            now := max s.now ((s.core c).phaseStart + 3200)
            idleSince := if failed = none then s.idleSince.set c s.nextEvent else s.idleSince
            nextEvent := if failed = none then s.nextEvent + 1 else s.nextEvent } →
      ((∀ d ∈ s.deferred, d.subject ≠ .restore c) → exec (.checkDischargeEnd c) s = .next (chosen u)) ∧
      ∀ before d after, s.deferred = before ++ d :: after → d.subject = .restore c →
        (∀ x ∈ before ++ after, x.subject ≠ .restore c ∧ x.uid ≠ d.uid) →
        exec (.checkDischargeEnd c) s = .next (chosen { u with
          deferred := before ++ after
          replies := s.replies ++ [{
            tag := d.tag, kind := 0x1F, outcome := if failed = none then .ok else .checkFailed,
            data := match failed with
              | none => [byte c.val]
              | some .refA => [byte c.val, 0]
              | some .refB => [byte c.val, 1] }] })

/-- TAKE_CORE_OFFLINE by the core's state (R19). A core that goes OFFLINE raises CORE_OFFLINE, and each waiting request that it
served and whose cores are then both offline leaves the pool and completes with NO_CORE, oldest first (R14, R82, R83): its
window entry is READY, and a pending SAMPLE is answered under its tag and its entry removed (R86), before the command's own
reply. The state after it is given whole: everything else stays. The same holds of every entry into OFFLINE from an ONLINE
state, whatever its reason (`enterOffline`): the core is OFFLINE with its mark clear, the notice carries that reason (R14, R20,
R172), and the requests complete. A check that fails enters OFFLINE from a check state, which is no such entry: ChecksRunInPairs
and RestoredCoresAreChecked say what it does (R18, R22). An IDLE transmitter chooses at the end of the row. Of the items that
the row makes available together it takes a REPLY before an ALARM, a NOTICE and a REPORT: R170 leaves that to the order the
world gives, and the ranking is the model's choice (assumption 29). -/
def Obligations.CoresGoOffline : Prop :=
  (∀ (s u : State) (c : CoreId) (why : OfflineReason),
    u = { s.setCore c { s.core c with state := .offline, offlinePending := false } with
      notices := raiseIn (.coreOffline c why) s.notices } →
    ((∀ r ∈ s.pool, ¬ (serves c r.input = true ∧ BothOffline u r.input)) → s.enterOffline c why = u) ∧
      (SamplesHaveWork s → s.enterOffline c why = completedNoCore u (lostWith u [c]))) ∧
  ∀ (s : State) (f : Frame) (rest : List Frame) (c : CoreId), Addressed 0x1E s f rest → f.payload = [byte c.val] →
    ((s.core c).state = .checkA ∨ (s.core c).state = .checkB →
      exec .takeCoreOffline s = .next (answered s f rest .wrongState [])) ∧
    ((s.core c).state = .offline → exec .takeCoreOffline s = .next (answered s f rest .ok [byte c.val])) ∧
    ((s.core c).state.isConverting = true ∨ (s.core c).state = .hold →
      exec .takeCoreOffline s = .next
        (answered (s.setCore c { s.core c with offlinePending := true }) f rest .okAfterCurrent [byte c.val])) ∧
    ((s.core c).state = .idle → ∀ u : State,
      u = { s.setCore c { s.core c with state := .offline, offlinePending := false } with
        notices := raiseIn (.coreOffline c .command) s.notices } →
      ((∀ r ∈ s.pool, ¬ (serves c r.input = true ∧ BothOffline u r.input)) →
        exec .takeCoreOffline s = .next (answered u f rest .ok [byte c.val])) ∧
      (SamplesHaveWork s →
        exec .takeCoreOffline s = .next (answered (completedNoCore u (lostWith u [c])) f rest .ok [byte c.val])))

/-! ### The evaluation engine -/

/-- A free place goes to the oldest core in HOLD: its latch joins the queue at the tail, its window entry is EVALUATING, and the
core leaves the HOLD order for IDLE, which is a grant event, or for OFFLINE under the mark (R12, R80, R93). The number of the
grant event is the model's own (assumption 9). With no core in HOLD or no place the row is not due (assumption 2). An IDLE
transmitter chooses at the end of the row. Of the items that the row makes available together it takes a REPLY before an ALARM,
a NOTICE and a REPORT: R170 leaves that to the order the world gives, and the ranking is the model's choice (assumption 29). -/
def Obligations.HeldRatioTakesThePlace : Prop :=
  (∀ (s u : State) (c : CoreId) (rest : List CoreId) (e : RatioEntry), s.holdOrder = c :: rest →
      (s.core c).latch = some e → s.evalQueue.length < 6 →
      u = { (s.setCore c { s.core c with latch := none }).setOriginStage e.origin .evaluating with
        evalQueue := s.evalQueue ++ [e], holdOrder := rest } →
      exec .holdServed s = .next
        (chosen (if (s.core c).offlinePending = true then u.enterOffline c .command
          else { u.setCore c { u.core c with state := .idle } with
            idleSince := s.idleSince.set c s.nextEvent, nextEvent := s.nextEvent + 1 }))) ∧
    ∀ s : State, s.holdOrder = [] ∨ 6 ≤ s.evalQueue.length → exec .holdServed s = .next s

/-- A FREE engine starts on the head entry: it leaves the queue, and by the channel's table as it stands the course is NONE, or
no bank is ACTIVE, or the ACTIVE bank is referenced and held while the first segment whose bound is at or above the ratio is
looked for and the accumulator set to c_n for its degree n (R94 to R97, R108; that both fall in this step is assumption 17).
What the progress holds on a course without a polynomial is the model's choice (assumption 27). With the engine BUSY or no entry
the row is not due (assumption 2). -/
def Obligations.EvaluationStartsOnTheHead : Prop :=
  (∀ (s : State) (e : RatioEntry) (rest : List RatioEntry), s.engine = none → s.evalQueue = e :: rest →
      ((∀ k, (s.channel e.channel).config = some k → k.table = none) → exec .evaluationStart s = .next { s with
        evalQueue := rest
        engine := some {
          origin := e.origin, channel := e.channel, ratio := e.ratio, table := none, bank := none,
          void := false, progress := { segment := none, acc := 0, saturated := false } } }) ∧
      ∀ k t, (s.channel e.channel).config = some k → k.table = some t →
        (NoActive s t → exec .evaluationStart s = .next { s with
          evalQueue := rest
          engine := some {
            origin := e.origin, channel := e.channel, ratio := e.ratio, table := some t, bank := none,
            void := false, progress := { segment := none, acc := 0, saturated := false } } }) ∧
        ∀ b, OnlyActive s t b → ∀ gs : List Segment, (s.bank b).places = gs.map some →
          ∃ progress, exec .evaluationStart s = .next { s.setBank b { s.bank b with held := true } with
            evalQueue := rest
            engine := some {
              origin := e.origin, channel := e.channel, ratio := e.ratio, table := some t, bank := some b,
              void := false, progress := progress } } ∧
          ((∀ g ∈ gs, g.xHi < e.ratio) → progress.segment = none) ∧
          ∀ i g lead, gs[i]? = some g → e.ratio ≤ g.xHi → (∀ j h, j < i → gs[j]? = some h → h.xHi < e.ratio) →
            (g.degree, lead) ∈ [(0, g.c0), (1, g.c1), (2, g.c2), (3, g.c3)] →
            progress = { segment := some i, acc := lead, saturated := false }) ∧
    ∀ s : State, s.engine.isSome = true ∨ s.evalQueue = [] → exec .evaluationStart s = .next s

/-- An evaluation that completes hands its result to its window entry or its pending SAMPLE, whose reply carries channel,
status, presence, ratio and value in the bytes of 10.5; a void one is counted off and one whose SAMPLE is gone is dropped; then
the bank reference is dropped and the engine is FREE (R86, R100, R101, R108). With a FREE engine the row is not due (assumption
2). An IDLE transmitter chooses at the end of the row. Of the items that the row makes available together it takes a REPLY
before an ALARM, a NOTICE and a REPORT: R170 leaves that to the order the world gives, and the ranking is the model's choice
(assumption 29). -/
def Obligations.EvaluationReachesItsOrigin : Prop :=
  (∀ (s : State) (e : Evaluation), s.engine = some e →
      (e.void = true → ∀ l k, e.origin = .entry l k → exec .evaluationComplete s = .next
        (chosen { bankDropped (s.setList l { s.list l with outstanding := (s.list l).outstanding - 1 }) e.bank with
          engine := none })) ∧
      (e.void = false → ∀ l k, e.origin = .entry l k → exec .evaluationComplete s = .next
        (chosen { bankDropped (s.setList l { s.list l with
            window := (s.list l).window.map (fun w =>
              if w.step = k then { w with stage := .ready (s.evaluationResult e) } else w) }) e.bank with engine := none })) ∧
      (∀ u, e.origin = .sample u → (∀ d ∈ s.deferred, d.uid ≠ u) → exec .evaluationComplete s = .next
        (chosen { bankDropped s e.bank with engine := none })) ∧
      (e.void = false → ∀ u before d after ch, e.origin = .sample u → s.deferred = before ++ d :: after → d.uid = u →
        d.subject = .sample ch → (∀ x ∈ before ++ after, x.uid ≠ u) → exec .evaluationComplete s = .next
          (chosen { bankDropped s e.bank with
            engine := none
            deferred := before ++ after
            replies := s.replies ++ [{
              tag := d.tag, kind := 0x0B, outcome := .ok, data := sampleLayout ch (s.evaluationResult e) }] }))) ∧
    ∀ s : State, s.engine = none → exec .evaluationComplete s = .next s

/-- Status and value of an evaluation: NONE gives the ratio, no bank NO_TABLE, no segment OUT_OF_TABLE, and otherwise Horner's
scheme from c_n, for degree n, over c_(n-1) down to c_0, at the distance from the segment's lower bound, SATURATED when a step
was clamped; the ratio is part of every result (R96 to R98). The progress between start and completion is the model's reading
(assumption 17). -/
def Obligations.EvaluationFollowsItsCourse : Prop :=
  ∀ (s : State) (e : Evaluation),
    (e.table = none → s.evaluationResult e = { status := .ok, ratio := some e.ratio, value := some e.ratio }) ∧
    ∀ t, e.table = some t →
      (e.bank = none → s.evaluationResult e = { status := .noTable, ratio := some e.ratio, value := none }) ∧
      ∀ b, e.bank = some b →
        (e.progress.segment = none →
          s.evaluationResult e = { status := .outOfTable, ratio := some e.ratio, value := none }) ∧
        ∀ i g lead lower (gs : List Segment), (s.bank b).places = gs.map some → gs[i]? = some g →
          (g.degree, lead, lower) ∈ [(0, g.c0, []), (1, g.c1, [g.c0]), (2, g.c2, [g.c1, g.c0]), (3, g.c3, [g.c2, g.c1, g.c0])] →
          e.progress = { segment := some i, acc := lead, saturated := false } →
          ∀ below, below = (if i = 0 then 0 else (gs.map Segment.xHi).getD (i - 1) 0) →
            s.evaluationResult e =
              { status := if (horner (e.ratio - below) lead false lower).2 then .saturated else .ok
                ratio := some e.ratio
                value := some (horner (e.ratio - below) lead false lower).1 }

/-- Horner's scheme: each step floors the quotient of the product by 65536, adds the coefficient, clamps the sum to the signed
32-bit range and sets the mark where the clamp changed it; with no coefficient left the accumulator is the value. Every
accumulator after the first lies in that range; a mark that is set stays set; with the mark clear at the end every sum on the way
was in the range, so no step was clamped, and the value is the exact recursion; and where all exact sums are in the range the
mark stays as it was (R97). -/
def Obligations.HornerIsExactUnlessMarked : Prop :=
  ∀ (d : Nat) (acc : Int) (mark : Bool) (cs : List Int),
    horner d acc mark [] = (acc, mark) ∧
    (∀ c sum : Int, sum = (acc * (d : Int)).fdiv 65536 + c →
      horner d acc mark (c :: cs) = horner d (max (-2147483648) (min 2147483647 sum))
        (mark || decide (sum < -2147483648 ∨ 2147483647 < sum)) cs) ∧
    (-2147483648 ≤ acc → acc ≤ 2147483647 →
      -2147483648 ≤ (horner d acc mark cs).1 ∧ (horner d acc mark cs).1 ≤ 2147483647) ∧
    (mark = true → (horner d acc mark cs).2 = true) ∧
    ((horner d acc mark cs).2 = false →
      (horner d acc mark cs).1 = cs.foldl (fun (a : Int) c => (a * (d : Int)).fdiv 65536 + c) acc ∧
      ∀ n, n < cs.length →
        -2147483648 ≤ (cs.take (n + 1)).foldl (fun (a : Int) c => (a * (d : Int)).fdiv 65536 + c) acc ∧
        (cs.take (n + 1)).foldl (fun (a : Int) c => (a * (d : Int)).fdiv 65536 + c) acc ≤ 2147483647) ∧
    ((∀ n, n < cs.length →
        -2147483648 ≤ (cs.take (n + 1)).foldl (fun (a : Int) c => (a * (d : Int)).fdiv 65536 + c) acc ∧
        (cs.take (n + 1)).foldl (fun (a : Int) c => (a * (d : Int)).fdiv 65536 + c) acc ≤ 2147483647) →
      (horner d acc mark cs).2 = mark)

/-! ### The channel monitor and the notice sets -/

/-- Smoothing: off at shift 0, the value itself, smoothed and monitored, at the first valid result, and afterwards the old
average moved by the floor of the difference over 2^k, which lies between the two (R123); a fault changes nothing (R124). The
alarm state follows the table of R127, and a channel without limits keeps its state (R126). -/
def Obligations.MonitorSmoothsAndClassifies : Prop :=
  (∀ (old : Option Int) (v : Int), smooth 0 old v = none ∧ monitored 0 old v = v) ∧
    (∀ (k : Nat) (v : Int), 1 ≤ k → smooth k none v = some v ∧ monitored k none v = v) ∧
    (∀ (k : Nat) (a v : Int), 1 ≤ k → ∃ x, smooth k (some a) v = some x ∧ monitored k (some a) v = x ∧
      2 ^ k * (x - a) ≤ v - a ∧ v - a < 2 ^ k * (x - a) + 2 ^ k ∧ min a v ≤ x ∧ x ≤ max a v) ∧
    (∀ (lim : Limits) (old : AlarmState) (x : Int), lim.low < lim.high → (lim.hysteresis : Int) ≤ lim.high - lim.low →
      nextAlarm lim old none = .fault ∧ (lim.high < x → nextAlarm lim old (some x) = .high) ∧
      (x < lim.low → nextAlarm lim old (some x) = .low) ∧
      (lim.low ≤ x → x ≤ lim.high →
        (old ≠ .high → old ≠ .low → nextAlarm lim old (some x) = .normal) ∧
        nextAlarm lim .high (some x) = (if x ≤ lim.high - lim.hysteresis then .normal else .high) ∧
        nextAlarm lim .low (some x) = (if lim.low + lim.hysteresis ≤ x then .normal else .low))) ∧
    ∀ (k : Channel) (cfg : ChannelConfig) (r : Result),
      (r.validValue = none → (k.afterResult cfg r).smoothed = k.smoothed) ∧
      (cfg.limits = none → (k.afterResult cfg r).alarm = k.alarm) ∧ (k.afterResult cfg r).config = k.config ∧
      (∀ v, r.validValue = some v → (k.afterResult cfg r).smoothed = smooth cfg.shift k.smoothed v) ∧
      ∀ lim, cfg.limits = some lim → (k.afterResult cfg r).alarm =
        nextAlarm lim k.alarm (r.validValue.map (monitored cfg.shift k.smoothed))

/-- An event or a transition merges into the notice of its subject, in its place and with its count one higher (255 at most),
counted as late where the notice is being sent; with none it joins the tail with count 1 (R132, R133, R135, R172, R173). -/
def Obligations.NoticesMerge : Prop :=
  (∀ (e : PartEvent) (ns : List PartNotice), (∀ n ∈ ns, n.event.key ≠ e.key) →
      raiseIn e ns = ns ++ [{ event := e, count := 1, late := none }]) ∧
    (∀ (e : PartEvent) (before after : List PartNotice) (n : PartNotice), (∀ x ∈ before, x.event.key ≠ e.key) →
      n.event.key = e.key → raiseIn e (before ++ n :: after) =
        before ++ { event := e, count := min 255 (n.count + 1), late := n.late.map (fun k => min 255 (k + 1)) } :: after) ∧
    (∀ (t : Transition) (ns : List AlarmNotice), (∀ n ∈ ns, n.channel ≠ t.channel) →
      noteTransition t ns = ns ++ [{
        channel := t.channel, prior := t.old, newState := t.new, count := 1, value := t.value,
        list := t.list, cycle := t.cycle, sending := none }]) ∧
    ∀ (t : Transition) (before after : List AlarmNotice) (n : AlarmNotice), (∀ x ∈ before, x.channel ≠ t.channel) →
      n.channel = t.channel → noteTransition t (before ++ n :: after) =
        before ++ { n with
          newState := t.new, value := t.value, list := t.list, cycle := t.cycle, count := min 255 (n.count + 1),
          sending := n.sending.map (fun k => { k with late := min 255 (k.late + 1) }) } :: after

/-! ### The link receiver -/

/-- The frame format of the part's own link reads back: the bytes of a frame of any kind but 80h to 83h, any tag and any payload
of up to 240 bytes, taken from HUNT, are judged good and placed as that kind, tag and payload in an empty slot; with four full
slots the frame is dropped and COMMAND_OVERRUN carries its tag (R160, R161, R164, R187). The row carries the bytes behind the
start byte (assumption 5). A frame is start byte, LEN, kind, tag, payload and the check of R161 over LEN to payload, low byte
first (R187). On a line a byte is ten levels, start bit low, eight data bits with the least significant first, stop bit high,
and the receiver reads it back from them; with the stop bit low it is a framing error, which the row FRAMING_ERROR brings (R158,
R163; assumption 25). The transmit line has the level of the byte being sent, the last one of a cut frame until it ends and else
the one at the position of the frame being sent, and is high while none is (the model's choices: assumptions 3 and 16). That an
IDLE transmitter chooses at the end of the row and keeps the choice until its frame begins is the model's choice (R170;
assumption 29). -/
def Obligations.FramesReadBackAsSent : Prop :=
  (∀ (bs : List Byte) (kind tag : Byte), crcBytes 0xFFFF#16 bs = checkOf bs ∧
    frameBytes kind tag bs = [0x5A, byte (bs.length + 2), kind, tag] ++ bs ++
      [byte (checkOf ([byte (bs.length + 2), kind, tag] ++ bs)).toNat,
       byte ((checkOf ([byte (bs.length + 2), kind, tag] ++ bs)).toNat / 256)]) ∧
  (∀ b : Byte, byteLevels b = [false, b.getLsbD 0, b.getLsbD 1, b.getLsbD 2, b.getLsbD 3, b.getLsbD 4, b.getLsbD 5, b.getLsbD 6,
      b.getLsbD 7, true] ∧ ∀ s : State, s.takeLevels (byteLevels b) = s.takeBytes [b]) ∧
  (∀ (levels : List Bool) (s : State), levels[9]? = some false → exec .framingError s = .next (s.takeLevels levels)) ∧
  (∀ (s : State) (bs : List Byte), exec (.frameReceived bs) s = .next ((bs.map byteLevels).foldl State.takeLevels s)) ∧
  (∀ (s : State) (n : Nat), s.tx = none → s.cutByte = none → s.transmitLevel n = true) ∧
  (∀ (s : State) (b : Byte) (n : Nat) (level : Bool),
    ((s.cutByte = none ∧ ∃ f, s.tx = some f ∧ f.bytes[f.position]? = some b) ∨ s.cutByte = some b) →
    (byteLevels b)[n]? = some level → s.transmitLevel n = level) ∧
  ∀ (s : State) (kind tag : Byte) (payload : List Byte) (r : Receiver),
    s.rx.state = .hunt → s.lineLow = false → payload.length ≤ 240 → kind ∉ [0x80#8, 0x81#8, 0x82#8, 0x83#8] →
    r = { state := .hunt, len := 0, body := [], check := [], expiry := none
          crc := crcBytes 0xFFFF#16 (byte (payload.length + 2) :: kind :: tag :: payload) } →
    ∃ u, exec .startByte s = .next u ∧
      exec (.frameReceived ((frameBytes kind tag payload).drop 1)) u = .next
        (if s.slots.length < 4 then
          { s with rx := r, slots := s.slots ++ [{ kind := kind, tag := tag, payload := payload }] }
         else chosen { s with rx := r, notices := raiseIn (.commandOverrun tag) s.notices })

/-- A whole frame whose check does not match, or whose kind is one the part sends, is discarded with one link error and reaches
no slot (R161). A LEN byte out of range, an expiry of the incompleteness timer and a framing error each discard the frame under
assembly, return the receiver to HUNT and raise LINK_ERROR once, and change nothing else but the clock at an expiry (R160, R162,
R163, R166; assumption 6). A start byte in HUNT begins a frame. Rows that are not due change nothing (assumption 2). An IDLE
transmitter chooses at the end of the row. Of the items that the row makes available together it takes a REPLY before an ALARM,
a NOTICE and a REPORT: R170 leaves that to the order the world gives, and the ranking is the model's choice (assumption 29). -/
def Obligations.LinkErrorsDiscardTheFrame : Prop :=
  (∀ (s : State) (len : Byte) (body : List Byte) (lo hi : Byte) (crc : Num16),
    s.rx.state = .hunt → s.lineLow = false → 2 ≤ len.toNat → len.toNat ≤ 242 → body.length = len.toNat →
    crc = crcBytes 0xFFFF#16 (len :: body) →
    (lo.toNat + 256 * hi.toNat ≠ crc.toNat ∨ ∃ kind ∈ [0x80#8, 0x81#8, 0x82#8, 0x83#8], body.head? = some kind) →
    ∃ u, exec .startByte s = .next u ∧
      exec (.frameReceived (len :: body ++ [lo, hi])) u = .next (chosen { s with
        rx := { state := .hunt, len := 0, body := [], check := [], crc := crc, expiry := none }
        notices := raiseIn .linkError s.notices })) ∧
    (∀ s : State, s.rx.state = .hunt → s.lineLow = false → exec .startByte s = .next { s with
      rx := { state := .length, len := 0, body := [], check := [], crc := 0xFFFF#16, expiry := some (s.now + 320000) } }) ∧
    (∀ s u : State, u = { s with
        rx := { s.rx with state := .hunt, len := 0, body := [], check := [], expiry := none }
        notices := raiseIn .linkError s.notices } →
      (s.lineLow = false → exec .framingError s = .next (chosen u)) ∧
      (∀ t, s.rx.expiry = some t → exec .incompletenessTimeout s = .next (chosen { u with now := max s.now t })) ∧
      ∀ len : Byte, s.lineLow = false → s.rx.state = .length → (len.toNat < 2 ∨ 242 < len.toNat) →
        exec (.lengthOutOfRange len) s = .next (chosen u)) ∧
    ∀ s : State, (s.rx.state ≠ .hunt ∨ s.lineLow = true → exec .startByte s = .next s) ∧
      (s.lineLow = true → exec .framingError s = .next s) ∧
      (s.rx.expiry = none → exec .incompletenessTimeout s = .next s) ∧
      ∀ (len : Byte) (bytes : List Byte),
        (s.lineLow = true ∨ s.rx.state ≠ .length ∨ (2 ≤ len.toNat ∧ len.toNat ≤ 242) →
          exec (.lengthOutOfRange len) s = .next s) ∧
        (s.lineLow = true → exec (.frameReceived bytes) s = .next s)

/-- A link reset, once for each low period: the link-side state is emptied, the frame being sent is cut with its records and
notices kept, a choice whose frame has not begun is dropped (assumption 29), the session is abandoned, SAMPLE requests and held
SAMPLE latches go, and lists, channels, evaluation queue, engine, reports and running conversions stay (R16, R84, R87, R119,
R136, R154, R167, R168). The state after it is given whole: the only other effect is that an offline-pending core whose latch
goes enters OFFLINE, and list requests that it leaves without a core complete with NO_CORE (R82, R83). LINE_RETURNS_HIGH lets
the receiver and the transmitter go on. The byte being sent goes on to its end, nothing of its frame follows it, and then the
transmit line is high (R168). The transmitter makes its choice with LINE_RETURNS_HIGH, that byte ended or not: alarm notices, or
else a part notice, of which there is LINK_RESET. The frame chosen may begin behind the byte, whose levels the line keeps to its
end, and its first byte follows (R168, R170). The byte's end is the next step on an empty queue, and no effect but the levels of
the line waits for it (the model's choice: assumptions 3 and 16). The line stays low until LINE_RETURNS_HIGH, CORE_OFFLINE
notices come in ascending core number before LINK_RESET, and so do the grant events of the cores that become IDLE (the model's
choices: assumptions 14, 18 and 26; the events' numbers: assumption 9). An IDLE transmitter chooses at the end of the row. Of
the items that the row makes available together it takes a REPLY before an ALARM, a NOTICE and a REPORT: R170 leaves that to the
order the world gives, and the ranking is the model's choice (assumption 29). -/
def Obligations.LinkResetEmptiesTheLink : Prop :=
  (∀ s : State, s.lineLow = true → exec .linkReset s = .next s) ∧
    (∀ s : State, exec .lineReturnsHigh s = .next (chosen { s with lineLow := false })) ∧
    (∀ (s : State) (f : TxFrame), s.lineLow = false → s.tx = some f → f.position < f.bytes.length →
      ∃ u, exec .linkReset s = .next u ∧ u.tx = none ∧ (∀ n, u.transmitLevel n = s.transmitLevel n) ∧
        (∃ v, step { u with pending := [] } = .next v ∧ v.cutByte = none ∧ ∀ n, v.transmitLevel n = true) ∧
        (s.cmdUnit ≠ .stopped → ∃ w x v, exec .lineReturnsHigh u = .next w ∧
          w.choice = some (if s.alarms = [] then .notice else .alarm) ∧
          exec .transmitFrameBegin w = .next x ∧ x.tx.isSome = true ∧ (∀ n, x.transmitLevel n = s.transmitLevel n) ∧
          step { x with pending := [] } = .next v ∧ v.tx = x.tx ∧
          ∀ n level, (byteLevels 0x5A)[n]? = some level → v.transmitLevel n = level)) ∧
    ∀ s : State, s.lineLow = false → HoldSound s →
      exec .linkReset s = .next (completedNoCore (linkEmptied s) (lostWith (linkEmptied s) (pendingAmong s holdsSample))) ∧
      ((∀ c, holdsSample (s.core c) = true → (s.core c).offlinePending = false) →
        exec .linkReset s = .next (linkEmptied s))

/-! ### The link transmitter -/

/-- An IDLE transmitter chooses at the event that makes an item available, and when it becomes IDLE; it takes the first
available item in the order REPLY, ALARM, NOTICE, REPORT, and what comes later waits, whatever its rank (R151, R170). A choice
is not made anew: it stands until its frame begins or a reset takes it away, and each row that makes an item available ends with
it (`chosen`). So the notice of a link error at an IDLE transmitter goes out before the reply of a command that follows. That a
choice comes with the end of the event's row, with that row's items ranked together, and the frame with TRANSMIT_FRAME_BEGIN, is
the model's choice (assumption 29). The frame's beginning fixes its contents: the oldest reply with its tag, up to eight notices
marked as being sent, the oldest part notice, or as many records as credits, eight and the queue allow (R134, R151, R169, R173),
each record and notice in its layout and codes (R188, R191 to R193). While a frame is sent, or a break holds the line, it begins
none (R168), and none where there is no item; the row is then not due (assumption 2). Once the unit is STOPPED and no OK reply
of RESET_PART is left, the reset is due and it begins no further frame (assumption 23). -/
def Obligations.TransmitterTakesTheFirstItem : Prop :=
  (∀ s : State, s.tx.isSome = true ∨ s.lineLow = true → exec .transmitFrameBegin s = .next s) ∧
    (∀ s : State, s.cmdUnit = .stopped → (∀ r ∈ s.replies, ¬ (r.kind = 0x03#8 ∧ r.outcome = .ok)) →
      exec .transmitFrameBegin s = .next s) ∧
    (∀ (c : Instr) (s t : State) (k : ItemKind), s.choice = some k →
      c ≠ .transmitFrameBegin ∧ c ≠ .linkReset ∧ (∀ b, c ≠ .powerOnReset b ∧ c ≠ .partReset b) →
      exec c s = .next t → t.choice = some k) ∧
    (∀ (s : State) (f : Frame) (rest : List Frame) (o : OutcomeCode), FreeToChoose s → s.choice = none →
      firstAvailable s = none → Takes s f rest → commonRefusal s f = some o →
      ∃ t u v, exec .framingError s = .next t ∧ exec (rowOf f) t = .next u ∧ u.replies ≠ [] ∧
        exec .transmitFrameBegin u = .next v ∧
        v.tx = some { kind := .notice, position := 0, bytes := frameBytes 0x83 0 [4, 0, 1, 0] }) ∧
    (∀ r : Record, ∃ flags : Byte,
      flags.toNat = (if r.endOfCycle then 1 else 0) + (if r.runStart then 2 else 0) + (if r.value.isSome then 4 else 0) +
        (if r.smoothed.isSome then 8 else 0) + (if r.raw.isSome then 16 else 0) + (if r.skipped.isSome then 32 else 0) ∧
      r.bytes = [byte r.list.val, byte r.step, byte r.channel.val, statusCode r.status, flags] ++ leBytes 2 r.seq.toNat ++
        leBytes 2 r.cycle.toNat ++ r.value.elim [] int32Bytes ++ r.smoothed.elim [] int32Bytes ++
        r.raw.elim [] (leBytes 3) ++ r.skipped.elim [] (fun n => [byte n])) ∧
    (∀ n : AlarmNotice, n.bytes = [byte n.channel.val, alarmCode n.prior, alarmCode n.newState, byte n.count, byte n.list.val] ++
      leBytes 2 n.cycle.toNat ++ n.value.elim [] int32Bytes) ∧
    (∀ n : PartNotice, n.payload =
      [(noticeCodes n.event).1, (noticeCodes n.event).2.1, byte n.count, (noticeCodes n.event).2.2]) ∧
    ∀ s : State, FreeToChoose s →
      (∀ r rest, BeginsNext s .reply → s.replies = r :: rest → exec .transmitFrameBegin s = .next { s with
        choice := none
        tx := some {
          kind := .reply, position := 0, bytes := frameBytes 0x80 r.tag (r.kind :: outcomeCode r.outcome :: r.data) } }) ∧
      (BeginsNext s .alarm → s.alarms ≠ [] → exec .transmitFrameBegin s = .next { s with
        choice := none
        alarms := (s.alarms.take 8).map (fun n => { n with sending := some { carried := n.newState, late := 0 } }) ++
          s.alarms.drop 8
        tx := some {
          kind := .alarm, position := 0,
          bytes := frameBytes 0x82 0 (byte (s.alarms.take 8).length :: (s.alarms.take 8).flatMap AlarmNotice.bytes) } }) ∧
      (∀ n rest, BeginsNext s .notice → s.notices = n :: rest → exec .transmitFrameBegin s = .next { s with
        choice := none
        notices := { n with late := some 0 } :: rest
        tx := some { kind := .notice, position := 0, bytes := frameBytes 0x83 0 n.payload } }) ∧
      (BeginsNext s .report → 0 < s.credits → s.reports ≠ [] →
        ∀ n, n = min s.credits (min 8 s.reports.length) → exec .transmitFrameBegin s = .next { s with
          choice := none
          tx := some {
            kind := .report n, position := 0,
            bytes := frameBytes 0x81 0 (byte n :: (s.reports.take n).flatMap Record.bytes) } }) ∧
      (s.choice = none → s.replies = [] → s.alarms = [] → s.notices = [] → (s.credits = 0 ∨ s.reports = []) →
        exec .transmitFrameBegin s = .next s)

/-- The end of a REPLY frame removes its reply (R171); the end of an ALARM or NOTICE frame removes the notices it carried but
keeps, in its place, one that late events reached, for those events (R134, R135, R173). The last byte of a frame cut before has
then ended too (assumption 16). The end of a frame that is not being sent is not due (assumption 2). An IDLE transmitter chooses
at the end of the row. Of the items that the row makes available together it takes a REPLY before an ALARM, a NOTICE and a
REPORT: R170 leaves that to the order the world gives, and the ranking is the model's choice (assumption 29). -/
def Obligations.SentItemsLeaveTheirCollections : Prop :=
  (∀ (s : State) (f : TxFrame), s.tx = some f → f.kind = .reply →
      exec .replyFrameSent s = .next (chosen { s with tx := none, cutByte := none, replies := s.replies.tail })) ∧
    (∀ (s : State) (f : TxFrame), s.tx = some f → f.kind = .alarm →
      exec .alarmFrameSent s = .next (chosen { s with
        tx := none
        cutByte := none
        alarms := s.alarms.flatMap (fun n => match n.sending with
          | none => [n]
          | some k => if k.late = 0 then [] else [{ n with prior := k.carried, count := k.late, sending := none }]) })) ∧
    (∀ (s : State) (f : TxFrame), s.tx = some f → f.kind = .notice →
      exec .noticeFrameSent s = .next (chosen { s with
        tx := none
        cutByte := none
        notices := s.notices.flatMap (fun n => match n.late with
          | none => [n]
          | some k => if k = 0 then [] else [{ n with count := k, late := none }]) })) ∧
    ∀ s : State, ((∀ f, s.tx = some f → f.kind ≠ .reply) → exec .replyFrameSent s = .next s) ∧
      ((∀ f, s.tx = some f → f.kind ≠ .alarm) → exec .alarmFrameSent s = .next s) ∧
      ((∀ f, s.tx = some f → f.kind ≠ .notice) → exec .noticeFrameSent s = .next s)

/-- The end of a REPORT frame: its records leave, its credits are spent, and with no list blocked the places stay free (R152);
each opened place goes to the oldest blocked list, which retires its head into it and rejoins the order at the tail with a READY
new head in RUNNING or DRAINING (R142). With no place left or no list blocked the hand-out ends, and lists that are still
blocked stay so. The last byte of a frame cut before has then ended too (assumption 16). The end of a frame that is not being
sent is not due (assumption 2). An IDLE transmitter chooses at the end of the row. Of the items that the row makes available
together it takes a REPLY before an ALARM, a NOTICE and a REPORT: R170 leaves that to the order the world gives, and the ranking
is the model's choice (assumption 29). -/
def Obligations.SentRecordsOpenPlaces : Prop :=
  (∀ (s : State) (f : TxFrame) (n : Nat), s.tx = some f → f.kind = .report n → s.blocked = [] →
      exec .reportFrameSent s = .next
        (chosen { s with tx := none, cutByte := none, reports := s.reports.drop n, credits := s.credits - n })) ∧
    (∀ (s : State) (f : TxFrame) (n : Nat), s.tx = some f → f.kind = .report n →
      exec .reportFrameSent s = .next
        (chosen (({ s with tx := none, cutByte := none, reports := s.reports.drop n, credits := s.credits - n } : State).handOut n))) ∧
    (∀ (s u : State) (n : Nat) (l : ListId) (rest : List ListId), s.blocked = l :: rest →
      u = ({ s with blocked := rest } : State).retireHead l true →
      s.handOut (n + 1) = State.handOut n
        (if (u.list l).readyHead.isSome = true ∧ ((u.list l).state = .running ∨ (u.list l).state = .draining)
          then { u with blocked := u.blocked ++ [l] } else u)) ∧
    (∀ s : State, s.handOut 0 = s) ∧ (∀ (s : State) (n : Nat), s.blocked = [] → s.handOut n = s) ∧
    ∀ s : State, (∀ f n, s.tx = some f → f.kind ≠ .report n) → exec .reportFrameSent s = .next s

/-! ### Properties that every step keeps -/

/-- The properties of Safety.lean hold right after a power-on reset. ChoiceSound speaks of a choice kept in the model's own form
(assumptions 23 and 29). -/
def Obligations.ResetStateIsSound : Prop :=
  WithinCapacity State.reset ∧ TagsDistinct State.reset ∧ NoticesDistinct State.reset ∧ TriggersSound State.reset ∧
    ClaimsAgree State.reset ∧ BanksSound State.reset ∧ TablesSound State.reset ∧ SourcesSound State.reset ∧
    ChoiceSound State.reset ∧ OutstandingExact State.reset ∧ WorkSound State.reset ∧ PoolInOrder State.reset ∧ BlockedSound State.reset

/-- No step takes a collection past its places: four slots, four deferred entries, replies and deferred entries together eight,
64 records, 255 credits, six ratios; a frame being sent has its reply or its records and their credits (R90, R139, R149, R159,
R171, R177, R182). While the last byte of a cut frame is sent, a frame that has begun behind it is at its first byte
(assumptions 3 and 16). A choice stands only at an IDLE transmitter on a free line and on an item that is there, and one that
may choose and has not has nothing to send. That a choice stands before its frame begins is the model's own form of R170, by
which the item chosen begins at once (assumption 29), and so is the exception of the due reset, at which the transmitter makes
no choice (assumption 23). -/
def Obligations.CapacitiesAreKept : Prop := KeptByStep WithinCapacity ∧ KeptByStep ChoiceSound

/-- Deferred entries keep distinct tags above 0, and the notice sets keep at most one notice for each subject with a count of 1
to 255 (R130, R131, R172, R182). -/
def Obligations.NamesStayDistinct : Prop := KeptByStep (fun s => TagsDistinct s ∧ NoticesDistinct s)

/-- Every window stays the run of steps issued last, in step order, with their channels and the list's cycle number, non-empty
exactly in RUNNING and DRAINING and never above the concurrency (R51, R53, R59, R60, R65). The period timer runs exactly in
ARMED and RUNNING of a PERIODIC list, start-pending is set in RUNNING only, and a list in EMPTY or IDLE holds no skipped starts
(R44, R51, R54, R58, R68, R69). -/
def Obligations.ListsStaySound : Prop := KeptByStep WindowsOrdered ∧ KeptByStep TriggersSound

/-- A latch is present exactly in HOLD and the HOLD order lists the cores in HOLD, each once (R3, R93). A core and the matrix
always agree on its one claimed input, which it serves and holds exactly from SELECT to DISCHARGE (R3, R4, R25, R27). -/
def Obligations.CoresAndClaimsStayInAgreement : Prop :=
  ∀ s t : State, HoldSound s → step s = .next t → HoldSound t ∧ (ClaimsAgree s → ClaimsAgree t)

/-- At most one bank is ACTIVE for an id, the STAGING bank is the open session's, a bank is held exactly while the evaluation in
progress references it and is then ACTIVE or RETIRING, a RETIRING bank is held, a FREE bank holds nothing (R107 to R110). -/
def Obligations.BanksStaySound : Prop := KeptByStep BanksSound

/-- Every ACTIVE or RETIRING bank stays complete with rising bounds, and the received-set stays the set of filled places (R107,
R110). -/
def Obligations.TablesStayComplete : Prop :=
  ∀ s t : State, BanksSound s → TablesSound s → step s = .next t → TablesSound t

/-- Every step of a defined list names a DEFINED channel (R38), and every CHAINED list a defined source, with no loop among the
sources (R47). -/
def Obligations.DefinitionsStaySound : Prop := KeptByStep (fun s => StepsDefined s ∧ SourcesSound s)

/-- The outstanding count of every list counts exactly its cancelled and void work still in cores and engine, and only an
ABORTING list has any (R69 to R71). -/
def Obligations.OutstandingStaysExact : Prop :=
  ∀ s t : State, HoldSound s → OutstandingExact s → step s = .next t → OutstandingExact t

/-- No work is lost or doubled: every window entry that is not READY and every pending SAMPLE has its work in exactly one place,
the pool, a core, a latch, the evaluation queue or the engine, the one that its stage names (R3, R61, R71, R73, R101). The pool
stays in order of arrival (R73, R74; the ages' numbers are the model's own: assumption 9). -/
def Obligations.EveryEntryKeepsItsWork : Prop := KeptByStep WorkSound ∧ KeptByStep PoolInOrder

/-- A free place of the report queue and a blocked list never exist together, and every blocked list waits with a READY head
under HOLD (R141, R142). -/
def Obligations.NoFreePlaceWhileBlocked : Prop :=
  ∀ s t : State, WorkSound s → WithinCapacity s → BlockedSound s → step s = .next t → BlockedSound t
end

