-- ==== Sys2Proof/Laws/Analog.lean ====
section
/-! SUPPORT. What the sensors and the transmit line see, said once: which core an input is connected to, when its sensor is
excited and carries oscillator current (R5 to R8, R25), and that a cut frame's last byte stays on the line (R168). -/

namespace Sys2Proof.Machine

variable {s : State} {c : CoreId} {i : InputId}

@[simp] theorem State.connected_iff : s.connected c i = true ↔ s.input i = .claimed c := decide_eq_true_iff

theorem State.excitationAt_of_claimed (h : s.input i = .claimed c) : s.excitationAt i = (s.core c).excitation := by
  rw [State.excitationAt, h]

theorem State.oscillatesAt_of_claimed (h : s.input i = .claimed c) :
    s.oscillatesAt i = decide ((s.core c).capacitor = .throughSensor) := by rw [State.oscillatesAt, h]

/-- The sensor of an input that no core claims is not excited and carries no oscillator current (R25). -/
theorem State.quiet_of_unclaimed (h : ∀ c, s.input i ≠ .claimed c) :
    s.excitationAt i = none ∧ s.oscillatesAt i = false := by
  unfold State.excitationAt State.oscillatesAt
  cases hi : s.input i with
  | claimed c => exact absurd hi (h c)
  | free => exact ⟨rfl, rfl⟩
  | resting t => exact ⟨rfl, rfl⟩

/-- A core oscillates through the sensor exactly in its sense measurements (R6 to R8). -/
theorem Core.capacitor_eq_throughSensor (k : Core) :
    k.capacitor = .throughSensor ↔ k.state = .sense ∨ k.state = .sensePos ∨ k.state = .senseNeg := by
  unfold Core.capacitor
  cases k.referenceSwitch <;> cases k.checkPassed <;> cases k.state <;> simp

/-- The byte that is being sent when a frame is cut is still being sent afterwards (R168). -/
@[simp] theorem State.byteSending_cutFrame (s : State) : s.cutFrame.byteSending = s.byteSending := by
  show (match s.byteSending with | some b => some b | none => none) = s.byteSending
  cases s.byteSending <;> rfl

/-- With the end of that byte nothing more is sent (R168). -/
@[simp] theorem State.byteSending_idle_cutFrame (s : State) : s.cutFrame.idle.byteSending = none := by
  unfold State.idle; split
  · rfl
  · rename_i h; rw [Bool.not_eq_true, Option.isSome_eq_false_iff, Option.isNone_iff_eq_none] at h
    simp only [State.byteSending, h]; rfl

/-- A frame that begins leaves the byte on the line as it is: its own first byte follows the last one of a cut frame (R168). -/
theorem State.byteSending_beginFrame (kind : TxKind) (bytes : List Byte) {b : Byte} (h : s.cutByte = some b) :
    (s.beginFrame kind bytes).byteSending = some b := by simp only [State.byteSending, State.beginFrame, h]

end Sys2Proof.Machine
end

