-- ==== Sys2Proof/Laws/State.lean ====
section
/-! SUPPORT. The small lemmas of the state: what each read gives after each write of a numbered record, field by field, so that
no proof unfolds a record update. -/

namespace Sys2Proof.Machine

variable (s : State)

/-! ### A table written at one number -/

@[simp] theorem State.core_setCore (c d : CoreId) (x : Core) :
    (s.setCore c x).core d = if c = d then x else s.core d := by
  simp [State.core, State.setCore, Vector.get_eq_getElem, Vector.getElem_set, Fin.ext_iff]
@[simp] theorem State.setCore_setCore (c : CoreId) (x y : Core) :
    (s.setCore c x).setCore c y = s.setCore c y := by
  simp [State.setCore]
@[simp] theorem State.input_setInput (i d : InputId) (x : InputRec) :
    (s.setInput i x).input d = if i = d then x else s.input d := by
  simp [State.input, State.setInput, Vector.get_eq_getElem, Vector.getElem_set, Fin.ext_iff]
@[simp] theorem State.setInput_setInput (i : InputId) (x y : InputRec) :
    (s.setInput i x).setInput i y = s.setInput i y := by
  simp [State.setInput]
@[simp] theorem State.channel_setChannel (ch d : ChannelId) (x : Channel) :
    (s.setChannel ch x).channel d = if ch = d then x else s.channel d := by
  simp [State.channel, State.setChannel, Vector.get_eq_getElem, Vector.getElem_set, Fin.ext_iff]
@[simp] theorem State.setChannel_setChannel (ch : ChannelId) (x y : Channel) :
    (s.setChannel ch x).setChannel ch y = s.setChannel ch y := by
  simp [State.setChannel]
@[simp] theorem State.list_setList (l d : ListId) (x : ListRec) :
    (s.setList l x).list d = if l = d then x else s.list d := by
  simp [State.list, State.setList, Vector.get_eq_getElem, Vector.getElem_set, Fin.ext_iff]
@[simp] theorem State.setList_setList (l : ListId) (x y : ListRec) :
    (s.setList l x).setList l y = s.setList l y := by
  simp [State.setList]
@[simp] theorem State.bank_setBank (b d : BankId) (x : Bank) :
    (s.setBank b x).bank d = if b = d then x else s.bank d := by
  simp [State.bank, State.setBank, Vector.get_eq_getElem, Vector.getElem_set, Fin.ext_iff]
@[simp] theorem State.setBank_setBank (b : BankId) (x y : Bank) :
    (s.setBank b x).setBank b y = s.setBank b y := by
  simp [State.setBank]
@[simp] theorem State.runMark_setRunMark (l d : ListId) (x : Bool) :
    (s.setRunMark l x).runMark d = if l = d then x else s.runMark d := by
  simp [State.runMark, State.setRunMark, Vector.get_eq_getElem, Vector.getElem_set, Fin.ext_iff]
@[simp] theorem State.setRunMark_setRunMark (l : ListId) (x y : Bool) :
    (s.setRunMark l x).setRunMark l y = s.setRunMark l y := by
  simp [State.setRunMark]

/-! ### The read of a numbered record is the read of its table -/

@[simp] theorem State.get_cores (c : CoreId) : s.cores.get c = s.core c := rfl
@[simp] theorem State.core_mk (x0 x1 x2 x3 x4 x5 x6 x7 x8 x9 x10 x11 x12 x13 x14
    x15 x16 x17 x18 x19 x20 x21 x22 x23 x24 x25 x26 x27 x28 x29 x30 x31 c) :
    (State.mk x0 x1 x2 x3 x4 x5 x6 x7 x8 x9 x10 x11 x12 x13 x14
      x15 x16 x17 x18 x19 x20 x21 x22 x23 x24 x25 x26 x27 x28 x29 x30 x31).core c = x2.get c := rfl
@[simp] theorem State.get_inputs (i : InputId) : s.inputs.get i = s.input i := rfl
@[simp] theorem State.input_mk (x0 x1 x2 x3 x4 x5 x6 x7 x8 x9 x10 x11 x12 x13 x14
    x15 x16 x17 x18 x19 x20 x21 x22 x23 x24 x25 x26 x27 x28 x29 x30 x31 i) :
    (State.mk x0 x1 x2 x3 x4 x5 x6 x7 x8 x9 x10 x11 x12 x13 x14
      x15 x16 x17 x18 x19 x20 x21 x22 x23 x24 x25 x26 x27 x28 x29 x30 x31).input i = x3.get i := rfl
@[simp] theorem State.get_channels (ch : ChannelId) : s.channels.get ch = s.channel ch := rfl
@[simp] theorem State.channel_mk (x0 x1 x2 x3 x4 x5 x6 x7 x8 x9 x10 x11 x12 x13 x14
    x15 x16 x17 x18 x19 x20 x21 x22 x23 x24 x25 x26 x27 x28 x29 x30 x31 ch) :
    (State.mk x0 x1 x2 x3 x4 x5 x6 x7 x8 x9 x10 x11 x12 x13 x14
      x15 x16 x17 x18 x19 x20 x21 x22 x23 x24 x25 x26 x27 x28 x29 x30 x31).channel ch = x4.get ch := rfl
@[simp] theorem State.get_lists (l : ListId) : s.lists.get l = s.list l := rfl
@[simp] theorem State.list_mk (x0 x1 x2 x3 x4 x5 x6 x7 x8 x9 x10 x11 x12 x13 x14
    x15 x16 x17 x18 x19 x20 x21 x22 x23 x24 x25 x26 x27 x28 x29 x30 x31 l) :
    (State.mk x0 x1 x2 x3 x4 x5 x6 x7 x8 x9 x10 x11 x12 x13 x14
      x15 x16 x17 x18 x19 x20 x21 x22 x23 x24 x25 x26 x27 x28 x29 x30 x31).list l = x5.get l := rfl
@[simp] theorem State.get_banks (b : BankId) : s.banks.get b = s.bank b := rfl
@[simp] theorem State.bank_mk (x0 x1 x2 x3 x4 x5 x6 x7 x8 x9 x10 x11 x12 x13 x14
    x15 x16 x17 x18 x19 x20 x21 x22 x23 x24 x25 x26 x27 x28 x29 x30 x31 b) :
    (State.mk x0 x1 x2 x3 x4 x5 x6 x7 x8 x9 x10 x11 x12 x13 x14
      x15 x16 x17 x18 x19 x20 x21 x22 x23 x24 x25 x26 x27 x28 x29 x30 x31).bank b = x13.get b := rfl
@[simp] theorem State.get_runStart (l : ListId) : s.runStart.get l = s.runMark l := rfl
@[simp] theorem State.runMark_mk (x0 x1 x2 x3 x4 x5 x6 x7 x8 x9 x10 x11 x12 x13 x14
    x15 x16 x17 x18 x19 x20 x21 x22 x23 x24 x25 x26 x27 x28 x29 x30 x31 l) :
    (State.mk x0 x1 x2 x3 x4 x5 x6 x7 x8 x9 x10 x11 x12 x13 x14
      x15 x16 x17 x18 x19 x20 x21 x22 x23 x24 x25 x26 x27 x28 x29 x30 x31).runMark l = x19.get l := rfl

/-! ### Every other field of a written table is as before -/

@[simp] theorem State.setCore_now (c : CoreId) (x : Core) : (s.setCore c x).now = s.now := rfl
@[simp] theorem State.setCore_bitRate (c : CoreId) (x : Core) : (s.setCore c x).bitRate = s.bitRate := rfl
@[simp] theorem State.setCore_inputs (c : CoreId) (x : Core) : (s.setCore c x).inputs = s.inputs := rfl
@[simp] theorem State.setCore_channels (c : CoreId) (x : Core) : (s.setCore c x).channels = s.channels := rfl
@[simp] theorem State.setCore_lists (c : CoreId) (x : Core) : (s.setCore c x).lists = s.lists := rfl
@[simp] theorem State.setCore_pool (c : CoreId) (x : Core) : (s.setCore c x).pool = s.pool := rfl
@[simp] theorem State.setCore_nextEvent (c : CoreId) (x : Core) : (s.setCore c x).nextEvent = s.nextEvent := rfl
@[simp] theorem State.setCore_idleSince (c : CoreId) (x : Core) : (s.setCore c x).idleSince = s.idleSince := rfl
@[simp] theorem State.setCore_freeSince (c : CoreId) (x : Core) : (s.setCore c x).freeSince = s.freeSince := rfl
@[simp] theorem State.setCore_evalQueue (c : CoreId) (x : Core) : (s.setCore c x).evalQueue = s.evalQueue := rfl
@[simp] theorem State.setCore_holdOrder (c : CoreId) (x : Core) : (s.setCore c x).holdOrder = s.holdOrder := rfl
@[simp] theorem State.setCore_engine (c : CoreId) (x : Core) : (s.setCore c x).engine = s.engine := rfl
@[simp] theorem State.setCore_banks (c : CoreId) (x : Core) : (s.setCore c x).banks = s.banks := rfl
@[simp] theorem State.setCore_session (c : CoreId) (x : Core) : (s.setCore c x).session = s.session := rfl
@[simp] theorem State.setCore_alarms (c : CoreId) (x : Core) : (s.setCore c x).alarms = s.alarms := rfl
@[simp] theorem State.setCore_reports (c : CoreId) (x : Core) : (s.setCore c x).reports = s.reports := rfl
@[simp] theorem State.setCore_credits (c : CoreId) (x : Core) : (s.setCore c x).credits = s.credits := rfl
@[simp] theorem State.setCore_blocked (c : CoreId) (x : Core) : (s.setCore c x).blocked = s.blocked := rfl
@[simp] theorem State.setCore_runStart (c : CoreId) (x : Core) : (s.setCore c x).runStart = s.runStart := rfl
@[simp] theorem State.setCore_rx (c : CoreId) (x : Core) : (s.setCore c x).rx = s.rx := rfl
@[simp] theorem State.setCore_slots (c : CoreId) (x : Core) : (s.setCore c x).slots = s.slots := rfl
@[simp] theorem State.setCore_lineLow (c : CoreId) (x : Core) : (s.setCore c x).lineLow = s.lineLow := rfl
@[simp] theorem State.setCore_cmdUnit (c : CoreId) (x : Core) : (s.setCore c x).cmdUnit = s.cmdUnit := rfl
@[simp] theorem State.setCore_deferred (c : CoreId) (x : Core) : (s.setCore c x).deferred = s.deferred := rfl
@[simp] theorem State.setCore_nextUid (c : CoreId) (x : Core) : (s.setCore c x).nextUid = s.nextUid := rfl
@[simp] theorem State.setCore_replies (c : CoreId) (x : Core) : (s.setCore c x).replies = s.replies := rfl
@[simp] theorem State.setCore_notices (c : CoreId) (x : Core) : (s.setCore c x).notices = s.notices := rfl
@[simp] theorem State.setCore_tx (c : CoreId) (x : Core) : (s.setCore c x).tx = s.tx := rfl
@[simp] theorem State.setCore_cutByte (c : CoreId) (x : Core) : (s.setCore c x).cutByte = s.cutByte := rfl
@[simp] theorem State.setCore_choice (c : CoreId) (x : Core) : (s.setCore c x).choice = s.choice := rfl
@[simp] theorem State.setCore_pending (c : CoreId) (x : Core) : (s.setCore c x).pending = s.pending := rfl
@[simp] theorem State.setCore_input (c : CoreId) (x : Core) (j : InputId) : (s.setCore c x).input j = s.input j := rfl
@[simp] theorem State.setCore_channel (c : CoreId) (x : Core) (j : ChannelId) : (s.setCore c x).channel j = s.channel j := rfl
@[simp] theorem State.setCore_list (c : CoreId) (x : Core) (j : ListId) : (s.setCore c x).list j = s.list j := rfl
@[simp] theorem State.setCore_bank (c : CoreId) (x : Core) (j : BankId) : (s.setCore c x).bank j = s.bank j := rfl
@[simp] theorem State.setCore_runMark (c : CoreId) (x : Core) (j : ListId) : (s.setCore c x).runMark j = s.runMark j := rfl
@[simp] theorem State.setInput_now (i : InputId) (x : InputRec) : (s.setInput i x).now = s.now := rfl
@[simp] theorem State.setInput_bitRate (i : InputId) (x : InputRec) : (s.setInput i x).bitRate = s.bitRate := rfl
@[simp] theorem State.setInput_cores (i : InputId) (x : InputRec) : (s.setInput i x).cores = s.cores := rfl
@[simp] theorem State.setInput_channels (i : InputId) (x : InputRec) : (s.setInput i x).channels = s.channels := rfl
@[simp] theorem State.setInput_lists (i : InputId) (x : InputRec) : (s.setInput i x).lists = s.lists := rfl
@[simp] theorem State.setInput_pool (i : InputId) (x : InputRec) : (s.setInput i x).pool = s.pool := rfl
@[simp] theorem State.setInput_nextEvent (i : InputId) (x : InputRec) : (s.setInput i x).nextEvent = s.nextEvent := rfl
@[simp] theorem State.setInput_idleSince (i : InputId) (x : InputRec) : (s.setInput i x).idleSince = s.idleSince := rfl
@[simp] theorem State.setInput_freeSince (i : InputId) (x : InputRec) : (s.setInput i x).freeSince = s.freeSince := rfl
@[simp] theorem State.setInput_evalQueue (i : InputId) (x : InputRec) : (s.setInput i x).evalQueue = s.evalQueue := rfl
@[simp] theorem State.setInput_holdOrder (i : InputId) (x : InputRec) : (s.setInput i x).holdOrder = s.holdOrder := rfl
@[simp] theorem State.setInput_engine (i : InputId) (x : InputRec) : (s.setInput i x).engine = s.engine := rfl
@[simp] theorem State.setInput_banks (i : InputId) (x : InputRec) : (s.setInput i x).banks = s.banks := rfl
@[simp] theorem State.setInput_session (i : InputId) (x : InputRec) : (s.setInput i x).session = s.session := rfl
@[simp] theorem State.setInput_alarms (i : InputId) (x : InputRec) : (s.setInput i x).alarms = s.alarms := rfl
@[simp] theorem State.setInput_reports (i : InputId) (x : InputRec) : (s.setInput i x).reports = s.reports := rfl
@[simp] theorem State.setInput_credits (i : InputId) (x : InputRec) : (s.setInput i x).credits = s.credits := rfl
@[simp] theorem State.setInput_blocked (i : InputId) (x : InputRec) : (s.setInput i x).blocked = s.blocked := rfl
@[simp] theorem State.setInput_runStart (i : InputId) (x : InputRec) : (s.setInput i x).runStart = s.runStart := rfl
@[simp] theorem State.setInput_rx (i : InputId) (x : InputRec) : (s.setInput i x).rx = s.rx := rfl
@[simp] theorem State.setInput_slots (i : InputId) (x : InputRec) : (s.setInput i x).slots = s.slots := rfl
@[simp] theorem State.setInput_lineLow (i : InputId) (x : InputRec) : (s.setInput i x).lineLow = s.lineLow := rfl
@[simp] theorem State.setInput_cmdUnit (i : InputId) (x : InputRec) : (s.setInput i x).cmdUnit = s.cmdUnit := rfl
@[simp] theorem State.setInput_deferred (i : InputId) (x : InputRec) : (s.setInput i x).deferred = s.deferred := rfl
@[simp] theorem State.setInput_nextUid (i : InputId) (x : InputRec) : (s.setInput i x).nextUid = s.nextUid := rfl
@[simp] theorem State.setInput_replies (i : InputId) (x : InputRec) : (s.setInput i x).replies = s.replies := rfl
@[simp] theorem State.setInput_notices (i : InputId) (x : InputRec) : (s.setInput i x).notices = s.notices := rfl
@[simp] theorem State.setInput_tx (i : InputId) (x : InputRec) : (s.setInput i x).tx = s.tx := rfl
@[simp] theorem State.setInput_cutByte (i : InputId) (x : InputRec) : (s.setInput i x).cutByte = s.cutByte := rfl
@[simp] theorem State.setInput_choice (i : InputId) (x : InputRec) : (s.setInput i x).choice = s.choice := rfl
@[simp] theorem State.setInput_pending (i : InputId) (x : InputRec) : (s.setInput i x).pending = s.pending := rfl
@[simp] theorem State.setInput_core (i : InputId) (x : InputRec) (j : CoreId) : (s.setInput i x).core j = s.core j := rfl
@[simp] theorem State.setInput_channel (i : InputId) (x : InputRec) (j : ChannelId) : (s.setInput i x).channel j = s.channel j := rfl
@[simp] theorem State.setInput_list (i : InputId) (x : InputRec) (j : ListId) : (s.setInput i x).list j = s.list j := rfl
@[simp] theorem State.setInput_bank (i : InputId) (x : InputRec) (j : BankId) : (s.setInput i x).bank j = s.bank j := rfl
@[simp] theorem State.setInput_runMark (i : InputId) (x : InputRec) (j : ListId) : (s.setInput i x).runMark j = s.runMark j := rfl
@[simp] theorem State.setChannel_now (ch : ChannelId) (x : Channel) : (s.setChannel ch x).now = s.now := rfl
@[simp] theorem State.setChannel_bitRate (ch : ChannelId) (x : Channel) : (s.setChannel ch x).bitRate = s.bitRate := rfl
@[simp] theorem State.setChannel_cores (ch : ChannelId) (x : Channel) : (s.setChannel ch x).cores = s.cores := rfl
@[simp] theorem State.setChannel_inputs (ch : ChannelId) (x : Channel) : (s.setChannel ch x).inputs = s.inputs := rfl
@[simp] theorem State.setChannel_lists (ch : ChannelId) (x : Channel) : (s.setChannel ch x).lists = s.lists := rfl
@[simp] theorem State.setChannel_pool (ch : ChannelId) (x : Channel) : (s.setChannel ch x).pool = s.pool := rfl
@[simp] theorem State.setChannel_nextEvent (ch : ChannelId) (x : Channel) : (s.setChannel ch x).nextEvent = s.nextEvent := rfl
@[simp] theorem State.setChannel_idleSince (ch : ChannelId) (x : Channel) : (s.setChannel ch x).idleSince = s.idleSince := rfl
@[simp] theorem State.setChannel_freeSince (ch : ChannelId) (x : Channel) : (s.setChannel ch x).freeSince = s.freeSince := rfl
@[simp] theorem State.setChannel_evalQueue (ch : ChannelId) (x : Channel) : (s.setChannel ch x).evalQueue = s.evalQueue := rfl
@[simp] theorem State.setChannel_holdOrder (ch : ChannelId) (x : Channel) : (s.setChannel ch x).holdOrder = s.holdOrder := rfl
@[simp] theorem State.setChannel_engine (ch : ChannelId) (x : Channel) : (s.setChannel ch x).engine = s.engine := rfl
@[simp] theorem State.setChannel_banks (ch : ChannelId) (x : Channel) : (s.setChannel ch x).banks = s.banks := rfl
@[simp] theorem State.setChannel_session (ch : ChannelId) (x : Channel) : (s.setChannel ch x).session = s.session := rfl
@[simp] theorem State.setChannel_alarms (ch : ChannelId) (x : Channel) : (s.setChannel ch x).alarms = s.alarms := rfl
@[simp] theorem State.setChannel_reports (ch : ChannelId) (x : Channel) : (s.setChannel ch x).reports = s.reports := rfl
@[simp] theorem State.setChannel_credits (ch : ChannelId) (x : Channel) : (s.setChannel ch x).credits = s.credits := rfl
@[simp] theorem State.setChannel_blocked (ch : ChannelId) (x : Channel) : (s.setChannel ch x).blocked = s.blocked := rfl
@[simp] theorem State.setChannel_runStart (ch : ChannelId) (x : Channel) : (s.setChannel ch x).runStart = s.runStart := rfl
@[simp] theorem State.setChannel_rx (ch : ChannelId) (x : Channel) : (s.setChannel ch x).rx = s.rx := rfl
@[simp] theorem State.setChannel_slots (ch : ChannelId) (x : Channel) : (s.setChannel ch x).slots = s.slots := rfl
@[simp] theorem State.setChannel_lineLow (ch : ChannelId) (x : Channel) : (s.setChannel ch x).lineLow = s.lineLow := rfl
@[simp] theorem State.setChannel_cmdUnit (ch : ChannelId) (x : Channel) : (s.setChannel ch x).cmdUnit = s.cmdUnit := rfl
@[simp] theorem State.setChannel_deferred (ch : ChannelId) (x : Channel) : (s.setChannel ch x).deferred = s.deferred := rfl
@[simp] theorem State.setChannel_nextUid (ch : ChannelId) (x : Channel) : (s.setChannel ch x).nextUid = s.nextUid := rfl
@[simp] theorem State.setChannel_replies (ch : ChannelId) (x : Channel) : (s.setChannel ch x).replies = s.replies := rfl
@[simp] theorem State.setChannel_notices (ch : ChannelId) (x : Channel) : (s.setChannel ch x).notices = s.notices := rfl
@[simp] theorem State.setChannel_tx (ch : ChannelId) (x : Channel) : (s.setChannel ch x).tx = s.tx := rfl
@[simp] theorem State.setChannel_cutByte (ch : ChannelId) (x : Channel) : (s.setChannel ch x).cutByte = s.cutByte := rfl
@[simp] theorem State.setChannel_choice (ch : ChannelId) (x : Channel) : (s.setChannel ch x).choice = s.choice := rfl
@[simp] theorem State.setChannel_pending (ch : ChannelId) (x : Channel) : (s.setChannel ch x).pending = s.pending := rfl
@[simp] theorem State.setChannel_core (ch : ChannelId) (x : Channel) (j : CoreId) : (s.setChannel ch x).core j = s.core j := rfl
@[simp] theorem State.setChannel_input (ch : ChannelId) (x : Channel) (j : InputId) : (s.setChannel ch x).input j = s.input j := rfl
@[simp] theorem State.setChannel_list (ch : ChannelId) (x : Channel) (j : ListId) : (s.setChannel ch x).list j = s.list j := rfl
@[simp] theorem State.setChannel_bank (ch : ChannelId) (x : Channel) (j : BankId) : (s.setChannel ch x).bank j = s.bank j := rfl
@[simp] theorem State.setChannel_runMark (ch : ChannelId) (x : Channel) (j : ListId) : (s.setChannel ch x).runMark j = s.runMark j := rfl
@[simp] theorem State.setList_now (l : ListId) (x : ListRec) : (s.setList l x).now = s.now := rfl
@[simp] theorem State.setList_bitRate (l : ListId) (x : ListRec) : (s.setList l x).bitRate = s.bitRate := rfl
@[simp] theorem State.setList_cores (l : ListId) (x : ListRec) : (s.setList l x).cores = s.cores := rfl
@[simp] theorem State.setList_inputs (l : ListId) (x : ListRec) : (s.setList l x).inputs = s.inputs := rfl
@[simp] theorem State.setList_channels (l : ListId) (x : ListRec) : (s.setList l x).channels = s.channels := rfl
@[simp] theorem State.setList_pool (l : ListId) (x : ListRec) : (s.setList l x).pool = s.pool := rfl
@[simp] theorem State.setList_nextEvent (l : ListId) (x : ListRec) : (s.setList l x).nextEvent = s.nextEvent := rfl
@[simp] theorem State.setList_idleSince (l : ListId) (x : ListRec) : (s.setList l x).idleSince = s.idleSince := rfl
@[simp] theorem State.setList_freeSince (l : ListId) (x : ListRec) : (s.setList l x).freeSince = s.freeSince := rfl
@[simp] theorem State.setList_evalQueue (l : ListId) (x : ListRec) : (s.setList l x).evalQueue = s.evalQueue := rfl
@[simp] theorem State.setList_holdOrder (l : ListId) (x : ListRec) : (s.setList l x).holdOrder = s.holdOrder := rfl
@[simp] theorem State.setList_engine (l : ListId) (x : ListRec) : (s.setList l x).engine = s.engine := rfl
@[simp] theorem State.setList_banks (l : ListId) (x : ListRec) : (s.setList l x).banks = s.banks := rfl
@[simp] theorem State.setList_session (l : ListId) (x : ListRec) : (s.setList l x).session = s.session := rfl
@[simp] theorem State.setList_alarms (l : ListId) (x : ListRec) : (s.setList l x).alarms = s.alarms := rfl
@[simp] theorem State.setList_reports (l : ListId) (x : ListRec) : (s.setList l x).reports = s.reports := rfl
@[simp] theorem State.setList_credits (l : ListId) (x : ListRec) : (s.setList l x).credits = s.credits := rfl
@[simp] theorem State.setList_blocked (l : ListId) (x : ListRec) : (s.setList l x).blocked = s.blocked := rfl
@[simp] theorem State.setList_runStart (l : ListId) (x : ListRec) : (s.setList l x).runStart = s.runStart := rfl
@[simp] theorem State.setList_rx (l : ListId) (x : ListRec) : (s.setList l x).rx = s.rx := rfl
@[simp] theorem State.setList_slots (l : ListId) (x : ListRec) : (s.setList l x).slots = s.slots := rfl
@[simp] theorem State.setList_lineLow (l : ListId) (x : ListRec) : (s.setList l x).lineLow = s.lineLow := rfl
@[simp] theorem State.setList_cmdUnit (l : ListId) (x : ListRec) : (s.setList l x).cmdUnit = s.cmdUnit := rfl
@[simp] theorem State.setList_deferred (l : ListId) (x : ListRec) : (s.setList l x).deferred = s.deferred := rfl
@[simp] theorem State.setList_nextUid (l : ListId) (x : ListRec) : (s.setList l x).nextUid = s.nextUid := rfl
@[simp] theorem State.setList_replies (l : ListId) (x : ListRec) : (s.setList l x).replies = s.replies := rfl
@[simp] theorem State.setList_notices (l : ListId) (x : ListRec) : (s.setList l x).notices = s.notices := rfl
@[simp] theorem State.setList_tx (l : ListId) (x : ListRec) : (s.setList l x).tx = s.tx := rfl
@[simp] theorem State.setList_cutByte (l : ListId) (x : ListRec) : (s.setList l x).cutByte = s.cutByte := rfl
@[simp] theorem State.setList_choice (l : ListId) (x : ListRec) : (s.setList l x).choice = s.choice := rfl
@[simp] theorem State.setList_pending (l : ListId) (x : ListRec) : (s.setList l x).pending = s.pending := rfl
@[simp] theorem State.setList_core (l : ListId) (x : ListRec) (j : CoreId) : (s.setList l x).core j = s.core j := rfl
@[simp] theorem State.setList_input (l : ListId) (x : ListRec) (j : InputId) : (s.setList l x).input j = s.input j := rfl
@[simp] theorem State.setList_channel (l : ListId) (x : ListRec) (j : ChannelId) : (s.setList l x).channel j = s.channel j := rfl
@[simp] theorem State.setList_bank (l : ListId) (x : ListRec) (j : BankId) : (s.setList l x).bank j = s.bank j := rfl
@[simp] theorem State.setList_runMark (l : ListId) (x : ListRec) (j : ListId) : (s.setList l x).runMark j = s.runMark j := rfl
@[simp] theorem State.setBank_now (b : BankId) (x : Bank) : (s.setBank b x).now = s.now := rfl
@[simp] theorem State.setBank_bitRate (b : BankId) (x : Bank) : (s.setBank b x).bitRate = s.bitRate := rfl
@[simp] theorem State.setBank_cores (b : BankId) (x : Bank) : (s.setBank b x).cores = s.cores := rfl
@[simp] theorem State.setBank_inputs (b : BankId) (x : Bank) : (s.setBank b x).inputs = s.inputs := rfl
@[simp] theorem State.setBank_channels (b : BankId) (x : Bank) : (s.setBank b x).channels = s.channels := rfl
@[simp] theorem State.setBank_lists (b : BankId) (x : Bank) : (s.setBank b x).lists = s.lists := rfl
@[simp] theorem State.setBank_pool (b : BankId) (x : Bank) : (s.setBank b x).pool = s.pool := rfl
@[simp] theorem State.setBank_nextEvent (b : BankId) (x : Bank) : (s.setBank b x).nextEvent = s.nextEvent := rfl
@[simp] theorem State.setBank_idleSince (b : BankId) (x : Bank) : (s.setBank b x).idleSince = s.idleSince := rfl
@[simp] theorem State.setBank_freeSince (b : BankId) (x : Bank) : (s.setBank b x).freeSince = s.freeSince := rfl
@[simp] theorem State.setBank_evalQueue (b : BankId) (x : Bank) : (s.setBank b x).evalQueue = s.evalQueue := rfl
@[simp] theorem State.setBank_holdOrder (b : BankId) (x : Bank) : (s.setBank b x).holdOrder = s.holdOrder := rfl
@[simp] theorem State.setBank_engine (b : BankId) (x : Bank) : (s.setBank b x).engine = s.engine := rfl
@[simp] theorem State.setBank_session (b : BankId) (x : Bank) : (s.setBank b x).session = s.session := rfl
@[simp] theorem State.setBank_alarms (b : BankId) (x : Bank) : (s.setBank b x).alarms = s.alarms := rfl
@[simp] theorem State.setBank_reports (b : BankId) (x : Bank) : (s.setBank b x).reports = s.reports := rfl
@[simp] theorem State.setBank_credits (b : BankId) (x : Bank) : (s.setBank b x).credits = s.credits := rfl
@[simp] theorem State.setBank_blocked (b : BankId) (x : Bank) : (s.setBank b x).blocked = s.blocked := rfl
@[simp] theorem State.setBank_runStart (b : BankId) (x : Bank) : (s.setBank b x).runStart = s.runStart := rfl
@[simp] theorem State.setBank_rx (b : BankId) (x : Bank) : (s.setBank b x).rx = s.rx := rfl
@[simp] theorem State.setBank_slots (b : BankId) (x : Bank) : (s.setBank b x).slots = s.slots := rfl
@[simp] theorem State.setBank_lineLow (b : BankId) (x : Bank) : (s.setBank b x).lineLow = s.lineLow := rfl
@[simp] theorem State.setBank_cmdUnit (b : BankId) (x : Bank) : (s.setBank b x).cmdUnit = s.cmdUnit := rfl
@[simp] theorem State.setBank_deferred (b : BankId) (x : Bank) : (s.setBank b x).deferred = s.deferred := rfl
@[simp] theorem State.setBank_nextUid (b : BankId) (x : Bank) : (s.setBank b x).nextUid = s.nextUid := rfl
@[simp] theorem State.setBank_replies (b : BankId) (x : Bank) : (s.setBank b x).replies = s.replies := rfl
@[simp] theorem State.setBank_notices (b : BankId) (x : Bank) : (s.setBank b x).notices = s.notices := rfl
@[simp] theorem State.setBank_tx (b : BankId) (x : Bank) : (s.setBank b x).tx = s.tx := rfl
@[simp] theorem State.setBank_cutByte (b : BankId) (x : Bank) : (s.setBank b x).cutByte = s.cutByte := rfl
@[simp] theorem State.setBank_choice (b : BankId) (x : Bank) : (s.setBank b x).choice = s.choice := rfl
@[simp] theorem State.setBank_pending (b : BankId) (x : Bank) : (s.setBank b x).pending = s.pending := rfl
@[simp] theorem State.setBank_core (b : BankId) (x : Bank) (j : CoreId) : (s.setBank b x).core j = s.core j := rfl
@[simp] theorem State.setBank_input (b : BankId) (x : Bank) (j : InputId) : (s.setBank b x).input j = s.input j := rfl
@[simp] theorem State.setBank_channel (b : BankId) (x : Bank) (j : ChannelId) : (s.setBank b x).channel j = s.channel j := rfl
@[simp] theorem State.setBank_list (b : BankId) (x : Bank) (j : ListId) : (s.setBank b x).list j = s.list j := rfl
@[simp] theorem State.setBank_runMark (b : BankId) (x : Bank) (j : ListId) : (s.setBank b x).runMark j = s.runMark j := rfl
@[simp] theorem State.setRunMark_now (l : ListId) (x : Bool) : (s.setRunMark l x).now = s.now := rfl
@[simp] theorem State.setRunMark_bitRate (l : ListId) (x : Bool) : (s.setRunMark l x).bitRate = s.bitRate := rfl
@[simp] theorem State.setRunMark_cores (l : ListId) (x : Bool) : (s.setRunMark l x).cores = s.cores := rfl
@[simp] theorem State.setRunMark_inputs (l : ListId) (x : Bool) : (s.setRunMark l x).inputs = s.inputs := rfl
@[simp] theorem State.setRunMark_channels (l : ListId) (x : Bool) : (s.setRunMark l x).channels = s.channels := rfl
@[simp] theorem State.setRunMark_lists (l : ListId) (x : Bool) : (s.setRunMark l x).lists = s.lists := rfl
@[simp] theorem State.setRunMark_pool (l : ListId) (x : Bool) : (s.setRunMark l x).pool = s.pool := rfl
@[simp] theorem State.setRunMark_nextEvent (l : ListId) (x : Bool) : (s.setRunMark l x).nextEvent = s.nextEvent := rfl
@[simp] theorem State.setRunMark_idleSince (l : ListId) (x : Bool) : (s.setRunMark l x).idleSince = s.idleSince := rfl
@[simp] theorem State.setRunMark_freeSince (l : ListId) (x : Bool) : (s.setRunMark l x).freeSince = s.freeSince := rfl
@[simp] theorem State.setRunMark_evalQueue (l : ListId) (x : Bool) : (s.setRunMark l x).evalQueue = s.evalQueue := rfl
@[simp] theorem State.setRunMark_holdOrder (l : ListId) (x : Bool) : (s.setRunMark l x).holdOrder = s.holdOrder := rfl
@[simp] theorem State.setRunMark_engine (l : ListId) (x : Bool) : (s.setRunMark l x).engine = s.engine := rfl
@[simp] theorem State.setRunMark_banks (l : ListId) (x : Bool) : (s.setRunMark l x).banks = s.banks := rfl
@[simp] theorem State.setRunMark_session (l : ListId) (x : Bool) : (s.setRunMark l x).session = s.session := rfl
@[simp] theorem State.setRunMark_alarms (l : ListId) (x : Bool) : (s.setRunMark l x).alarms = s.alarms := rfl
@[simp] theorem State.setRunMark_reports (l : ListId) (x : Bool) : (s.setRunMark l x).reports = s.reports := rfl
@[simp] theorem State.setRunMark_credits (l : ListId) (x : Bool) : (s.setRunMark l x).credits = s.credits := rfl
@[simp] theorem State.setRunMark_blocked (l : ListId) (x : Bool) : (s.setRunMark l x).blocked = s.blocked := rfl
@[simp] theorem State.setRunMark_rx (l : ListId) (x : Bool) : (s.setRunMark l x).rx = s.rx := rfl
@[simp] theorem State.setRunMark_slots (l : ListId) (x : Bool) : (s.setRunMark l x).slots = s.slots := rfl
@[simp] theorem State.setRunMark_lineLow (l : ListId) (x : Bool) : (s.setRunMark l x).lineLow = s.lineLow := rfl
@[simp] theorem State.setRunMark_cmdUnit (l : ListId) (x : Bool) : (s.setRunMark l x).cmdUnit = s.cmdUnit := rfl
@[simp] theorem State.setRunMark_deferred (l : ListId) (x : Bool) : (s.setRunMark l x).deferred = s.deferred := rfl
@[simp] theorem State.setRunMark_nextUid (l : ListId) (x : Bool) : (s.setRunMark l x).nextUid = s.nextUid := rfl
@[simp] theorem State.setRunMark_replies (l : ListId) (x : Bool) : (s.setRunMark l x).replies = s.replies := rfl
@[simp] theorem State.setRunMark_notices (l : ListId) (x : Bool) : (s.setRunMark l x).notices = s.notices := rfl
@[simp] theorem State.setRunMark_tx (l : ListId) (x : Bool) : (s.setRunMark l x).tx = s.tx := rfl
@[simp] theorem State.setRunMark_cutByte (l : ListId) (x : Bool) : (s.setRunMark l x).cutByte = s.cutByte := rfl
@[simp] theorem State.setRunMark_choice (l : ListId) (x : Bool) : (s.setRunMark l x).choice = s.choice := rfl
@[simp] theorem State.setRunMark_pending (l : ListId) (x : Bool) : (s.setRunMark l x).pending = s.pending := rfl
@[simp] theorem State.setRunMark_core (l : ListId) (x : Bool) (j : CoreId) : (s.setRunMark l x).core j = s.core j := rfl
@[simp] theorem State.setRunMark_input (l : ListId) (x : Bool) (j : InputId) : (s.setRunMark l x).input j = s.input j := rfl
@[simp] theorem State.setRunMark_channel (l : ListId) (x : Bool) (j : ChannelId) : (s.setRunMark l x).channel j = s.channel j := rfl
@[simp] theorem State.setRunMark_list (l : ListId) (x : Bool) (j : ListId) : (s.setRunMark l x).list j = s.list j := rfl
@[simp] theorem State.setRunMark_bank (l : ListId) (x : Bool) (j : BankId) : (s.setRunMark l x).bank j = s.bank j := rfl

/-! ### The clock, the grant events, the part notices, the reply queue and the choice of the transmitter -/

@[simp] theorem State.advanceTo_now (n : Nat) : (s.advanceTo n).now = max s.now n := rfl
@[simp] theorem State.advanceTo_bitRate (n : Nat) : (s.advanceTo n).bitRate = s.bitRate := rfl
@[simp] theorem State.advanceTo_cores (n : Nat) : (s.advanceTo n).cores = s.cores := rfl
@[simp] theorem State.advanceTo_inputs (n : Nat) : (s.advanceTo n).inputs = s.inputs := rfl
@[simp] theorem State.advanceTo_channels (n : Nat) : (s.advanceTo n).channels = s.channels := rfl
@[simp] theorem State.advanceTo_lists (n : Nat) : (s.advanceTo n).lists = s.lists := rfl
@[simp] theorem State.advanceTo_pool (n : Nat) : (s.advanceTo n).pool = s.pool := rfl
@[simp] theorem State.advanceTo_nextEvent (n : Nat) : (s.advanceTo n).nextEvent = s.nextEvent := rfl
@[simp] theorem State.advanceTo_idleSince (n : Nat) : (s.advanceTo n).idleSince = s.idleSince := rfl
@[simp] theorem State.advanceTo_freeSince (n : Nat) : (s.advanceTo n).freeSince = s.freeSince := rfl
@[simp] theorem State.advanceTo_evalQueue (n : Nat) : (s.advanceTo n).evalQueue = s.evalQueue := rfl
@[simp] theorem State.advanceTo_holdOrder (n : Nat) : (s.advanceTo n).holdOrder = s.holdOrder := rfl
@[simp] theorem State.advanceTo_engine (n : Nat) : (s.advanceTo n).engine = s.engine := rfl
@[simp] theorem State.advanceTo_banks (n : Nat) : (s.advanceTo n).banks = s.banks := rfl
@[simp] theorem State.advanceTo_session (n : Nat) : (s.advanceTo n).session = s.session := rfl
@[simp] theorem State.advanceTo_alarms (n : Nat) : (s.advanceTo n).alarms = s.alarms := rfl
@[simp] theorem State.advanceTo_reports (n : Nat) : (s.advanceTo n).reports = s.reports := rfl
@[simp] theorem State.advanceTo_credits (n : Nat) : (s.advanceTo n).credits = s.credits := rfl
@[simp] theorem State.advanceTo_blocked (n : Nat) : (s.advanceTo n).blocked = s.blocked := rfl
@[simp] theorem State.advanceTo_runStart (n : Nat) : (s.advanceTo n).runStart = s.runStart := rfl
@[simp] theorem State.advanceTo_rx (n : Nat) : (s.advanceTo n).rx = s.rx := rfl
@[simp] theorem State.advanceTo_slots (n : Nat) : (s.advanceTo n).slots = s.slots := rfl
@[simp] theorem State.advanceTo_lineLow (n : Nat) : (s.advanceTo n).lineLow = s.lineLow := rfl
@[simp] theorem State.advanceTo_cmdUnit (n : Nat) : (s.advanceTo n).cmdUnit = s.cmdUnit := rfl
@[simp] theorem State.advanceTo_deferred (n : Nat) : (s.advanceTo n).deferred = s.deferred := rfl
@[simp] theorem State.advanceTo_nextUid (n : Nat) : (s.advanceTo n).nextUid = s.nextUid := rfl
@[simp] theorem State.advanceTo_replies (n : Nat) : (s.advanceTo n).replies = s.replies := rfl
@[simp] theorem State.advanceTo_notices (n : Nat) : (s.advanceTo n).notices = s.notices := rfl
@[simp] theorem State.advanceTo_tx (n : Nat) : (s.advanceTo n).tx = s.tx := rfl
@[simp] theorem State.advanceTo_cutByte (n : Nat) : (s.advanceTo n).cutByte = s.cutByte := rfl
@[simp] theorem State.advanceTo_choice (n : Nat) : (s.advanceTo n).choice = s.choice := rfl
@[simp] theorem State.advanceTo_pending (n : Nat) : (s.advanceTo n).pending = s.pending := rfl
@[simp] theorem State.advanceTo_core (n : Nat) (j : CoreId) : (s.advanceTo n).core j = s.core j := rfl
@[simp] theorem State.advanceTo_input (n : Nat) (j : InputId) : (s.advanceTo n).input j = s.input j := rfl
@[simp] theorem State.advanceTo_channel (n : Nat) (j : ChannelId) : (s.advanceTo n).channel j = s.channel j := rfl
@[simp] theorem State.advanceTo_list (n : Nat) (j : ListId) : (s.advanceTo n).list j = s.list j := rfl
@[simp] theorem State.advanceTo_bank (n : Nat) (j : BankId) : (s.advanceTo n).bank j = s.bank j := rfl
@[simp] theorem State.advanceTo_runMark (n : Nat) (j : ListId) : (s.advanceTo n).runMark j = s.runMark j := rfl
@[simp] theorem State.newGrantEvent_now : (s.newGrantEvent).now = s.now := rfl
@[simp] theorem State.newGrantEvent_bitRate : (s.newGrantEvent).bitRate = s.bitRate := rfl
@[simp] theorem State.newGrantEvent_cores : (s.newGrantEvent).cores = s.cores := rfl
@[simp] theorem State.newGrantEvent_inputs : (s.newGrantEvent).inputs = s.inputs := rfl
@[simp] theorem State.newGrantEvent_channels : (s.newGrantEvent).channels = s.channels := rfl
@[simp] theorem State.newGrantEvent_lists : (s.newGrantEvent).lists = s.lists := rfl
@[simp] theorem State.newGrantEvent_pool : (s.newGrantEvent).pool = s.pool := rfl
@[simp] theorem State.newGrantEvent_nextEvent : (s.newGrantEvent).nextEvent = s.nextEvent + 1 := rfl
@[simp] theorem State.newGrantEvent_idleSince : (s.newGrantEvent).idleSince = s.idleSince := rfl
@[simp] theorem State.newGrantEvent_freeSince : (s.newGrantEvent).freeSince = s.freeSince := rfl
@[simp] theorem State.newGrantEvent_evalQueue : (s.newGrantEvent).evalQueue = s.evalQueue := rfl
@[simp] theorem State.newGrantEvent_holdOrder : (s.newGrantEvent).holdOrder = s.holdOrder := rfl
@[simp] theorem State.newGrantEvent_engine : (s.newGrantEvent).engine = s.engine := rfl
@[simp] theorem State.newGrantEvent_banks : (s.newGrantEvent).banks = s.banks := rfl
@[simp] theorem State.newGrantEvent_session : (s.newGrantEvent).session = s.session := rfl
@[simp] theorem State.newGrantEvent_alarms : (s.newGrantEvent).alarms = s.alarms := rfl
@[simp] theorem State.newGrantEvent_reports : (s.newGrantEvent).reports = s.reports := rfl
@[simp] theorem State.newGrantEvent_credits : (s.newGrantEvent).credits = s.credits := rfl
@[simp] theorem State.newGrantEvent_blocked : (s.newGrantEvent).blocked = s.blocked := rfl
@[simp] theorem State.newGrantEvent_runStart : (s.newGrantEvent).runStart = s.runStart := rfl
@[simp] theorem State.newGrantEvent_rx : (s.newGrantEvent).rx = s.rx := rfl
@[simp] theorem State.newGrantEvent_slots : (s.newGrantEvent).slots = s.slots := rfl
@[simp] theorem State.newGrantEvent_lineLow : (s.newGrantEvent).lineLow = s.lineLow := rfl
@[simp] theorem State.newGrantEvent_cmdUnit : (s.newGrantEvent).cmdUnit = s.cmdUnit := rfl
@[simp] theorem State.newGrantEvent_deferred : (s.newGrantEvent).deferred = s.deferred := rfl
@[simp] theorem State.newGrantEvent_nextUid : (s.newGrantEvent).nextUid = s.nextUid := rfl
@[simp] theorem State.newGrantEvent_replies : (s.newGrantEvent).replies = s.replies := rfl
@[simp] theorem State.newGrantEvent_notices : (s.newGrantEvent).notices = s.notices := rfl
@[simp] theorem State.newGrantEvent_tx : (s.newGrantEvent).tx = s.tx := rfl
@[simp] theorem State.newGrantEvent_cutByte : (s.newGrantEvent).cutByte = s.cutByte := rfl
@[simp] theorem State.newGrantEvent_choice : (s.newGrantEvent).choice = s.choice := rfl
@[simp] theorem State.newGrantEvent_pending : (s.newGrantEvent).pending = s.pending := rfl
@[simp] theorem State.newGrantEvent_core (j : CoreId) : (s.newGrantEvent).core j = s.core j := rfl
@[simp] theorem State.newGrantEvent_input (j : InputId) : (s.newGrantEvent).input j = s.input j := rfl
@[simp] theorem State.newGrantEvent_channel (j : ChannelId) : (s.newGrantEvent).channel j = s.channel j := rfl
@[simp] theorem State.newGrantEvent_list (j : ListId) : (s.newGrantEvent).list j = s.list j := rfl
@[simp] theorem State.newGrantEvent_bank (j : BankId) : (s.newGrantEvent).bank j = s.bank j := rfl
@[simp] theorem State.newGrantEvent_runMark (j : ListId) : (s.newGrantEvent).runMark j = s.runMark j := rfl
@[simp] theorem State.raise_now (e : PartEvent) : (s.raise e).now = s.now := rfl
@[simp] theorem State.raise_bitRate (e : PartEvent) : (s.raise e).bitRate = s.bitRate := rfl
@[simp] theorem State.raise_cores (e : PartEvent) : (s.raise e).cores = s.cores := rfl
@[simp] theorem State.raise_inputs (e : PartEvent) : (s.raise e).inputs = s.inputs := rfl
@[simp] theorem State.raise_channels (e : PartEvent) : (s.raise e).channels = s.channels := rfl
@[simp] theorem State.raise_lists (e : PartEvent) : (s.raise e).lists = s.lists := rfl
@[simp] theorem State.raise_pool (e : PartEvent) : (s.raise e).pool = s.pool := rfl
@[simp] theorem State.raise_nextEvent (e : PartEvent) : (s.raise e).nextEvent = s.nextEvent := rfl
@[simp] theorem State.raise_idleSince (e : PartEvent) : (s.raise e).idleSince = s.idleSince := rfl
@[simp] theorem State.raise_freeSince (e : PartEvent) : (s.raise e).freeSince = s.freeSince := rfl
@[simp] theorem State.raise_evalQueue (e : PartEvent) : (s.raise e).evalQueue = s.evalQueue := rfl
@[simp] theorem State.raise_holdOrder (e : PartEvent) : (s.raise e).holdOrder = s.holdOrder := rfl
@[simp] theorem State.raise_engine (e : PartEvent) : (s.raise e).engine = s.engine := rfl
@[simp] theorem State.raise_banks (e : PartEvent) : (s.raise e).banks = s.banks := rfl
@[simp] theorem State.raise_session (e : PartEvent) : (s.raise e).session = s.session := rfl
@[simp] theorem State.raise_alarms (e : PartEvent) : (s.raise e).alarms = s.alarms := rfl
@[simp] theorem State.raise_reports (e : PartEvent) : (s.raise e).reports = s.reports := rfl
@[simp] theorem State.raise_credits (e : PartEvent) : (s.raise e).credits = s.credits := rfl
@[simp] theorem State.raise_blocked (e : PartEvent) : (s.raise e).blocked = s.blocked := rfl
@[simp] theorem State.raise_runStart (e : PartEvent) : (s.raise e).runStart = s.runStart := rfl
@[simp] theorem State.raise_rx (e : PartEvent) : (s.raise e).rx = s.rx := rfl
@[simp] theorem State.raise_slots (e : PartEvent) : (s.raise e).slots = s.slots := rfl
@[simp] theorem State.raise_lineLow (e : PartEvent) : (s.raise e).lineLow = s.lineLow := rfl
@[simp] theorem State.raise_cmdUnit (e : PartEvent) : (s.raise e).cmdUnit = s.cmdUnit := rfl
@[simp] theorem State.raise_deferred (e : PartEvent) : (s.raise e).deferred = s.deferred := rfl
@[simp] theorem State.raise_nextUid (e : PartEvent) : (s.raise e).nextUid = s.nextUid := rfl
@[simp] theorem State.raise_replies (e : PartEvent) : (s.raise e).replies = s.replies := rfl
@[simp] theorem State.raise_notices (e : PartEvent) : (s.raise e).notices = raiseIn e s.notices := rfl
@[simp] theorem State.raise_tx (e : PartEvent) : (s.raise e).tx = s.tx := rfl
@[simp] theorem State.raise_cutByte (e : PartEvent) : (s.raise e).cutByte = s.cutByte := rfl
@[simp] theorem State.raise_choice (e : PartEvent) : (s.raise e).choice = s.choice := rfl
@[simp] theorem State.raise_pending (e : PartEvent) : (s.raise e).pending = s.pending := rfl
@[simp] theorem State.raise_core (e : PartEvent) (j : CoreId) : (s.raise e).core j = s.core j := rfl
@[simp] theorem State.raise_input (e : PartEvent) (j : InputId) : (s.raise e).input j = s.input j := rfl
@[simp] theorem State.raise_channel (e : PartEvent) (j : ChannelId) : (s.raise e).channel j = s.channel j := rfl
@[simp] theorem State.raise_list (e : PartEvent) (j : ListId) : (s.raise e).list j = s.list j := rfl
@[simp] theorem State.raise_bank (e : PartEvent) (j : BankId) : (s.raise e).bank j = s.bank j := rfl
@[simp] theorem State.raise_runMark (e : PartEvent) (j : ListId) : (s.raise e).runMark j = s.runMark j := rfl
@[simp] theorem State.queueReply_now (r : Reply) : (s.queueReply r).now = s.now := rfl
@[simp] theorem State.queueReply_bitRate (r : Reply) : (s.queueReply r).bitRate = s.bitRate := rfl
@[simp] theorem State.queueReply_cores (r : Reply) : (s.queueReply r).cores = s.cores := rfl
@[simp] theorem State.queueReply_inputs (r : Reply) : (s.queueReply r).inputs = s.inputs := rfl
@[simp] theorem State.queueReply_channels (r : Reply) : (s.queueReply r).channels = s.channels := rfl
@[simp] theorem State.queueReply_lists (r : Reply) : (s.queueReply r).lists = s.lists := rfl
@[simp] theorem State.queueReply_pool (r : Reply) : (s.queueReply r).pool = s.pool := rfl
@[simp] theorem State.queueReply_nextEvent (r : Reply) : (s.queueReply r).nextEvent = s.nextEvent := rfl
@[simp] theorem State.queueReply_idleSince (r : Reply) : (s.queueReply r).idleSince = s.idleSince := rfl
@[simp] theorem State.queueReply_freeSince (r : Reply) : (s.queueReply r).freeSince = s.freeSince := rfl
@[simp] theorem State.queueReply_evalQueue (r : Reply) : (s.queueReply r).evalQueue = s.evalQueue := rfl
@[simp] theorem State.queueReply_holdOrder (r : Reply) : (s.queueReply r).holdOrder = s.holdOrder := rfl
@[simp] theorem State.queueReply_engine (r : Reply) : (s.queueReply r).engine = s.engine := rfl
@[simp] theorem State.queueReply_banks (r : Reply) : (s.queueReply r).banks = s.banks := rfl
@[simp] theorem State.queueReply_session (r : Reply) : (s.queueReply r).session = s.session := rfl
@[simp] theorem State.queueReply_alarms (r : Reply) : (s.queueReply r).alarms = s.alarms := rfl
@[simp] theorem State.queueReply_reports (r : Reply) : (s.queueReply r).reports = s.reports := rfl
@[simp] theorem State.queueReply_credits (r : Reply) : (s.queueReply r).credits = s.credits := rfl
@[simp] theorem State.queueReply_blocked (r : Reply) : (s.queueReply r).blocked = s.blocked := rfl
@[simp] theorem State.queueReply_runStart (r : Reply) : (s.queueReply r).runStart = s.runStart := rfl
@[simp] theorem State.queueReply_rx (r : Reply) : (s.queueReply r).rx = s.rx := rfl
@[simp] theorem State.queueReply_slots (r : Reply) : (s.queueReply r).slots = s.slots := rfl
@[simp] theorem State.queueReply_lineLow (r : Reply) : (s.queueReply r).lineLow = s.lineLow := rfl
@[simp] theorem State.queueReply_cmdUnit (r : Reply) : (s.queueReply r).cmdUnit = s.cmdUnit := rfl
@[simp] theorem State.queueReply_deferred (r : Reply) : (s.queueReply r).deferred = s.deferred := rfl
@[simp] theorem State.queueReply_nextUid (r : Reply) : (s.queueReply r).nextUid = s.nextUid := rfl
@[simp] theorem State.queueReply_replies (r : Reply) : (s.queueReply r).replies = s.replies ++ [r] := rfl
@[simp] theorem State.queueReply_notices (r : Reply) : (s.queueReply r).notices = s.notices := rfl
@[simp] theorem State.queueReply_tx (r : Reply) : (s.queueReply r).tx = s.tx := rfl
@[simp] theorem State.queueReply_cutByte (r : Reply) : (s.queueReply r).cutByte = s.cutByte := rfl
@[simp] theorem State.queueReply_choice (r : Reply) : (s.queueReply r).choice = s.choice := rfl
@[simp] theorem State.queueReply_pending (r : Reply) : (s.queueReply r).pending = s.pending := rfl
@[simp] theorem State.queueReply_core (r : Reply) (j : CoreId) : (s.queueReply r).core j = s.core j := rfl
@[simp] theorem State.queueReply_input (r : Reply) (j : InputId) : (s.queueReply r).input j = s.input j := rfl
@[simp] theorem State.queueReply_channel (r : Reply) (j : ChannelId) : (s.queueReply r).channel j = s.channel j := rfl
@[simp] theorem State.queueReply_list (r : Reply) (j : ListId) : (s.queueReply r).list j = s.list j := rfl
@[simp] theorem State.queueReply_bank (r : Reply) (j : BankId) : (s.queueReply r).bank j = s.bank j := rfl
@[simp] theorem State.queueReply_runMark (r : Reply) (j : ListId) : (s.queueReply r).runMark j = s.runMark j := rfl
@[simp] theorem State.emptySlot_now : (s.emptySlot).now = s.now := rfl
@[simp] theorem State.emptySlot_bitRate : (s.emptySlot).bitRate = s.bitRate := rfl
@[simp] theorem State.emptySlot_cores : (s.emptySlot).cores = s.cores := rfl
@[simp] theorem State.emptySlot_inputs : (s.emptySlot).inputs = s.inputs := rfl
@[simp] theorem State.emptySlot_channels : (s.emptySlot).channels = s.channels := rfl
@[simp] theorem State.emptySlot_lists : (s.emptySlot).lists = s.lists := rfl
@[simp] theorem State.emptySlot_pool : (s.emptySlot).pool = s.pool := rfl
@[simp] theorem State.emptySlot_nextEvent : (s.emptySlot).nextEvent = s.nextEvent := rfl
@[simp] theorem State.emptySlot_idleSince : (s.emptySlot).idleSince = s.idleSince := rfl
@[simp] theorem State.emptySlot_freeSince : (s.emptySlot).freeSince = s.freeSince := rfl
@[simp] theorem State.emptySlot_evalQueue : (s.emptySlot).evalQueue = s.evalQueue := rfl
@[simp] theorem State.emptySlot_holdOrder : (s.emptySlot).holdOrder = s.holdOrder := rfl
@[simp] theorem State.emptySlot_engine : (s.emptySlot).engine = s.engine := rfl
@[simp] theorem State.emptySlot_banks : (s.emptySlot).banks = s.banks := rfl
@[simp] theorem State.emptySlot_session : (s.emptySlot).session = s.session := rfl
@[simp] theorem State.emptySlot_alarms : (s.emptySlot).alarms = s.alarms := rfl
@[simp] theorem State.emptySlot_reports : (s.emptySlot).reports = s.reports := rfl
@[simp] theorem State.emptySlot_credits : (s.emptySlot).credits = s.credits := rfl
@[simp] theorem State.emptySlot_blocked : (s.emptySlot).blocked = s.blocked := rfl
@[simp] theorem State.emptySlot_runStart : (s.emptySlot).runStart = s.runStart := rfl
@[simp] theorem State.emptySlot_rx : (s.emptySlot).rx = s.rx := rfl
@[simp] theorem State.emptySlot_slots : (s.emptySlot).slots = s.slots.tail := rfl
@[simp] theorem State.emptySlot_lineLow : (s.emptySlot).lineLow = s.lineLow := rfl
@[simp] theorem State.emptySlot_cmdUnit : (s.emptySlot).cmdUnit = s.cmdUnit := rfl
@[simp] theorem State.emptySlot_deferred : (s.emptySlot).deferred = s.deferred := rfl
@[simp] theorem State.emptySlot_nextUid : (s.emptySlot).nextUid = s.nextUid := rfl
@[simp] theorem State.emptySlot_replies : (s.emptySlot).replies = s.replies := rfl
@[simp] theorem State.emptySlot_notices : (s.emptySlot).notices = s.notices := rfl
@[simp] theorem State.emptySlot_tx : (s.emptySlot).tx = s.tx := rfl
@[simp] theorem State.emptySlot_cutByte : (s.emptySlot).cutByte = s.cutByte := rfl
@[simp] theorem State.emptySlot_choice : (s.emptySlot).choice = s.choice := rfl
@[simp] theorem State.emptySlot_pending : (s.emptySlot).pending = s.pending := rfl
@[simp] theorem State.emptySlot_core (j : CoreId) : (s.emptySlot).core j = s.core j := rfl
@[simp] theorem State.emptySlot_input (j : InputId) : (s.emptySlot).input j = s.input j := rfl
@[simp] theorem State.emptySlot_channel (j : ChannelId) : (s.emptySlot).channel j = s.channel j := rfl
@[simp] theorem State.emptySlot_list (j : ListId) : (s.emptySlot).list j = s.list j := rfl
@[simp] theorem State.emptySlot_bank (j : BankId) : (s.emptySlot).bank j = s.bank j := rfl
@[simp] theorem State.emptySlot_runMark (j : ListId) : (s.emptySlot).runMark j = s.runMark j := rfl
@[simp] theorem State.choose_now : (s.choose).now = s.now := rfl
@[simp] theorem State.choose_bitRate : (s.choose).bitRate = s.bitRate := rfl
@[simp] theorem State.choose_cores : (s.choose).cores = s.cores := rfl
@[simp] theorem State.choose_inputs : (s.choose).inputs = s.inputs := rfl
@[simp] theorem State.choose_channels : (s.choose).channels = s.channels := rfl
@[simp] theorem State.choose_lists : (s.choose).lists = s.lists := rfl
@[simp] theorem State.choose_pool : (s.choose).pool = s.pool := rfl
@[simp] theorem State.choose_nextEvent : (s.choose).nextEvent = s.nextEvent := rfl
@[simp] theorem State.choose_idleSince : (s.choose).idleSince = s.idleSince := rfl
@[simp] theorem State.choose_freeSince : (s.choose).freeSince = s.freeSince := rfl
@[simp] theorem State.choose_evalQueue : (s.choose).evalQueue = s.evalQueue := rfl
@[simp] theorem State.choose_holdOrder : (s.choose).holdOrder = s.holdOrder := rfl
@[simp] theorem State.choose_engine : (s.choose).engine = s.engine := rfl
@[simp] theorem State.choose_banks : (s.choose).banks = s.banks := rfl
@[simp] theorem State.choose_session : (s.choose).session = s.session := rfl
@[simp] theorem State.choose_alarms : (s.choose).alarms = s.alarms := rfl
@[simp] theorem State.choose_reports : (s.choose).reports = s.reports := rfl
@[simp] theorem State.choose_credits : (s.choose).credits = s.credits := rfl
@[simp] theorem State.choose_blocked : (s.choose).blocked = s.blocked := rfl
@[simp] theorem State.choose_runStart : (s.choose).runStart = s.runStart := rfl
@[simp] theorem State.choose_rx : (s.choose).rx = s.rx := rfl
@[simp] theorem State.choose_slots : (s.choose).slots = s.slots := rfl
@[simp] theorem State.choose_lineLow : (s.choose).lineLow = s.lineLow := rfl
@[simp] theorem State.choose_cmdUnit : (s.choose).cmdUnit = s.cmdUnit := rfl
@[simp] theorem State.choose_deferred : (s.choose).deferred = s.deferred := rfl
@[simp] theorem State.choose_nextUid : (s.choose).nextUid = s.nextUid := rfl
@[simp] theorem State.choose_replies : (s.choose).replies = s.replies := rfl
@[simp] theorem State.choose_notices : (s.choose).notices = s.notices := rfl
@[simp] theorem State.choose_tx : (s.choose).tx = s.tx := rfl
@[simp] theorem State.choose_cutByte : (s.choose).cutByte = s.cutByte := rfl
@[simp] theorem State.choose_choice : (s.choose).choice = if s.mayChoose ∧ s.choice = none then s.firstItem else s.choice := rfl
@[simp] theorem State.choose_pending : (s.choose).pending = s.pending := rfl
@[simp] theorem State.choose_core (j : CoreId) : (s.choose).core j = s.core j := rfl
@[simp] theorem State.choose_input (j : InputId) : (s.choose).input j = s.input j := rfl
@[simp] theorem State.choose_channel (j : ChannelId) : (s.choose).channel j = s.channel j := rfl
@[simp] theorem State.choose_list (j : ListId) : (s.choose).list j = s.list j := rfl
@[simp] theorem State.choose_bank (j : BankId) : (s.choose).bank j = s.bank j := rfl
@[simp] theorem State.choose_runMark (j : ListId) : (s.choose).runMark j = s.runMark j := rfl
@[simp] theorem State.enterIdle_now (c : CoreId) : (s.enterIdle c).now = s.now := rfl
@[simp] theorem State.enterIdle_bitRate (c : CoreId) : (s.enterIdle c).bitRate = s.bitRate := rfl
@[simp] theorem State.enterIdle_inputs (c : CoreId) : (s.enterIdle c).inputs = s.inputs := rfl
@[simp] theorem State.enterIdle_channels (c : CoreId) : (s.enterIdle c).channels = s.channels := rfl
@[simp] theorem State.enterIdle_lists (c : CoreId) : (s.enterIdle c).lists = s.lists := rfl
@[simp] theorem State.enterIdle_pool (c : CoreId) : (s.enterIdle c).pool = s.pool := rfl
@[simp] theorem State.enterIdle_nextEvent (c : CoreId) : (s.enterIdle c).nextEvent = s.nextEvent := rfl
@[simp] theorem State.enterIdle_freeSince (c : CoreId) : (s.enterIdle c).freeSince = s.freeSince := rfl
@[simp] theorem State.enterIdle_evalQueue (c : CoreId) : (s.enterIdle c).evalQueue = s.evalQueue := rfl
@[simp] theorem State.enterIdle_holdOrder (c : CoreId) : (s.enterIdle c).holdOrder = s.holdOrder := rfl
@[simp] theorem State.enterIdle_engine (c : CoreId) : (s.enterIdle c).engine = s.engine := rfl
@[simp] theorem State.enterIdle_banks (c : CoreId) : (s.enterIdle c).banks = s.banks := rfl
@[simp] theorem State.enterIdle_session (c : CoreId) : (s.enterIdle c).session = s.session := rfl
@[simp] theorem State.enterIdle_alarms (c : CoreId) : (s.enterIdle c).alarms = s.alarms := rfl
@[simp] theorem State.enterIdle_reports (c : CoreId) : (s.enterIdle c).reports = s.reports := rfl
@[simp] theorem State.enterIdle_credits (c : CoreId) : (s.enterIdle c).credits = s.credits := rfl
@[simp] theorem State.enterIdle_blocked (c : CoreId) : (s.enterIdle c).blocked = s.blocked := rfl
@[simp] theorem State.enterIdle_runStart (c : CoreId) : (s.enterIdle c).runStart = s.runStart := rfl
@[simp] theorem State.enterIdle_rx (c : CoreId) : (s.enterIdle c).rx = s.rx := rfl
@[simp] theorem State.enterIdle_slots (c : CoreId) : (s.enterIdle c).slots = s.slots := rfl
@[simp] theorem State.enterIdle_lineLow (c : CoreId) : (s.enterIdle c).lineLow = s.lineLow := rfl
@[simp] theorem State.enterIdle_cmdUnit (c : CoreId) : (s.enterIdle c).cmdUnit = s.cmdUnit := rfl
@[simp] theorem State.enterIdle_deferred (c : CoreId) : (s.enterIdle c).deferred = s.deferred := rfl
@[simp] theorem State.enterIdle_nextUid (c : CoreId) : (s.enterIdle c).nextUid = s.nextUid := rfl
@[simp] theorem State.enterIdle_replies (c : CoreId) : (s.enterIdle c).replies = s.replies := rfl
@[simp] theorem State.enterIdle_notices (c : CoreId) : (s.enterIdle c).notices = s.notices := rfl
@[simp] theorem State.enterIdle_tx (c : CoreId) : (s.enterIdle c).tx = s.tx := rfl
@[simp] theorem State.enterIdle_cutByte (c : CoreId) : (s.enterIdle c).cutByte = s.cutByte := rfl
@[simp] theorem State.enterIdle_choice (c : CoreId) : (s.enterIdle c).choice = s.choice := rfl
@[simp] theorem State.enterIdle_pending (c : CoreId) : (s.enterIdle c).pending = s.pending := rfl
@[simp] theorem State.enterIdle_idleSince (c : CoreId) : (s.enterIdle c).idleSince = s.idleSince.set c s.nextEvent := rfl
@[simp] theorem State.enterIdle_input (c : CoreId) (j : InputId) : (s.enterIdle c).input j = s.input j := rfl
@[simp] theorem State.enterIdle_channel (c : CoreId) (j : ChannelId) : (s.enterIdle c).channel j = s.channel j := rfl
@[simp] theorem State.enterIdle_list (c : CoreId) (j : ListId) : (s.enterIdle c).list j = s.list j := rfl
@[simp] theorem State.enterIdle_bank (c : CoreId) (j : BankId) : (s.enterIdle c).bank j = s.bank j := rfl
@[simp] theorem State.enterIdle_runMark (c : CoreId) (j : ListId) : (s.enterIdle c).runMark j = s.runMark j := rfl
@[simp] theorem State.freeInput_now (i : InputId) : (s.freeInput i).now = s.now := rfl
@[simp] theorem State.freeInput_bitRate (i : InputId) : (s.freeInput i).bitRate = s.bitRate := rfl
@[simp] theorem State.freeInput_cores (i : InputId) : (s.freeInput i).cores = s.cores := rfl
@[simp] theorem State.freeInput_channels (i : InputId) : (s.freeInput i).channels = s.channels := rfl
@[simp] theorem State.freeInput_lists (i : InputId) : (s.freeInput i).lists = s.lists := rfl
@[simp] theorem State.freeInput_pool (i : InputId) : (s.freeInput i).pool = s.pool := rfl
@[simp] theorem State.freeInput_nextEvent (i : InputId) : (s.freeInput i).nextEvent = s.nextEvent := rfl
@[simp] theorem State.freeInput_idleSince (i : InputId) : (s.freeInput i).idleSince = s.idleSince := rfl
@[simp] theorem State.freeInput_evalQueue (i : InputId) : (s.freeInput i).evalQueue = s.evalQueue := rfl
@[simp] theorem State.freeInput_holdOrder (i : InputId) : (s.freeInput i).holdOrder = s.holdOrder := rfl
@[simp] theorem State.freeInput_engine (i : InputId) : (s.freeInput i).engine = s.engine := rfl
@[simp] theorem State.freeInput_banks (i : InputId) : (s.freeInput i).banks = s.banks := rfl
@[simp] theorem State.freeInput_session (i : InputId) : (s.freeInput i).session = s.session := rfl
@[simp] theorem State.freeInput_alarms (i : InputId) : (s.freeInput i).alarms = s.alarms := rfl
@[simp] theorem State.freeInput_reports (i : InputId) : (s.freeInput i).reports = s.reports := rfl
@[simp] theorem State.freeInput_credits (i : InputId) : (s.freeInput i).credits = s.credits := rfl
@[simp] theorem State.freeInput_blocked (i : InputId) : (s.freeInput i).blocked = s.blocked := rfl
@[simp] theorem State.freeInput_runStart (i : InputId) : (s.freeInput i).runStart = s.runStart := rfl
@[simp] theorem State.freeInput_rx (i : InputId) : (s.freeInput i).rx = s.rx := rfl
@[simp] theorem State.freeInput_slots (i : InputId) : (s.freeInput i).slots = s.slots := rfl
@[simp] theorem State.freeInput_lineLow (i : InputId) : (s.freeInput i).lineLow = s.lineLow := rfl
@[simp] theorem State.freeInput_cmdUnit (i : InputId) : (s.freeInput i).cmdUnit = s.cmdUnit := rfl
@[simp] theorem State.freeInput_deferred (i : InputId) : (s.freeInput i).deferred = s.deferred := rfl
@[simp] theorem State.freeInput_nextUid (i : InputId) : (s.freeInput i).nextUid = s.nextUid := rfl
@[simp] theorem State.freeInput_replies (i : InputId) : (s.freeInput i).replies = s.replies := rfl
@[simp] theorem State.freeInput_notices (i : InputId) : (s.freeInput i).notices = s.notices := rfl
@[simp] theorem State.freeInput_tx (i : InputId) : (s.freeInput i).tx = s.tx := rfl
@[simp] theorem State.freeInput_cutByte (i : InputId) : (s.freeInput i).cutByte = s.cutByte := rfl
@[simp] theorem State.freeInput_choice (i : InputId) : (s.freeInput i).choice = s.choice := rfl
@[simp] theorem State.freeInput_pending (i : InputId) : (s.freeInput i).pending = s.pending := rfl
@[simp] theorem State.freeInput_freeSince (i : InputId) : (s.freeInput i).freeSince = s.freeSince.set i s.nextEvent := rfl
@[simp] theorem State.freeInput_core (i : InputId) (j : CoreId) : (s.freeInput i).core j = s.core j := rfl
@[simp] theorem State.freeInput_channel (i : InputId) (j : ChannelId) : (s.freeInput i).channel j = s.channel j := rfl
@[simp] theorem State.freeInput_list (i : InputId) (j : ListId) : (s.freeInput i).list j = s.list j := rfl
@[simp] theorem State.freeInput_bank (i : InputId) (j : BankId) : (s.freeInput i).bank j = s.bank j := rfl
@[simp] theorem State.freeInput_runMark (i : InputId) (j : ListId) : (s.freeInput i).runMark j = s.runMark j := rfl
@[simp] theorem State.enterIdle_core (c d : CoreId) :
    (s.enterIdle c).core d = if c = d then { s.core c with state := .idle } else s.core d :=
  State.core_setCore s c d _
@[simp] theorem State.freeInput_input (i j : InputId) : (s.freeInput i).input j = if i = j then .free else s.input j :=
  State.input_setInput s i j _

end Sys2Proof.Machine
end

