-- ==== Sys2Proof/Laws/Ops.lean ====
section
/-! SUPPORT. For each shared operation of Machine/Ops.lean one lemma that says all it can do: the fields it may write, and what it
does in each of its cases. -/

namespace Sys2Proof.Machine

open Sys2Proof.Safety

variable (s : State)

/-! ### The ring of cores -/

/-- Whether an input can be served depends on the cores alone. -/
theorem unreachable_congr {s t : State} (h : t.cores = s.cores) (i : InputId) : t.unreachable i = s.unreachable i := by
  simp only [State.unreachable, State.core, h]

theorem serves_iff (c : CoreId) (i : InputId) : serves c i = true ↔ c = primaryCore i ∨ c = secondaryCore i := by
  simp [serves]

/-- No core can serve an input exactly when both its cores are in OFFLINE, CHECK_A or CHECK_B. -/
theorem unreachable_iff (i : InputId) : s.unreachable i = true ↔ BothOffline s i := by
  have key : ∀ c : CoreId, (s.core c).state.isOffline = true ↔
      (s.core c).state = .offline ∨ (s.core c).state = .checkA ∨ (s.core c).state = .checkB := by
    intro c
    cases (s.core c).state <;> simp [CoreState.isOffline]
  simp only [State.unreachable, BothOffline, Bool.and_eq_true, serves_iff, key]
  exact ⟨fun ⟨h1, h2⟩ c hc => by rcases hc with rfl | rfl <;> assumption, fun h => ⟨h _ (.inl rfl), h _ (.inr rfl)⟩⟩

/-! ### Part notices -/

theorem raiseIn_of_absent (e : PartEvent) (ns : List PartNotice) (h : ∀ n ∈ ns, n.event.key ≠ e.key) :
    raiseIn e ns = ns ++ [{ event := e, count := 1, late := none }] := by
  induction ns with
  | nil => rfl
  | cons n ns ih =>
    rw [raiseIn, if_neg (h n (List.mem_cons_self ..)), ih (fun m hm => h m (List.mem_cons_of_mem _ hm))]
    rfl

theorem raiseIn_of_present (e : PartEvent) (before after : List PartNotice) (n : PartNotice)
    (hb : ∀ x ∈ before, x.event.key ≠ e.key) (h : n.event.key = e.key) :
    raiseIn e (before ++ n :: after) =
      before ++ { event := e, count := saturate n.count, late := n.late.map saturate } :: after := by
  induction before with
  | nil => simp [raiseIn, h]
  | cons m ms ih =>
    rw [List.cons_append, raiseIn, if_neg (hb m (List.mem_cons_self ..)), ih (fun x hx => hb x (List.mem_cons_of_mem _ hx))]
    rfl

/-- A raised event is in the set afterwards. -/
theorem exists_mem_raiseIn (e : PartEvent) (ns : List PartNotice) : ∃ n ∈ raiseIn e ns, n.event = e := by
  induction ns with
  | nil => exact ⟨_, List.mem_cons_self .., rfl⟩
  | cons m ms ih =>
    unfold raiseIn
    split
    · exact ⟨_, List.mem_cons_self .., rfl⟩
    · obtain ⟨n, h1, h2⟩ := ih
      exact ⟨n, List.mem_cons_of_mem _ h1, h2⟩

/-- The keys of the set stay the same, or the new one joins at the tail. -/
theorem raiseIn_keys (e : PartEvent) (ns : List PartNotice) :
    (raiseIn e ns).map (fun n => n.event.key) =
      if e.key ∈ ns.map (fun n => n.event.key) then ns.map (fun n => n.event.key)
      else ns.map (fun n => n.event.key) ++ [e.key] := by
  induction ns with
  | nil => rfl
  | cons m ms ih =>
    unfold raiseIn
    by_cases h : m.event.key = e.key
    · simp [h]
    · rw [if_neg h, List.map_cons, ih]
      by_cases h2 : e.key ∈ ms.map (fun n => n.event.key)
      · simp only [List.map_cons, List.mem_cons, h2, or_true, if_true]
      · have h3 : e.key ∉ (m :: ms).map (fun n => n.event.key) := by
          rw [List.map_cons, List.mem_cons, not_or]; exact ⟨fun h4 => h h4.symm, h2⟩
        rw [if_neg h2, if_neg h3]; rfl

/-! ### Stages of window entries -/

@[simp] theorem setStage_steps (k : Nat) (st : Stage) (w : List Entry) :
    (setStage k st w).map Entry.step = w.map Entry.step := by
  simp only [setStage, List.map_map]
  exact List.map_congr_left (fun e _ => by simp only [Function.comp]; split <;> rfl)

@[simp] theorem setStage_length (k : Nat) (st : Stage) (w : List Entry) : (setStage k st w).length = w.length := by
  simp [setStage]

/-- An entry of another step is the same afterwards. -/
theorem mem_setStage_of_ne {k : Nat} {st : Stage} {w : List Entry} {e : Entry} (h : e.step ≠ k) :
    e ∈ setStage k st w ↔ e ∈ w := by
  simp only [setStage, List.mem_map]
  constructor
  · rintro ⟨x, hx, rfl⟩
    by_cases hk : x.step = k
    · simp [hk] at h
    · simpa [hk] using hx
  · intro he
    exact ⟨e, he, if_neg h⟩

/-- Of a list record nothing but the window changes, and of another list nothing. -/
theorem setOriginStage_list (o : Origin) (st : Stage) (l : ListId) :
    (s.setOriginStage o st).list l =
      match o with
      | .entry m k => if m = l then { s.list l with window := setStage k st (s.list l).window } else s.list l
      | .sample _ => s.list l := by
  cases o with
  | entry m k =>
    simp only [State.setOriginStage, State.list_setList]
    split
    · rename_i h; subst h; rfl
    · rfl
  | sample u => rfl

/-- Nothing but the list records is written. -/
theorem setOriginStage_frame (o : Origin) (st : Stage) : ∃ ls, s.setOriginStage o st = { s with lists := ls } := by
  cases o with
  | entry l k => exact ⟨_, rfl⟩
  | sample u => exact ⟨_, rfl⟩

/-! ### Results -/

theorem completeSample_of_absent {u : Nat} (r : Result) (h : s.findSample u = none) : s.completeSample u r = s := by
  simp [State.completeSample, h]

theorem completeSample_of_present {u : Nat} (r : Result) {d : Deferred} {ch : ChannelId} (h : s.findSample u = some (d, ch)) :
    s.completeSample u r = { s with
      replies := s.replies ++ [{ tag := d.tag, kind := kindSample, outcome := .ok, data := sampleData ch r }]
      deferred := s.deferred.filter (fun x => decide (x.uid ≠ u)) } := by
  simp [State.completeSample, h]

/-- A delivered result writes a window, or the reply queue and the deferred table. -/
theorem deliver_frame (o : Origin) (r : Result) :
    ∃ ls ds rs, s.deliver o r = { s with lists := ls, deferred := ds, replies := rs } := by
  cases o with
  | entry l k => exact ⟨_, _, _, rfl⟩
  | sample u =>
    simp only [State.deliver]
    cases h : s.findSample u with
    | none => exact ⟨_, _, _, completeSample_of_absent s r h⟩
    | some x => exact ⟨_, _, _, completeSample_of_present s r h⟩

/-- A delivered result leaves everything of a list but its window as it is. -/
theorem deliver_list (o : Origin) (r : Result) (l : ListId) :
    (s.deliver o r).list l =
      match o with
      | .entry m k => if m = l then { s.list l with window := setStage k (.ready r) (s.list l).window } else s.list l
      | .sample _ => s.list l := by
  cases o with
  | entry m k => exact setOriginStage_list s (.entry m k) (.ready r) l
  | sample u =>
    simp only [State.deliver]
    cases h : s.findSample u with
    | none => rw [completeSample_of_absent s r h]
    | some x => rw [completeSample_of_present s r h]; rfl

/-- Replies and deferred entries together do not grow when a result is delivered. -/
theorem deliver_room (o : Origin) (r : Result) :
    (s.deliver o r).replies.length + (s.deliver o r).deferred.length ≤ s.replies.length + s.deferred.length := by
  cases o with
  | entry m k => exact le_rfl
  | sample u =>
    simp only [State.deliver]
    cases h : s.findSample u with
    | none => rw [completeSample_of_absent s r h]
    | some y =>
      rw [completeSample_of_present s r h]
      obtain ⟨x, hx, h2⟩ := List.exists_of_findSome?_eq_some h
      have h3 : x.uid = u := by
        revert h2; cases x.subject with
        | sample c => simp only; split <;> simp_all
        | restore c => simp
      have : (s.deferred.filter (fun x => decide (x.uid ≠ u))).length < s.deferred.length := by
        rw [List.length_filter_lt_length_iff_exists]
        exact ⟨x, hx, by simp [h3]⟩
      simp only [List.length_append, List.length_singleton]
      omega

/-! ### Arrivals -/

/-- A request whose input can be served waits in the pool, youngest. -/
theorem arrive_of_reachable {s : State} {i : InputId} (h : s.unreachable i = false) (o : Origin) (ch : ChannelId)
    (p : Priority) :
    s.arrive o ch i p = { s with
      nextEvent := s.nextEvent + 1
      pool := s.pool ++ [{ origin := o, channel := ch, input := i, priority := p, age := s.nextEvent }] } := by
  have : s.newGrantEvent.unreachable i = false := h
  simp only [State.arrive, this, Bool.false_eq_true, if_false]
  rfl

/-- A request that no core can serve completes at once. -/
theorem arrive_of_unreachable {s : State} {i : InputId} (h : s.unreachable i = true) (o : Origin) (ch : ChannelId)
    (p : Priority) : s.arrive o ch i p = s.newGrantEvent.deliver o noCoreResult := by
  have : s.newGrantEvent.unreachable i = true := h
  simp only [State.arrive, this, if_true]

/-- An arrival writes the pool, its counters, a window, or the reply queue and the deferred table. -/
theorem arrive_frame (o : Origin) (ch : ChannelId) (i : InputId) (p : Priority) :
    ∃ po n ls ds rs, s.arrive o ch i p =
      { s with pool := po, nextEvent := n, lists := ls, deferred := ds, replies := rs } := by
  cases h : s.unreachable i with
  | false => exact ⟨_, _, _, _, _, arrive_of_reachable h o ch p⟩
  | true =>
    obtain ⟨ls, ds, rs, h2⟩ := deliver_frame s.newGrantEvent o noCoreResult
    exact ⟨_, _, _, _, _, (arrive_of_unreachable h o ch p).trans h2⟩

/-! ### Cores that go offline or leave HOLD -/

theorem deliver_fold_frame (rs : List Request) (t : State) :
    ∃ ls ds qs, rs.foldl (fun t r => t.deliver r.origin noCoreResult) t =
      { t with lists := ls, deferred := ds, replies := qs } := by
  induction rs generalizing t with
  | nil => exact ⟨_, _, _, rfl⟩
  | cons r rs ih =>
    obtain ⟨l1, d1, q1, h1⟩ := deliver_frame t r.origin noCoreResult
    obtain ⟨l2, d2, q2, h2⟩ := ih (t.deliver r.origin noCoreResult)
    exact ⟨l2, d2, q2, by rw [List.foldl_cons, h2, h1]⟩

/-- The sweep keeps in the pool what can still be served, and writes windows, the reply queue and the deferred table. -/
theorem noCoreSweep_frame (c : CoreId) :
    ∃ ls ds rs, s.noCoreSweep c =
      { s with pool := s.pool.filter (fun r => !s.lostRequest c r), lists := ls, deferred := ds, replies := rs } :=
  deliver_fold_frame _ _

/-- With no request lost the sweep changes nothing. -/
theorem noCoreSweep_of_none {s : State} {c : CoreId} (h : ∀ r ∈ s.pool, s.lostRequest c r = false) :
    s.noCoreSweep c = s := by
  have h1 : s.pool.filter (s.lostRequest c) = [] := by
    rw [List.filter_eq_nil_iff]; intro r hr; simp [h r hr]
  have h2 : s.pool.filter (fun r => !s.lostRequest c r) = s.pool := by
    rw [List.filter_eq_self]; intro r hr; simp [h r hr]
  simp only [State.noCoreSweep, h1, h2, List.foldl_nil]

/-- The core that enters OFFLINE writes its record, the notices, and what the sweep writes. -/
theorem enterOffline_frame (c : CoreId) (why : OfflineReason) :
    ∃ po ls ds rs, s.enterOffline c why =
      { s.setCore c { s.core c with state := .offline, offlinePending := false } with
        notices := raiseIn (.coreOffline c why) s.notices, pool := po, lists := ls, deferred := ds, replies := rs } := by
  obtain ⟨ls, ds, rs, h⟩ := noCoreSweep_frame
    ((s.setCore c { s.core c with state := .offline, offlinePending := false }).raise (.coreOffline c why)) c
  exact ⟨_, ls, ds, rs, h⟩

/-- A core takes its state after a conversion in one of three ways. -/
theorem settleCore_cases (c : CoreId) :
    ((s.core c).stalls = 3 ∧ s.settleCore c = s.enterOffline c .stalls) ∨
    ((s.core c).stalls ≠ 3 ∧ (s.core c).offlinePending = true ∧ s.settleCore c = s.enterOffline c .command) ∨
    ((s.core c).stalls ≠ 3 ∧ (s.core c).offlinePending = false ∧
      s.settleCore c = s.enterIdle c) := by
  unfold State.settleCore Config.stallLimit
  by_cases h1 : (s.core c).stalls = 3
  · exact .inl ⟨h1, if_pos h1⟩
  · cases h2 : (s.core c).offlinePending with
    | true => exact .inr (.inl ⟨h1, rfl, by simp [h1]⟩)
    | false => exact .inr (.inr ⟨h1, rfl, by simp [h1]⟩)

/-- A core leaves HOLD for IDLE, or for OFFLINE under the mark. -/
theorem leaveHold_cases (c : CoreId) :
    ((s.core c).offlinePending = true ∧ s.leaveHold c =
      ({ s.setCore c { s.core c with latch := none } with
        holdOrder := s.holdOrder.erase c } : State).enterOffline c .command) ∨
    ((s.core c).offlinePending = false ∧ s.leaveHold c =
      { s.setCore c { s.core c with latch := none, state := .idle } with
        holdOrder := s.holdOrder.erase c, idleSince := s.idleSince.set c s.nextEvent, nextEvent := s.nextEvent + 1 }) := by
  cases h : (s.core c).offlinePending <;>
    simp [State.leaveHold, State.enterIdle, State.newGrantEvent, State.setCore, State.core, Vector.get_eq_getElem] at h ⊢ <;>
    simp [h]

/-! ### Banks and session -/

/-- The bank found ACTIVE for a table id is one. -/
theorem activeBank_spec {t : TableId} {b : BankId} (h : s.activeBank t = some b) :
    (s.bank b).state = .active ∧ (s.bank b).table = some t := by
  have := List.find?_some h
  simpa using this

/-- The search for the ACTIVE bank finds the only one. -/
theorem activeBank_of_only {t : TableId} {b : BankId} (h : OnlyActive s t b) : s.activeBank t = some b := by
  cases h1 : s.activeBank t with
  | none =>
    have h2 := List.find?_eq_none.mp h1 b (List.mem_finRange b)
    have h3 := (h b).mpr rfl
    simp [h3.1, h3.2] at h2
  | some x => exact congrArg some ((h x).mp (activeBank_spec s h1))

theorem activeBank_of_none {t : TableId} (h : NoActive s t) : s.activeBank t = none := by
  cases h1 : s.activeBank t with
  | none => rfl
  | some x => exact absurd (activeBank_spec s h1) (h x)

end Sys2Proof.Machine
end

