-- ==== Sys2Proof/Laws/Arbiter.lean ====
section
/-! SUPPORT. The arbiter's choice said once: which grant event's pass is the first with a request to grant, and which request it
takes (R77, R80, R81). -/

namespace Sys2Proof.Machine

open Sys2Proof.Safety

variable {s : State} {n : Nat} {r : Request}

theorem eligible_iff : s.eligible r = true ↔ Eligible s r := by
  simp only [State.eligible, State.coreIdle, Bool.and_eq_true, Bool.or_eq_true, decide_eq_true_eq, Eligible, serves_iff,
    or_and_right, exists_or, exists_eq_left, and_assoc]

theorem eligibleAt_iff : s.eligibleAt n r = true ↔ EligibleAt s n r := by
  simp only [State.eligibleAt, State.idleBy, State.coreIdle, Bool.and_eq_true, Bool.or_eq_true, decide_eq_true_eq, EligibleAt,
    eligible_iff, serves_iff, or_and_right, exists_or, exists_eq_left, max_le_iff, and_assoc]

/-- The events of a request: for each of its IDLE cores the last of arrival, release of the input and freeing of the core. -/
theorem mem_eventsOf : n ∈ s.eventsOf r ↔ ∃ c : CoreId, serves c r.input = true ∧ (s.core c).state = .idle ∧
    n = max (max r.age (s.freeSince.get r.input)) (s.idleSince.get c) := by
  simp only [State.eventsOf, State.coreIdle, List.mem_map, List.mem_filter, List.mem_cons, List.not_mem_nil, or_false,
    decide_eq_true_eq, serves_iff, and_assoc, eq_comm (b := n)]

/-- The first pass is that of the first event that has an eligible request. -/
theorem firstPass_of_first (h : ∀ m, m < n → ∀ q ∈ s.pool, ¬ EligibleAt s m q) (hr : r ∈ s.pool) (he : EligibleAt s n r) :
    s.firstPass = some n := by
  have key : ∀ m q, q ∈ s.pool → s.eligible q = true → m ∈ s.eventsOf q → n ≤ m := by
    intro m q hq hs hm
    obtain ⟨c, h1, h2, rfl⟩ := mem_eventsOf.mp hm
    refine Nat.le_of_not_lt (fun hlt => h _ hlt q hq ⟨eligible_iff.mp hs, ?_, ?_, c, h1, h2, le_max_right _ _⟩)
    · exact le_trans (le_max_left _ _) (le_max_left _ _)
    · exact le_trans (le_max_right _ _) (le_max_left _ _)
  obtain ⟨h1, h2, h3, c, h4, h5, h6⟩ := he
  have hmem := mem_eventsOf.mpr ⟨c, h4, h5, rfl⟩
  have heq := key _ r hr (eligible_iff.mpr h1) hmem
  have hn : n = max (max r.age (s.freeSince.get r.input)) (s.idleSince.get c) :=
    le_antisymm heq (max_le (max_le h2 h3) h6)
  rw [State.firstPass, List.min?_eq_some_iff]
  simp only [List.mem_flatMap, List.mem_filter]
  refine ⟨⟨r, ⟨hr, eligible_iff.mpr h1⟩, hn ▸ hmem⟩, ?_⟩
  rintro m ⟨q, ⟨hq, hs⟩, hm⟩
  exact key m q hq hs hm

/-- With no eligible request there is no pass to make. -/
theorem firstPass_of_none (h : ∀ q ∈ s.pool, ¬ Eligible s q) : s.firstPass = none := by
  have : s.pool.filter s.eligible = [] := by
    rw [List.filter_eq_nil_iff]
    exact fun q hq hs => h q hq (eligible_iff.mp hs)
  rw [State.firstPass, this]
  rfl

/-- Of requests in order of arrival the one that stands first is found. -/
theorem firstByRank_of_first {rs : List Request} (ha : rs.Pairwise (fun x y => x.age < y.age)) (hr : r ∈ rs)
    (h : ∀ q ∈ rs, StandsFirst r q) : firstByRank rs = some r := by
  have sound : ∀ {qs : List Request} {q : Request}, firstByRank qs = some q → q ∈ qs := by
    intro qs
    induction qs with
    | nil => intro q hq; cases hq
    | cons x qs ih =>
      intro q hq
      simp only [firstByRank] at hq
      split at hq
      · cases hq; exact List.mem_cons_self
      · split at hq
        · cases hq; exact List.mem_cons_of_mem _ (ih ‹_›)
        · cases hq; exact List.mem_cons_self
  induction rs with
  | nil => cases hr
  | cons x rs ih =>
    rw [List.pairwise_cons] at ha
    rcases List.mem_cons.mp hr with rfl | hr
    · simp only [firstByRank]
      cases hq : firstByRank rs with
      | none => rfl
      | some q =>
        have h1 := h q (List.mem_cons_of_mem _ (sound hq))
        exact if_neg (by rcases h1 with h1 | h1 <;> omega)
    · rw [firstByRank, ih ha.2 hr (fun q hq => h q (List.mem_cons_of_mem _ hq))]
      have h1 := h x List.mem_cons_self
      have h2 := ha.1 r hr
      exact if_pos (by rcases h1 with h1 | h1 <;> omega)

/-- The grant that is made next: the first event's pass, and the request that stands first in it. -/
theorem nextGrant_of_first (h : ∀ m, m < n → ∀ q ∈ s.pool, ¬ EligibleAt s m q)
    (ha : s.pool.Pairwise (fun x y => x.age < y.age)) (hr : r ∈ s.pool) (he : EligibleAt s n r)
    (hf : ∀ q ∈ s.pool, EligibleAt s n q → StandsFirst r q) : s.nextGrant = some (n, r) := by
  rw [State.nextGrant, firstPass_of_first h hr he]
  dsimp only
  rw [firstByRank_of_first (ha.sublist List.filter_sublist)
    (List.mem_filter.mpr ⟨hr, eligibleAt_iff.mpr he⟩)
    (fun q hq => hf q (List.mem_filter.mp hq).1 (eligibleAt_iff.mp (List.mem_filter.mp hq).2))]
  rfl

theorem nextGrant_of_none (h : ∀ q ∈ s.pool, ¬ Eligible s q) : s.nextGrant = none := by
  rw [State.nextGrant, firstPass_of_none h]

end Sys2Proof.Machine
end

