-- ==== Sys2Proof/Laws/Choice.lean ====
section
/-! SUPPORT. The transmitter's choice said once: the machine's choice is the one that Safety.lean spells, it is made once, and it
writes the choice only (R170). -/

namespace Sys2Proof.Machine

open Sys2Proof.Safety

variable {s : State}

theorem mayChoose_iff : s.mayChoose = true ↔ FreeToChoose s := by
  simp only [State.mayChoose, State.resetDue, Reply.isReset, Bool.and_eq_true, Bool.not_eq_true', Bool.and_eq_false_iff,
    Option.isNone_iff_eq_none, decide_eq_false_iff_not, Bool.not_eq_false', List.any_eq_true, decide_eq_true_eq, and_assoc,
    FreeToChoose, imp_iff_not_or]
  rfl

/-- The choice that the machine makes is the one of R170. -/
theorem choose_eq (s : State) : s.choose = chosen s := by
  unfold State.choose chosen
  simp only [mayChoose_iff]
  rfl

/-- Nothing changes where the choice is made, may not be made, or finds nothing. -/
theorem choose_eq_self (h : FreeToChoose s → s.choice = none → firstAvailable s = none) : s.choose = s := by
  have h2 : (if FreeToChoose s ∧ s.choice = none then firstAvailable s else s.choice) = s.choice := by
    split
    · rename_i h3
      rw [h h3.1 h3.2, h3.2]
    · rfl
  rw [choose_eq, chosen, h2]

theorem choose_of_some {k : ItemKind} (h : s.choice = some k) : s.choose = s :=
  choose_eq_self (fun _ h2 => by rw [h] at h2; cases h2)

theorem choose_of_busy (h : ¬ FreeToChoose s) : s.choose = s := choose_eq_self (fun h2 => absurd h2 h)

/-- A choice made stands: choosing again changes nothing. -/
@[simp] theorem choose_choose (s : State) : s.choose.choose = s.choose :=
  choose_eq_self (fun h h2 => by
    have h3 : s.choose.choice = if FreeToChoose s ∧ s.choice = none then firstAvailable s else s.choice := by rw [choose_eq]; rfl
    rw [h3] at h2
    split at h2
    · exact h2
    · rename_i h4
      exact (h4 ⟨h, h2⟩).elim)

end Sys2Proof.Machine
end

