-- ==== Sys2Proof/Laws/Wire.lean ====
section
/-! SUPPORT. Bytes of payloads: a field reads back as it was written, in either byte order the link uses. -/

namespace Sys2Proof.Machine

@[simp] theorem byte_toNat (n : Nat) : (byte n).toNat = n % 256 := by simp [byte]

theorem byte_toNat_of_lt {n : Nat} (h : n < 256) : (byte n).toNat = n := by simp [byte]; omega

@[simp] theorem length_leBytes (n v : Nat) : (leBytes n v).length = n := by
  induction n generalizing v with
  | zero => rfl
  | succ n ih => simp [leBytes, ih]

/-- Bytes written least significant first spell the number again, modulo their range. -/
@[simp] theorem leValue_leBytes (n v : Nat) : leValue (leBytes n v) = v % 256 ^ n := by
  induction n generalizing v with
  | zero => simp [leBytes, leValue]; omega
  | succ n ih =>
    simp only [leBytes, leValue, ih, BitVec.toNat_ofNat]
    rw [show (256 : Nat) ^ (n + 1) = 256 * 256 ^ n by ring, Nat.mod_mul]

@[simp] theorem length_int32Bytes (v : Int) : (int32Bytes v).length = 4 := length_leBytes 4 _

/-- A signed 32-bit field reads back as it was written. -/
theorem signed32_leValue_int32Bytes {v : Int} (h1 : -2147483648 ≤ v) (h2 : v ≤ 2147483647) :
    signed32 (leValue (int32Bytes v)) = v := by
  simp only [int32Bytes, leValue_leBytes, signed32]
  split <;> omega

@[simp] theorem leValue_single (b : Byte) : leValue [b] = b.toNat := by simp [leValue]

@[simp] theorem byteAt_zero (b : Byte) (p : List Byte) : byteAt (b :: p) 0 = b.toNat := by
  simp [byteAt, fieldAt]

@[simp] theorem fieldAt_succ (b : Byte) (p : List Byte) (k n : Nat) : fieldAt (b :: p) (k + 1) n = fieldAt p k n := rfl

@[simp] theorem byteAt_succ (b : Byte) (p : List Byte) (k : Nat) : byteAt (b :: p) (k + 1) = byteAt p k := rfl

/-- A byte field is the byte at its place, 0 past the end. -/
theorem byteAt_eq_getD (p : List Byte) (k : Nat) : byteAt p k = (p.getD k 0).toNat := by
  induction p generalizing k with
  | nil => simp [byteAt, fieldAt, leValue]
  | cons b p ih => cases k with
    | zero => simp
    | succ k => rw [byteAt_succ, ih]; simp

/-- A field that stands at the front of what is left of the payload. -/
theorem fieldAt_append (a b c : List Byte) : fieldAt (a ++ b ++ c) a.length b.length = leValue b := by
  simp [fieldAt]

end Sys2Proof.Machine
end

