-- ==== Sys2Proof/Laws/CommandUnit.lean ====
section
/-! SUPPORT. What the command unit does with a frame, said once: a frame it takes is answered by the command's own part or by the
common check that fails, and one it does not take stays. -/

namespace Sys2Proof.Machine

open Sys2Proof.Safety

variable {s : State} {f : Frame} {rest : List Frame}

/-- The frame in the oldest slot is executed by the row it is of. -/
theorem runCommand_of_takes (h : Takes s f rest) {mine : Frame → Bool} (hm : mine f = true) (allowed : List Byte → Bool)
    (own : Frame → State → Answer) :
    s.runCommand mine allowed own = (s.giveAnswer f (commandAnswer allowed own f s)).emptySlot.choose := by
  obtain ⟨h1, h2, h3⟩ := h
  simp [State.runCommand, h1, State.canTake, h2, hm, Config.replyPlaces, h3]

/-- A row leaves the state as it is while no frame of its own can be taken. -/
theorem runCommand_idle {mine : Frame → Bool} (h : ∀ f rest, Takes s f rest → mine f = false)
    (allowed : List Byte → Bool) (own : Frame → State → Answer) : s.runCommand mine allowed own = s := by
  unfold State.runCommand
  split
  · rfl
  · rename_i f rest h1
    split
    · rename_i h2
      simp only [State.canTake, Config.replyPlaces, Bool.and_eq_true, decide_eq_true_eq] at h2
      have := h f rest ⟨h1, h2.1.1, of_decide_eq_true h2.1.2⟩
      simp [this] at h2
    · rfl

@[simp] theorem commandAnswer_of_checks {allowed : List Byte → Bool} {own : Frame → State → Answer} (h1 : f.kind ∈ commandKinds)
    (h2 : f.tag ≠ 0) (h3 : ∀ d ∈ s.deferred, d.tag ≠ f.tag) (h4 : allowed f.payload = true) :
    commandAnswer allowed own f s = own f s := by
  have h5 : s.tagHeld f.tag = false := by simpa [State.tagHeld] using h3
  simp only [commandAnswer, h4, h5, Bool.not_true, Bool.false_eq_true, if_false]
  rw [if_neg (not_not.mpr h1), if_neg h2]

/-- A frame that passes its common checks is answered by the command's own part. -/
theorem runCommand_of_addressed {k : Byte} (h : Addressed k s f rest) (hk : k ∈ commandKinds) {allowed : List Byte → Bool}
    (ha : allowed f.payload = true) (own : Frame → State → Answer) :
    s.runCommand (ofKind k) allowed own = (s.giveAnswer f (own f s)).emptySlot.choose := by
  obtain ⟨h1, h2, h3, h4⟩ := h
  rw [runCommand_of_takes h1 (by simp [ofKind, h2]), commandAnswer_of_checks (h2 ▸ hk) h3 h4 ha]

theorem emptySlot_refused (h : s.slots = f :: rest) (o : OutcomeCode) :
    (s.giveAnswer f (.refused o)).emptySlot.choose = answered s f rest o [] := by
  simp [State.giveAnswer, State.emptySlot, State.queueReply, answered, h, choose_eq]

theorem emptySlot_badField (h : s.slots = f :: rest) (n : Nat) :
    (s.giveAnswer f (.badField n)).emptySlot.choose = answered s f rest .badField [byte n] := by
  simp [State.giveAnswer, State.emptySlot, State.queueReply, answered, h, choose_eq]

theorem emptySlot_done {t : State} (h : t.slots = f :: rest) (o : OutcomeCode) (data : List Byte) :
    (s.giveAnswer f (.done o data t)).emptySlot.choose = answered t f rest o data := by
  simp [State.giveAnswer, State.emptySlot, State.queueReply, answered, h, choose_eq]

theorem emptySlot_deferred {t : State} (h : t.slots = f :: rest) :
    (s.giveAnswer f (.deferred t)).emptySlot.choose = chosen { t with slots := rest } := by
  simp [State.giveAnswer, State.emptySlot, h, choose_eq]

theorem Safety_Addressed_slots {k : Byte} (h : Addressed k s f rest) : s.slots = f :: rest := h.1.1

@[simp] theorem firstBad_cons_true (n : Nat) (cs : List (Nat × Bool)) : firstBad ((n, true) :: cs) = firstBad cs := rfl
@[simp] theorem firstBad_cons_false (n : Nat) (cs : List (Nat × Bool)) : firstBad ((n, false) :: cs) = some n := rfl
@[simp] theorem firstBad_nil : firstBad [] = none := rfl

end Sys2Proof.Machine
end

