-- ==== Sys2Proof/Laws/Layout.lean ====
section
/-! SUPPORT. The codes and layouts that Safety.lean spells from the catalogue are those the machine writes: each once, so that a
proof rewrites one into the other. -/

namespace Sys2Proof.Machine

open Sys2Proof.Safety

/-! ### Codes (R188) -/

theorem statusCode_eq (st : Status) : statusCode st = st.code := by cases st <;> rfl

theorem alarmCode_eq (a : AlarmState) : alarmCode a = a.code := by cases a <;> rfl

theorem coreCode_eq (st : CoreState) : coreCode st = st.code := by cases st <;> rfl

theorem listCode_eq (st : ListState) : listCode st = st.code := by cases st <;> rfl

theorem bankCode_eq (st : BankState) : bankCode st = st.code := by cases st <;> rfl

theorem stageCode_eq (st : Stage) : stageCode st = st.code := by cases st <;> rfl

theorem triggerCode_eq (t : Trigger) : triggerCode t = t.code := by cases t <;> rfl

theorem outcomeCode_eq (o : OutcomeCode) : outcomeCode o = o.code := by cases o <;> rfl

/-! ### Bytes of numbers -/

theorem twoBytes_eq (n : Nat) : twoBytes n = leBytes 2 n := rfl

theorem fourBytes_eq (v : Int) : fourBytes v = int32Bytes v := by
  simp [fourBytes, int32Bytes, leBytes, byte, Nat.div_div_eq_div_mul]

theorem fourBytes_natCast (n : Nat) : fourBytes n = leBytes 4 n := by
  have h : ((n : Int) % 4294967296).toNat = n % 4294967296 := by omega
  simp only [fourBytes, h, leBytes, byte, Nat.div_div_eq_div_mul, List.cons.injEq, and_true]
  refine ⟨?_, ?_, ?_, ?_⟩ <;> apply BitVec.eq_of_toNat_eq <;> simp only [BitVec.toNat_ofNat] <;> omega

theorem threeBytes_eq (n : Nat) : [byte n, byte (n / 256), byte (n / 65536)] = leBytes 3 n := by
  simp [leBytes, byte, Nat.div_div_eq_div_mul]

/-! ### Layouts (R187, R189, R190, 10.5) -/

theorem channelLayout_eq (ch : ChannelId) (c : ChannelConfig) : channelLayout ch c = channelBytes ch c := by
  simp only [channelLayout, channelBytes, twoBytes_eq]
  cases c.limits with
  | none => cases c.reference <;> cases c.excitation <;> cases c.table <;> cases c.includeRaw <;> rfl
  | some k =>
    dsimp only
    rw [show fourBytes (k.hysteresis : Int) = leBytes 4 k.hysteresis from fourBytes_natCast _]
    simp only [fourBytes_eq]
    cases c.reference <;> cases c.excitation <;> cases c.table <;> cases c.includeRaw <;> rfl

theorem listLayoutWith_eq (l : ListId) (c : ListConfig) (source : Byte) (period : Nat) :
    listLayoutWith l c source period = [byte l.val, c.trigger.code, source] ++ leBytes 2 period ++ leBytes 2 c.cycles ++
      [byte c.priority.val, byte c.concurrency, c.policy.code, byte c.steps.length] ++ c.steps.map (fun ch => byte ch.val) := by
  simp only [listLayoutWith, triggerCode_eq, twoBytes_eq]
  cases c.policy <;> rfl

theorem listLayout_eq (l : ListId) (c : ListConfig) : listLayout l c = listBytes l c := by
  unfold listLayout listBytes Trigger.sourceByte Trigger.periodField
  split <;> simp only [listLayoutWith_eq, *]

theorem segmentLayout_eq (g : Segment) : segmentLayout g = g.bytes := by
  simp only [segmentLayout, Segment.bytes, fourBytes_eq, ← threeBytes_eq, List.cons_append, List.nil_append]

theorem sampleLayout_eq (ch : ChannelId) (r : Result) : sampleLayout ch r = sampleData ch r := by
  simp only [sampleLayout, sampleData, statusCode_eq, fourBytes_eq, ← threeBytes_eq, Result.presence, flagBit]
  cases r.ratio <;> cases r.value <;> simp [byte]

/-! ### The frame check (R161) -/

/-- The register after bytes, bit by bit. -/
theorem crcBytes_eq (bs : List Byte) (crc : Num16) :
    crcBytes crc bs = (bs.flatMap (fun b => [b.getLsbD 7, b.getLsbD 6, b.getLsbD 5, b.getLsbD 4, b.getLsbD 3, b.getLsbD 2,
      b.getLsbD 1, b.getLsbD 0])).foldl checkStep crc := by
  have step : ∀ (c : Num16) (bit : Bool), crcBit c bit = checkStep c bit := by
    intro c bit
    unfold crcBit checkStep
    rw [BitVec.msb_eq_getLsbD_last]
    cases c.getLsbD 15 <;> cases bit <;> simp [Config.crcPolynomial]
  induction bs generalizing crc with
  | nil => rfl
  | cons b bs ih =>
    rw [List.flatMap_cons, List.foldl_append, ← ih, crcBytes, List.foldl_cons, crcBytes]
    simp only [crcByte, crcBits, step, List.foldl_cons, List.foldl_nil]

theorem checkOf_eq (bs : List Byte) : checkOf bs = crcBytes 0xFFFF#16 bs := (crcBytes_eq bs _).symm

end Sys2Proof.Machine
end

