-- ==== Sys2Proof/Laws/NoCore.lean ====
section
/-! SUPPORT. What the NO_CORE completions of several requests come to, said once: the state that Safety.lean spells out. -/

namespace Sys2Proof.Machine

open Sys2Proof.Safety

/-- Two requests are not of the same SAMPLE. -/
def ApartAsSamples (r q : Request) : Prop := ∀ u, r.origin = .sample u → q.origin ≠ .sample u

/-- Every SAMPLE among the requests is pending, and none is named twice. -/
def SamplesPending (s : State) (rs : List Request) : Prop :=
  rs.Pairwise ApartAsSamples ∧ ∀ r ∈ rs, ∀ u, r.origin = .sample u → (s.findSample u).isSome = true

/-- The reply of the pending SAMPLE that a request comes from. -/
def replyOf (ds : List Deferred) (r : Request) : Option Reply :=
  ds.findSome? (fun d => match d.subject with
    | .sample ch =>
      if r.origin = .sample d.uid then
        some { tag := d.tag, kind := 0x0B, outcome := .ok, data := [byte ch.val, 7, 0, 0, 0, 0, 0, 0, 0, 0] }
      else none
    | .restore _ => none)

theorem noCoreReplies_eq (s : State) (rs : List Request) : noCoreReplies s rs = rs.filterMap (replyOf s.deferred) := rfl

theorem replyOf_entry (ds : List Deferred) {r : Request} {l : ListId} {k : Nat} (h : r.origin = .entry l k) :
    replyOf ds r = none := by
  simp only [replyOf, h, List.findSome?_eq_none_iff]
  intro d _
  split <;> simp

/-- The removal of another SAMPLE's entry does not change the reply. -/
theorem replyOf_filter (ds : List Deferred) {r : Request} {u : Nat} (h : r.origin ≠ .sample u) :
    replyOf (ds.filter (fun d => decide (d.uid ≠ u))) r = replyOf ds r := by
  induction ds with
  | nil => rfl
  | cons d ds ih =>
    by_cases hd : d.uid = u
    · subst hd
      rw [List.filter_cons_of_neg (by simp), ih]
      simp only [replyOf, List.findSome?_cons]
      cases d.subject <;> simp [h]
    · rw [List.filter_cons_of_pos (by simp [hd])]
      simp only [replyOf] at ih ⊢
      simp only [List.findSome?_cons]
      rw [ih]

theorem replyOf_sample (s : State) {r : Request} {u : Nat} (h : r.origin = .sample u) :
    replyOf s.deferred r = (s.findSample u).map (fun x =>
      { tag := x.1.tag, kind := kindSample, outcome := .ok, data := sampleData x.2 noCoreResult }) := by
  unfold replyOf State.findSample
  induction s.deferred with
  | nil => rfl
  | cons d ds ih =>
    simp only [List.findSome?_cons]
    cases hs : d.subject with
    | restore c => simpa using ih
    | sample ch =>
      by_cases hu : d.uid = u
      · subst hu
        simp only [h, if_true, Option.map_some]
        rfl
      · have : ¬ r.origin = .sample d.uid := by rw [h]; simpa using fun h2 => hu h2.symm
        simp only [this, hu, if_false]
        exact ih

theorem findSample_completed (s : State) {u v : Nat} (r : Result) (h : v ≠ u) :
    (s.completeSample u r).findSample v = s.findSample v := by
  unfold State.completeSample
  split
  · rfl
  · unfold State.findSample
    dsimp only
    induction s.deferred with
    | nil => rfl
    | cons d ds ih =>
      by_cases hd : d.uid = u
      · rw [List.filter_cons_of_neg (by simp [hd]), ih, List.findSome?_cons]
        have h2 : ¬ d.uid = v := fun h3 => h (h3.symm.trans hd)
        cases d.subject <;> simp [h2]
      · rw [List.filter_cons_of_pos (by simp [hd]), List.findSome?_cons, List.findSome?_cons, ih]

/-- No request, no change. -/
theorem completedNoCore_nil (s : State) : completedNoCore s [] = s := by
  have h : Vector.ofFn (fun l => { s.list l with window := (s.list l).window.map (fun e => e) }) = s.lists := by
    ext i hi
    simp [State.list, Vector.get_eq_getElem]
  have he : ∀ l : ListId, completedEntry [] l = fun e => e := by
    intro l
    funext e
    simp [completedEntry]
  simp only [completedNoCore, he, noCoreReplies, List.filterMap_nil, List.append_nil, List.not_mem_nil, not_false_eq_true,
    decide_true, List.filter_true, false_imp_iff, implies_true, h]

/-- The first of several completions reaches a list entry. -/
theorem completedEntry_cons (s : State) {r : Request} {rs : List Request} {l : ListId} {k : Nat} (ho : r.origin = .entry l k)
    (m : ListId) :
    { (s.setList l { s.list l with window := setStage k (.ready noCoreResult) (s.list l).window }).list m with
      window := ((s.setList l { s.list l with window := setStage k (.ready noCoreResult) (s.list l).window }).list m).window.map
        (completedEntry rs m) } =
    { s.list m with window := (s.list m).window.map (completedEntry (r :: rs) m) } := by
  have he : ∀ e : Entry, completedEntry (r :: rs) m e =
      if l = m ∧ k = e.step then { e with stage := .ready noCore } else completedEntry rs m e := by
    intro e
    unfold completedEntry
    by_cases h : l = m ∧ k = e.step <;> simp [ho, h]
  by_cases hm : l = m
  · subst hm
    simp only [State.list_setList, if_true, setStage, List.map_map]
    congr 1
    refine List.map_congr_left (fun e _ => ?_)
    rw [he]
    by_cases hk : e.step = k
    · simp only [Function.comp, hk, if_true, true_and, completedEntry]
      split <;> rfl
    · have h2 : ¬ k = e.step := fun h => hk h.symm
      simp only [Function.comp, hk, h2, if_false, and_false]
  · simp only [State.list_setList, hm, if_false, false_and, funext he]

/-- The requests complete one after another. -/
theorem deliver_fold_completed (rs : List Request) (s : State) (h : SamplesPending s rs) :
    rs.foldl (fun t r => t.deliver r.origin noCoreResult) s = { completedNoCore s rs with pool := s.pool } := by
  induction rs generalizing s with
  | nil => rw [completedNoCore_nil]; rfl
  | cons r rs ih =>
    obtain ⟨h1, h2⟩ := h
    rw [List.pairwise_cons] at h1
    rw [List.foldl_cons]
    cases ho : r.origin with
    | entry l k =>
      rw [ih]
      · simp only [State.deliver, State.setOriginStage, completedNoCore, noCoreReplies_eq, List.filterMap_cons,
          replyOf_entry _ ho, State.setList, List.mem_cons, forall_eq_or_imp, ho, ne_eq, reduceCtorEq, not_false_eq_true,
          true_and]
        congr 1
        ext1 i hi
        simp only [Vector.getElem_ofFn]
        exact completedEntry_cons s ho _
      · exact ⟨h1.2, fun q hq u hu => h2 q (List.mem_cons_of_mem _ hq) u hu⟩
    | sample u =>
      rw [ih]
      · obtain ⟨x, hx⟩ := Option.isSome_iff_exists.mp (h2 r List.mem_cons_self u ho)
        have hrs : rs.filterMap (replyOf (s.deferred.filter (fun d => decide (d.uid ≠ u)))) =
            rs.filterMap (replyOf s.deferred) :=
          List.filterMap_congr (fun q hq => replyOf_filter _ (h1.1 q hq u ho))
        have he : ∀ m : ListId, completedEntry (r :: rs) m = completedEntry rs m := by
          intro m
          funext e
          simp [completedEntry, ho]
        have hd : s.deferred.filter (fun d => decide (∀ q ∈ r :: rs, q.origin ≠ .sample d.uid)) =
            (s.deferred.filter (fun d => decide (d.uid ≠ u))).filter (fun d => decide (∀ q ∈ rs, q.origin ≠ .sample d.uid)) := by
          rw [List.filter_filter]
          refine List.filter_congr (fun d _ => ?_)
          rw [← Bool.decide_and, decide_eq_decide]
          simp only [List.mem_cons, forall_eq_or_imp, ho, ne_eq, Origin.sample.injEq, eq_comm (a := u), and_comm]
        simp only [State.deliver, State.completeSample, hx, completedNoCore, noCoreReplies_eq, hrs, he, hd,
          List.filterMap_cons, replyOf_sample s ho, Option.map_some, List.append_assoc, List.singleton_append]
        rfl
      · refine ⟨h1.2, fun q hq v hv => ?_⟩
        have hne : v ≠ u := fun h3 => h1.1 q hq u ho (h3 ▸ hv)
        rw [State.deliver, findSample_completed _ _ hne]
        exact h2 q (List.mem_cons_of_mem _ hq) v hv

/-- The SAMPLEs of the pool are pending and each is there once. -/
theorem samplesPending_pool {s : State} (h : SamplesHaveWork s) : SamplesPending s s.pool := by
  obtain ⟨-, -, h3, -, -, h6⟩ := h
  refine ⟨?_, h6⟩
  rw [List.pairwise_iff_forall_sublist]
  intro r q hsub u hr hq
  have h1 : 2 ≤ (s.pool.map Request.origin).count (.sample u) := by
    have h2 := (hsub.map Request.origin).count_le (.sample u)
    simpa [hr, hq] using h2
  have h2 : (s.pool.map Request.origin).count (.sample u) ≤ ((liveWork s).map Prod.fst).count (.sample u) := by
    simp only [liveWork, List.map_append, List.count_append, List.map_map, Function.comp_def, Nat.add_assoc]
    exact Nat.le_add_right _ _
  have := h3 u
  omega

/-- SAMPLEs stay pending for fewer requests. -/
theorem SamplesPending_sublist {s : State} {rs qs : List Request} (h : SamplesPending s rs) (hq : qs.Sublist rs) :
    SamplesPending s qs :=
  ⟨h.1.sublist hq, fun r hr => h.2 r (hq.subset hr)⟩

/-- A core that has gone offline: the requests it leaves without a core complete, oldest first, and nothing else changes
(R83). -/
theorem noCoreSweep_eq {s : State} (c : CoreId) (h : SamplesPending s s.pool) :
    s.noCoreSweep c = completedNoCore s (lostWith s [c]) := by
  have hl : s.pool.filter (s.lostRequest c) = lostWith s [c] := by
    refine List.filter_congr (fun r _ => ?_)
    rw [State.lostRequest, Bool.eq_iff_iff]
    simp only [Bool.and_eq_true, unreachable_iff, decide_eq_true_eq, List.mem_singleton, exists_eq_left, and_comm]
  have hk : s.pool.filter (fun r => !s.lostRequest c r) = s.pool.filter (fun r => decide (r ∉ lostWith s [c])) := by
    refine List.filter_congr (fun r hr => ?_)
    simp only [← hl, List.mem_filter, hr, true_and, Bool.not_eq_true]
    cases s.lostRequest c r <;> rfl
  unfold State.noCoreSweep
  rw [hl, hk, deliver_fold_completed]
  · rfl
  · have := SamplesPending_sublist h (List.filter_sublist (p := s.lostRequest c))
    rw [hl] at this
    exact this

end Sys2Proof.Machine
end

