-- ==== Sys2Proof/Laws/Payload.lean ====
section
/-! SUPPORT. The fields of a payload as the machine reads them and as the statements name them agree. -/

namespace Sys2Proof.Machine

open Sys2Proof.Safety

theorem fieldAt_zero (p : List Byte) (k : Nat) : fieldAt p k 0 = 0 := by simp [fieldAt, leValue]

/-- A field is its lowest byte and the rest behind it. -/
theorem fieldAt_add_one (p : List Byte) (k n : Nat) : fieldAt p k (n + 1) = byteAt p k + 256 * fieldAt p (k + 1) n := by
  induction p generalizing k with
  | nil => simp [byteAt, fieldAt, leValue]
  | cons b p ih =>
    cases k with
    | zero => simp [fieldAt, leValue, byteAt]
    | succ k => rw [fieldAt_succ, ih]; rfl

theorem byteAt_eq_num (p : List Byte) (k : Nat) : byteAt p k = num p k := byteAt_eq_getD p k

theorem fieldAt_eq_num16 (p : List Byte) (k : Nat) : fieldAt p k 2 = num16 p k := by
  simp [fieldAt_add_one, fieldAt_zero, num16, num, byteAt_eq_getD]

theorem fieldAt_eq_num32 (p : List Byte) (k : Nat) : fieldAt p k 4 = num32 p k := by
  simp [fieldAt_add_one, fieldAt_zero, num32, num16, num, byteAt_eq_getD, Nat.add_assoc]
  omega

theorem signedAt_eq_int32 (p : List Byte) (k : Nat) : signedAt p k = int32 p k := by
  simp [signedAt, signed32, int32, fieldAt_eq_num32]

/-- Active use as the machine tests it (R36). -/
theorem activeUse_iff (s : State) (ch : ChannelId) : s.activeUse ch = true ↔ ActiveUse s ch := by
  simp only [State.activeUse, ActiveUse, Bool.or_eq_true, List.any_eq_true, List.mem_finRange, true_and, decide_eq_true_eq,
    Bool.and_eq_true]
  constructor
  · rintro (⟨l, h1, h2⟩ | h)
    · refine .inl ⟨l, ?_, ?_, by simpa using h2⟩ <;> intro h3 <;> simp [h3, ListState.isActive] at h1
    · exact .inr h
  · rintro (⟨l, h1, h2, h3⟩ | h)
    · refine .inl ⟨l, ?_, by simpa using h3⟩
      rcases h4 : (s.list l).state <;> simp_all [ListState.isActive]
    · exact .inr h

end Sys2Proof.Machine
end

