-- ==== Sys2Proof/Laws/Sequencer.lean ====
section
/-! SUPPORT. What the shared operations of the list sequencers may write: issue, cycle start and end, triggers, retirement and
the hand-out of places. -/

namespace Sys2Proof.Machine

open Sys2Proof.Safety

variable {s t : State}

/-- A list reads back as it was written. -/
theorem list_setList_same (s : State) (l : ListId) (r : ListRec) : (s.setList l r).list l = r := by simp

/-- A write of one list leaves every other as it is. -/
theorem list_setList_of_ne (s : State) {l m : ListId} (h : m ≠ l) (r : ListRec) : (s.setList l r).list m = s.list m := by
  rw [State.list_setList, if_neg (fun h2 => h h2.symm)]

/-- The second state differs from the first at most in what issuing steps writes: lists, the pool and the count of grant
events. -/
def State.IssuesTo (s t : State) : Prop :=
  ∃ ls po n, t = { s with lists := ls, pool := po, nextEvent := n }

theorem IssuesTo_refl (s : State) : s.IssuesTo s := ⟨_, _, _, rfl⟩

theorem IssuesTo_trans {u : State} (h : s.IssuesTo t) (h2 : t.IssuesTo u) : s.IssuesTo u := by
  obtain ⟨_, _, _, rfl⟩ := h
  obtain ⟨_, _, _, rfl⟩ := h2
  exact ⟨_, _, _, rfl⟩

theorem IssuesTo_setList (s : State) (l : ListId) (r : ListRec) : s.IssuesTo (s.setList l r) := ⟨_, _, _, rfl⟩

/-- A list's request that arrives stays in the pool or completes into its own window. -/
theorem arrive_entry_issuesTo (s : State) (l : ListId) (k : Nat) (ch : ChannelId) (i : InputId) (p : Priority) :
    s.IssuesTo (s.arrive (.entry l k) ch i p) := by
  cases h : s.unreachable i with
  | false => exact ⟨_, _, _, arrive_of_reachable h _ _ _⟩
  | true => exact ⟨_, _, _, arrive_of_unreachable h _ _ _⟩

theorem issueStep_issuesTo (s : State) (l : ListId) (cfg : ListConfig) (ch : ChannelId) : s.IssuesTo (s.issueStep l cfg ch) := by
  unfold State.issueStep
  split
  · exact IssuesTo_setList _ _ _
  · exact IssuesTo_trans (IssuesTo_setList _ _ _) (arrive_entry_issuesTo _ _ _ _ _ _)

theorem issue_issuesTo (n : Nat) (l : ListId) (s : State) : s.IssuesTo (s.issue n l) := by
  induction n generalizing s with
  | zero => exact IssuesTo_refl s
  | succ n ih =>
    simp only [State.issue]
    split
    · exact IssuesTo_refl s
    · split
      · split
        · exact IssuesTo_refl s
        · exact IssuesTo_trans (issueStep_issuesTo _ _ _ _) (ih _)
      · exact IssuesTo_refl s

/-- Issue writes lists, the pool and the count of grant events only (R60). -/
theorem issueSteps_issuesTo (s : State) (l : ListId) : s.IssuesTo (s.issueSteps l) := issue_issuesTo _ l s

/-- So does the start of a cycle (R53). -/
theorem startCycle_issuesTo (s : State) (l : ListId) : s.IssuesTo (s.startCycle l) :=
  IssuesTo_trans (IssuesTo_setList _ _ _) (issueSteps_issuesTo _ _)

/-- A trigger by the list's state (R54). -/
theorem trigger_cases (s : State) (l : ListId) :
    s.trigger l = match (s.list l).state with
      | .armed => s.startCycle l
      | .running => s.setList l (triggeredRunning (s.list l))
      | _ => s := by
  unfold State.trigger
  cases h : (s.list l).state <;> simp only
  unfold triggeredRunning
  cases h2 : (s.list l).startPending <;> simp [saturate, Config.saturation]

theorem trigger_issuesTo (s : State) (l : ListId) : s.IssuesTo (s.trigger l) := by
  rw [trigger_cases]
  split
  · exact startCycle_issuesTo s l
  · exact IssuesTo_setList _ _ _
  · exact IssuesTo_refl s

/-- The triggers of the chained lists write what issue writes (R57). -/
theorem triggerChained_issuesTo (s : State) (l : ListId) : s.IssuesTo (s.triggerChained l) := by
  have key : ∀ (ms : List ListId) (t : State),
      t.IssuesTo (ms.foldl (fun t m => if (t.list m).chainedTo l then t.trigger m else t) t) := by
    intro ms
    induction ms with
    | nil => exact fun t => IssuesTo_refl t
    | cons m ms ih =>
      intro t
      refine IssuesTo_trans ?_ (ih _)
      dsimp only
      split
      · exact trigger_issuesTo t m
      · exact IssuesTo_refl t
  exact key _ s

/-! ### Only the list itself -/

theorem arrive_entry_other (s : State) {l m : ListId} (h : m ≠ l) (k : Nat) (ch : ChannelId) (i : InputId) (p : Priority) :
    (s.arrive (.entry l k) ch i p).list m = s.list m := by
  cases hu : s.unreachable i with
  | false => rw [arrive_of_reachable hu]; rfl
  | true =>
    rw [arrive_of_unreachable hu]
    exact list_setList_of_ne _ h _

theorem issueStep_other (s : State) {l m : ListId} (h : m ≠ l) (cfg : ListConfig) (ch : ChannelId) :
    (s.issueStep l cfg ch).list m = s.list m := by
  unfold State.issueStep
  split
  · exact list_setList_of_ne _ h _
  · exact (arrive_entry_other _ h _ _ _ _).trans (list_setList_of_ne _ h _)

theorem issue_other (n : Nat) {l m : ListId} (h : m ≠ l) (s : State) : (s.issue n l).list m = s.list m := by
  induction n generalizing s with
  | zero => rfl
  | succ n ih =>
    simp only [State.issue]
    split
    · rfl
    · split
      · split
        · rfl
        · rw [ih, issueStep_other _ h]
      · rfl

/-- A list that issues leaves every other list as it is. -/
theorem issueSteps_other (s : State) {l m : ListId} (h : m ≠ l) : (s.issueSteps l).list m = s.list m := issue_other _ h s

theorem startCycle_other (s : State) {l m : ListId} (h : m ≠ l) : (s.startCycle l).list m = s.list m :=
  (issueSteps_other _ h).trans (list_setList_of_ne _ h _)

theorem trigger_other (s : State) {l m : ListId} (h : m ≠ l) : (s.trigger l).list m = s.list m := by
  rw [trigger_cases]
  split
  · exact startCycle_other s h
  · exact list_setList_of_ne _ h _
  · rfl

/-! ### The fields of an issuing list that stay -/

theorem arrive_entry_self (s : State) (l : ListId) (k : Nat) (ch : ChannelId) (i : InputId) (p : Priority) :
    ∃ w, (s.arrive (.entry l k) ch i p).list l = { s.list l with window := w } := by
  cases h : s.unreachable i with
  | false => exact ⟨_, by rw [arrive_of_reachable h]; rfl⟩
  | true => exact ⟨_, by rw [arrive_of_unreachable h]; exact list_setList_same _ _ _⟩

/-- Issue writes cursor and window of its list and nothing else of it (R60). -/
theorem issueSteps_self (s : State) (l : ListId) :
    ∃ k w, (s.issueSteps l).list l = { s.list l with cursor := k, window := w } := by
  have step : ∀ (s : State) cfg ch, ∃ k w, (s.issueStep l cfg ch).list l = { s.list l with cursor := k, window := w } := by
    intro s cfg ch
    simp only [State.issueStep]
    split
    · exact ⟨_, _, list_setList_same _ _ _⟩
    · obtain ⟨w, h⟩ := arrive_entry_self (s.setList l { s.list l with
        window := (s.list l).window ++ [{
          step := (s.list l).cursor, channel := ch, cycle := (s.list l).cycle, stage := .waiting }]
        cursor := (s.list l).cursor + 1 }) l (s.list l).cursor ch ‹ChannelConfig›.input (.level cfg.priority)
      rw [list_setList_same] at h
      exact ⟨_, _, h⟩
  have all : ∀ (n : Nat) (s : State), ∃ k w, (s.issue n l).list l = { s.list l with cursor := k, window := w } := by
    intro n
    induction n with
    | zero => exact fun s => ⟨_, _, rfl⟩
    | succ n ih =>
      intro s
      simp only [State.issue]
      split
      · exact ⟨_, _, rfl⟩
      · split
        · split
          · exact ⟨_, _, rfl⟩
          · rename_i ch _
            obtain ⟨k, w, h⟩ := ih (s.issueStep l ‹_› ch)
            obtain ⟨k2, w2, h2⟩ := step s ‹_› ch
            exact ⟨k, w, by rw [h, h2]⟩
        · exact ⟨_, _, rfl⟩
  exact all _ s

/-! ### Cycle end, retirement and the hand-out of places -/

/-- The second state differs from the first at most in what issuing writes and in the part notices. -/
def State.AdvancesTo (s t : State) : Prop :=
  ∃ ls po n ns, t = { s with lists := ls, pool := po, nextEvent := n, notices := ns }

theorem AdvancesTo_of_issuesTo (h : s.IssuesTo t) : s.AdvancesTo t := by
  obtain ⟨_, _, _, rfl⟩ := h
  exact ⟨_, _, _, _, rfl⟩

theorem AdvancesTo_trans {u : State} (h : s.AdvancesTo t) (h2 : t.AdvancesTo u) : s.AdvancesTo u := by
  obtain ⟨_, _, _, _, rfl⟩ := h
  obtain ⟨_, _, _, _, rfl⟩ := h2
  exact ⟨_, _, _, _, rfl⟩

theorem AdvancesTo_setList (s : State) (l : ListId) (r : ListRec) : s.AdvancesTo (s.setList l r) := ⟨_, _, _, _, rfl⟩

theorem finishList_advancesTo (s : State) (l : ListId) (why : FinishReason) : s.AdvancesTo (s.finishList l why) :=
  ⟨_, _, _, _, rfl⟩

/-- The end of a cycle writes lists, the pool with its counters, and the part notices (R58). -/
theorem endCycle_advancesTo (s : State) (l : ListId) : s.AdvancesTo (s.endCycle l) := by
  refine AdvancesTo_trans (t := s.countCycle l) (AdvancesTo_setList _ _ _) ?_
  simp only [State.endCycle]
  split
  · exact finishList_advancesTo _ _ _
  · split
    · exact AdvancesTo_of_issuesTo (startCycle_issuesTo _ _)
    · split
      · exact AdvancesTo_trans (AdvancesTo_setList _ _ _) (AdvancesTo_of_issuesTo (startCycle_issuesTo _ _))
      · exact AdvancesTo_setList _ _ _

theorem endDrain_advancesTo (s : State) (l : ListId) : s.AdvancesTo (s.endDrain l) := by
  unfold State.endDrain
  split
  · exact finishList_advancesTo _ _ _
  · exact AdvancesTo_of_issuesTo (IssuesTo_refl s)

/-- What follows a retired entry writes the same (R63, step 7). -/
theorem afterRetire_advancesTo (s : State) (l : ListId) (last : Bool) : s.AdvancesTo (s.afterRetire l last) := by
  unfold State.afterRetire
  split
  · split
    · exact AdvancesTo_trans (endCycle_advancesTo s l) (AdvancesTo_of_issuesTo (triggerChained_issuesTo _ l))
    · exact AdvancesTo_of_issuesTo (issueSteps_issuesTo s l)
  · split
    · exact AdvancesTo_trans (AdvancesTo_trans (AdvancesTo_setList s l _) (endDrain_advancesTo _ l))
        (AdvancesTo_of_issuesTo (triggerChained_issuesTo _ l))
    · exact endDrain_advancesTo s l
  · exact AdvancesTo_of_issuesTo (IssuesTo_refl s)

/-- The second state differs from the first at most in what a retirement writes: besides what `AdvancesTo` names, channels,
alarm notices, records and run-start marks. -/
def State.RetiresTo (s t : State) : Prop :=
  ∃ ls po n ns cs as rs ms, t =
    { s with
      lists := ls, pool := po, nextEvent := n, notices := ns, channels := cs, alarms := as, reports := rs,
      runStart := ms }

theorem RetiresTo_of_advancesTo (h : s.AdvancesTo t) : s.RetiresTo t := by
  obtain ⟨_, _, _, _, rfl⟩ := h
  exact ⟨_, _, _, _, _, _, _, _, rfl⟩

theorem RetiresTo_trans {u : State} (h : s.RetiresTo t) (h2 : t.RetiresTo u) : s.RetiresTo u := by
  obtain ⟨_, _, _, _, _, _, _, _, rfl⟩ := h
  obtain ⟨_, _, _, _, _, _, _, _, rfl⟩ := h2
  exact ⟨_, _, _, _, _, _, _, _, rfl⟩

/-- The monitor writes its channel and the alarm notices (R121). -/
theorem monitor_retiresTo (s : State) (l : ListId) (e : Entry) (r : Result) : s.RetiresTo (s.monitor l e r) := by
  simp only [State.monitor]
  split
  · exact ⟨_, _, _, _, _, _, _, _, rfl⟩
  · split <;> exact ⟨_, _, _, _, _, _, _, _, rfl⟩

/-- A retirement leaves cores, inputs, banks, session, evaluation queue, engine, blocked order, deferred table, replies and the
link as they are (R63). -/
theorem retireHead_retiresTo (s : State) (l : ListId) (admitted : Bool) : s.RetiresTo (s.retireHead l admitted) := by
  simp only [State.retireHead]
  split
  · exact ⟨_, _, _, _, _, _, _, _, rfl⟩
  · rename_i e rest res _
    refine RetiresTo_trans (monitor_retiresTo s l e res)
      (RetiresTo_trans ?_ (RetiresTo_of_advancesTo (afterRetire_advancesTo _ _ _)))
    split <;> exact ⟨_, _, _, _, _, _, _, _, rfl⟩

end Sys2Proof.Machine
end

