-- ==== Sys2Proof/WellFormed.lean ====
section
/-! DEFINITION. Which commands are well formed: operands that the spec says the event can bring. Core, input and list numbers
are in range by their types. -/

namespace Sys2Proof

/-- A count of a measurement phase is at most 16,000,000 ticks, the longest phase limit (R1). -/
def countInRange (ticks : Nat) : Bool := decide (ticks ≤ 1000 * Config.ticksPerMs)

/-- The periods of a measurement are 2^g for a gate exponent g of 4 to 12 (R31). -/
def periodsInRange (periods : Nat) : Bool := (List.range' 4 9).any (fun g => decide (periods = 2 ^ g))

/-- The periods of a half are N/2 for a gate exponent of 5 to 12, as ALTERNATING needs (R8, R31). -/
def halfInRange (periods : Nat) : Bool := (List.range' 5 8).any (fun g => decide (periods = 2 ^ g / 2))

/-- LEN is 2 to 242 (R160, R187). -/
def lenInRange (len : Byte) : Bool := decide (2 ≤ len.toNat) && decide (len.toNat ≤ 242)

/-- The bytes of one whole frame after its start byte: LEN, LEN body bytes and two check bytes (R187). -/
def wholeFrame : List Byte → Bool
  | [] => false
  | len :: rest => lenInRange len && decide (rest.length = len.toNat + 2)

/-- The operands of the command are ones its event can bring. -/
def Instr.wellFormed : Instr → Bool
  | .frameReceived bytes => wholeFrame bytes
  | .lengthOutOfRange len => !lenInRange len
  | .refPhaseComplete _ count => periodsInRange count.periods && countInRange count.ticks
  | .sensePhaseComplete _ count => periodsInRange count.periods && countInRange count.ticks
  | .sensePosComplete _ count => halfInRange count.periods && countInRange count.ticks
  | .senseNegComplete _ count => halfInRange count.periods && countInRange count.ticks
  | .checkPeriodsComplete _ count =>
    decide (count.periods = Config.checkPeriods) && decide (count.ticks ≤ Config.checkLimitTicks)
  | _ => true

end Sys2Proof
end

