-- ==== Sys2Proof/Tests/Slice0.lean ====
section
/-! SUPPORT. The tests of this row: ill-formed commands that WellFormed refuses, worked examples of the manual as single steps or
functions, and for each obligation with hypotheses a concrete state and operands that meet them (test_meets_<its name>). -/

namespace Sys2Proof.Tests

open Sys2Proof.Machine Sys2Proof.Safety

-- One test after another: the tests evaluate in the kernel, and side by side they take more threads than memory allows.
set_option Elab.async false

/-! ### WellFormed refuses -/

/-- LEN 1 is below 2 (R160). -/
theorem test_wf_refuses_short_len : (Instr.frameReceived [1, 0x01, 0, 0]).wellFormed = false := by decide
/-- LEN 3 with two body bytes. -/
theorem test_wf_refuses_cut_frame : (Instr.frameReceived [3, 0x01, 5, 0, 0]).wellFormed = false := by decide
theorem test_wf_refuses_no_bytes : (Instr.frameReceived []).wellFormed = false := by decide
/-- 242 is in range, so it is no LEN out of range (R160). -/
theorem test_wf_refuses_len_in_range : (Instr.lengthOutOfRange 242).wellFormed = false := by decide
theorem test_wf_refuses_ref_count : (Instr.refPhaseComplete 0 ⟨256, 16000001⟩).wellFormed = false := by decide
theorem test_wf_refuses_sense_count : (Instr.sensePhaseComplete 0 ⟨256, 16000001⟩).wellFormed = false := by decide
theorem test_wf_refuses_forward_count : (Instr.sensePosComplete 0 ⟨128, 16000001⟩).wellFormed = false := by decide
theorem test_wf_refuses_reverse_count : (Instr.senseNegComplete 0 ⟨128, 16000001⟩).wellFormed = false := by decide
/-- The limit of a check is 50 ms (R17). -/
theorem test_wf_refuses_check_count : (Instr.checkPeriodsComplete 0 ⟨256, 800001⟩).wellFormed = false := by decide
/-- A check counts 256 periods (R17). -/
theorem test_wf_refuses_check_periods : (Instr.checkPeriodsComplete 0 ⟨255, 800000⟩).wellFormed = false := by decide
/-- N is a power of two from 16 to 4096, and N/2 one from 16 to 2048 (R8, R31). -/
theorem test_wf_refuses_periods : (Instr.refPhaseComplete 0 ⟨8, 100⟩).wellFormed = false ∧
    (Instr.sensePhaseComplete 0 ⟨8192, 100⟩).wellFormed = false ∧ (Instr.sensePosComplete 0 ⟨8, 100⟩).wellFormed = false ∧
    (Instr.senseNegComplete 0 ⟨4096, 100⟩).wellFormed = false := by decide

/-- The table gives its rows no bits, so no word spells a command. -/
theorem test_no_word_spells_a_command : decodeTableWord 8 1 = none := rfl

/-! ### Small states -/

/-- The part after its start-up checks: every core IDLE, the command unit TAKING. -/
def ready : State :=
  { State.reset with cores := Vector.replicate 4 { Core.afterReset with state := .idle }, cmdUnit := .taking }

/-- A command frame with tag 7. -/
def frame (kind : Byte) (payload : List Byte) : Frame := { kind := kind, tag := 7, payload := payload }

/-- The frame stands in the oldest slot. -/
def holding (kind : Byte) (payload : List Byte) (s : State) : State := { s with slots := [frame kind payload] }

/-- The state after a row. -/
def after (i : Instr) (s : State) : State :=
  match exec i s with
  | .next t => t
  | _ => s

/-- A command executed from its slot. -/
def run (i : Instr) (kind : Byte) (payload : List Byte) (s : State) : State := after i (holding kind payload s)

/-- The last reply: tag, outcome, data. -/
def answer (s : State) : Option (OutcomeCode × List Byte) := s.replies.getLast?.map (fun r => (r.outcome, r.data))

/-- C3 of the manual's examples: S5, REFA, DC, g = 8, settle 2.0 ms, phase limit 200 ms, rest 100 ms (1.3, 2.2). -/
def c3 : ChannelConfig :=
  { input := 5, reference := .refA, excitation := .dc, gate := 8, settle := 20, phaseLimit := 200, rest := 10,
    table := some 2, shift := 2, includeRaw := true, limits := none }

/-- C3 with limits. -/
def c3Limits : ChannelConfig := { c3 with limits := some { low := -500, high := 3000, hysteresis := 100 } }

/-- C3 is DEFINED. -/
def withC3 : State := ready.setChannel 3 { config := some c3, smoothed := none, alarm := .inactive }

/-- L0 of the manual's conversation: ON_COMMAND, steps C3 and C3, cycles 0, priority 1, concurrency 2, DISCARD (10). -/
def l0 : ListConfig :=
  { trigger := .onCommand, cycles := 0, priority := 1, concurrency := 2, policy := .discard, steps := [3, 3] }

/-- L0 defined with a configuration, in a state, with a window and a cursor. -/
def withList (c : ListConfig) (st : ListState) (cursor : Nat) (w : List Entry) : State :=
  withC3.setList 0 { ListRec.emptyList with config := some c, state := st, cycle := 1, cursor := cursor, window := w }

/-- An entry of L0 in cycle 1. -/
def entry (step : Nat) (st : Stage) : Entry := { step := step, channel := 3, cycle := 1, stage := st }

/-- The value 2200 with the ratio 30000h (5). -/
def good : Result := { status := .ok, ratio := some 0x30000, value := some 2200 }

/-- L0 in RUNNING with a READY head behind which step 1 waits. -/
def running : State := withList l0 .running 2 [entry 0 (.ready good), entry 1 .waiting]

/-- The parameters of a conversion of C3 for step 0 of L0. -/
def p3 : Params :=
  { origin := .entry 0 0, channel := 3, input := 5, reference := .refA, excitation := .dc, gate := 8, settle := 20,
    phaseLimit := 200, rest := 10 }

/-- CORE1 converts C3 for step 0 of L0, in the state given. -/
def converting (st : CoreState) (p : Params) (m : Measurement) : State :=
  ((withList l0 .running 2 [entry 0 .converting, entry 1 .waiting]).setInput 5 (.claimed 1)).setCore 1
    { Core.afterReset with state := st, stalls := 2, claimed := some 5, params := some p, meas := m }

/-- CORE1 in HOLD with the ratio of step 0 of L0. -/
def inHold : State :=
  { (withList l0 .running 2 [entry 0 .converting, entry 1 .waiting]).setCore 1
      { Core.afterReset with state := .hold, latch := some { origin := .entry 0 0, channel := 3, ratio := 0x30000 } } with
    holdOrder := [1] }

/-- Segments 0 and 1 of table T2 (5, "evaluating a thermistor table"). -/
def seg0 : Segment := { xHi := 0x10000, degree := 1, c0 := 8000, c1 := -3000, c2 := 0, c3 := 0 }
def seg1 : Segment := { xHi := 0x40000, degree := 2, c0 := 5000, c1 := -2000, c2 := 300, c3 := 0 }
def seg2 : Segment := { xHi := 0xA0000, degree := 3, c0 := 1700, c1 := -400, c2 := -150, c3 := 20 }

/-- B0 is ACTIVE for T2. -/
def withT2 (s : State) : State :=
  s.setBank 0 { state := .active, table := some 2, places := [some seg0, some seg1, some seg2], held := false }

/-- A session for T2 is open on B0 with two places, the first of them filled. -/
def loading (received : List Nat) (places : List (Option Segment)) : State :=
  { ready.setBank 0 { state := .staging, table := some 2, places := places, held := false } with
    session := some { table := 2, bank := 0, count := 2, received := received, expiry := 80000000 } }

/-- An evaluation of step 0 of L0 in T2's bank. -/
def evaluation : Evaluation :=
  { origin := .entry 0 0, channel := 3, ratio := 0x30000, table := some 2, bank := some 0, void := false,
    progress := { segment := some 1, acc := 300, saturated := false } }

/-- A request for step 1 of L0. -/
def request : Request := { origin := .entry 0 1, channel := 3, input := 5, priority := .level 1, age := 0 }

/-! ### The manual's numbers -/

/-- The check of the bytes 31h to 39h: the known check value of this polynomial, initial value and bit order (R161). -/
theorem test_frame_check : crcBytes 0xFFFF [0x31, 0x32, 0x33, 0x34, 0x35, 0x36, 0x37, 0x38, 0x39] = 0x29B1 := by decide +kernel

/-- 409,600 and 1,228,800 ticks give ratio 30000h (1.3). -/
theorem test_ratio_of_the_dc_example : computedRatio 409600 1228800 = 0x30000 := by decide

/-- Halves of 100,000 and 230,000 ticks are ASYMMETRIC with ratio 20000h; 200,000 is not, and gives 119,156 (1.3). -/
theorem test_asymmetric_example :
    decideOutcome (some (100000, 230000)) (computedRatio 165000 330000) = .fault .asymmetric (some 0x20000) ∧
      decideOutcome (some (100000, 200000)) (computedRatio 165000 300000) = .valid 119156 := by decide

/-- The evaluation examples: 24000h gives 2968, 46000h gives 1529 (5). -/
theorem test_horner_examples : horner 81920 300 false [-2000, 5000] = (2968, false) ∧
    horner 24576 20 false [-150, -400, 1700] = (1529, false) := by decide

/-- Saturation inside the scheme (5). -/
theorem test_horner_saturates : horner 98304 2147483647 false [2147483647, -2147483647] = (1073741823, true) := by decide

/-- The segment of a ratio at its upper bound, and of one above every bound (5). -/
theorem test_segment_search : findSegment [seg0, seg1, seg2] 0xA0000 = some 2 ∧
    findSegment [seg0, seg1, seg2] 0xA0001 = none ∧ findSegment [seg0, seg1, seg2] 0x24000 = some 1 := by decide

/-- Smoothing with k = 2: 2257 and 2100 give 2217, 2225 and 2300 give 2243 (7). -/
theorem test_smoothing_floors : smooth 2 (some 2257) 2100 = some 2217 ∧ smooth 2 (some 2225) 2300 = some 2243 := by decide

/-- A record with value, smoothed value, raw ratio and run start has 20 bytes and flags 1Eh (10). -/
theorem test_record_bytes :
    let r : Record := { list := 0, step := 0, channel := 3, status := .ok, endOfCycle := false, runStart := true, seq := 0,
                        cycle := 1, value := some 2200, smoothed := some 2200, raw := some 0x30000, skipped := none }
    r.bytes.length = 20 ∧ r.bytes.take 13 = [0, 0, 3, 0, 0x1E, 0, 0, 1, 0, 0x98, 0x08, 0, 0] := by decide

/-- 5Ah on the line, and a byte whose stop bit is sampled low (R158, R163). -/
theorem test_byte_on_the_line :
    byteLevels 0x5A = [false, false, true, false, true, true, false, true, false, true] ∧
      byteOfLevels (List.replicate 10 false) = none := by decide

/-- The serving cores of S5 are CORE1 and CORE0 (R25). -/
theorem test_serving_cores : primaryCore 5 = 1 ∧ secondaryCore 5 = 0 ∧ secondaryCore 0 = 3 := by decide

/-! ### The manual's conversation (10) -/

/-- SET_CHANNEL of C3 with limits absent. -/
theorem test_set_channel :
    ((run .setChannel 0x08 [3, 5, 0, 0, 8, 20, 200, 0, 10, 2, 2, 1, 0, 0, 0, 0, 0, 0, 0, 0, 0, 0, 0, 0, 0] ready).channel
      3).config = some c3 := by decide +kernel

/-- SET_LIST of L0, its period of 0 not checked. -/
theorem test_set_list :
    ((run .setList 0x10 [0, 2, 0, 0, 0, 0, 0, 1, 2, 0, 2, 3, 3] withC3).list 0).config = some l0 := by decide +kernel

/-- SET_LIST whose count calls for one byte more is refused with BAD_LENGTH. -/
theorem test_set_list_length :
    answer (run .setList 0x10 [0, 2, 0, 0, 0, 0, 0, 1, 2, 0, 2, 3] withC3) = some (.badLength, []) := by decide +kernel

/-- GRANT_CREDITS of 8 answers 8. -/
theorem test_grant_credits : answer (run .grantCredits 0x04 [8] ready) = some (.ok, [8]) := by decide +kernel

/-- TRIGGER_LIST of the ARMED list starts cycle 1 with both steps issued. -/
theorem test_trigger_list : let t := run .triggerList 0x15 [0] (withList l0 .armed 0 [])
    (t.list 0).state = .running ∧ t.pool.map Request.origin = [.entry 0 0, .entry 0 1] := by decide +kernel

/-! ### One step each -/

/-- The grant of step 1 of L0: S5 is claimed by its primary core. -/
theorem test_grant : let t := after .grant { running with pool := [request] }
    t.input 5 = .claimed 1 ∧ (t.core 1).state = .select ∧ t.pool = [] := by decide +kernel

/-- The reference phase completes with period 256, for g = 8: 409,600 ticks are kept and the stall count is 0 (1.3). -/
theorem test_ref_complete : let t := after (.refPhaseComplete 1 ⟨256, 409600⟩) (converting .ref p3 {})
    (t.core 1).state = .sense ∧ (t.core 1).stalls = 0 ∧ (t.core 1).meas.tRef = some 409600 := by decide +kernel

/-- Period 255 does not end the phase (R1, R31). -/
theorem test_ref_goes_on : ((after (.refPhaseComplete 1 ⟨255, 408000⟩) (converting .ref p3 {})).core 1).state = .ref := by
  decide +kernel

/-- The third stall takes the core offline at the end of DISCHARGE (R14). -/
theorem test_third_stall :
    let t := after (.dischargeEnd 1) (after (.refPhaseTimeout 1) (converting .ref p3 {}))
    (t.core 1).state = .offline ∧ t.notices.map PartNotice.event = [.coreOffline 1 .stalls] := by decide +kernel

/-- DISCHARGE ends: S5 rests for 100 ms and the ratio joins the queue (1.3). -/
theorem test_discharge_end :
    let t := after (.dischargeEnd 1) (converting .discharge p3 { outcome := some (.valid 0x30000) })
    t.input 5 = .resting (3200 + 1600000) ∧ t.evalQueue.map RatioEntry.ratio = [0x30000] ∧
      (t.list 0).window.map Entry.stage = [.evaluating, .waiting] := by decide +kernel

/-- CORE0 is OFFLINE, so that S5 has CORE1 only. -/
def coreZeroOffline (s : State) : State := s.setCore 0 { Core.afterReset with state := .offline }

/-- CORE1 ends a conversion whose input does not rest, and a request for S6 waits; CORE0 is OFFLINE. -/
def oneCore : State :=
  { (coreZeroOffline (converting .discharge { p3 with rest := 0 } {})) with
    pool := [{ request with input := 6 }], nextEvent := 1 }

/-- CORE1 becomes IDLE before a SAMPLE arrives: it goes to the request that waited. The other way round the SAMPLE, which is
URGENT, gets it (R81). -/
theorem test_events_have_their_own_pass :
    ((after .grant (run .sample 0x0B [3] (after (.dischargeEnd 1) oneCore))).pool.map Request.priority = [.urgent]) ∧
      (after .grant (after (.dischargeEnd 1) (run .sample 0x0B [3] oneCore))).pool.map Request.priority = [.level 1] := by
  decide +kernel

/-- The evaluation of ratio 30000h in T2 gives 2200 (5). -/
theorem test_evaluation :
    let s := withT2 { running with evalQueue := [{ origin := .entry 0 1, channel := 3, ratio := 0x30000 }] }
    ((after .evaluationComplete (after .evaluationStart s)).list 0).window.map Entry.stage = [.ready good, .ready good] := by
  decide +kernel

/-- A retirement appends a record with the sequence number and consumes it (R63). -/
theorem test_retire : let t := after (.retire 0) running
    t.reports.map Record.seq = [0] ∧ (t.list 0).seq = 1 ∧ (t.list 0).window = [entry 1 .waiting] := by decide +kernel

/-- With the last step of an endless ON_COMMAND list its cycle ends in ARMED (R58). -/
theorem test_cycle_ends :
    let s := withList l0 .running 2 [entry 1 (.ready good)]
    ((after (.retire 0) (s.setList 0 { s.list 0 with remaining := .endless })).list 0).state = .armed := by decide +kernel

/-- An abort with one conversion running leaves one piece of outstanding work (R69). -/
theorem test_abort : let t := run .stopListAbort 0x14 [0, 1] (converting .sense p3 {})
    (t.list 0).state = .aborting ∧ (t.list 0).outstanding = 1 ∧ (t.core 1).state = .discharge := by decide +kernel

/-- A commit puts the staged bank in service and closes the session (R114). -/
theorem test_commit : let t := run .commitTable 0x1A [2] (loading [0, 1] [some seg0, some seg1])
    (t.bank 0).state = .active ∧ t.session = none ∧ answer t = some (.ok, [0]) := by decide +kernel

/-- Bounds that do not rise are refused (R113). -/
theorem test_commit_order :
    answer (run .commitTable 0x1A [2] (loading [0, 1] [some seg1, some seg0])) = some (.tableOrder, []) := by decide +kernel

/-- IDENTIFY's own frame, byte by byte, reaches a slot. -/
theorem test_frame_reaches_a_slot :
    (after (.frameReceived ((frameBytes 0x01 7 []).drop 1)) (after .startByte ready)).slots = [frame 0x01 []] := by
  decide +kernel

/-- A low period is one link reset (R167). -/
theorem test_link_reset_once : let t := after .linkReset (after .linkReset ready)
    t.notices.map PartNotice.count = [1] ∧ t.lineLow = true := by decide +kernel

/-- A link reset lets the byte being sent end. The LINK_RESET notice is chosen when the line returns high, so that a reply queued
after it waits, and its frame follows the byte (R168, R170; the byte at the position is the one being sent: assumption 3). -/
theorem test_cut_byte_ends :
    let sending : State := { ready with tx := some { kind := .reply, bytes := [0x5A, 5], position := 1 } }
    let next := after .transmitFrameBegin (run .identify 0x01 [] (after .lineReturnsHigh (after .linkReset sending)))
    ((List.range 10).map next.transmitLevel = byteLevels 5 ∧ next.replies ≠ []) ∧
      next.tx.map TxFrame.kind = some .notice ∧ (List.range 10).map next.idle.transmitLevel = byteLevels 0x5A := by decide +kernel

/-- An IDLE transmitter takes the notice that is there first, and a reply queued after it waits (R170). -/
theorem test_first_item_begins :
    let s := run .identify 0x01 [] (after .framingError ready)
    s.replies ≠ [] ∧ (after .transmitFrameBegin s).tx.map TxFrame.kind = some .notice ∧
      (after .noticeFrameSent (after .transmitFrameBegin s)).choice = some .reply := by decide +kernel

/-- Excitation and oscillator current of the sensor at S5 from SELECT to SENSE_NEG (R5 to R8; none in REF: assumption 28), and
the reference REFB in REF. -/
theorem test_excitation :
    [CoreState.select, .ref, .sensePos, .senseNeg].map
        (fun st => ((converting st p3 {}).excitationAt 5, (converting st p3 {}).oscillatesAt 5)) =
      [(some .forward, false), (none, false), (some .forward, true), (some .reverse, true)] ∧
    ((converting .ref { p3 with reference := .refB } {}).core 1).capacitor = .throughReference .refB := by decide +kernel

/-- The start-up check of the last core raises READY (R18). -/
theorem test_ready :
    let s := { ready with cmdUnit := .starting }.setCore 3 { Core.afterReset with state := .checkB, checkPassed := some true }
    (after (.checkDischargeEnd 3) s).cmdUnit = .taking ∧
      (after (.checkDischargeEnd 3) s).notices.map PartNotice.event = [.ready] := by decide +kernel

/-! ### States and operands that meet the hypotheses of the obligations

Each theorem is named after its obligation and takes the obligation's clauses in their order. -/

/-- The frame passes the checks of its tag in the state that holds it. -/
def meets (kind : Byte) (s : State) : Bool :=
  match s.slots with
  | [] => false
  | f :: rest => decide (Addressed kind s f rest)

theorem test_meets_StepRunsTheFrontCommand : exec .grant ready = .next ready ∧ ready.pending = [] := ⟨rfl, rfl⟩

/-- A reply of an executed RESET_PART. -/
def resetReply : Reply := { tag := 7, kind := 0x03, outcome := .ok, data := [] }

theorem test_meets_ResetsReturnEveryBlock :
    meets 0x03 (holding 0x03 [] ready) ∧
      (let s := { ready with cmdUnit := .stopped }
       s.cmdUnit = .stopped ∧ ∀ r ∈ s.replies, ¬ (r.kind = 0x03#8 ∧ r.outcome = .ok)) ∧
      ready.cmdUnit ≠ .stopped ∧
      ∃ r ∈ ({ ready with cmdUnit := .stopped, replies := [resetReply] } : State).replies, r.kind = 0x03#8 ∧ r.outcome = .ok := by
  decide +kernel

/-- Each common check in its order, and a subject number one above its limit for each kind of subject. -/
theorem test_meets_CommonChecksRefuse :
    let refusal (s : State) (f : Frame) := commonRefusal { s with slots := [f] } f
    let waiting := { ready with deferred := [{ uid := 0, tag := 7, subject := .restore 0 }] }
    Takes { ready with slots := [frame 0x77 []] } (frame 0x77 []) [] ∧
      rowOf (frame 0x77 []) = .unknownCommand ∧
      refusal ready { kind := 0x02, tag := 0, payload := [] } = some .badTag ∧
      refusal waiting (frame 0x02 []) = some .tagInUse ∧ refusal ready (frame 0x02 [0]) = some .badLength ∧
      (refusal ready (frame 0x09 [32]) = none ∧ subjectLimit 0x09 = some 31 ∧ 31 < num [32] 0) ∧
      (refusal ready (frame 0x11 [8]) = none ∧ subjectLimit 0x11 = some 7 ∧ 7 < num [8] 0) ∧
      (refusal ready (frame 0x1E [4]) = none ∧ subjectLimit 0x1E = some 3 ∧ 3 < num [4] 0) := by decide +kernel

/-- An IDENTIFY frame waits while another row is taken. -/
theorem test_meets_CommandsWaitInTheirSlots : Instr.getStatus ∈ hostRows ∧
    ∀ f rest, Takes (holding 0x01 [] ready) f rest → rowOf f ≠ .getStatus := by
  refine ⟨by decide, ?_⟩
  rintro f rest ⟨h, -, -⟩
  cases h
  decide

theorem test_meets_IdentifyReportsThePart : meets 0x01 (holding 0x01 [] ready) := by decide +kernel
theorem test_meets_StatusReportsThePart : meets 0x02 (holding 0x02 [] ready) := by decide +kernel
theorem test_meets_CreditsAreGranted :
    meets 0x04 (holding 0x04 [0] ready) ∧ meets 0x04 (holding 0x04 [255] ready) := by decide +kernel

theorem validC3 : ValidChannel c3 := by
  refine ⟨by decide, by decide, by decide, by decide, by decide, by decide, fun k h => nomatch h⟩

theorem validC3Limits : ValidChannel c3Limits := by
  refine ⟨by decide, by decide, by decide, by decide, by decide, by decide, fun k h => ?_⟩
  cases h
  decide

/-- L0 names C3: in RUNNING it is in active use. -/
theorem test_meets_SetChannelStoresWhatItsPayloadSpells :
    meets 0x08 (holding 0x08 (channelLayout 3 c3Limits) ready) ∧ ChannelPayload 3 c3Limits (channelLayout 3 c3Limits) ∧
      ValidChannel c3Limits ∧ ¬ ActiveUse (holding 0x08 (channelLayout 3 c3Limits) ready) 3 :=
  ⟨by decide +kernel, ⟨by decide, rfl, fun _ => rfl⟩, validC3Limits, by decide +kernel⟩

theorem test_meets_SetChannelRefuses :
    meets 0x08 (holding 0x08 (channelLayout 3 { c3 with gate := 13 }) ready) ∧
      (channelLayout 3 { c3 with gate := 13 }).length = 25 ∧
      channelFault (channelLayout 3 { c3 with gate := 13 }) = some 5 ∧
      (meets 0x08 (holding 0x08 (channelLayout 3 c3) running) ∧ ChannelPayload 3 c3 (channelLayout 3 c3) ∧ ValidChannel c3 ∧
        ActiveUse (holding 0x08 (channelLayout 3 c3) running) 3) ∧
      (channelLayout 31 c3).length = 25 ∧ channelFault (channelLayout 31 c3) = none :=
  ⟨by decide +kernel, by decide, by decide, ⟨by decide +kernel, ⟨by decide, rfl, fun _ => rfl⟩, validC3, by decide +kernel⟩,
    by decide, by decide⟩

theorem test_meets_ChannelsAreReadAndCleared :
    (meets 0x09 (holding 0x09 [byte 31] ready) ∧ (ready.channel 31).config = none) ∧
      (meets 0x09 (holding 0x09 [byte 3] withC3) ∧ (withC3.channel 3).config = some c3) ∧
      (meets 0x0A (holding 0x0A [byte 3] running) ∧ 0 < running.useCount 3) ∧
      meets 0x0A (holding 0x0A [byte 3] withC3) ∧ withC3.useCount 3 = 0 := by decide +kernel

/-- Four SAMPLEs wait. -/
def fourWaiting : State :=
  { withC3 with
    deferred := [{ uid := 0, tag := 1, subject := .sample 3 }, { uid := 1, tag := 2, subject := .sample 3 },
                 { uid := 2, tag := 3, subject := .sample 3 }, { uid := 3, tag := 4, subject := .sample 3 }]
    nextUid := 4 }

/-- Every core OFFLINE. -/
def allOffline : State := { withC3 with cores := Vector.replicate 4 { Core.afterReset with state := .offline } }

theorem test_meets_SampleAsksForOneConversion :
    (meets 0x0B (holding 0x0B [byte 0] withC3) ∧ (withC3.channel 0).config = none) ∧
      (meets 0x0B (holding 0x0B [byte 3] fourWaiting) ∧ 4 ≤ fourWaiting.deferred.length) ∧
      (meets 0x0B (holding 0x0B [byte 3] withC3) ∧ withC3.deferred.length < 4 ∧ ¬ BothOffline withC3 c3.input) ∧
      meets 0x0B (holding 0x0B [byte 3] allOffline) ∧ (allOffline.channel 3).config = some c3 ∧
      BothOffline allOffline c3.input ∧ ∀ d ∈ allOffline.deferred, d.uid ≠ allOffline.nextUid := by decide +kernel

/-- A list CHAINED to L1. -/
def chained : ListConfig := { l0 with trigger := .chained 1 }

/-- L1 is defined, CHAINED to L0. -/
def withL1 : State :=
  withC3.setList 1 { ListRec.emptyList with config := some { l0 with trigger := .chained 0 }, state := .idle }

theorem l0_not_chained {m : ListId} (h : l0.trigger = .chained m) : False := nomatch (show Trigger.onCommand = _ from h)
theorem l0_not_periodic {p : Nat} (h : l0.trigger = .periodic p) : False := nomatch (show Trigger.onCommand = _ from h)
theorem chained_source {m : ListId} (h : chained.trigger = .chained m) : m = 1 := by
  injection (show Trigger.chained 1 = .chained m from h) with h
  exact h.symm
theorem chained_not_periodic {p : Nat} (h : chained.trigger = .periodic p) : False :=
  nomatch (show Trigger.chained 1 = _ from h)

theorem validL0 : ValidList l0 := ⟨by decide, by decide, by decide, fun _ h => (l0_not_periodic h).elim⟩
theorem validChained : ValidList chained := ⟨by decide, by decide, by decide, fun _ h => (chained_not_periodic h).elim⟩
theorem payloadL0 : ListPayload 0 l0 (listLayout 0 l0) :=
  ⟨0, 0, fun _ h => (l0_not_chained h).elim, fun _ h => (l0_not_periodic h).elim, rfl⟩
theorem payloadChained : ListPayload 0 chained (listLayout 0 chained) :=
  ⟨1, 0, fun _ h => by rw [chained_source h]; rfl, fun _ h => (chained_not_periodic h).elim, rfl⟩

/-- From an EMPTY list no other list is reached. -/
theorem not_reaches_of_empty {s : State} {a b : ListId} (h : (s.list a).config = none) (hab : a ≠ b) : ¬ Reaches s b a := by
  intro hr
  cases hr with
  | here => exact hab rfl
  | next _ c hc _ => simp [ListRec.chainedTo, h] at hc

/-- ON_COMMAND, and CHAINED to the defined list L1, which is CHAINED to the EMPTY list L2. -/
theorem test_meets_SetListStoresWhatItsPayloadSpells :
    (meets 0x10 (holding 0x10 (listLayout 0 l0) withC3) ∧ ListPayload 0 l0 (listLayout 0 l0) ∧ ValidList l0 ∧
      (withC3.list 0).state = .empty ∧ (∀ ch ∈ l0.steps, (withC3.channel ch).config.isSome = true) ∧
      (∀ m, l0.trigger = .chained m → ¬ Reaches withC3 0 m ∧ (withC3.list m).state ≠ .empty) ∧
      withC3.stepPlacesInUse - (withC3.list 0).steps.length + l0.steps.length ≤ 96) ∧
    (let s := withC3.setList 1 { ListRec.emptyList with config := some l0, state := .idle }
     ListPayload 0 chained (listLayout 0 chained) ∧ ValidList chained ∧ ¬ Reaches s 0 1 ∧ (s.list 1).state ≠ .empty) := by
  refine ⟨⟨by decide +kernel, payloadL0, validL0, by decide +kernel, by decide +kernel,
    fun _ h => (l0_not_chained h).elim, by decide +kernel⟩, payloadChained, validChained, ?_, by decide +kernel⟩
  intro hr
  have key : ∀ c : ListId,
      ((withC3.setList 1 { ListRec.emptyList with config := some l0, state := .idle }).list 1).chainedTo c = false := by
    decide +kernel
  cases hr with
  | next _ c hc _ =>
    rw [key c] at hc
    cases hc

/-- 95 step places in use by three lists, and L3 with two steps is one too many. -/
def poolFull : State :=
  let r (n : Nat) : ListRec := { ListRec.emptyList with config := some { l0 with steps := List.replicate n 3 }, state := .idle }
  ((withC3.setList 1 (r 32)).setList 2 (r 32)).setList 3 (r 31)

theorem test_meets_SetListRefuses :
    (let p := listLayout 0 { l0 with concurrency := 5 }
     meets 0x10 (holding 0x10 p withC3) ∧ lengthFits (frame 0x10 p) = true ∧ listFault p = some 7) ∧
    (ListPayload 0 l0 (listLayout 0 l0) ∧ ValidList l0 ∧ ListPayload 0 chained (listLayout 0 chained) ∧ ValidList chained) ∧
    (meets 0x10 (holding 0x10 (listLayout 0 l0) running) ∧ (running.list 0).state = .running) ∧
    (meets 0x10 (holding 0x10 (listLayout 0 l0) ready) ∧ (ready.list 0).state = .empty ∧
      ∃ ch ∈ l0.steps, (ready.channel ch).config = none) ∧
    (meets 0x10 (holding 0x10 (listLayout 0 chained) withL1) ∧ Reaches withL1 0 1) ∧
    (meets 0x10 (holding 0x10 (listLayout 0 chained) withC3) ∧ ¬ Reaches withC3 0 1 ∧ (withC3.list 1).state = .empty) ∧
    (meets 0x10 (holding 0x10 (listLayout 0 l0) poolFull) ∧
      (∀ m, l0.trigger = .chained m → ¬ Reaches poolFull 0 m ∧ (poolFull.list m).state ≠ .empty) ∧
      96 < poolFull.stepPlacesInUse - (poolFull.list 0).steps.length + l0.steps.length) := by
  refine ⟨by decide +kernel, ⟨payloadL0, validL0, payloadChained, validChained⟩, by decide +kernel, by decide +kernel,
    ⟨by decide +kernel, .next 1 0 (by decide +kernel) .here⟩,
    ⟨by decide +kernel, not_reaches_of_empty (by decide +kernel) (by decide), by decide +kernel⟩,
    by decide +kernel, fun _ h => (l0_not_chained h).elim, by decide +kernel⟩

theorem test_meets_ListsAreReadAndCleared :
    (meets 0x11 (holding 0x11 [byte 7] withC3) ∧ (withC3.list 7).config = none) ∧
      (meets 0x11 (holding 0x11 [byte 0] running) ∧ (running.list 0).config = some l0) ∧
      meets 0x12 (holding 0x12 [byte 0] running) ∧ meets 0x12 (holding 0x12 [byte 1] withL1) := by decide +kernel

/-- START_LIST of each trigger. -/
theorem test_meets_StartListStartsByTrigger :
    (meets 0x13 (holding 0x13 [byte 7] withC3) ∧ (withC3.list 7).config = none) ∧
      (meets 0x13 (holding 0x13 [byte 0] running) ∧ (running.list 0).state ≠ .idle) ∧
      (let s := withList l0 .idle 0 []
       meets 0x13 (holding 0x13 [byte 0] s) ∧ (s.list 0).state = .idle ∧ l0.trigger = .onCommand) ∧
      (let s := withList { l0 with trigger := .continuous } .idle 0 []
       meets 0x13 (holding 0x13 [byte 0] s) ∧ (s.list 0).state = .idle) ∧
      (let s := withList { l0 with trigger := .periodic 60000 } .idle 0 []
       meets 0x13 (holding 0x13 [byte 0] s) ∧ (s.list 0).state = .idle) := by decide +kernel

theorem test_meets_CycleStartIssuesTheFirstSteps :
    MayStart (withList l0 .armed 0 []) 0 l0 ∧
      (let s := withList l0 .running 1 [entry 0 .waiting]
       (s.list 0).state = .running ∧ (s.list 0).window.length + 1 = l0.concurrency ∧
         l0.steps[(s.list 0).cursor]? = some 3 ∧ (s.channel 3).config = some c3 ∧
         ∀ e ∈ (s.list 0).window, e.step ≠ (s.list 0).cursor) ∧
      l0.concurrency ≤ (running.list 0).window.length := by decide +kernel

/-- The last of two remaining cycles, one of endless cycles with a start pending, and one without. -/
theorem test_meets_CycleEndGoesOn :
    (running.list 0).config = some l0 ∧ oneFewer (.count 1) = .count 0 ∧ oneFewer .endless ≠ .count 0 ∧
      oneFewer (.count 2) ≠ .count 0 ∧ l0.trigger ≠ .continuous ∧ (running.list 0).startPending = false := by decide +kernel

theorem test_meets_StopListActsByState :
    (meets 0x14 (holding 0x14 [byte 0, 2] running) ∧ 1 < (2 : Byte).toNat) ∧ meets 0x14 (holding 0x14 [byte 0, 0] running) ∧
      (meets 0x14 (holding 0x14 [byte 7, 1] running) ∧ (running.list 7).state = .empty) ∧
      (let s := withList l0 .aborting 2 []
       meets 0x14 (holding 0x14 [byte 0, 1] s) ∧ (s.list 0).state = .aborting) ∧
      (let s := withList l0 .armed 0 []
       meets 0x14 (holding 0x14 [byte 0, 1] s) ∧ (s.list 0).state = .armed) := by decide +kernel

/-- The request of a pending SAMPLE of C3. -/
def sampleRequest : Request := { origin := .sample 0, channel := 3, input := 5, priority := .urgent, age := 0 }

/-- A SAMPLE of C3 with tag 9 waits. -/
def sampleWaits (s : State) : State :=
  { s with pool := [sampleRequest], nextEvent := 1, deferred := [{ uid := 0, tag := 9, subject := .sample 3 }], nextUid := 1 }

/-- The engine works for step 1 of L0, and CORE1 waits in HOLD, offline-pending, with the ratio of step 0. -/
def abortTakesCore : State :=
  { (coreZeroOffline (sampleWaits (withList l0 .running 2 [entry 0 .converting, entry 1 .evaluating]))).setCore 1
      { Core.afterReset with
        state := .hold, latch := some { origin := .entry 0 0, channel := 3, ratio := 0x30000 }, offlinePending := true } with
    holdOrder := [1]
    engine := some { evaluation with origin := .entry 0 1 } }

/-- A state in which one SAMPLE waits and nothing else has its origin. -/
theorem samplesHaveWork_of_one {s : State} (h1 : s.deferred = [{ uid := 0, tag := 9, subject := .sample 3 }])
    (h2 : s.nextUid = 1) (h3 : s.pool = [sampleRequest])
    (h4 : ((liveWork s).map Prod.fst).filter Origin.isSample = [.sample 0]) : SamplesHaveWork s := by
  have key : ∀ u, ((liveWork s).map Prod.fst).count (.sample u) = ([.sample 0] : List Origin).count (.sample u) := by
    intro u
    rw [← h4, List.count_filter rfl]
  have mem : ∀ u, .sample u ∈ (liveWork s).map Prod.fst ↔ u = 0 := by
    intro u
    rw [← List.count_pos_iff, key, List.count_pos_iff]
    simp
  refine ⟨by simp [h1], by simp [h1, h2], fun u => ?_, fun u hu => ?_, fun d hd ch _ => ?_, fun r hr u hu => ?_⟩
  · rw [key]
    exact List.count_le_length
  · rw [(mem u).mp hu, h2]
    decide
  · rw [h1, List.mem_singleton] at hd
    rw [hd, mem]
  · rw [h3, List.mem_singleton] at hr
    rw [hr] at hu
    cases hu
    simp [State.findSample, h1]

/-- With one conversion running, no latch discarded and work left behind; with an offline-pending core whose latch is
discarded, which leaves the SAMPLE of S5 without a core, and with a void evaluation. -/
theorem test_meets_AbortDealsWithEveryEntry :
    (let s := holding 0x14 [byte 0, 1] (converting .sense p3 {})
     meets 0x14 s ∧ (s.list 0).state = .running ∧ HoldSound s ∧ s.abortCount 0 = 1 ∧
       ∀ c, (s.core c).latchesFor 0 = true → (s.core c).offlinePending = false) ∧
    (let s := holding 0x14 [byte 0, 1] abortTakesCore
     meets 0x14 s ∧ (s.list 0).state = .running ∧ HoldSound s ∧ s.abortCount 0 = 1 ∧
       lostInTurn (aborted s 0 1) (pendingAmong s (fun k => k.latchesFor 0)) = [sampleRequest]) ∧
    SamplesHaveWork (holding 0x14 [byte 0, 1] abortTakesCore) := by
  exact ⟨by decide +kernel, by decide +kernel,
    samplesHaveWork_of_one (by rfl) (by rfl) (by rfl) (by decide +kernel)⟩

/-- The abort that takes CORE1 offline answers the SAMPLE of S5 with NO_CORE before its own reply (R83, R86). -/
theorem test_abort_no_core : (run .stopListAbort 0x14 [0, 1] abortTakesCore).replies =
    [{ tag := 9, kind := 0x0B, outcome := .ok, data := [3, 7, 0, 0, 0, 0, 0, 0, 0, 0] },
     { tag := 7, kind := 0x14, outcome := .ok, data := [] }] := by decide +kernel

theorem test_meets_TriggersActByState :
    (meets 0x15 (holding 0x15 [byte 7] withC3) ∧ (withC3.list 7).config = none) ∧
      (meets 0x15 (holding 0x15 [byte 0] running) ∧ (running.list 0).config = some l0) ∧
      (let s := withC3.setList 0 { ListRec.emptyList with
         config := some { l0 with trigger := .periodic 10 }, state := .armed, timer := some { anchor := 0, next := 160000 } }
       (s.list 0).config = some { l0 with trigger := .periodic 10 } ∧
         (s.list 0).timer = some { anchor := 0, next := 160000 }) ∧
      (running.list 0).timer = none ∧ (∀ m : ListId, (withC3.list m).chainedTo 0 = false) ∧
      (∀ m : ListId, (withL1.list m).chainedTo 0 = true ↔ m = 1) := by decide +kernel

/-- Two lists chained to L0 in ARMED start their cycles in ascending number: the request of L1 is the older (R57). -/
theorem test_chained_in_order :
    let r : ListRec :=
      { ListRec.emptyList with config := some { l0 with trigger := .chained 0, concurrency := 1 }, state := .armed }
    (((withC3.setList 2 r).setList 1 r).triggerChained 0).pool.map Request.origin = [.entry 1 0, .entry 2 0] := by
  decide +kernel

/-- 64 records. -/
def full (s : State) : State :=
  { s with
    reports := List.replicate 64 { list := 1, step := 0, channel := 3, status := .ok, endOfCycle := false, runStart := false,
                                   seq := 0, cycle := 1, value := none, smoothed := none, raw := none, skipped := none } }

theorem test_meets_RetirementBuildsTheRecord :
    ((running.list 0).config = some l0 ∧ (running.list 0).window = entry 0 (.ready good) :: [entry 1 .waiting] ∧
      (entry 0 (.ready good)).stage = .ready good ∧ running.reports.length < 64) ∧
    (64 ≤ (full running).reports.length ∧ l0.policy = .discard) ∧
    ({ l0 with policy := .hold } : ListConfig).policy = .hold ∧ (withC3.list 0).readyHead = none := by decide +kernel

theorem test_meets_SessionOpensOnTheLowestFreeBank :
    (meets 0x18 (holding 0x18 [byte 2, 17] ready) ∧ 16 < (17 : Byte).toNat) ∧
      (meets 0x18 (holding 0x18 [byte 2, 16] (loading [] [none, none])) ∧ (loading [] [none, none]).session.isSome = true) ∧
      (let s := { ready with banks := Vector.replicate 9 { Bank.freeBank with state := .retiring, held := true } }
       meets 0x18 (holding 0x18 [byte 2, 1] s) ∧ s.session = none ∧ ∀ b : BankId, (s.bank b).state ≠ .free) ∧
      (let s := withT2 ready
       meets 0x18 (holding 0x18 [byte 2, 1] s) ∧ s.session = none ∧ (s.bank 1).state = .free ∧
         ∀ x : BankId, x < 1 → (s.bank x).state ≠ .free) := by decide +kernel

theorem validSeg0 : ValidSegment seg0 := by unfold ValidSegment; decide

theorem test_meets_SegmentsAreStoredAtTheirIndices :
    (meets 0x19 (holding 0x19 (16 :: [seg0].flatMap segmentLayout) ready) ∧ 15 < (16 : Byte).toNat) ∧
      (let bad := { seg0 with degree := 4 }
       meets 0x19 (holding 0x19 (0 :: [seg0, bad].flatMap segmentLayout) ready) ∧ [seg0, bad][1]? = some bad ∧
         3 < bad.degree ∧ bad.degree ≤ 255 ∧ ∃ h, [seg0, bad][0]? = some h ∧ h.degree ≤ 3) ∧
      ((∀ g ∈ [seg0], ValidSegment g) ∧ ready.session = none) ∧
      (let s := loading [] [none, none]
       meets 0x19 (holding 0x19 (1 :: [seg0].flatMap segmentLayout) s) ∧ (1 : Byte).toNat + [seg0].length ≤ 2 ∧
         2 < (2 : Byte).toNat + [seg0].length ∧ (s.bank 0).places.length = 2) :=
  ⟨by decide +kernel, ⟨by decide +kernel, by decide, by decide, by decide, seg0, rfl, by decide⟩,
    ⟨fun g hg => by cases List.mem_singleton.mp hg; exact validSeg0, by decide +kernel⟩, by decide +kernel⟩

theorem test_meets_CommitPutsTheVersionInService :
    (meets 0x1A (holding 0x1A [byte 2] ready) ∧ ready.session = none) ∧
      (let s := loading [0] [some seg0, none]
       meets 0x1A (holding 0x1A [byte 2] s) ∧ ∃ i, i < 2 ∧ i ∉ [0]) ∧
      (let s := loading [0, 1] [some seg1, some seg0]
       (∀ i, i < 2 → i ∈ [0, 1]) ∧ (s.bank 0).places = [seg1, seg0].map some ∧
         ¬ [seg1, seg0].Pairwise (fun g h => g.xHi < h.xHi)) ∧
      (let s := loading [0, 1] [some seg0, some seg1]
       [seg0, seg1].Pairwise (fun g h => g.xHi < h.xHi) ∧ (s.bank 0).state = .staging ∧ NoActive s 2) ∧
      OnlyActive ((loading [0, 1] [some seg0, some seg1]).setBank 5
        { state := .active, table := some 2, places := [some seg0], held := true }) 2 5 :=
  ⟨by decide +kernel, ⟨by decide +kernel, 1, by decide, by decide⟩,
    ⟨by decide +kernel, by decide +kernel, by decide +kernel⟩, by decide +kernel, by decide +kernel⟩

theorem test_meets_AbandonDiscardsTheSession :
    (meets 0x1B (holding 0x1B [] ready) ∧ ready.session = none) ∧
      meets 0x1B (holding 0x1B [] (loading [] [none, none])) ∧ (loading [] [none, none]).session.isSome := by decide +kernel

theorem test_meets_TablesAreDroppedAndRead :
    (meets 0x1C (holding 0x1C [byte 2] ready) ∧ NoActive ready 2) ∧
      (meets 0x1C (holding 0x1C [byte 2] (withT2 ready)) ∧ OnlyActive (withT2 ready) 2 0) ∧
      (meets 0x1D (holding 0x1D [byte 2, 16] ready) ∧ 15 < (16 : Byte).toNat) ∧
      (meets 0x1D (holding 0x1D [byte 2, 15] ready) ∧ (15 : Byte).toNat ≤ 15) ∧
      meets 0x1D (holding 0x1D [byte 2, 2] (withT2 ready)) ∧
      ((withT2 ready).bank 0).places = [seg0, seg1, seg2].map some ∧ [seg0, seg1, seg2].length ≤ (3 : Byte).toNat ∧
      (2 : Byte).toNat < [seg0, seg1, seg2].length := by decide +kernel

theorem test_meets_RestAndSessionTimersExpire :
    (ready.setInput 5 (.resting 1600000)).input 5 = .resting 1600000 ∧ ready.input 5 = .free ∧
      (loading [] [none, none]).session.isSome ∧ ready.session = none := by decide +kernel

/-- Of two requests the URGENT one stands first where both were there when the cores became IDLE (event 2), and the older one has
the first pass where the URGENT one arrived after that (event 1). -/
theorem test_meets_GrantGoesToTheFirstEligible :
    let urgent : Request := { request with origin := .sample 0, priority := .urgent, age := 1, input := 6 }
    (let s := { running with pool := [request, urgent], idleSince := Vector.replicate 4 2 }
     (∀ m, m < 2 → ∀ q ∈ s.pool, ¬ EligibleAt s m q) ∧ s.pool.Pairwise (fun x y => x.age < y.age) ∧
       EligibleAt s 2 urgent ∧ (∀ q ∈ s.pool, EligibleAt s 2 q → StandsFirst urgent q) ∧
       (s.channel urgent.channel).config = some c3) ∧
    (let s := { running with pool := [request, urgent] }
     EligibleAt s 0 request ∧ ∀ q ∈ s.pool, EligibleAt s 0 q → StandsFirst request q) ∧
    ∀ q ∈ ready.pool, ¬ Eligible ready q := by
  refine ⟨⟨?_, ?_, ?_, ?_, ?_⟩, ⟨?_, ?_⟩, ?_⟩ <;> decide +kernel

theorem test_meets_ReferencePhaseEnds :
    (((converting .select p3 {}).core 1).state = .select ∧ ((converting .select p3 {}).core 1).params = some p3) ∧
      (((converting .ref p3 {}).core 1).state = .ref ∧ 3200000 ≤ p3.phaseLimit * 16000 ∧ 255 ≠ 2 ^ p3.gate) ∧
      ((ready.core 1).state ≠ .select ∧ (ready.core 1).state ≠ .ref) ∧
      (converting .select p3 {}).input 5 = .claimed 1 ∧ (converting .ref p3 {}).input 5 = .claimed 1 ∧
      ∀ c, (converting .ref p3 {}).input 6 ≠ .claimed c := by decide +kernel

/-- 165,000 reference ticks: the two alternating examples, and a DC ratio below 256 and one of 1000000h. -/
theorem test_meets_OutcomeTestsAreOrdered :
    (131072 * 165000 ≤ 330000 * 65536 ∧ 330000 * 65536 < (131072 + 1) * 165000 ∧ 2 * 100000 < 230000) ∧
      (119156 * 165000 ≤ 300000 * 65536 ∧ 300000 * 65536 < (119156 + 1) * 165000 ∧ 200000 ≤ 2 * 100000) ∧
      (255 * 65536 ≤ 255 * 65536 ∧ 255 * 65536 < (255 + 1) * 65536) ∧
      0x1000000 * 65536 ≤ 0x1000000 * 65536 ∧ 0x1000000 * 65536 < (0x1000000 + 1) * 65536 := by decide

theorem test_meets_SensePhaseEnds :
    let sense := converting .sense p3 { tRef := some 409600 }
    let neg := converting .senseNeg p3 { tRef := some 165000, forward := some 100000 }
    ((sense.core 1).state = .sense ∧ (sense.core 1).params = some p3 ∧ (sense.core 1).meas.tRef = some 409600 ∧
      1228800 ≤ p3.phaseLimit * 16000) ∧
      (((converting .sensePos p3 {}).core 1).state = .sensePos ∧ 127 ≠ 2 ^ p3.gate / 2 ∧ p3.phaseLimit * 16000 < 3200001) ∧
      ((neg.core 1).state = .senseNeg ∧ (neg.core 1).meas.forward = some 100000 ∧ 100000 + 3100000 ≤ p3.phaseLimit * 16000 ∧
        p3.phaseLimit * 16000 < 100000 + 3100001) ∧
      ((ready.core 1).state ≠ .sense ∧ (ready.core 1).state ≠ .sensePos ∧ (ready.core 1).state ≠ .senseNeg) ∧
      sense.input 5 = .claimed 1 ∧ neg.input 5 = .claimed 1 := by
  decide +kernel

/-- A cancelled conversion, one whose SAMPLE is gone, a fault, and a valid ratio with and without a place. -/
theorem test_meets_DischargeReleasesAndHandsOff :
    let s := converting .discharge p3 { outcome := some (.valid 0x30000) }
    let cancelled := s.setCore 1 { s.core 1 with cancelled := true }
    let lost := converting .discharge { p3 with origin := .sample 0 } {}
    let fault := converting .discharge p3 { outcome := some (.fault .refStall none) }
    ((s.core 1).state = .discharge ∧ (s.core 1).params = some p3 ∧ (s.core 1).claimed = some 5 ∧
      (s.core 1).cancelled = false ∧ (s.core 1).meas.outcome = some (.valid 0x30000) ∧ s.evalQueue.length < 6 ∧
      s.holdOrder = []) ∧
      (cancelled.core 1).cancelled = true ∧ (lost.findSample 0).isSome = false ∧
      (fault.core 1).meas.outcome = some (.fault .refStall none) ∧ ({ s with holdOrder := [0] } : State).holdOrder ≠ [] ∧
      (ready.core 1).state ≠ .discharge ∧
      (let d : Deferred := { uid := 0, tag := 9, subject := .sample 3 }
       ({ s with deferred := [d] } : State).deferred = [] ++ d :: []) := by decide +kernel

/-- A core in a check, as it counts and as its discharge runs. -/
def checking (st : CoreState) (passed : Option Bool) (unit : UnitState) : State :=
  { ready.setCore 3 { Core.afterReset with state := st, checkPassed := passed } with cmdUnit := unit }

theorem test_meets_ChecksRunInPairs :
    (((checking .checkA none .starting).core 3).state = .checkA ∧ ((checking .checkA none .starting).core 3).checkPassed = none ∧
      800000 ≤ 800000) ∧
      ((checking .checkA (some true) .starting).core 3).checkPassed = some true ∧
      ((checking .checkB (some true) .starting).cmdUnit = .starting ∧
        ((checking .checkB (some true) .starting).core 3).checkPassed = some (!false)) ∧
      ((checking .checkA (some false) .starting).core 3).checkPassed = some false := by decide +kernel

theorem test_meets_RestoredCoresAreChecked :
    (meets 0x1F (holding 0x1F [byte 3] ready) ∧ (ready.core 3).state ≠ .offline) ∧
      (let s := fourWaiting.setCore 3 { Core.afterReset with state := .offline }
       meets 0x1F (holding 0x1F [byte 3] s) ∧ (s.core 3).state = .offline ∧ 4 ≤ s.deferred.length) ∧
      (meets 0x1F (holding 0x1F [byte 3] allOffline) ∧ allOffline.deferred.length < 4) ∧
      (let s := { checking .checkB (some false) .taking with deferred := [{ uid := 0, tag := 9, subject := .restore 3 }] }
       s.cmdUnit ≠ .starting ∧ (s.core 3).state = .checkB ∧ (s.core 3).checkPassed = some false ∧
         s.deferred = [] ++ ({ uid := 0, tag := 9, subject := .restore 3 } : Deferred) :: []) ∧
      ∀ d ∈ (checking .checkA (some false) .taking).deferred, d.subject ≠ .restore 3 := by decide +kernel

/-- CORE3 IDLE with no request lost, and CORE1 IDLE with the SAMPLE of S5 lost. -/
theorem test_meets_CoresGoOffline :
    (meets 0x1E (holding 0x1E [byte 3] (checking .checkA none .taking)) ∧
      ((checking .checkA none .taking).core 3).state = .checkA) ∧
    (meets 0x1E (holding 0x1E [byte 3] allOffline) ∧ (allOffline.core 3).state = .offline) ∧
    (meets 0x1E (holding 0x1E [byte 1] (converting .ref p3 {})) ∧
      ((converting .ref p3 {}).core 1).state.isConverting = true) ∧
    ((inHold.core 1).state = .hold ∧ meets 0x1E (holding 0x1E [byte 3] ready) ∧ (ready.core 3).state = .idle ∧
      ready.pool = []) ∧
    (let s := holding 0x1E [byte 1] (coreZeroOffline (sampleWaits withC3))
     meets 0x1E s ∧ (s.core 1).state = .idle ∧
       lostWith (s.setCore 1 { s.core 1 with state := .offline }) [1] = [sampleRequest]) ∧
    SamplesHaveWork (holding 0x1E [byte 1] (coreZeroOffline (sampleWaits withC3))) :=
  ⟨by decide +kernel, by decide +kernel, by decide +kernel, by decide +kernel, by decide +kernel,
    samplesHaveWork_of_one (by rfl) (by rfl) (by rfl) (by decide +kernel)⟩

/-- TAKE_CORE_OFFLINE answers the lost SAMPLE before itself, and the SAMPLE's entry is gone (R83, R86). -/
theorem test_offline_no_core : let t := run .takeCoreOffline 0x1E [1] (coreZeroOffline (sampleWaits withC3))
    t.replies = [{ tag := 9, kind := 0x0B, outcome := .ok, data := [3, 7, 0, 0, 0, 0, 0, 0, 0, 0] },
      { tag := 7, kind := 0x1E, outcome := .ok, data := [1] }] ∧ t.deferred = [] ∧ t.pool = [] := by decide +kernel

theorem test_meets_HeldRatioTakesThePlace :
    inHold.holdOrder = 1 :: [] ∧ (inHold.core 1).latch = some { origin := .entry 0 0, channel := 3, ratio := 0x30000 } ∧
      inHold.evalQueue.length < 6 ∧ ready.holdOrder = [] := by decide +kernel

/-- The head entry names C3 and so T2: with no ACTIVE bank, and with B0 ACTIVE, the ratio at and above the last bound. -/
theorem test_meets_EvaluationStartsOnTheHead :
    let s := { running with evalQueue := [{ origin := .entry 0 0, channel := 3, ratio := 0xA0000 }] }
    (s.engine = none ∧ (s.channel 3).config = some c3 ∧ c3.table = some 2 ∧ NoActive s 2) ∧ (s.channel 4).config = none ∧
      OnlyActive (withT2 s) 2 0 ∧ ((withT2 s).bank 0).places = [seg0, seg1, seg2].map some ∧
      (∀ g ∈ [seg0, seg1, seg2], g.xHi < 0xA0001) ∧ [seg0, seg1, seg2][2]? = some seg2 ∧ 0xA0000 ≤ seg2.xHi ∧
      (seg2.degree, seg2.c3) ∈ [(0, seg2.c0), (1, seg2.c1), (2, seg2.c2), (3, seg2.c3)] ∧
      ready.evalQueue = [] := by decide +kernel

theorem test_meets_EvaluationReachesItsOrigin :
    let s := { running with engine := some evaluation }
    s.engine = some evaluation ∧ evaluation.void = false ∧ evaluation.origin = .entry 0 0 ∧
      ({ evaluation with void := true } : Evaluation).void = true ∧ (∀ d ∈ s.deferred, d.uid ≠ 0) ∧
      (let d : Deferred := { uid := 0, tag := 9, subject := .sample 3 }
       ({ s with deferred := [d] } : State).deferred = [] ++ d :: [] ∧ d.subject = .sample 3) ∧ ready.engine = none := by
  decide +kernel

theorem test_meets_EvaluationFollowsItsCourse :
    ({ evaluation with table := none } : Evaluation).table = none ∧ evaluation.table = some 2 ∧
      ({ evaluation with bank := none } : Evaluation).bank = none ∧ evaluation.bank = some 0 ∧
      ((withT2 ready).bank 0).places = [seg0, seg1, seg2].map some ∧ [seg0, seg1, seg2][1]? = some seg1 ∧
      (seg1.degree, evaluation.progress.acc, [seg1.c1, seg1.c0]) ∈
        [(0, seg1.c0, []), (1, seg1.c1, [seg1.c0]), (2, seg1.c2, [seg1.c1, seg1.c0]),
         (3, seg1.c3, [seg1.c2, seg1.c1, seg1.c0])] ∧
      evaluation.progress = { segment := some 1, acc := seg1.c2, saturated := false } := by decide +kernel

/-- The example of 24000h: no step is clamped, and both exact sums are in the range. -/
theorem test_meets_HornerIsExactUnlessMarked : (horner 81920 300 false [-2000, 5000]).2 = false ∧
    ∀ n, n < 2 →
      -2147483648 ≤ (([-2000, 5000] : List Int).take (n + 1)).foldl (fun (a : Int) c => (a * (81920 : Int)).fdiv 65536 + c) 300 ∧
      (([-2000, 5000] : List Int).take (n + 1)).foldl (fun (a : Int) c => (a * (81920 : Int)).fdiv 65536 + c) 300 ≤ 2147483647 := by
  decide

theorem test_meets_MonitorSmoothsAndClassifies :
    let lim : Limits := { low := -500, high := 3000, hysteresis := 3500 }
    lim.low < lim.high ∧ (lim.hysteresis : Int) ≤ lim.high - lim.low ∧ lim.high < 3001 ∧ -501 < lim.low ∧
      lim.low ≤ (-500 : Int) ∧ (3000 : Int) ≤ lim.high ∧ good.validValue = some 2200 ∧ noCore.validValue = none ∧
      c3.limits = none ∧ c3Limits.limits.isSome := by decide

/-- A part notice of a link error, and an alarm notice of C3. -/
def linkErrorNotice : PartNotice := { event := .linkError, count := 255, late := some 0 }
def alarmNotice : AlarmNotice :=
  { channel := 3, prior := .normal, newState := .high, count := 1, value := some 3100, list := 0, cycle := 1, sending := none }

theorem test_meets_NoticesMerge :
    (∀ n ∈ [linkErrorNotice], n.event.key ≠ PartEvent.ready.key) ∧ linkErrorNotice.event.key = PartEvent.linkError.key ∧
      alarmNotice.channel = 3 ∧ ∀ n ∈ [alarmNotice], n.channel ≠ 4 := by decide

theorem test_meets_FramesReadBackAsSent :
    ready.rx.state = .hunt ∧ ready.lineLow = false ∧ (List.replicate 240 (0 : Byte)).length ≤ 240 ∧
      (0x7F#8 : Byte) ∉ [0x80#8, 0x81#8, 0x82#8, 0x83#8] ∧ ready.slots.length < 4 ∧
      (let s := { ready with slots := List.replicate 4 (frame 0x01 []) }
       s.rx.state = .hunt ∧ s.lineLow = false ∧ ¬ s.slots.length < 4) ∧
      (List.replicate 10 false)[9]? = some false ∧ ready.tx = none ∧ ready.cutByte = none ∧
      ({ ready with cutByte := some 2 } : State).cutByte = some 2 ∧
      (let f : TxFrame := { kind := .reply, bytes := [0x5A, 2], position := 1 }
       ({ ready with tx := some f } : State).tx = some f ∧ f.bytes[f.position]? = some 2 ∧
         (byteLevels 2)[9]? = some true) := by decide +kernel

theorem test_meets_LinkErrorsDiscardTheFrame :
    (ready.rx.state = .hunt ∧ ready.lineLow = false ∧ [0x80#8, 5#8].length = (2 : Byte).toNat ∧
      ∃ kind ∈ [0x80#8, 0x81#8, 0x82#8, 0x83#8], [0x80#8, 5#8].head? = some kind) ∧
      (let s := after .startByte ready
       s.rx.expiry = some 320000 ∧ s.rx.state = .length ∧ s.lineLow = false ∧ (1 : Byte).toNat < 2 ∧
         242 < (243 : Byte).toNat ∧ s.rx.state ≠ .hunt) ∧
      (after .linkReset ready).lineLow = true ∧ ready.rx.expiry = none ∧ ready.rx.state ≠ .length := by decide +kernel

/-- The latch of a SAMPLE in HOLD, its core offline-pending or not. -/
def sampleInHold (mark : Bool) : State :=
  { withC3.setCore 1
      { Core.afterReset with
        state := .hold, latch := some { origin := .sample 0, channel := 3, ratio := 0x30000 }, offlinePending := mark } with
    holdOrder := [1] }

theorem test_meets_LinkResetEmptiesTheLink :
    (after .linkReset ready).lineLow = true ∧
      (let f : TxFrame := { kind := .reply, bytes := [0x5A, 2], position := 1 }
       ({ ready with tx := some f } : State).tx = some f ∧ f.position < f.bytes.length ∧ ready.lineLow = false ∧
         ready.cmdUnit ≠ .stopped ∧ ready.alarms = []) ∧
      ((sampleInHold true).lineLow = false ∧ HoldSound (sampleInHold true) ∧
        pendingAmong (sampleInHold true) holdsSample = [1]) ∧
      (sampleInHold false).lineLow = false ∧ HoldSound (sampleInHold false) ∧
      holdsSample ((sampleInHold false).core 1) = true ∧
      ∀ c, holdsSample ((sampleInHold false).core c) = true → ((sampleInHold false).core c).offlinePending = false := by
  decide +kernel

theorem test_meets_TransmitterTakesTheFirstItem :
    (after .linkReset ready).lineLow = true ∧
      (let s := { ready with cmdUnit := .stopped }
       s.cmdUnit = .stopped ∧ s.replies = []) ∧
      (after .framingError ready).choice = some .notice ∧
      (let s := holding 0x7F [] ready
       FreeToChoose s ∧ s.choice = none ∧ firstAvailable s = none ∧ Takes s (frame 0x7F []) [] ∧
         commonRefusal s (frame 0x7F []) = some .unknownCommand) ∧ ready.credits = 0 := by decide +kernel

/-- A reply, alarm notices or part notices wait, and the choice stands as it does. -/
def waiting (replies : List Reply) (alarms : List AlarmNotice) (notices : List PartNotice) (choice : Option ItemKind) : State :=
  { ready with replies := replies, alarms := alarms, notices := notices, choice := choice }

/-- Each item begins as the first available one, and one that was chosen before a reply came. -/
theorem test_meets_TransmitterTakesTheFirstItem_items :
    BeginsNext (waiting [resetReply] [alarmNotice] [] none) .reply ∧ BeginsNext (waiting [] [alarmNotice] [] none) .alarm ∧
      BeginsNext (waiting [] [] [linkErrorNotice] none) .notice ∧
      BeginsNext (waiting [resetReply] [] [linkErrorNotice] (some .notice)) .notice ∧
      BeginsNext { full ready with credits := 9 } .report ∧ (full ready).reports ≠ [] ∧
      8 = min 9 (min 8 (full ready).reports.length) := by decide +kernel

/-- A frame of a kind is being sent. -/
def sendingFrame (kind : TxKind) (s : State) : State := { s with tx := some { kind := kind, bytes := [0x5A], position := 0 } }

theorem test_meets_SentItemsLeaveTheirCollections :
    ((sendingFrame .reply ready).tx.map TxFrame.kind = some .reply ∧ (sendingFrame .alarm ready).tx.map TxFrame.kind = some .alarm ∧
      (sendingFrame .notice ready).tx.map TxFrame.kind = some .notice) ∧ ready.tx = none := by decide +kernel

theorem test_meets_SentRecordsOpenPlaces :
    ((sendingFrame (.report 8) (full ready)).tx.map TxFrame.kind = some (.report 8) ∧
      (sendingFrame (.report 8) (full ready)).blocked = []) ∧
      ({ full running with blocked := [0] } : State).blocked = 0 :: [] ∧ ready.tx = none := by decide +kernel

/-! ### States that have the properties every step keeps -/

theorem test_meets_CapacitiesAreKept : WithinCapacity (sendingFrame (.report 8) { full running with credits := 255 }) :=
  ⟨by decide +kernel, by decide +kernel, by decide +kernel, by decide +kernel, by decide +kernel, by decide +kernel,
    (by decide +kernel : 1 ≤ 8 ∧ 8 ≤ 8 ∧ 8 ≤ (full running).reports.length ∧ 8 ≤ 255), by decide +kernel⟩

theorem test_meets_CapacitiesAreKept_choice :
    ChoiceSound (waiting [resetReply] [] [linkErrorNotice] (some .notice)) ∧ ChoiceSound ready := by
  refine ⟨⟨?_, by decide +kernel⟩, ?_, by decide +kernel⟩
  · intro k h; cases h; decide +kernel
  · intro k h; cases h

theorem test_meets_NamesStayDistinct :
    let s := { fourWaiting with alarms := [alarmNotice], notices := [linkErrorNotice] }
    TagsDistinct s ∧ NoticesDistinct s := by
  refine ⟨⟨by decide +kernel, by decide +kernel⟩, by decide +kernel, ?_, ?_, by decide +kernel, ?_, ?_⟩
  · intro n hn; cases List.mem_singleton.mp hn; unfold CountInRange; decide
  · intro n hn; cases List.mem_singleton.mp hn; exact fun k hk => nomatch hk
  · intro n hn; cases List.mem_singleton.mp hn; unfold CountInRange; decide
  · intro n hn k hk; cases List.mem_singleton.mp hn; cases hk; decide

theorem test_meets_CoresAndClaimsStayInAgreement : HoldSound (converting .sense p3 {}) ∧ ClaimsAgree (converting .sense p3 {}) := by
  unfold ClaimsAgree
  decide +kernel

/-- L0 in RUNNING: its head is READY and step 1 waits in the pool. -/
def working : State := { running with pool := [request], nextEvent := 1 }

/-- Lists but L0 are EMPTY in `working`. -/
theorem working_list_of_ne {l : ListId} (h : l ≠ 0) : working.list l = ListRec.emptyList := by
  revert l
  decide +kernel

theorem test_windowsOrdered : WindowsOrdered working := by
  intro l
  by_cases h : l = 0
  · subst h
    refine ⟨by decide, by decide, by decide, by decide +kernel, by decide +kernel, by decide +kernel, by decide +kernel,
      by decide +kernel, ?_⟩
    decide +kernel
  · rw [working_list_of_ne h]
    exact ⟨rfl, rfl⟩

theorem test_meets_ListsStaySound : WindowsOrdered working ∧ TriggersSound working := by
  refine ⟨test_windowsOrdered, fun l => ?_⟩
  by_cases h : l = 0
  · subst h
    refine ⟨⟨(fun h => nomatch h), ?_⟩, by decide +kernel, by decide +kernel, by decide +kernel, by decide +kernel⟩
    rintro ⟨⟨c, p, h1, h2⟩, -⟩
    injection (show some l0 = some c from h1) with h1
    subst h1
    exact (l0_not_periodic h2).elim
  · rw [working_list_of_ne h]
    refine ⟨⟨(fun h => nomatch h), ?_⟩, by decide, by decide, by decide, by decide⟩
    rintro ⟨⟨c, p, h1, -⟩, -⟩
    exact nomatch h1

/-- B0 is ACTIVE and held by the evaluation in progress. -/
def evaluatingT2 : State :=
  { ready with
    banks := ready.banks.set 0 { state := .active, table := some 2, places := [some seg0, some seg1, some seg2], held := true }
    engine := some evaluation }

theorem evaluatingT2_references (b : BankId) : References evaluatingT2 b ↔ b = 0 := by
  constructor
  · rintro ⟨e, h1, h2⟩
    injection (show some evaluation = some e from h1) with h1
    subst h1
    injection (show some (0 : BankId) = some b from h2) with h2
    exact h2.symm
  · rintro rfl
    exact ⟨evaluation, rfl, rfl⟩

theorem test_meets_BanksStaySound : BanksSound evaluatingT2 := by
  refine ⟨fun b => ⟨fun h => ?_, (fun ⟨ss, h, _⟩ => nomatch h)⟩, (fun ss h => nomatch h), ?_, fun b => ?_, by decide +kernel,
    by decide +kernel, by decide +kernel⟩
  · revert h; revert b; decide +kernel
  · intro b b' t hb hb' _ _
    have key : ∀ x : BankId, (evaluatingT2.bank x).state = .active → x = 0 := by decide +kernel
    rw [key b hb, key b' hb']
  · rw [evaluatingT2_references]
    revert b
    decide +kernel

theorem test_meets_TablesStayComplete : BanksSound evaluatingT2 ∧ TablesSound evaluatingT2 :=
  ⟨test_meets_BanksStaySound, by decide +kernel, by decide +kernel, fun ss h => nomatch h⟩

/-- The two lists of `withL1` become a chain without a loop when L0 is ON_COMMAND. -/
def chainOfTwo : State := withL1.setList 0 { ListRec.emptyList with config := some l0, state := .idle }

theorem test_meets_DefinitionsStaySound : StepsDefined chainOfTwo ∧ SourcesSound chainOfTwo := by
  refine ⟨by unfold StepsDefined; decide +kernel, by decide +kernel, fun l m h => ?_⟩
  have key : ∀ l m : ListId, (chainOfTwo.list l).chainedTo m = true → l = 1 ∧ m = 0 := by decide +kernel
  obtain ⟨rfl, rfl⟩ := key l m h
  refine ⟨by decide +kernel, fun hr => ?_⟩
  cases hr with
  | next _ c hc _ => exact absurd (key 0 c hc).1 (by decide)

/-- L0 ABORTING with one cancelled conversion. -/
def aborting : State := run .stopListAbort 0x14 [0, 1] (converting .sense p3 {})

theorem test_meets_OutstandingStaysExact : HoldSound aborting ∧ OutstandingExact aborting := by
  unfold OutstandingExact
  decide +kernel

theorem working_liveWork : liveWork working = [(.entry 0 1, .waiting)] := by decide +kernel

theorem test_workSound : WorkSound working := by
  refine ⟨test_windowsOrdered, by unfold StepsDefined; decide +kernel, by decide +kernel, by unfold CoresSound; decide +kernel,
    ?_, by decide +kernel, by decide +kernel, ?_, ?_, by decide +kernel, ?_⟩
  · intro l k st hst
    rw [working_liveWork]
    by_cases h : l = 0
    · subst h
      rw [show (working.list 0).window.map (fun e => (e.step, e.stage)) = [(0, .ready good), (1, .waiting)] from rfl]
      have h1 : ((0, Stage.ready good) == (k, st)) = false := by
        simp only [beq_eq_false_iff_ne, ne_eq, Prod.mk.injEq, not_and]
        rintro - rfl
        exact nomatch hst
      simp only [List.count_cons, List.count_nil, h1]
      by_cases hk : (1 : Nat) = k <;> by_cases hs : Stage.waiting = st <;> simp [hk, hs]
    · rw [working_list_of_ne h]
      have h2 : ¬ (0 : ListId) = l := fun h3 => h h3.symm
      simp [ListRec.emptyList, h2]
  · intro u
    rw [working_liveWork]
    simp
  · intro u
    rw [working_liveWork]
    simp
  · intro r hr u hu
    cases List.mem_singleton.mp hr
    exact nomatch hu

theorem test_meets_EveryEntryKeepsItsWork : WorkSound working ∧ PoolInOrder working :=
  ⟨test_workSound, by unfold PoolInOrder; decide +kernel⟩

theorem test_meets_NoFreePlaceWhileBlocked : WorkSound working ∧ WithinCapacity working ∧ BlockedSound working :=
  ⟨test_workSound, ⟨by decide +kernel, by decide +kernel, by decide +kernel, by decide +kernel, by decide +kernel,
    by decide +kernel, trivial, .inl rfl⟩, by decide +kernel, by decide +kernel, by decide +kernel⟩

end Sys2Proof.Tests
end

