-- ==== Sys2Proof/Proofs/ConversionCores.lean ====
section
/-! PROOF. The computed ratio as the floored quotient of the counts, and the outcome tests in their order (R2, R9). -/

namespace Sys2Proof.Machine

/-- R2 in the form without a division: the ratio is the one number that the quotient lies at or above by less than 1. -/
theorem computedRatio_eq_iff {tRef tSense ratio : Nat} (href : tRef ≠ 0) :
    computedRatio tRef tSense = ratio ↔ ratio * tRef ≤ tSense * 65536 ∧ tSense * 65536 < (ratio + 1) * tRef := by
  have hpos : 0 < tRef := Nat.pos_of_ne_zero href
  rw [computedRatio, if_neg href, Nat.div_eq_iff hpos, Nat.succ_mul]
  omega

theorem cappedRatio_of_overRange {ratio : Nat} (h : 0x1000000 ≤ ratio) : cappedRatio ratio = 0xFFFFFF := if_pos h

/-- Test 3 of R9 as the manual words it, one half-count against twice the other. -/
theorem asymmetric_iff {fwd rev : Nat} : asymmetric fwd rev = true ↔ 2 * fwd < rev ∨ 2 * rev < fwd := by
  rw [asymmetric, decide_eq_true_eq]
  omega

theorem any_asymmetric_iff {halves : Option (Nat × Nat)} :
    halves.any (fun h => asymmetric h.1 h.2) = true ↔ ∃ x y, halves = some (x, y) ∧ (2 * x < y ∨ 2 * y < x) := by
  simp only [Option.any_eq_true, asymmetric_iff, Prod.exists]

/-! One rule per outcome: each test applies where those before it found nothing. -/

theorem decideOutcome_asymmetric {halves : Option (Nat × Nat)} {ratio : Nat}
    (h : ∃ x y, halves = some (x, y) ∧ (2 * x < y ∨ 2 * y < x)) :
    decideOutcome halves ratio = .fault .asymmetric (some (cappedRatio ratio)) :=
  if_pos (any_asymmetric_iff.mpr h)

/-- Where test 3 finds nothing (no halves, or halves within 2 to 1), tests 4 to 6 decide on the ratio alone. -/
theorem decideOutcome_of_within {halves : Option (Nat × Nat)} {ratio : Nat}
    (h : ∀ x y, halves = some (x, y) → y ≤ 2 * x ∧ x ≤ 2 * y) :
    decideOutcome halves ratio = if ratio < 256 then .fault .short (some ratio)
      else if 0x1000000 ≤ ratio then .fault .overRange (some (cappedRatio ratio)) else .valid ratio := by
  refine if_neg fun hasym => ?_
  obtain ⟨x, y, hxy, hfar⟩ := any_asymmetric_iff.mp hasym
  have := h x y hxy
  omega

theorem decideOutcome_short {halves : Option (Nat × Nat)} {ratio : Nat}
    (h : ∀ x y, halves = some (x, y) → y ≤ 2 * x ∧ x ≤ 2 * y) (hlow : ratio < 256) :
    decideOutcome halves ratio = .fault .short (some ratio) := by
  rw [decideOutcome_of_within h, if_pos hlow]

theorem decideOutcome_valid {halves : Option (Nat × Nat)} {ratio : Nat}
    (h : ∀ x y, halves = some (x, y) → y ≤ 2 * x ∧ x ≤ 2 * y) (hlow : 256 ≤ ratio) (hhigh : ratio < 0x1000000) :
    decideOutcome halves ratio = .valid ratio := by
  rw [decideOutcome_of_within h, if_neg (Nat.not_lt.mpr hlow), if_neg (Nat.not_le.mpr hhigh)]

theorem decideOutcome_overRange {halves : Option (Nat × Nat)} {ratio : Nat}
    (h : ∀ x y, halves = some (x, y) → y ≤ 2 * x ∧ x ≤ 2 * y) (hhigh : 0x1000000 ≤ ratio) :
    decideOutcome halves ratio = .fault .overRange (some 0xFFFFFF) := by
  rw [decideOutcome_of_within h, if_neg (by omega), if_pos hhigh, cappedRatio_of_overRange hhigh]

/-- Settles O31: the floored quotient, then one rule per outcome in the order of the tests. -/
theorem outcomeTestsAreOrdered : Obligations.OutcomeTestsAreOrdered := by
  rintro tRef tSense halves ratio _ href hle hlt rfl
  exact ⟨(computedRatio_eq_iff href).mpr ⟨hle, hlt⟩, decideOutcome_asymmetric, fun hwithin =>
    ⟨decideOutcome_short hwithin, decideOutcome_valid hwithin, decideOutcome_overRange hwithin⟩⟩

end Sys2Proof.Machine
end

