-- ==== Sys2Proof/Proofs/ChannelMonitor.lean ====
section
/-! PROOF. The channel monitor (07): the smoothed value and the monitored quantity, the classification against the limits,
and the channel record after a result. -/

namespace Sys2Proof.Machine

/-! ### Smoothing (R123) -/

@[simp] theorem smooth_zero (old : Option Int) (v : Int) : smooth 0 old v = none := rfl

theorem smooth_first {k : Nat} (hk : 1 ≤ k) (v : Int) : smooth k none v = some v :=
  if_neg (Nat.one_le_iff_ne_zero.mp hk)

theorem smooth_next {k : Nat} (hk : 1 ≤ k) (a v : Int) : smooth k (some a) v = some (a + (v - a) / 2 ^ k) :=
  if_neg (Nat.one_le_iff_ne_zero.mp hk)

/-- Where smoothing is off, the monitored quantity is the value itself. -/
@[simp] theorem monitored_zero (old : Option Int) (v : Int) : monitored 0 old v = v := rfl

/-- Where smoothing is on, the monitored quantity is the smoothed value. -/
theorem monitored_of_smooth {k : Nat} {old : Option Int} {v x : Int} (h : smooth k old v = some x) :
    monitored k old v = x := by
  rw [monitored, h, Option.getD_some]

/-- A floored share of the way from `a` to `v` ends between the two: upwards it is at most the whole way, and downwards it is at
least that far and never upwards. -/
theorem floorStep_between (a v : Int) {p : Int} (hp : 0 < p) :
    min a v ≤ a + (v - a) / p ∧ a + (v - a) / p ≤ max a v := by
  rcases le_total a v with hup | hdown
  · have hnonneg : 0 ≤ (v - a) / p := Int.ediv_nonneg (by omega) hp.le
    have hle : (v - a) / p ≤ v - a := Int.ediv_le_self p (by omega)
    omega
  · have hnonpos : (v - a) / p ≤ 0 := Int.ediv_nonpos_of_nonpos_of_neg (by omega) hp
    have hge : v - a ≤ (v - a) / p := (Int.le_ediv_iff_mul_le hp).mpr (mul_le_of_one_le_right (by omega) hp)
    omega

/-- The average moves by the floor of the difference over 2^k, and stays between the old average and the value. -/
theorem smooth_next_spec {k : Nat} (hk : 1 ≤ k) (a v : Int) :
    ∃ x, smooth k (some a) v = some x ∧ monitored k (some a) v = x ∧
      2 ^ k * (x - a) ≤ v - a ∧ v - a < 2 ^ k * (x - a) + 2 ^ k ∧ min a v ≤ x ∧ x ≤ max a v := by
  have hpow : (0 : Int) < 2 ^ k := by positivity
  have hsmooth := smooth_next hk a v
  refine ⟨_, hsmooth, monitored_of_smooth hsmooth, ?_, ?_, floorStep_between a v hpow⟩
  · rw [add_sub_cancel_left]
    exact Int.mul_ediv_self_le hpow.ne'
  · rw [add_sub_cancel_left]
    exact Int.lt_mul_ediv_self_add hpow

/-! ### The table of R127, column by column -/

@[simp] theorem nextAlarm_fault (lim : Limits) (old : AlarmState) : nextAlarm lim old none = .fault := rfl

theorem nextAlarm_above {lim : Limits} {x : Int} (old : AlarmState) (h : lim.high < x) : nextAlarm lim old (some x) = .high :=
  if_pos h

theorem nextAlarm_below {lim : Limits} {x : Int} (old : AlarmState) (hlim : lim.low < lim.high) (h : x < lim.low) :
    nextAlarm lim old (some x) = .low :=
  (if_neg (h.trans hlim).not_gt).trans (if_pos h)

section Within
variable {lim : Limits} {x : Int} (hlow : lim.low ≤ x) (hhigh : x ≤ lim.high)
include hlow hhigh

theorem nextAlarm_within_of_high :
    nextAlarm lim .high (some x) = if x ≤ lim.high - lim.hysteresis then .normal else .high := by
  rw [nextAlarm, classify, if_neg hhigh.not_gt, if_neg hlow.not_gt]

theorem nextAlarm_within_of_low :
    nextAlarm lim .low (some x) = if lim.low + lim.hysteresis ≤ x then .normal else .low := by
  rw [nextAlarm, classify, if_neg hhigh.not_gt, if_neg hlow.not_gt]

/-- Hysteresis acts from HIGH and LOW only. -/
theorem nextAlarm_within_of_other {old : AlarmState} (hnotHigh : old ≠ .high) (hnotLow : old ≠ .low) :
    nextAlarm lim old (some x) = .normal := by
  rw [nextAlarm, classify, if_neg hhigh.not_gt, if_neg hlow.not_gt]
  exacts [hnotHigh, hnotLow]

end Within

/-! ### The channel record after a result -/

section AfterResult
variable (k : Channel) {cfg : ChannelConfig} {r : Result}

@[simp] theorem afterResult_config : (k.afterResult cfg r).config = k.config := rfl

theorem afterResult_smoothed_of_fault (h : r.validValue = none) : (k.afterResult cfg r).smoothed = k.smoothed := by
  simp only [Channel.afterResult, h]

theorem afterResult_smoothed_of_valid {v : Int} (h : r.validValue = some v) :
    (k.afterResult cfg r).smoothed = smooth cfg.shift k.smoothed v := by
  simp only [Channel.afterResult, h]

theorem afterResult_alarm_without_limits (h : cfg.limits = none) : (k.afterResult cfg r).alarm = k.alarm := by
  simp only [Channel.afterResult, h]

theorem afterResult_alarm_of_limits {lim : Limits} (h : cfg.limits = some lim) :
    (k.afterResult cfg r).alarm = nextAlarm lim k.alarm (r.validValue.map (monitored cfg.shift k.smoothed)) := by
  simp only [Channel.afterResult, h]

end AfterResult

/-- Settles O42: the three rows of R123, then the columns of R127, then the fields of the channel record after a result. -/
theorem monitorSmoothsAndClassifies : Obligations.MonitorSmoothsAndClassifies := by
  refine ⟨fun old v => ⟨smooth_zero old v, monitored_zero old v⟩, fun k v hk => ?first,
    fun k a v hk => smooth_next_spec hk a v, fun lim old x hlim _ => ?table, fun k cfg r => ?record⟩
  case first => exact ⟨smooth_first hk v, monitored_of_smooth (smooth_first hk v)⟩
  case table =>
    exact ⟨nextAlarm_fault lim old, nextAlarm_above old, nextAlarm_below old hlim, fun hlow hhigh =>
      ⟨nextAlarm_within_of_other hlow hhigh, nextAlarm_within_of_high hlow hhigh, nextAlarm_within_of_low hlow hhigh⟩⟩
  case record =>
    exact ⟨afterResult_smoothed_of_fault k, afterResult_alarm_without_limits k, afterResult_config k,
      fun _ => afterResult_smoothed_of_valid k, fun _ => afterResult_alarm_of_limits k⟩

end Sys2Proof.Machine
end

