-- ==== Sys2Proof/Proofs/Frames.lean ====
section
/-! PROOF. Frames: which fields of the state an operation may write, as a list of field names. What an invariant does not speak
of can then be left out of its proof in one step. -/

-- One proof after another, as in the tests: side by side they take more threads than memory allows.
set_option Elab.async false

namespace Sys2Proof.Machine

/-- The fields of the state, by name. -/
inductive Field where
  | now | bitRate | cores | inputs | channels | lists | pool | nextEvent | idleSince | freeSince | evalQueue
  | holdOrder | engine | banks | session | alarms | reports | credits | blocked | runStart | rx | slots | lineLow
  | cmdUnit | deferred | nextUid | replies | notices | tx | cutByte | choice | pending
  deriving DecidableEq

/-- The field has the same contents in both states. -/
def Field.Same (s t : State) : Field → Prop
  | .now => t.now = s.now
  | .bitRate => t.bitRate = s.bitRate
  | .cores => t.cores = s.cores
  | .inputs => t.inputs = s.inputs
  | .channels => t.channels = s.channels
  | .lists => t.lists = s.lists
  | .pool => t.pool = s.pool
  | .nextEvent => t.nextEvent = s.nextEvent
  | .idleSince => t.idleSince = s.idleSince
  | .freeSince => t.freeSince = s.freeSince
  | .evalQueue => t.evalQueue = s.evalQueue
  | .holdOrder => t.holdOrder = s.holdOrder
  | .engine => t.engine = s.engine
  | .banks => t.banks = s.banks
  | .session => t.session = s.session
  | .alarms => t.alarms = s.alarms
  | .reports => t.reports = s.reports
  | .credits => t.credits = s.credits
  | .blocked => t.blocked = s.blocked
  | .runStart => t.runStart = s.runStart
  | .rx => t.rx = s.rx
  | .slots => t.slots = s.slots
  | .lineLow => t.lineLow = s.lineLow
  | .cmdUnit => t.cmdUnit = s.cmdUnit
  | .deferred => t.deferred = s.deferred
  | .nextUid => t.nextUid = s.nextUid
  | .replies => t.replies = s.replies
  | .notices => t.notices = s.notices
  | .tx => t.tx = s.tx
  | .cutByte => t.cutByte = s.cutByte
  | .choice => t.choice = s.choice
  | .pending => t.pending = s.pending

/-- The second state differs from the first at most in the fields of the list. -/
def State.FrameTo (fs : List Field) (s t : State) : Prop := ∀ F, fs.contains F = false → F.Same s t

/-- The first state with the fields of the list taken from the second. -/
def State.patch (fs : List Field) (s t : State) : State :=
  { now := bif fs.contains .now then t.now else s.now
    bitRate := bif fs.contains .bitRate then t.bitRate else s.bitRate
    cores := bif fs.contains .cores then t.cores else s.cores
    inputs := bif fs.contains .inputs then t.inputs else s.inputs
    channels := bif fs.contains .channels then t.channels else s.channels
    lists := bif fs.contains .lists then t.lists else s.lists
    pool := bif fs.contains .pool then t.pool else s.pool
    nextEvent := bif fs.contains .nextEvent then t.nextEvent else s.nextEvent
    idleSince := bif fs.contains .idleSince then t.idleSince else s.idleSince
    freeSince := bif fs.contains .freeSince then t.freeSince else s.freeSince
    evalQueue := bif fs.contains .evalQueue then t.evalQueue else s.evalQueue
    holdOrder := bif fs.contains .holdOrder then t.holdOrder else s.holdOrder
    engine := bif fs.contains .engine then t.engine else s.engine
    banks := bif fs.contains .banks then t.banks else s.banks
    session := bif fs.contains .session then t.session else s.session
    alarms := bif fs.contains .alarms then t.alarms else s.alarms
    reports := bif fs.contains .reports then t.reports else s.reports
    credits := bif fs.contains .credits then t.credits else s.credits
    blocked := bif fs.contains .blocked then t.blocked else s.blocked
    runStart := bif fs.contains .runStart then t.runStart else s.runStart
    rx := bif fs.contains .rx then t.rx else s.rx
    slots := bif fs.contains .slots then t.slots else s.slots
    lineLow := bif fs.contains .lineLow then t.lineLow else s.lineLow
    cmdUnit := bif fs.contains .cmdUnit then t.cmdUnit else s.cmdUnit
    deferred := bif fs.contains .deferred then t.deferred else s.deferred
    nextUid := bif fs.contains .nextUid then t.nextUid else s.nextUid
    replies := bif fs.contains .replies then t.replies else s.replies
    notices := bif fs.contains .notices then t.notices else s.notices
    tx := bif fs.contains .tx then t.tx else s.tx
    cutByte := bif fs.contains .cutByte then t.cutByte else s.cutByte
    choice := bif fs.contains .choice then t.choice else s.choice
    pending := bif fs.contains .pending then t.pending else s.pending }

section
variable {fs gs : List Field} {s t u : State}

/-- Only the fields taken from the second state differ. For a closed list of fields a state written as a record update of `s` is
such a state by definition, so this lemma gives the frame of every explicit update. -/
theorem frameTo_patch (fs : List Field) (s t : State) : s.FrameTo fs (s.patch fs t) := by
  intro F hF
  cases F <;> simp only [Field.Same, State.patch, hF, cond_false]

/-- The frame of a state written as a record update of `s`: `h` holds by `rfl`. -/
theorem frameTo_of_patch (h : s.patch fs t = t) : s.FrameTo fs t := h ▸ frameTo_patch fs s t

theorem FrameTo_refl (fs : List Field) (s : State) : s.FrameTo fs s := by
  intro F _
  cases F <;> exact rfl

theorem FrameTo_trans (h : s.FrameTo fs t) (h2 : t.FrameTo fs u) : s.FrameTo fs u := by
  intro F hF
  have h := h F hF
  have h2 := h2 F hF
  cases F <;> exact Eq.trans h2 h

/-- A larger list of fields; for closed lists `hsub` holds by `rfl`. -/
theorem FrameTo_mono (h : s.FrameTo fs t) (hsub : fs.all gs.contains = true) : s.FrameTo gs t := by
  intro F hF
  refine h F ?_
  by_contra hmem
  rw [Bool.not_eq_false, List.contains_iff_mem] at hmem
  rw [List.all_eq_true.mp hsub F hmem] at hF
  cases hF

end

end Sys2Proof.Machine
end

