-- ==== Sys2Proof/Proofs/RowFrames.lean ====
section
/-! PROOF. What each row of the table may write, said once: `touched` names the fields, and `after_frameTo` ties it to the
dispatch. A row that touches no field an invariant speaks of keeps the invariant. -/

-- One proof after another, as in the tests: side by side they take more threads than memory allows.
set_option Elab.async false

namespace Sys2Proof.Machine

open Sys2Proof.Safety

/-! ### A row as a function of the state -/

/-- The state after a row; every row answers with one (`exec_eq`). -/
def State.after (c : Instr) (s : State) : State :=
  match exec c s with
  | .next t => t
  | .fault _ | .refused _ => s

theorem exec_eq (c : Instr) (s : State) : exec c s = .next (s.after c) := by cases c <;> exact rfl

theorem eq_after_of_exec {c : Instr} {s t : State} (h : exec c s = .next t) : t = s.after c := by
  rw [exec_eq] at h
  exact (Host.Outcome.next.inj h).symm

/-- A step is the front command's row, or the idle tick of an empty queue. -/
theorem step_cases {s t : State} (h : step s = .next t) :
    (s.pending = [] ∧ t = s.idle) ∨ ∃ c rest, s.pending = c :: rest ∧ t = ({ s with pending := rest } : State).after c := by
  unfold step at h
  cases hp : s.pending with
  | nil =>
    rw [hp] at h
    exact .inl ⟨rfl, (Host.Outcome.next.inj h).symm⟩
  | cons c rest =>
    rw [hp] at h
    exact .inr ⟨c, rest, rfl, eq_after_of_exec h⟩

/-- An invariant whose premise `Q` does not speak of the command queue: it is kept by the idle tick and by every row. -/
theorem kept_of_rows {Q P : State → Prop} (hpend : ∀ s q, Q s → Q { s with pending := q }) (hidle : ∀ s, Q s → P s.idle)
    (hrow : ∀ c s, Q s → P (s.after c)) (s t : State) (hs : Q s) (h : step s = .next t) : P t := by
  rcases step_cases h with ⟨-, rfl⟩ | ⟨c, rest, -, rfl⟩
  · exact hidle s hs
  · exact hrow c _ (hpend s rest hs)

/-! ### Shared operations -/

section
variable (s : State)

theorem choose_frameTo : s.FrameTo [.choice] s.choose := frameTo_of_patch rfl

theorem raise_frameTo (e : PartEvent) : s.FrameTo [.notices] (s.raise e) := frameTo_of_patch rfl

theorem setOriginStage_frameTo (o : Origin) (st : Stage) : s.FrameTo [.lists] (s.setOriginStage o st) := by
  obtain ⟨ls, h⟩ := setOriginStage_frame s o st
  exact frameTo_of_patch (by rw [h]; rfl)

theorem completeSample_frameTo (u : Nat) (r : Result) : s.FrameTo [.deferred, .replies] (s.completeSample u r) := by
  unfold State.completeSample
  split
  · exact FrameTo_refl _ _
  · exact frameTo_of_patch rfl

theorem deliver_frameTo (o : Origin) (r : Result) : s.FrameTo [.lists, .deferred, .replies] (s.deliver o r) := by
  obtain ⟨ls, ds, rs, h⟩ := deliver_frame s o r
  exact frameTo_of_patch (by rw [h]; rfl)

theorem outstandingDone_frameTo (o : Origin) : s.FrameTo [.lists] (s.outstandingDone o) := by
  cases o with
  | entry l k => exact frameTo_of_patch rfl
  | sample u => exact FrameTo_refl _ _

theorem arrive_sample_frameTo (u : Nat) (ch : ChannelId) (i : InputId) (p : Priority) :
    s.FrameTo [.pool, .nextEvent, .deferred, .replies] (s.arrive (.sample u) ch i p) := by
  cases h : s.unreachable i with
  | false => rw [arrive_of_reachable h]; exact frameTo_of_patch rfl
  | true =>
    rw [arrive_of_unreachable h]
    refine FrameTo_trans (t := s.newGrantEvent) (frameTo_of_patch rfl) ?_
    exact FrameTo_mono (completeSample_frameTo _ _ _) rfl

theorem enterOffline_frameTo (c : CoreId) (why : OfflineReason) :
    s.FrameTo [.cores, .notices, .pool, .lists, .deferred, .replies] (s.enterOffline c why) := by
  obtain ⟨po, ls, ds, rs, h⟩ := enterOffline_frame s c why
  exact frameTo_of_patch (by rw [h]; rfl)

theorem settleCore_frameTo (c : CoreId) :
    s.FrameTo [.cores, .notices, .pool, .lists, .deferred, .replies, .idleSince] (s.settleCore c) := by
  rcases settleCore_cases s c with ⟨-, h⟩ | ⟨-, -, h⟩ | ⟨-, -, h⟩ <;> rw [h]
  · exact FrameTo_mono (enterOffline_frameTo s c _) rfl
  · exact FrameTo_mono (enterOffline_frameTo s c _) rfl
  · exact frameTo_of_patch rfl

theorem leaveHold_frameTo (c : CoreId) :
    s.FrameTo [.cores, .notices, .pool, .lists, .deferred, .replies, .idleSince, .holdOrder, .nextEvent] (s.leaveHold c) := by
  rcases leaveHold_cases s c with ⟨-, h⟩ | ⟨-, h⟩ <;> rw [h]
  · exact FrameTo_trans (t := { s.setCore c { s.core c with latch := none } with holdOrder := s.holdOrder.erase c })
      (frameTo_of_patch rfl) (FrameTo_mono (enterOffline_frameTo _ c _) rfl)
  · exact frameTo_of_patch rfl

theorem joinQueue_frameTo (e : RatioEntry) : s.FrameTo [.evalQueue, .lists] (s.joinQueue e) :=
  FrameTo_trans (t := { s with evalQueue := s.evalQueue ++ [e] }) (frameTo_of_patch rfl)
    (FrameTo_mono (setOriginStage_frameTo _ _ _) rfl)

theorem abandonSession_frameTo : s.FrameTo [.banks, .session] s.abandonSession := by
  unfold State.abandonSession
  split
  · exact FrameTo_refl _ _
  · exact frameTo_of_patch rfl

theorem retireActive_frameTo (t : TableId) : s.FrameTo [.banks] (s.retireActive t) := by
  unfold State.retireActive
  split
  · exact FrameTo_refl _ _
  · exact frameTo_of_patch rfl

variable {s} {t : State}

theorem frameTo_of_issuesTo (h : s.IssuesTo t) : s.FrameTo [.lists, .pool, .nextEvent] t := by
  obtain ⟨ls, po, n, rfl⟩ := h
  exact frameTo_of_patch rfl

theorem frameTo_of_advancesTo (h : s.AdvancesTo t) : s.FrameTo [.lists, .pool, .nextEvent, .notices] t := by
  obtain ⟨ls, po, n, ns, rfl⟩ := h
  exact frameTo_of_patch rfl

theorem frameTo_of_retiresTo (h : s.RetiresTo t) :
    s.FrameTo [.lists, .pool, .nextEvent, .notices, .channels, .alarms, .reports, .runStart] t := by
  obtain ⟨ls, po, n, ns, cs, as, rs, ms, rfl⟩ := h
  exact frameTo_of_patch rfl

/-- What is done to several cores one after another stays within the frame of what is done to one. -/
theorem foldl_frameTo {α : Type} {fs : List Field} {f : State → α → State} (h : ∀ (t : State) x, t.FrameTo fs (f t x)) (xs : List α) :
    s.FrameTo fs (xs.foldl f s) := by
  induction xs generalizing s with
  | nil => exact FrameTo_refl _ _
  | cons x xs ih => exact FrameTo_trans (h s x) ih

end

/-! ### Host commands -/

/-- The state that a command's own part leaves, where it executes. -/
def Answer.state? : Answer → Option State
  | .done _ _ t | .deferred t => some t
  | .refused _ | .badField _ => none

/-- With all fields in range the command's own state checks decide. -/
theorem withFields_of_none {checks : List (Nat × Bool)} (h : firstBad checks = none) (a : Answer) : withFields checks a = a := by
  rw [withFields, h]

theorem withFields_of_some {checks : List (Nat × Bool)} {n : Nat} (h : firstBad checks = some n) (a : Answer) :
    withFields checks a = .badField n := by rw [withFields, h]

/-- A command with field checks executes only with all its fields in range. -/
theorem state?_withFields {checks : List (Nat × Bool)} {a : Answer} {t : State} (h : (withFields checks a).state? = some t) :
    firstBad checks = none ∧ a.state? = some t := by
  cases hc : firstBad checks with
  | none => exact ⟨rfl, by rwa [withFields_of_none hc] at h⟩
  | some n => rw [withFields_of_some hc] at h; cases h

/-- What a host row leaves: the state as it was, a refusal in the reply queue, or what the command's own part does, with its
reply unless that is deferred. -/
theorem runCommand_cases {mine : Frame → Bool} {allowed : List Byte → Bool} {own : Frame → State → Answer} {P : State → Prop}
    {s : State} (hself : P s)
    (hrefused : ∀ f rest r, Takes s f rest → P ({ s with replies := s.replies ++ [r], slots := rest } : State).choose)
    (hdone : ∀ f rest o data t r, Takes s f rest → mine f = true → commandAnswer allowed own f s = own f s → f.tag ≠ 0 →
      (∀ d ∈ s.deferred, d.tag ≠ f.tag) →
      own f s = .done o data t → r = ({ tag := f.tag, kind := f.kind, outcome := o, data := data } : Reply) →
      P ({ t with replies := t.replies ++ [r], slots := t.slots.tail } : State).choose)
    (hdeferred : ∀ f rest t, Takes s f rest → mine f = true → f.tag ≠ 0 → (∀ d ∈ s.deferred, d.tag ≠ f.tag) →
      own f s = .deferred t → P ({ t with slots := t.slots.tail } : State).choose) :
    P (s.runCommand mine allowed own) := by
  by_cases h : ∃ f rest, Takes s f rest ∧ mine f = true
  · obtain ⟨f, rest, ht, hm⟩ := h
    rw [runCommand_of_takes ht hm]
    have href : ∀ o, P (s.giveAnswer f (.refused o)).emptySlot.choose := by
      intro o
      have := hrefused f rest { tag := f.tag, kind := f.kind, outcome := o, data := [] } ht
      rwa [show (s.giveAnswer f (.refused o)).emptySlot =
        { s with replies := s.replies ++ [{ tag := f.tag, kind := f.kind, outcome := o, data := [] }], slots := rest } by
          simp [State.giveAnswer, State.emptySlot, State.queueReply, ht.1]]
    unfold commandAnswer
    split
    · exact href _
    · rename_i hk
      split
      · exact href _
      · rename_i htag
        split
        · exact href _
        · rename_i hheld
          have hheld : ∀ d ∈ s.deferred, d.tag ≠ f.tag := by simpa [State.tagHeld] using hheld
          split
          · exact href _
          · rename_i hlen
            have hown : commandAnswer allowed own f s = own f s :=
              commandAnswer_of_checks (not_not.mp hk) htag hheld (by simpa using hlen)
            cases ha : own f s with
            | refused o => exact href o
            | badField n =>
              have := hrefused f rest { tag := f.tag, kind := f.kind, outcome := .badField, data := [byte n] } ht
              rwa [show (s.giveAnswer f (.badField n)).emptySlot =
                { s with replies := s.replies ++ [{ tag := f.tag, kind := f.kind, outcome := .badField, data := [byte n] }],
                         slots := rest } by
                simp [State.giveAnswer, State.emptySlot, State.queueReply, ht.1]]
            | done o data t => exact hdone f rest o data t _ ht hm hown htag hheld ha rfl
            | deferred t => exact hdeferred f rest t ht hm htag hheld ha
  · rw [runCommand_idle]
    · exact hself
    · intro f rest ht
      exact Bool.eq_false_iff.mpr (fun hm => h ⟨f, rest, ht, hm⟩)

/-- A host row keeps a property that does not speak of replies, slots and choice, if the command's own part keeps it. -/
theorem runCommand_keeps {mine : Frame → Bool} {allowed : List Byte → Bool} {own : Frame → State → Answer} {P : State → Prop}
    {s : State} (hlink : ∀ t rs sl ch, P t → P { t with replies := rs, slots := sl, choice := ch }) (hs : P s)
    (hown : ∀ f t, (own f s).state? = some t → P t) : P (s.runCommand mine allowed own) := by
  refine runCommand_cases hs ?_ ?_ ?_
  · intro f rest r _
    exact hlink s _ _ _ hs
  · intro f rest o data t r _ _ _ _ _ ha _
    exact hlink t _ _ _ (hown f t (by rw [ha]; rfl))
  · intro f rest t _ _ _ _ ha
    exact hlink t _ _ _ (hown f t (by rw [ha]; rfl))

/-- A host row writes the reply queue, the slots and the choice besides what the command's own part writes. -/
theorem runCommand_frameTo {mine : Frame → Bool} {allowed : List Byte → Bool} {own : Frame → State → Answer} {s : State}
    {fs : List Field} (hsub : [Field.replies, .slots, .choice].all fs.contains = true)
    (hown : ∀ f t, (own f s).state? = some t → s.FrameTo fs t) : s.FrameTo fs (s.runCommand mine allowed own) := by
  refine runCommand_keeps (P := s.FrameTo fs) (fun t rs sl ch h => ?_) (FrameTo_refl _ _) hown
  exact FrameTo_trans h (FrameTo_mono (frameTo_of_patch (fs := [.replies, .slots, .choice]) rfl) hsub)

end Sys2Proof.Machine
end

