-- ==== Sys2Proof/Proofs/CommandEffects.lean ====
section
/-! PROOF. What each host command's own part leaves where it executes: one lemma per command, from which every invariant's proof
takes its cases. -/

-- One proof after another, as in the tests: side by side they take more threads than memory allows.
set_option Elab.async false

namespace Sys2Proof.Machine

open Sys2Proof.Safety

variable {s t : State} {f : Frame}

/-! ### Field checks -/

theorem firstBad_eq_none {checks : List (Nat × Bool)} : firstBad checks = none ↔ ∀ c ∈ checks, c.2 = true := by
  induction checks with
  | nil => simp
  | cons c cs ih =>
    obtain ⟨n, b⟩ := c
    cases b with
    | false => simp
    | true => simp [ih]

/-! ### Commands that read only -/

theorem getChannelOwn_state (h : (getChannelOwn f s).state? = some t) : t = s := by
  obtain ⟨-, h⟩ := state?_withFields h
  dsimp only at h
  split at h <;> cases h
  rfl

theorem getListOwn_state (h : (getListOwn f s).state? = some t) : t = s := by
  obtain ⟨-, h⟩ := state?_withFields h
  dsimp only at h
  split at h <;> cases h
  rfl

theorem getTableOwn_state (h : (getTableOwn f s).state? = some t) : t = s := by
  obtain ⟨-, h⟩ := state?_withFields h
  dsimp only at h
  split at h
  · cases h
  · split at h <;> cases h
    rfl

/-! ### The part's own commands -/

theorem grantCreditsOwn_state (h : (grantCreditsOwn f s).state? = some t) :
    ∃ n, t = { s with credits := n } ∧ min 255 s.credits ≤ n ∧ n ≤ 255 := by
  obtain ⟨-, h⟩ := state?_withFields h
  cases h
  refine ⟨_, rfl, ?_, ?_⟩ <;> simp only [grantedCredits, Config.maxCredits] <;> omega

/-! ### Channels -/

theorem setChannelOwn_state (h : (setChannelOwn f s).state? = some t) :
    ∃ ch c, s.activeUse ch = false ∧ t = s.setChannel ch (Channel.configured c) := by
  obtain ⟨-, h⟩ := state?_withFields h
  dsimp only at h
  split at h
  · cases h
  · rename_i hu
    cases h
    exact ⟨_, _, Bool.eq_false_iff.mpr hu, rfl⟩

theorem clearChannelOwn_state (h : (clearChannelOwn f s).state? = some t) :
    t = s ∨ ∃ ch, s.useCount ch = 0 ∧ t = s.setChannel ch Channel.undefined := by
  obtain ⟨-, h⟩ := state?_withFields h
  dsimp only at h
  split at h
  · cases h
  · rename_i hu
    split at h <;> cases h
    · exact .inl rfl
    · exact .inr ⟨_, Nat.eq_zero_of_not_pos hu, rfl⟩

theorem sampleOwn_state (h : (sampleOwn f s).state? = some t) :
    ∃ ch c, (s.channel ch).config = some c ∧ s.deferred.length < 4 ∧ sampleOwn f s = .deferred t ∧
      t = (s.defer f.tag (.sample ch)).arrive (.sample s.nextUid) ch c.input .urgent := by
  obtain ⟨hc, h'⟩ := state?_withFields h
  unfold sampleOwn
  rw [withFields_of_none hc]
  dsimp only at h' ⊢
  split at h'
  · cases h'
  · rename_i c hcfg
    split at h'
    · cases h'
    · rename_i hroom
      cases h'
      refine ⟨_, c, hcfg, Nat.lt_of_not_le hroom, ?_, rfl⟩
      exact if_neg hroom

/-! ### Lists -/

/-- The ranges of a list configuration that the field checks ensure. -/
theorem listConfigOf_ranges {p : List Byte} (h : firstBad (listChecks p) = none) :
    (1 ≤ (listConfigOf p).concurrency ∧ (listConfigOf p).concurrency ≤ 4) ∧
      (1 ≤ (listConfigOf p).steps.length ∧ (listConfigOf p).steps.length ≤ 32) := by
  have h7 := firstBad_eq_none.mp h (7, decide (1 ≤ byteAt p 8 ∧ byteAt p 8 ≤ 4)) (by simp [listChecks])
  have h9 := firstBad_eq_none.mp h (9, decide (1 ≤ byteAt p 10 ∧ byteAt p 10 ≤ 32)) (by simp [listChecks])
  simp only [decide_eq_true_eq] at h7 h9
  exact ⟨h7, by simpa [listConfigOf] using h9⟩

theorem setListOwn_state (h : (setListOwn f s).state? = some t) :
    ∃ l c, ((s.list l).state = .empty ∨ (s.list l).state = .idle) ∧ (1 ≤ c.concurrency ∧ c.concurrency ≤ 4) ∧
      (1 ≤ c.steps.length ∧ c.steps.length ≤ 32) ∧ (∀ ch ∈ c.steps, (s.channel ch).config.isSome = true) ∧
      s.chainRefusal l c.trigger = none ∧ t = (s.setList l (ListRec.configured c)).setRunMark l false := by
  obtain ⟨hc, h⟩ := state?_withFields h
  obtain ⟨hconc, hsteps⟩ := listConfigOf_ranges hc
  dsimp only at h
  split at h
  · cases h
  · rename_i hstate
    split at h
    · cases h
    · rename_i hdef
      split at h
      · cases h
      · rename_i hchain
        split at h
        · cases h
        · cases h
          refine ⟨_, listConfigOf f.payload, ?_, hconc, hsteps, ?_, hchain, rfl⟩
          · by_contra hn
            exact hstate (not_or.mp hn)
          · intro ch hch
            by_contra hn
            exact hdef (List.any_eq_true.mpr ⟨ch, hch, by simpa using hn⟩)

theorem clearListOwn_state (h : (clearListOwn f s).state? = some t) :
    t = s ∨ ∃ l, (s.list l).state = .idle ∧ (∀ m, (s.list m).chainedTo l = false) ∧
      t = (s.setList l ListRec.emptyList).setRunMark l false := by
  obtain ⟨-, h⟩ := state?_withFields h
  dsimp only at h
  split at h
  · cases h
    exact .inl rfl
  · split at h
    · cases h
    · rename_i hsrc
      split at h
      · cases h
      · rename_i hidle
        cases h
        refine .inr ⟨_, not_not.mp hidle, fun m => ?_, rfl⟩
        by_contra hm
        exact hsrc (List.any_eq_true.mpr ⟨m, List.mem_finRange m, by simpa using hm⟩)

theorem startListOwn_state (h : (startListOwn f s).state? = some t) :
    ∃ l c, (s.list l).config = some c ∧ (s.list l).state = .idle ∧ t = s.startList l c := by
  obtain ⟨-, h⟩ := state?_withFields h
  dsimp only at h
  split at h
  · cases h
  · rename_i c hcfg
    split at h
    · cases h
    · rename_i hidle
      cases h
      exact ⟨_, c, hcfg, not_not.mp hidle, rfl⟩

theorem stopListDrainOwn_state (h : (stopListDrainOwn f s).state? = some t) :
    ∃ l, (s.list l).state ≠ .empty ∧ t = s.drainList l := by
  obtain ⟨-, h⟩ := state?_withFields h
  dsimp only at h
  split at h
  · cases h
  · rename_i he
    cases h
    exact ⟨_, he, rfl⟩

theorem stopListAbortOwn_state (h : (stopListAbortOwn f s).state? = some t) :
    ∃ l, (s.list l).state ≠ .empty ∧ t = s.abortList l := by
  obtain ⟨-, h⟩ := state?_withFields h
  dsimp only at h
  split at h
  · cases h
  · rename_i he
    cases h
    exact ⟨_, he, rfl⟩

theorem triggerListOwn_state (h : (triggerListOwn f s).state? = some t) :
    ∃ l c, (s.list l).config = some c ∧ t = s.trigger l := by
  obtain ⟨-, h⟩ := state?_withFields h
  dsimp only at h
  split at h
  · cases h
  · rename_i c hcfg
    split at h
    · cases h
    · split at h
      · cases h
      · cases h
        exact ⟨_, c, hcfg, rfl⟩

/-! ### Tables -/

theorem beginTableOwn_state (h : (beginTableOwn f s).state? = some t) :
    ∃ id n b, (1 ≤ n ∧ n ≤ 16) ∧ s.session = none ∧ s.lowestFreeBank = some b ∧ t = s.openSession id n b := by
  obtain ⟨hc, h⟩ := state?_withFields h
  have hn := firstBad_eq_none.mp hc _ (List.mem_cons_of_mem _ List.mem_cons_self)
  simp only [decide_eq_true_eq] at hn
  split at h
  · cases h
  · rename_i hopen
    split at h
    · cases h
    · rename_i b hb
      cases h
      exact ⟨_, _, b, hn, by simpa using hopen, hb, rfl⟩

theorem loadSegmentsOwn_state (h : (loadSegmentsOwn f s).state? = some t) :
    ∃ ss first gs, s.session = some ss ∧ first + gs.length ≤ ss.count ∧ t = s.storeInSession ss first gs := by
  obtain ⟨-, h⟩ := state?_withFields h
  split at h
  · cases h
  · rename_i ss hss
    dsimp only at h
    split at h
    · cases h
    · rename_i hcount
      cases h
      exact ⟨ss, _, _, hss, by simp only [List.length_map, List.length_range]; omega, rfl⟩

theorem commitTableOwn_state (h : (commitTableOwn f s).state? = some t) :
    ∃ ss, s.session = some ss ∧ ss.complete = true ∧ risingFrom none (s.bank ss.bank).places = true ∧ t = s.commit ss := by
  obtain ⟨-, h⟩ := state?_withFields h
  split at h
  · cases h
  · rename_i ss hss
    split at h
    · cases h
    · split at h
      · cases h
      · rename_i hcomp
        split at h
        · cases h
        · rename_i hrise
          cases h
          exact ⟨ss, hss, by simpa using hcomp, by simpa using hrise, rfl⟩

theorem abandonTableOwn_state (h : (abandonTableOwn f s).state? = some t) : t = s.abandonSession := by
  unfold abandonTableOwn at h
  split at h <;> cases h
  rfl

theorem dropTableOwn_state (h : (dropTableOwn f s).state? = some t) : ∃ id, t = s.retireActive id := by
  obtain ⟨-, h⟩ := state?_withFields h
  dsimp only at h
  split at h <;> cases h
  exact ⟨_, rfl⟩

/-! ### Cores -/

theorem takeCoreOfflineOwn_state (h : (takeCoreOfflineOwn f s).state? = some t) :
    t = s ∨ ∃ c, ((s.core c).state = .idle ∧ t = s.enterOffline c .command) ∨
      t = s.setCore c { s.core c with offlinePending := true } := by
  obtain ⟨-, h⟩ := state?_withFields h
  dsimp only at h
  split at h <;> cases h
  · exact .inr ⟨_, .inl ⟨‹_›, rfl⟩⟩
  · exact .inl rfl
  · exact .inr ⟨_, .inr rfl⟩

theorem restoreCoreOwn_state (h : (restoreCoreOwn f s).state? = some t) :
    ∃ c, (s.core c).state = .offline ∧ s.deferred.length < 4 ∧ restoreCoreOwn f s = .deferred t ∧
      t = (s.defer f.tag (.restore c)).setCore c { (s.core c).enter .checkA s.now with checkPassed := none } := by
  obtain ⟨hc, h'⟩ := state?_withFields h
  unfold restoreCoreOwn
  rw [withFields_of_none hc]
  dsimp only at h' ⊢
  split at h'
  · cases h'
  · rename_i hoff
    split at h'
    · cases h'
    · rename_i hroom
      cases h'
      exact ⟨_, not_not.mp hoff, Nat.lt_of_not_le hroom, by rw [if_neg hoff, if_neg hroom], rfl⟩

end Sys2Proof.Machine
end

