-- ==== Sys2Proof/Proofs/Touched.lean ====
section
/-! PROOF. The frame of every row: the table `touched` and its tie to the dispatch, `after_frameTo`. -/

-- One proof after another, as in the tests: side by side they take more threads than memory allows.
set_option Elab.async false

namespace Sys2Proof.Machine

open Sys2Proof.Safety

/-! ### The phases of a conversion -/

/-- A core in a conversion goes on to its next phase: it keeps claim, parameters, marks and latch, and in DISCHARGE it has its
outcome (R5 to R9). -/
structure Core.MovesOn (k k' : Core) : Prop where
  params : k.params.isSome = true
  before : k.state.isConverting = true
  early : k.state ≠ .discharge
  after : k'.state.isConverting = true
  outcome : k'.state = .discharge → k'.meas.outcome.isSome = true
  claimed_eq : k'.claimed = k.claimed
  params_eq : k'.params = k.params
  cancelled_eq : k'.cancelled = k.cancelled
  latch_eq : k'.latch = k.latch

/-- The row takes the core on to its next phase, or is not due. -/
def State.PhaseTo (c : CoreId) (s t : State) : Prop :=
  t = s ∨ ∃ n k', t = (s.advanceTo n).setCore c k' ∧ (s.core c).MovesOn k'

theorem endSettle_phaseTo (s : State) (c : CoreId) : s.PhaseTo c (s.endSettle c) := by
  unfold State.endSettle
  dsimp only
  split
  · rename_i p hst hp
    exact .inr ⟨_, _, rfl, by constructor <;> simp [hst, hp, Core.enter, CoreState.isConverting]⟩
  · exact .inl rfl

theorem completeRef_phaseTo (s : State) (c : CoreId) (n : PeriodCount) : s.PhaseTo c (s.completeRef c n) := by
  unfold State.completeRef
  dsimp only
  split
  · rename_i p hst hp
    split
    · refine .inr ⟨_, _, rfl, ?_⟩
      constructor <;> cases p.excitation <;> simp [hst, hp, Core.enter, senseState, CoreState.isConverting]
    · exact .inl rfl
  · exact .inl rfl

theorem timeoutRef_phaseTo (s : State) (c : CoreId) : s.PhaseTo c (s.timeoutRef c) := by
  unfold State.timeoutRef
  dsimp only
  split
  · rename_i p hst hp
    exact .inr ⟨_, _, rfl, by constructor <;> simp [hst, hp, Core.enter, CoreState.isConverting]⟩
  · exact .inl rfl

theorem completeSense_phaseTo (s : State) (c : CoreId) (n : PeriodCount) : s.PhaseTo c (s.completeSense c n) := by
  unfold State.completeSense
  dsimp only
  split
  · rename_i p hst hp
    split
    · exact .inr ⟨_, _, rfl, by constructor <;> simp [hst, hp, Core.enter, CoreState.isConverting]⟩
    · exact .inl rfl
  · exact .inl rfl

theorem completeForward_phaseTo (s : State) (c : CoreId) (n : PeriodCount) : s.PhaseTo c (s.completeForward c n) := by
  unfold State.completeForward
  dsimp only
  split
  · rename_i p hst hp
    split
    · exact .inr ⟨_, _, rfl, by constructor <;> simp [hst, hp, CoreState.isConverting]⟩
    · exact .inl rfl
  · exact .inl rfl

theorem completeReverse_phaseTo (s : State) (c : CoreId) (n : PeriodCount) : s.PhaseTo c (s.completeReverse c n) := by
  unfold State.completeReverse
  dsimp only
  split
  · rename_i p hst hp
    split
    · exact .inr ⟨_, _, rfl, by constructor <;> simp [hst, hp, Core.enter, CoreState.isConverting]⟩
    · exact .inl rfl
  · exact .inl rfl

theorem timeoutSense_phaseTo (s : State) (c : CoreId) : s.PhaseTo c (s.timeoutSense c) := by
  unfold State.timeoutSense
  dsimp only
  split
  · rename_i p hp
    split
    · rename_i hst
      refine .inr ⟨_, _, rfl, ?_⟩
      constructor <;> cases hk : (s.core c).state <;> simp_all [Core.enter, CoreState.isConverting, CoreState.isSensing]
    · exact .inl rfl
  · exact .inl rfl

theorem PhaseTo_frameTo {s t : State} {c : CoreId} (h : s.PhaseTo c t) : s.FrameTo [.now, .cores] t := by
  rcases h with rfl | ⟨n, k', rfl, -⟩
  · exact FrameTo_refl _ _
  · exact frameTo_of_patch rfl

/-! ### Rows of the host -/

section
variable (s : State)

theorem runCommand_frameTo_of_reads {mine : Frame → Bool} {allowed : List Byte → Bool} {own : Frame → State → Answer}
    (h : ∀ f t, (own f s).state? = some t → t = s) :
    s.FrameTo [.replies, .slots, .choice] (s.runCommand mine allowed own) :=
  runCommand_frameTo rfl (fun f t ht => h f t ht ▸ FrameTo_refl _ _)

theorem sampleOwn_frameTo {f : Frame} {t : State} (h : (sampleOwn f s).state? = some t) :
    s.FrameTo [.pool, .nextEvent, .deferred, .nextUid, .replies] t := by
  obtain ⟨ch, c, -, -, -, rfl⟩ := sampleOwn_state h
  exact FrameTo_trans (t := s.defer f.tag (.sample ch)) (frameTo_of_patch rfl)
    (FrameTo_mono (arrive_sample_frameTo _ _ _ _ _) rfl)

theorem startList_frameTo (l : ListId) (c : ListConfig) :
    s.FrameTo [.lists, .runStart, .pool, .nextEvent] (s.startList l c) := by
  have hs : s.FrameTo [.lists, .runStart, .pool, .nextEvent] ((s.setList l ((s.list l).started c)).setRunMark l true) :=
    frameTo_of_patch rfl
  have hc : ∀ t : State, t.FrameTo [.lists, .runStart, .pool, .nextEvent] (t.startCycle l) :=
    fun t => FrameTo_mono (frameTo_of_issuesTo (startCycle_issuesTo t l)) rfl
  unfold State.startList
  dsimp only
  split
  · exact FrameTo_trans hs (hc _)
  · exact FrameTo_trans (FrameTo_trans hs (frameTo_of_patch rfl)) (hc _)
  · exact FrameTo_trans hs (frameTo_of_patch rfl)
  · exact FrameTo_trans hs (frameTo_of_patch rfl)

theorem drainList_frameTo (l : ListId) : s.FrameTo [.lists, .notices] (s.drainList l) := by
  unfold State.drainList
  split
  · exact frameTo_of_patch rfl
  · exact frameTo_of_patch rfl
  · exact FrameTo_refl _ _

theorem abortCore_frameTo (l : ListId) (c : CoreId) :
    s.FrameTo [.cores, .notices, .pool, .lists, .deferred, .replies, .idleSince, .holdOrder, .nextEvent]
      (s.abortCore l c) := by
  unfold State.abortCore
  dsimp only
  split
  · split <;> exact frameTo_of_patch rfl
  · split
    · exact leaveHold_frameTo s c
    · exact FrameTo_refl _ _

/-- The fields that an abort writes. -/
def abortFields : List Field :=
  [.cores, .notices, .pool, .lists, .deferred, .replies, .idleSince, .holdOrder, .nextEvent, .evalQueue, .engine, .blocked]

theorem abortList_frameTo (l : ListId) : s.FrameTo abortFields (s.abortList l) := by
  have hwork : s.FrameTo abortFields (s.abortWork l) := by
    have hcores : s.FrameTo abortFields
        ((List.finRange 4).foldl (State.abortCore l) { s with pool := s.pool.filter (fun r => !r.origin.ofList l) }) :=
      FrameTo_trans (t := { s with pool := s.pool.filter (fun r => !r.origin.ofList l) }) (frameTo_of_patch rfl)
        (foldl_frameTo (fun t c => FrameTo_mono (abortCore_frameTo t l c) rfl) _)
    unfold State.abortWork
    dsimp only
    generalize (List.finRange 4).foldl (State.abortCore l) _ = u at hcores ⊢
    split <;> exact FrameTo_trans hcores (frameTo_of_patch rfl)
  unfold State.abortList
  split
  · exact frameTo_of_patch rfl
  · exact hwork
  · exact hwork
  · exact FrameTo_refl _ _

theorem tables_frameTo {mine : Frame → Bool} {allowed : List Byte → Bool} {own : Frame → State → Answer}
    (h : ∀ f t, (own f s).state? = some t → s.FrameTo [.banks, .session] t) :
    s.FrameTo [.banks, .session, .replies, .slots, .choice] (s.runCommand mine allowed own) :=
  runCommand_frameTo rfl (fun f t ht => FrameTo_mono (h f t ht) rfl)

theorem commit_frameTo (ss : Session) : s.FrameTo [.banks, .session] (s.commit ss) :=
  FrameTo_trans (FrameTo_mono (retireActive_frameTo s ss.table) rfl) (frameTo_of_patch rfl)

/-! ### Rows of the link -/

theorem linkError_frameTo : s.FrameTo [.rx, .notices, .choice] s.linkError := frameTo_of_patch rfl

theorem takeByte_frameTo (b : Byte) : s.FrameTo [.rx, .slots, .notices, .choice] (s.takeByte b) := by
  have herr : ∀ t : State, t.FrameTo [.rx, .slots, .notices, .choice] t.linkError :=
    fun t => FrameTo_mono (linkError_frameTo t) rfl
  unfold State.takeByte
  split
  · unfold State.takeStart
    split
    · exact frameTo_of_patch rfl
    · exact FrameTo_refl _ _
  · unfold State.takeLength
    split
    · exact frameTo_of_patch rfl
    · exact herr s
  · exact frameTo_of_patch rfl
  · unfold State.takeCheck
    split
    · exact frameTo_of_patch rfl
    · unfold State.judge
      split
      · exact herr s
      · split
        · exact herr s
        · split
          · exact herr s
          · unfold State.placeFrame
            split <;> exact frameTo_of_patch rfl

theorem takeBytes_frameTo (bs : List Byte) : s.FrameTo [.rx, .slots, .notices, .choice] (s.takeBytes bs) := by
  unfold State.takeBytes
  split
  · exact FrameTo_refl _ _
  · exact foldl_frameTo takeByte_frameTo bs

/-- The fields that a link reset writes. -/
def linkResetFields : List Field :=
  [.cores, .notices, .pool, .lists, .deferred, .replies, .idleSince, .holdOrder, .nextEvent, .lineLow, .rx, .slots, .credits,
   .tx, .cutByte, .choice, .alarms, .banks, .session]

theorem dropSampleLatch_frameTo (c : CoreId) :
    s.FrameTo [.cores, .notices, .pool, .lists, .deferred, .replies, .idleSince, .holdOrder, .nextEvent]
      (s.dropSampleLatch c) := by
  unfold State.dropSampleLatch
  split
  · exact leaveHold_frameTo s c
  · exact FrameTo_refl _ _

/-- The link side as a link reset leaves it before it reaches the cores (R167, R168). -/
def State.linkCleared (s : State) : State :=
  ({ s with
    lineLow := true, rx := { s.rx.hunting with crc := Config.crcInitial }, slots := []
    pool := s.pool.filter (fun r => !r.origin.isSample), deferred := [], replies := [], credits := 0 } : State).cutFrame

/-- The state after a link reset has reached the cores. -/
def State.latchesDropped (s : State) : State := (List.finRange 4).foldl State.dropSampleLatch s.linkCleared

/-- A link reset in its steps: link side and frame, latches, session, notice (R167). -/
theorem resetLink_eq {s : State} (h : s.lineLow = false) :
    s.resetLink = s.latchesDropped.abandonSession.raise .linkReset := by
  unfold State.resetLink
  rw [h]
  rfl

theorem resetLink_of_low {s : State} (h : s.lineLow = true) : s.resetLink = s := by
  unfold State.resetLink
  rw [h]
  rfl

theorem latchesDropped_frameTo : s.FrameTo [.cores, .notices, .pool, .lists, .deferred, .replies, .idleSince, .holdOrder,
    .nextEvent, .lineLow, .rx, .slots, .credits, .tx, .cutByte, .choice, .alarms] s.latchesDropped :=
  FrameTo_trans (t := s.linkCleared) (frameTo_of_patch rfl)
    (foldl_frameTo (fun t c => FrameTo_mono (dropSampleLatch_frameTo t c) rfl) _)

theorem resetLink_frameTo : s.FrameTo linkResetFields s.resetLink := by
  cases h : s.lineLow with
  | true => rw [resetLink_of_low h]; exact FrameTo_refl _ _
  | false =>
    rw [resetLink_eq h]
    exact FrameTo_trans (FrameTo_trans (FrameTo_mono (latchesDropped_frameTo s) rfl)
      (FrameTo_mono (abandonSession_frameTo _) rfl)) (FrameTo_mono (raise_frameTo _ _) rfl)

theorem beginChosen_frameTo : s.FrameTo [.tx, .choice, .alarms, .notices] s.beginChosen := by
  unfold State.beginChosen
  split
  · exact FrameTo_refl _ _
  · unfold State.beginItem
    split
    · split
      · exact frameTo_of_patch rfl
      · exact FrameTo_refl _ _
    · split
      · exact frameTo_of_patch rfl
      · exact FrameTo_refl _ _
    · split
      · exact frameTo_of_patch rfl
      · exact FrameTo_refl _ _
    · split
      · exact frameTo_of_patch rfl
      · exact FrameTo_refl _ _

/-- The fields that a retirement and the lists' going on write. -/
def retireFields : List Field := [.lists, .pool, .nextEvent, .notices, .channels, .alarms, .reports, .runStart, .blocked]

theorem handOut_frameTo (n : Nat) : s.FrameTo retireFields (s.handOut n) := by
  induction n generalizing s with
  | zero => exact FrameTo_refl _ _
  | succ n ih =>
    unfold State.handOut
    split
    · exact FrameTo_refl _ _
    · rename_i l rest _
      refine FrameTo_trans (FrameTo_trans (FrameTo_trans (t := { s with blocked := rest }) (frameTo_of_patch rfl)
        (FrameTo_mono (frameTo_of_retiresTo (retireHead_retiresTo _ l true)) rfl)) ?_) (ih _)
      unfold State.rejoin
      split
      · exact frameTo_of_patch rfl
      · exact FrameTo_refl _ _

/-! ### Rows of the part -/

theorem grantNext_frameTo : s.FrameTo [.pool, .inputs, .cores, .lists] s.grantNext := by
  unfold State.grantNext
  split
  · exact FrameTo_refl _ _
  · unfold State.grantTo
    split
    · exact FrameTo_refl _ _
    · exact FrameTo_trans (frameTo_of_patch rfl) (FrameTo_mono (setOriginStage_frameTo _ _ _) rfl)

/-- The fields that a core's way out of a conversion or of HOLD writes. -/
def settleFields : List Field :=
  [.cores, .notices, .pool, .lists, .deferred, .replies, .idleSince, .holdOrder, .nextEvent, .evalQueue]

theorem handOff_frameTo (c : CoreId) (k : Core) (p : Params) : s.FrameTo settleFields (s.handOff c k p) := by
  have hsettle : ∀ t : State, s.FrameTo settleFields t → s.FrameTo settleFields (t.settleCore c) :=
    fun t h => FrameTo_trans h (FrameTo_mono (settleCore_frameTo t c) rfl)
  unfold State.handOff
  split
  · exact hsettle _ (FrameTo_mono (outstandingDone_frameTo s _) rfl)
  · split
    · exact hsettle _ (FrameTo_refl _ _)
    · split
      · exact hsettle _ (FrameTo_refl _ _)
      · exact hsettle _ (FrameTo_mono (deliver_frameTo s _ _) rfl)
      · dsimp only
        split
        · exact hsettle _ (FrameTo_mono (joinQueue_frameTo s _) rfl)
        · exact frameTo_of_patch rfl

theorem endDischarge_frameTo (c : CoreId) :
    s.FrameTo (settleFields ++ [.now, .inputs, .freeSince, .choice]) (s.endDischarge c) := by
  unfold State.endDischarge
  dsimp only
  split
  · rename_i p _ _
    refine FrameTo_trans (FrameTo_trans (FrameTo_trans (t := s.advanceTo ((s.core c).phaseStart + Config.dischargeTicks))
      (frameTo_of_patch rfl) ?_) (FrameTo_mono (handOff_frameTo _ c (s.core c) p) rfl)) (frameTo_of_patch rfl)
    unfold State.releaseCore
    dsimp only
    split
    · exact frameTo_of_patch rfl
    · unfold State.releaseInput
      split <;> exact frameTo_of_patch rfl
  · exact FrameTo_refl _ _

/-- The fields that the end of a check pair writes. -/
def pairFields : List Field :=
  [.now, .cores, .notices, .cmdUnit, .idleSince, .nextEvent, .deferred, .replies, .choice]

theorem endPair_frameTo (c : CoreId) (failed : Option Reference) : s.FrameTo pairFields (s.endPair c failed) := by
  have hready : ∀ t : State, t.FrameTo pairFields t.readyIfDone := by
    intro t
    unfold State.readyIfDone
    split
    · exact FrameTo_refl _ _
    · exact frameTo_of_patch rfl
  have hanswer : ∀ (t : State) (x : Option Reference), t.FrameTo pairFields (t.answerRestore c x) := by
    intro t x
    unfold State.answerRestore
    split
    · exact FrameTo_refl _ _
    · exact frameTo_of_patch rfl
  unfold State.endPair
  refine FrameTo_trans ?_ (FrameTo_mono (choose_frameTo _) rfl)
  split
  · unfold State.endStartupPair
    dsimp only
    split
    · exact FrameTo_trans (frameTo_of_patch rfl) (hready _)
    · exact FrameTo_trans (frameTo_of_patch rfl) (hready _)
  · unfold State.endRestorePair
    dsimp only
    split
    · exact FrameTo_trans (FrameTo_trans (frameTo_of_patch rfl) (hanswer _ _)) (frameTo_of_patch rfl)
    · exact FrameTo_trans (frameTo_of_patch rfl) (hanswer _ _)

theorem endCheckDischarge_frameTo (c : CoreId) : s.FrameTo pairFields (s.endCheckDischarge c) := by
  have hpair : ∀ x, s.FrameTo pairFields
      ((s.advanceTo ((s.core c).phaseStart + Config.dischargeTicks)).endPair c x) :=
    fun x => FrameTo_trans (frameTo_of_patch rfl) (endPair_frameTo _ c x)
  unfold State.endCheckDischarge
  dsimp only
  split
  · exact frameTo_of_patch rfl
  · exact hpair _
  · exact hpair _
  · exact hpair _
  · exact FrameTo_refl _ _

theorem expirePeriod_frameTo (l : ListId) : s.FrameTo [.now, .lists, .pool, .nextEvent] (s.expirePeriod l) := by
  unfold State.expirePeriod
  split
  · exact FrameTo_trans (frameTo_of_patch rfl) (FrameTo_mono (frameTo_of_issuesTo (trigger_issuesTo _ l)) rfl)
  · exact FrameTo_refl _ _

theorem serveHold_frameTo : s.FrameTo (settleFields ++ [.choice]) s.serveHold := by
  unfold State.serveHold
  split
  · exact FrameTo_refl _ _
  · split
    · exact FrameTo_refl _ _
    · rename_i c _ _ _ e _
      split
      · exact FrameTo_trans (FrameTo_trans (FrameTo_mono (joinQueue_frameTo s e) rfl)
          (FrameTo_mono (leaveHold_frameTo _ c) rfl)) (FrameTo_mono (choose_frameTo _) rfl)
      · exact FrameTo_refl _ _

theorem startEvaluation_frameTo : s.FrameTo [.banks, .evalQueue, .engine] s.startEvaluation := by
  unfold State.startEvaluation
  split
  · unfold State.holdBank
    dsimp only
    split <;> exact frameTo_of_patch rfl
  · exact FrameTo_refl _ _

theorem completeEvaluation_frameTo :
    s.FrameTo [.lists, .deferred, .replies, .banks, .engine, .choice] s.completeEvaluation := by
  unfold State.completeEvaluation
  split
  · exact FrameTo_refl _ _
  · rename_i e _
    have hresult : s.FrameTo [.lists, .deferred, .replies, .banks, .engine, .choice]
        (s.handResult e (s.evaluationResult e)) := by
      unfold State.handResult
      split
      · exact FrameTo_mono (outstandingDone_frameTo s _) rfl
      · exact FrameTo_mono (deliver_frameTo s _ _) rfl
    refine FrameTo_trans hresult ?_
    unfold State.releaseBank
    split <;> exact frameTo_of_patch rfl

theorem attemptRetire_frameTo (l : ListId) : s.FrameTo (retireFields ++ [.choice]) (s.attemptRetire l) := by
  have hretire : ∀ (t : State) (b : Bool), t.FrameTo (retireFields ++ [.choice]) (t.retireHead l b).choose :=
    fun t b => FrameTo_trans (FrameTo_mono (frameTo_of_retiresTo (retireHead_retiresTo t l b)) rfl)
      (FrameTo_mono (choose_frameTo _) rfl)
  unfold State.attemptRetire
  split
  · exact FrameTo_refl _ _
  · split
    · exact FrameTo_trans (t := { s with blocked := s.blocked.erase l }) (frameTo_of_patch rfl) (hretire _ true)
    · split
      · exact hretire s false
      · split
        · exact FrameTo_refl _ _
        · exact frameTo_of_patch rfl

theorem ite_frameTo {fs : List Field} {p : Prop} [Decidable p] {t : State} (h : s.FrameTo fs t) :
    s.FrameTo fs (if p then t else s) := by
  split
  · exact h
  · exact FrameTo_refl _ _

end

/-! ### The table -/

/-- All fields but the queue of commands, which no row touches. -/
def allButPending : List Field :=
  [.now, .bitRate, .cores, .inputs, .channels, .lists, .pool, .nextEvent, .idleSince, .freeSince, .evalQueue, .holdOrder,
   .engine, .banks, .session, .alarms, .reports, .credits, .blocked, .runStart, .rx, .slots, .lineLow, .cmdUnit, .deferred,
   .nextUid, .replies, .notices, .tx, .cutByte, .choice]

/-- The fields that a row may write. -/
def touched : Instr → List Field
  | .powerOnReset _ | .partReset _ => allButPending
  | .identify | .getStatus | .getChannel | .getList | .getTable | .unknownCommand => [.replies, .slots, .choice]
  | .resetPart => [.cmdUnit, .replies, .slots, .choice]
  | .grantCredits => [.credits, .replies, .slots, .choice]
  | .setChannel | .clearChannel => [.channels, .replies, .slots, .choice]
  | .sample => [.pool, .nextEvent, .deferred, .nextUid, .replies, .slots, .choice]
  | .setList | .clearList => [.lists, .runStart, .replies, .slots, .choice]
  | .startList => [.lists, .runStart, .pool, .nextEvent, .replies, .slots, .choice]
  | .stopListDrain => [.lists, .notices, .replies, .slots, .choice]
  | .stopListAbort => abortFields ++ [.slots, .choice]
  | .triggerList => [.lists, .pool, .nextEvent, .replies, .slots, .choice]
  | .beginTable | .loadSegments | .commitTable | .abandonTable | .dropTable => [.banks, .session, .replies, .slots, .choice]
  | .takeCoreOffline => [.cores, .notices, .pool, .lists, .deferred, .replies, .slots, .choice]
  | .restoreCore => [.cores, .deferred, .nextUid, .replies, .slots, .choice]
  | .frameReceived _ | .startByte | .lengthOutOfRange _ => [.rx, .slots, .notices, .choice]
  | .incompletenessTimeout => [.now, .rx, .notices, .choice]
  | .framingError => [.rx, .notices, .choice]
  | .linkReset => linkResetFields
  | .lineReturnsHigh => [.lineLow, .choice]
  | .transmitFrameBegin => [.tx, .choice, .alarms, .notices]
  | .replyFrameSent => [.tx, .cutByte, .choice, .replies]
  | .reportFrameSent => retireFields ++ [.tx, .cutByte, .choice, .credits]
  | .alarmFrameSent => [.tx, .cutByte, .choice, .alarms]
  | .noticeFrameSent => [.tx, .cutByte, .choice, .notices]
  | .grant => [.pool, .inputs, .cores, .lists]
  | .settleEnd _ | .refPhaseComplete _ _ | .refPhaseTimeout _ | .sensePhaseComplete _ _ | .sensePosComplete _ _
  | .senseNegComplete _ _ | .senseTimeout _ | .checkPeriodsComplete _ _ | .checkLimitExpiry _ => [.now, .cores]
  | .dischargeEnd _ => settleFields ++ [.now, .inputs, .freeSince, .choice]
  | .checkDischargeEnd _ => pairFields
  | .restEnd _ => [.now, .inputs, .freeSince, .nextEvent]
  | .periodExpiry _ => [.now, .lists, .pool, .nextEvent]
  | .holdServed => settleFields ++ [.choice]
  | .evaluationStart => [.banks, .evalQueue, .engine]
  | .evaluationComplete => [.lists, .deferred, .replies, .banks, .engine, .choice]
  | .retire _ => retireFields ++ [.choice]
  | .abortComplete _ => [.lists, .notices, .choice]
  | .sessionIdleTimeout => [.now, .banks, .session, .notices, .choice]

/-- Every row writes only what the table names. -/
theorem after_frameTo (c : Instr) (s : State) : s.FrameTo (touched c) (s.after c) := by
  cases c with
  | powerOnReset straps => exact frameTo_of_patch rfl
  | partReset straps => exact ite_frameTo s (frameTo_of_patch rfl)
  | identify => exact runCommand_frameTo_of_reads s (fun f t h => by cases h; rfl)
  | getStatus => exact runCommand_frameTo_of_reads s (fun f t h => by cases h; rfl)
  | getChannel => exact runCommand_frameTo_of_reads s (fun f t h => getChannelOwn_state h)
  | getList => exact runCommand_frameTo_of_reads s (fun f t h => getListOwn_state h)
  | getTable => exact runCommand_frameTo_of_reads s (fun f t h => getTableOwn_state h)
  | unknownCommand => exact runCommand_frameTo_of_reads s (fun f t h => by cases h)
  | resetPart => exact runCommand_frameTo rfl (fun f t h => by cases h; exact frameTo_of_patch rfl)
  | grantCredits =>
    refine runCommand_frameTo rfl (fun f t h => ?_)
    obtain ⟨n, rfl, -⟩ := grantCreditsOwn_state h
    exact frameTo_of_patch rfl
  | setChannel =>
    refine runCommand_frameTo rfl (fun f t h => ?_)
    obtain ⟨ch, c, -, rfl⟩ := setChannelOwn_state h
    exact frameTo_of_patch rfl
  | clearChannel =>
    refine runCommand_frameTo rfl (fun f t h => ?_)
    rcases clearChannelOwn_state h with rfl | ⟨ch, -, rfl⟩
    · exact FrameTo_refl _ _
    · exact frameTo_of_patch rfl
  | sample => exact runCommand_frameTo rfl (fun f t h => FrameTo_mono (sampleOwn_frameTo s h) rfl)
  | setList =>
    refine runCommand_frameTo rfl (fun f t h => ?_)
    obtain ⟨l, c, -, -, -, -, -, rfl⟩ := setListOwn_state h
    exact frameTo_of_patch rfl
  | clearList =>
    refine runCommand_frameTo rfl (fun f t h => ?_)
    rcases clearListOwn_state h with rfl | ⟨l, -, -, rfl⟩
    · exact FrameTo_refl _ _
    · exact frameTo_of_patch rfl
  | startList =>
    refine runCommand_frameTo rfl (fun f t h => ?_)
    obtain ⟨l, c, -, -, rfl⟩ := startListOwn_state h
    exact FrameTo_mono (startList_frameTo s l c) rfl
  | stopListDrain =>
    refine runCommand_frameTo rfl (fun f t h => ?_)
    obtain ⟨l, -, rfl⟩ := stopListDrainOwn_state h
    exact FrameTo_mono (drainList_frameTo s l) rfl
  | stopListAbort =>
    refine runCommand_frameTo rfl (fun f t h => ?_)
    obtain ⟨l, -, rfl⟩ := stopListAbortOwn_state h
    exact FrameTo_mono (abortList_frameTo s l) rfl
  | triggerList =>
    refine runCommand_frameTo rfl (fun f t h => ?_)
    obtain ⟨l, c, -, rfl⟩ := triggerListOwn_state h
    exact FrameTo_mono (frameTo_of_issuesTo (trigger_issuesTo s l)) rfl
  | beginTable =>
    refine tables_frameTo s (fun f t h => ?_)
    obtain ⟨id, n, b, -, -, -, rfl⟩ := beginTableOwn_state h
    exact frameTo_of_patch rfl
  | loadSegments =>
    refine tables_frameTo s (fun f t h => ?_)
    obtain ⟨ss, first, gs, -, -, rfl⟩ := loadSegmentsOwn_state h
    exact frameTo_of_patch rfl
  | commitTable =>
    refine tables_frameTo s (fun f t h => ?_)
    obtain ⟨ss, -, -, -, rfl⟩ := commitTableOwn_state h
    exact commit_frameTo s ss
  | abandonTable => exact tables_frameTo s (fun f t h => abandonTableOwn_state h ▸ abandonSession_frameTo s)
  | dropTable =>
    refine tables_frameTo s (fun f t h => ?_)
    obtain ⟨id, rfl⟩ := dropTableOwn_state h
    exact FrameTo_mono (retireActive_frameTo s id) rfl
  | takeCoreOffline =>
    refine runCommand_frameTo rfl (fun f t h => ?_)
    rcases takeCoreOfflineOwn_state h with rfl | ⟨c, ⟨-, rfl⟩ | rfl⟩
    · exact FrameTo_refl _ _
    · exact FrameTo_mono (enterOffline_frameTo s c _) rfl
    · exact frameTo_of_patch rfl
  | restoreCore =>
    refine runCommand_frameTo rfl (fun f t h => ?_)
    obtain ⟨c, -, -, -, rfl⟩ := restoreCoreOwn_state h
    exact frameTo_of_patch rfl
  | frameReceived bytes => exact takeBytes_frameTo s bytes
  | startByte => exact ite_frameTo s (takeBytes_frameTo s _)
  | lengthOutOfRange len => exact ite_frameTo s (takeBytes_frameTo s _)
  | incompletenessTimeout =>
    show s.FrameTo _ s.expireFrame
    unfold State.expireFrame
    split
    · exact FrameTo_refl _ _
    · exact frameTo_of_patch rfl
  | framingError =>
    show s.FrameTo _ (if s.lineLow then s else s.linkError)
    split
    · exact FrameTo_refl _ _
    · exact linkError_frameTo s
  | linkReset => exact resetLink_frameTo s
  | lineReturnsHigh => exact frameTo_of_patch rfl
  | transmitFrameBegin => exact ite_frameTo s (beginChosen_frameTo s)
  | replyFrameSent => exact ite_frameTo s (frameTo_of_patch rfl)
  | alarmFrameSent => exact ite_frameTo s (frameTo_of_patch rfl)
  | noticeFrameSent => exact ite_frameTo s (frameTo_of_patch rfl)
  | reportFrameSent =>
    show s.FrameTo _ s.reportSent
    unfold State.reportSent
    split
    · rename_i n _
      exact FrameTo_trans (FrameTo_trans
        (t := { s with tx := none, cutByte := none, reports := s.reports.drop n, credits := s.credits - n })
        (frameTo_of_patch rfl) (FrameTo_mono (handOut_frameTo _ _) rfl)) (FrameTo_mono (choose_frameTo _) rfl)
    · exact FrameTo_refl _ _
  | grant => exact grantNext_frameTo s
  | settleEnd core => exact PhaseTo_frameTo (endSettle_phaseTo s core)
  | refPhaseComplete core count => exact PhaseTo_frameTo (completeRef_phaseTo s core count)
  | refPhaseTimeout core => exact PhaseTo_frameTo (timeoutRef_phaseTo s core)
  | sensePhaseComplete core count => exact PhaseTo_frameTo (completeSense_phaseTo s core count)
  | sensePosComplete core count => exact PhaseTo_frameTo (completeForward_phaseTo s core count)
  | senseNegComplete core count => exact PhaseTo_frameTo (completeReverse_phaseTo s core count)
  | senseTimeout core => exact PhaseTo_frameTo (timeoutSense_phaseTo s core)
  | checkPeriodsComplete core count => exact ite_frameTo s (frameTo_of_patch rfl)
  | checkLimitExpiry core => exact ite_frameTo s (frameTo_of_patch rfl)
  | dischargeEnd core => exact endDischarge_frameTo s core
  | checkDischargeEnd core => exact endCheckDischarge_frameTo s core
  | restEnd input =>
    show s.FrameTo _ (s.endRest input)
    unfold State.endRest
    split
    · exact frameTo_of_patch rfl
    · exact FrameTo_refl _ _
  | periodExpiry list => exact expirePeriod_frameTo s list
  | holdServed => exact serveHold_frameTo s
  | evaluationStart => exact startEvaluation_frameTo s
  | evaluationComplete => exact completeEvaluation_frameTo s
  | retire list => exact attemptRetire_frameTo s list
  | abortComplete list => exact ite_frameTo s (frameTo_of_patch rfl)
  | sessionIdleTimeout =>
    show s.FrameTo _ s.expireSession
    unfold State.expireSession
    split
    · exact FrameTo_refl _ _
    · rename_i ss _
      exact FrameTo_trans (FrameTo_trans (t := s.advanceTo ss.expiry) (frameTo_of_patch rfl)
        (FrameTo_mono (abandonSession_frameTo _) rfl)) (frameTo_of_patch rfl)

/-- A row leaves a field that the table does not name for it as it was. -/
theorem same_of_untouched {c : Instr} {F : Field} (h : (touched c).contains F = false) (s : State) : F.Same s (s.after c) :=
  after_frameTo c s F h

end Sys2Proof.Machine
end

