-- ==== Sys2Proof/Proofs/TableBanks.lean ====
section
/-! PROOF. Banks, session and engine reference stay in agreement, and tables in service stay complete (R107 to R110). -/

-- One proof after another, as in the tests: side by side they take more threads than memory allows.
set_option Elab.async false

namespace Sys2Proof.Machine

open Sys2Proof.Safety

variable {s t : State}

/-! ### What the banks' invariants depend on -/

theorem BanksSound_congr (hb : t.banks = s.banks) (hs : t.session = s.session)
    (he : ∀ b, References t b ↔ References s b) (h : BanksSound s) : BanksSound t := by
  unfold BanksSound State.bank at *
  simpa only [hb, hs, he] using h

theorem references_congr (h : t.engine = s.engine) (b : BankId) : References t b ↔ References s b := by
  simp only [References, h]

/-- Where banks, session and engine are not written. -/
theorem BanksSound_frame {fs : List Field} (hf : s.FrameTo fs t) (h : BanksSound s) (hb : fs.contains .banks = false := by rfl)
    (hs : fs.contains .session = false := by rfl) (he : fs.contains .engine = false := by rfl) : BanksSound t :=
  BanksSound_congr (hf .banks hb) (hf .session hs) (references_congr (hf .engine he)) h

theorem TablesSound_congr (hb : t.banks = s.banks) (hs : t.session = s.session) (h : TablesSound s) : TablesSound t := by
  unfold TablesSound State.bank at *
  simpa only [hb, hs] using h

/-! ### The operations on banks -/

/-- With no evaluation in progress no bank is referenced. -/
theorem not_references_of_free (h : s.engine = none) (b : BankId) : ¬ References s b := by
  rintro ⟨e, he, -⟩
  rw [h] at he
  cases he

theorem lowestFreeBank_spec {b : BankId} (h : s.lowestFreeBank = some b) : (s.bank b).state = .free := by
  simpa using List.find?_some h

/-- BEGIN_TABLE's bank was FREE, so it held nothing and was not referenced. -/
theorem BanksSound_openSession (h : BanksSound s) {b : BankId} (hopen : s.session = none) (hb : (s.bank b).state = .free)
    (id : TableId) (n : Nat) : BanksSound (s.openSession id n b) := by
  obtain ⟨hstaging, hsession, honly, hheld, hinService, hretiring, hfree⟩ := h
  have hr : ∀ x, References (s.openSession id n b) x ↔ References s x := references_congr rfl
  have hnot : (s.bank b).held = false := by rw [hfree b hb]; rfl
  have hx : ∀ x, (s.openSession id n b).bank x =
      if b = x then { state := .staging, table := some id, places := List.replicate n none, held := false } else s.bank x :=
    fun x => State.bank_setBank s b x _
  have hs : (s.openSession id n b).session =
      some { table := id, bank := b, count := n, received := [], expiry := s.sessionExpiry } := rfl
  simp only [BanksSound, hx, hs, hr]
  grind

theorem length_storeSegments (first : Nat) (gs : List Segment) (places : List (Option Segment)) :
    (storeSegments first gs places).length = places.length := by
  unfold storeSegments
  induction gs.zipIdx first generalizing places with
  | nil => rfl
  | cons g rest ih => rw [List.foldl_cons, ih, List.length_set]

/-- LOAD_SEGMENTS writes places of the staging bank and no mark. -/
theorem BanksSound_storeInSession (h : BanksSound s) {ss : Session} (hss : s.session = some ss) (first : Nat)
    (gs : List Segment) : BanksSound (s.storeInSession ss first gs) := by
  obtain ⟨hstaging, hsession, honly, hheld, hinService, hretiring, hfree⟩ := h
  have hr : ∀ x, References (s.storeInSession ss first gs) x ↔ References s x := references_congr rfl
  have hx : ∀ x, (s.storeInSession ss first gs).bank x =
      if ss.bank = x then { s.bank ss.bank with places := storeSegments first gs (s.bank ss.bank).places } else s.bank x :=
    fun x => State.bank_setBank s ss.bank x _
  have hs : (s.storeInSession ss first gs).session = some { ss with
      received := (List.range' first gs.length).foldl receiveIndex ss.received, expiry := s.sessionExpiry } := rfl
  have hlen := length_storeSegments first gs (s.bank ss.bank).places
  simp only [BanksSound, hx, hs, hr]
  grind

/-- The staging bank goes back to FREE; it was not held. -/
theorem BanksSound_abandonSession (h : BanksSound s) : BanksSound s.abandonSession := by
  obtain ⟨hstaging, hsession, honly, hheld, hinService, hretiring, hfree⟩ := h
  unfold State.abandonSession
  split
  · exact ⟨hstaging, hsession, honly, hheld, hinService, hretiring, hfree⟩
  · rename_i ss hss
    have hr : ∀ x, References { s.setBank ss.bank Bank.freeBank with session := none } x ↔ References s x :=
      references_congr rfl
    have hx : ∀ x, ({ s.setBank ss.bank Bank.freeBank with session := none } : State).bank x =
      if ss.bank = x then Bank.freeBank else s.bank x := fun x => State.bank_setBank s ss.bank x _
    simp only [BanksSound, hx, hr]
    grind [Bank.freeBank]

/-- A bank that leaves ACTIVE stays RETIRING exactly while it is referenced (R114). -/
theorem BanksSound_retireActive (h : BanksSound s) (id : TableId) : BanksSound (s.retireActive id) := by
  obtain ⟨hstaging, hsession, honly, hheld, hinService, hretiring, hfree⟩ := h
  unfold State.retireActive
  split
  · exact ⟨hstaging, hsession, honly, hheld, hinService, hretiring, hfree⟩
  · rename_i b hb
    have hactive := (activeBank_spec s hb).1
    have hr : ∀ x, References (s.setBank b (s.bank b).outOfService) x ↔ References s x := references_congr rfl
    simp only [BanksSound, State.bank_setBank, State.setBank_session, hr]
    grind [Bank.freeBank, Bank.outOfService]

/-- After the old bank has left ACTIVE no bank is ACTIVE for the id. -/
theorem noActive_retireActive (h : BanksSound s) (id : TableId) : NoActive (s.retireActive id) id := by
  obtain ⟨-, -, honly, -⟩ := h
  intro x ⟨hstate, htable⟩
  unfold State.retireActive at hstate htable
  split at hstate
  · rename_i hn
    simp only [hn] at htable
    have hx := List.find?_eq_none.mp hn x (List.mem_finRange x)
    simp [hstate, htable] at hx
  · rename_i b hb
    simp only [hb] at htable
    obtain ⟨h1, h2⟩ := activeBank_spec s hb
    simp only [State.bank_setBank] at hstate htable
    grind [Bank.freeBank, Bank.outOfService]

/-- The staging bank of a session is not the one that leaves ACTIVE. -/
theorem bank_retireActive_of_staging {b : BankId} (hb : (s.bank b).state = .staging) (id : TableId) :
    (s.retireActive id).bank b = s.bank b := by
  unfold State.retireActive
  split
  · rfl
  · rename_i x hx
    have := (activeBank_spec s hx).1
    rw [State.bank_setBank, if_neg]
    rintro rfl
    rw [hb] at this
    cases this

theorem retireActive_session (s : State) (id : TableId) : (s.retireActive id).session = s.session :=
  retireActive_frameTo s id .session rfl

theorem BanksSound_commit (h : BanksSound s) {ss : Session} (hss : s.session = some ss) : BanksSound (s.commit ss) := by
  have hst : (s.bank ss.bank).state = .staging := (h.1 ss.bank).mpr ⟨ss, hss, rfl⟩
  have hno := noActive_retireActive h ss.table
  have hbank := bank_retireActive_of_staging hst ss.table
  have hsess := retireActive_session s ss.table
  have h' := BanksSound_retireActive h ss.table
  unfold State.commit
  dsimp only
  generalize s.retireActive ss.table = u at hno hbank hsess h' ⊢
  obtain ⟨hstaging, hsession, honly, hheld, hinService, hretiring, hfree⟩ := h'
  have hr : ∀ x, References { u.setBank ss.bank { u.bank ss.bank with state := .active } with session := none } x ↔
      References u x := references_congr rfl
  have hx : ∀ x, ({ u.setBank ss.bank { u.bank ss.bank with state := .active } with session := none } : State).bank x =
      if ss.bank = x then { u.bank ss.bank with state := .active } else u.bank x := fun x => State.bank_setBank u ss.bank x _
  simp only [BanksSound, hx, hr]
  grind

/-- What the start of an evaluation does to banks and engine (R94, R95). -/
theorem startEvaluation_cases (s : State) : s.startEvaluation = s ∨
    ∃ (e : RatioEntry) (rest : List RatioEntry) (x : Evaluation), s.engine = none ∧ s.evalQueue = e :: rest ∧
      x.origin = e.origin ∧ x.void = false ∧ x.bank = s.bankFor (s.tableOfChannel e.channel) ∧
      s.startEvaluation = { s.holdBank x.bank with evalQueue := rest, engine := some x } := by
  unfold State.startEvaluation
  split
  · rename_i e rest he hq
    exact .inr ⟨e, rest, {
      origin := e.origin, channel := e.channel, ratio := e.ratio, table := s.tableOfChannel e.channel
      bank := s.bankFor (s.tableOfChannel e.channel), void := false
      progress := s.progressIn e.ratio (s.bankFor (s.tableOfChannel e.channel)) }, he, hq, rfl, rfl, rfl, rfl⟩
  · exact .inl rfl

/-- The bank that an evaluation references is ACTIVE at its start. -/
theorem bankFor_active {o : Option TableId} {b : BankId} (h : s.bankFor o = some b) : (s.bank b).state = .active := by
  unfold State.bankFor at h
  split at h
  · cases h
  · exact (activeBank_spec s h).1

/-- The engine references the ACTIVE bank from its start on, and no bank before. -/
theorem BanksSound_startEvaluation (h : BanksSound s) : BanksSound s.startEvaluation := by
  rcases startEvaluation_cases s with heq | ⟨e, rest, x, hengine, -, -, -, hbank, heq⟩ <;> rw [heq]
  · exact h
  · have hnone := not_references_of_free hengine
    cases hb : x.bank with
    | none =>
      refine BanksSound_congr (s := s) rfl rfl (fun b => ?_) h
      simp [References, hb, hengine]
    | some b =>
      have hactive := bankFor_active (hbank ▸ hb)
      obtain ⟨hstaging, hsession, honly, hheld, hinService, hretiring, hfree⟩ := h
      generalize hu : ({ s.holdBank (some b) with evalQueue := rest, engine := some x } : State) = u
      have hx : ∀ y, u.bank y = if b = y then { s.bank b with held := true } else s.bank y := by
        subst hu
        exact fun y => State.bank_setBank s b y _
      have hs : u.session = s.session := by subst hu; rfl
      have hr : ∀ y, References u y ↔ b = y := by
        subst hu
        simp [References, hb]
      simp only [BanksSound, hx, hs, hr]
      grind

theorem handResult_frameTo (s : State) (e : Evaluation) (r : Result) :
    s.FrameTo [.lists, .deferred, .replies] (s.handResult e r) := by
  unfold State.handResult
  split
  · exact FrameTo_mono (outstandingDone_frameTo s _) rfl
  · exact deliver_frameTo s _ _

/-- The end of an evaluation: its bank was the only one held (R108). -/
theorem BanksSound_completeEvaluation (h : BanksSound s) : BanksSound s.completeEvaluation := by
  unfold State.completeEvaluation
  split
  · exact h
  · rename_i e hengine
    have hf := handResult_frameTo s e (s.evaluationResult e)
    have h' : BanksSound (s.handResult e (s.evaluationResult e)) :=
      BanksSound_frame hf h
    have hengine' : (s.handResult e (s.evaluationResult e)).engine = some e := (hf .engine rfl).trans hengine
    generalize s.handResult e (s.evaluationResult e) = v at h' hengine'
    obtain ⟨hstaging, hsession, honly, hheld, hinService, hretiring, hfree⟩ := h'
    have hv : ∀ b, References v b ↔ e.bank = some b := by simp [References, hengine']
    simp only [hv] at hheld
    generalize hu : ({ v.releaseBank e.bank with engine := none } : State).choose = u
    have hs : u.session = v.session := by
      subst hu
      cases e.bank <;> rfl
    have hr : ∀ y, ¬ References u y := by
      subst hu
      exact not_references_of_free rfl
    have hx : ∀ y, u.bank y = if e.bank = some y then (v.bank y).dropReference else v.bank y := by
      subst hu
      intro y
      cases hb : e.bank with
      | none => rfl
      | some b =>
        refine (State.bank_setBank v b y _).trans ?_
        by_cases hy : b = y <;> simp [hy]
    simp only [BanksSound, hx, hs, hr, iff_false]
    grind [Bank.dropReference, Bank.freeBank]

/-! ### Every row -/

/-- An abort marks the evaluation void and leaves its bank reference as it is (R102). -/
theorem references_voidFor (l : ListId) (h : t.engine = s.engine.map (Evaluation.voidFor l)) (b : BankId) :
    References t b ↔ References s b := by
  have hbank : ∀ e : Evaluation, (e.voidFor l).bank = e.bank := by
    intro e
    unfold Evaluation.voidFor
    split <;> rfl
  simp only [References, h, Option.map_eq_some_iff]
  constructor
  · rintro ⟨_, ⟨e, he, rfl⟩, hb⟩
    exact ⟨e, he, hbank e ▸ hb⟩
  · rintro ⟨e, he, hb⟩
    exact ⟨_, ⟨e, he, rfl⟩, (hbank e).trans hb⟩

/-- An abort marks the evaluation of the list void, or leaves the engine as it is. -/
theorem abortList_engine (s : State) (l : ListId) :
    (s.abortList l).engine = s.engine ∨ (s.abortList l).engine = s.engine.map (Evaluation.voidFor l) := by
  have hwork : (s.abortWork l).engine = s.engine.map (Evaluation.voidFor l) := by
    have hcores : ((List.finRange 4).foldl (State.abortCore l)
        { s with pool := s.pool.filter (fun r => !r.origin.ofList l) }).engine = s.engine :=
      foldl_frameTo (fun t c => abortCore_frameTo t l c) _ .engine rfl
    unfold State.abortWork
    dsimp only
    split <;> exact congrArg (Option.map (Evaluation.voidFor l)) hcores
  unfold State.abortList
  split
  · exact .inl rfl
  · exact .inr hwork
  · exact .inr hwork
  · exact .inl rfl

theorem BanksSound_abortList (h : BanksSound s) (l : ListId) : BanksSound (s.abortList l) := by
  have hf := abortList_frameTo s l
  refine BanksSound_congr (hf .banks rfl) (hf .session rfl) (fun b => ?_) h
  rcases abortList_engine s l with he | he
  · exact references_congr he b
  · exact references_voidFor l he b

theorem BanksSound_reset (s : State) (straps : BitVec 2) : BanksSound (s.powerOn straps) := by
  have hbank : ∀ b, (s.powerOn straps).bank b = Bank.freeBank := fun b => by
    simp [State.bank, State.powerOn, State.reset, Vector.get_eq_getElem]
  have hr : ∀ b, ¬ References (s.powerOn straps) b := not_references_of_free rfl
  have hs : (s.powerOn straps).session = none := rfl
  simp only [BanksSound, hbank, hr, hs]
  simp [Bank.freeBank]

theorem BanksSound_resetLink (h : BanksSound s) : BanksSound s.resetLink := by
  cases hl : s.lineLow with
  | true => rwa [resetLink_of_low hl]
  | false =>
    rw [resetLink_eq hl]
    exact BanksSound_frame (raise_frameTo _ _) (BanksSound_abandonSession (BanksSound_frame (latchesDropped_frameTo s) h))

/-- Every row keeps banks, session and engine reference in agreement. -/
theorem BanksSound_after (c : Instr) (h : BanksSound s) : BanksSound (s.after c) := by
  have hown : ∀ {mine : Frame → Bool} {allowed : List Byte → Bool} {own : Frame → State → Answer},
      (∀ f t, (own f s).state? = some t → BanksSound t) → BanksSound (s.runCommand mine allowed own) :=
    fun ho => runCommand_keeps (fun t _ _ _ ht => ht) h ho
  cases c
  case powerOnReset straps => exact BanksSound_reset s straps
  case partReset straps =>
    show BanksSound (if s.resetDue then s.powerOn straps else s)
    split
    · exact BanksSound_reset s straps
    · exact h
  case stopListAbort =>
    refine hown (fun f t ht => ?_)
    obtain ⟨l, -, rfl⟩ := stopListAbortOwn_state ht
    exact BanksSound_abortList h l
  case beginTable =>
    refine hown (fun f t ht => ?_)
    obtain ⟨id, n, b, -, hopen, hb, rfl⟩ := beginTableOwn_state ht
    exact BanksSound_openSession h hopen (lowestFreeBank_spec hb) id n
  case loadSegments =>
    refine hown (fun f t ht => ?_)
    obtain ⟨ss, first, gs, hss, -, rfl⟩ := loadSegmentsOwn_state ht
    exact BanksSound_storeInSession h hss first gs
  case commitTable =>
    refine hown (fun f t ht => ?_)
    obtain ⟨ss, hss, -, -, rfl⟩ := commitTableOwn_state ht
    exact BanksSound_commit h hss
  case abandonTable => exact hown (fun f t ht => abandonTableOwn_state ht ▸ BanksSound_abandonSession h)
  case dropTable =>
    refine hown (fun f t ht => ?_)
    obtain ⟨id, rfl⟩ := dropTableOwn_state ht
    exact BanksSound_retireActive h id
  case linkReset => exact BanksSound_resetLink h
  case evaluationStart => exact BanksSound_startEvaluation h
  case evaluationComplete => exact BanksSound_completeEvaluation h
  case sessionIdleTimeout =>
    show BanksSound s.expireSession
    unfold State.expireSession
    split
    · exact h
    · rename_i ss _
      exact BanksSound_frame (choose_frameTo _)
        (BanksSound_frame (raise_frameTo _ _) (BanksSound_abandonSession (s := s.advanceTo ss.expiry) h))
  all_goals exact BanksSound_frame (after_frameTo _ s) h

/-- Settles O55: every row keeps the agreement, and the idle tick touches none of it. -/
theorem banksStaySound : Obligations.BanksStaySound :=
  kept_of_rows (fun _ _ h => h) (fun s h => by
    unfold State.idle
    split <;> exact h) (fun c _ h => BanksSound_after c h)

/-! ### Table contents -/

/-- Where banks and session are not written. -/
theorem TablesSound_frame {fs : List Field} (hf : s.FrameTo fs t) (h : TablesSound s)
    (hb : fs.contains .banks = false := by rfl) (hs : fs.contains .session = false := by rfl) : TablesSound t :=
  TablesSound_congr (hf .banks hb) (hf .session hs) h

/-- A place that LOAD_SEGMENTS names holds its segment, and every other place is as it was (R112). -/
theorem getElem?_storeSegments {first : Nat} {gs : List Segment} {places : List (Option Segment)}
    (hfit : first + gs.length ≤ places.length) (i : Nat) :
    (storeSegments first gs places)[i]? = if first ≤ i ∧ i < first + gs.length then some gs[i - first]? else places[i]? := by
  unfold storeSegments
  induction gs generalizing first places with
  | nil => simp only [List.zipIdx_nil, List.foldl_nil, List.length_nil, Nat.add_zero]; rw [if_neg (by omega)]
  | cons g gs ih =>
    rw [List.length_cons] at hfit
    rw [List.zipIdx_cons, List.foldl_cons, ih (by rw [List.length_set]; omega), List.getElem?_set, List.length_cons]
    by_cases hi : first = i
    · subst hi
      rw [if_neg (by omega), if_pos rfl, if_pos (by omega), if_pos (by omega)]
      simp
    · rw [if_neg hi]
      by_cases hr : first + 1 ≤ i ∧ i < first + 1 + gs.length
      · rw [if_pos hr, if_pos (by omega), show i - first = (i - (first + 1)) + 1 by omega, List.getElem?_cons_succ]
      · rw [if_neg hr, if_neg (by omega)]

theorem mem_receiveIndex {r : List Nat} {i j : Nat} : j ∈ receiveIndex r i ↔ j ∈ r ∨ j = i := by
  unfold receiveIndex
  split
  · exact ⟨.inl, fun h => h.elim (fun h => h) (fun h => h ▸ ‹_›)⟩
  · rw [List.mem_append, List.mem_singleton]

theorem nodup_receiveIndex {r : List Nat} (h : r.Nodup) (i : Nat) : (receiveIndex r i).Nodup := by
  unfold receiveIndex
  split
  · exact h
  · exact List.nodup_append.mpr ⟨h, List.nodup_singleton i, by rintro a ha b hb rfl; simp_all⟩

/-- The received-set takes in exactly the indices of the payload, each once (R112). -/
theorem mem_foldl_receiveIndex {xs r : List Nat} {j : Nat} : j ∈ xs.foldl receiveIndex r ↔ j ∈ r ∨ j ∈ xs := by
  induction xs generalizing r with
  | nil => simp
  | cons x xs ih => rw [List.foldl_cons, ih, mem_receiveIndex, List.mem_cons, or_assoc]

theorem nodup_foldl_receiveIndex {xs r : List Nat} (h : r.Nodup) : (xs.foldl receiveIndex r).Nodup := by
  induction xs generalizing r with
  | nil => exact h
  | cons x xs ih => exact ih (nodup_receiveIndex h x)

theorem TablesSound_openSession (h : TablesSound s) {n : Nat} (hn : 1 ≤ n ∧ n ≤ 16) (id : TableId) (b : BankId) :
    TablesSound (s.openSession id n b) := by
  obtain ⟨hrising, hlength, hreceived⟩ := h
  have hx : ∀ x, (s.openSession id n b).bank x =
      if b = x then { state := .staging, table := some id, places := List.replicate n none, held := false } else s.bank x :=
    fun x => State.bank_setBank s b x _
  have hs : (s.openSession id n b).session =
      some { table := id, bank := b, count := n, received := [], expiry := s.sessionExpiry } := rfl
  refine ⟨?_, ?_, ?_⟩
  · intro x
    rw [hx]
    split
    · simp
    · exact hrising x
  · intro x
    rw [hx]
    split
    · simpa using hn
    · exact hlength x
  · rintro ss hss
    rw [hs] at hss
    cases hss
    simp [hx, List.getElem?_replicate]

/-- The staging bank is in no service, and its places are those of the session's count. -/
theorem TablesSound_storeInSession (hbanks : BanksSound s) (h : TablesSound s) {ss : Session} (hss : s.session = some ss)
    {first : Nat} {gs : List Segment} (hfit : first + gs.length ≤ ss.count) : TablesSound (s.storeInSession ss first gs) := by
  obtain ⟨hrising, hlength, hreceived⟩ := h
  have hstaging : (s.bank ss.bank).state = .staging := (hbanks.1 ss.bank).mpr ⟨ss, hss, rfl⟩
  have hcount : (s.bank ss.bank).places.length = ss.count := (hbanks.2.1 ss hss).2
  have hx : ∀ x, (s.storeInSession ss first gs).bank x =
      if ss.bank = x then { s.bank ss.bank with places := storeSegments first gs (s.bank ss.bank).places } else s.bank x :=
    fun x => State.bank_setBank s ss.bank x _
  refine ⟨?_, ?_, ?_⟩
  · intro x
    rw [hx]
    split
    · simp [hstaging]
    · exact hrising x
  · intro x
    rw [hx]
    split
    · rename_i hb
      simpa [length_storeSegments] using fun _ => hlength ss.bank (by rw [hstaging]; decide)
    · exact hlength x
  · rintro ss' hss'
    cases hss'
    obtain ⟨hnodup, hmem⟩ := hreceived ss hss
    refine ⟨nodup_foldl_receiveIndex hnodup, fun i => ?_⟩
    simp only [hx, if_true, mem_foldl_receiveIndex, hmem, List.mem_range'_1]
    rw [getElem?_storeSegments (by omega)]
    split
    · rename_i hi
      have hin : gs[i - first]? = some (gs[i - first]'(by omega)) := List.getElem?_eq_getElem (by omega)
      simp [hi, hin]
    · rename_i hi
      simp [hi]

theorem TablesSound_abandonSession (h : TablesSound s) : TablesSound s.abandonSession := by
  obtain ⟨hrising, hlength, hreceived⟩ := id h
  unfold State.abandonSession
  split
  · exact h
  · rename_i ss _
    have hx : ∀ x, ({ s.setBank ss.bank Bank.freeBank with session := none } : State).bank x =
      if ss.bank = x then Bank.freeBank else s.bank x := fun x => State.bank_setBank s ss.bank x _
    simp only [TablesSound, hx]
    grind [Bank.freeBank]

theorem TablesSound_retireActive (hbanks : BanksSound s) (h : TablesSound s) (id : TableId) :
    TablesSound (s.retireActive id) := by
  obtain ⟨hrising, hlength, hreceived⟩ := h
  unfold State.retireActive
  split
  · exact ⟨hrising, hlength, hreceived⟩
  · rename_i b hb
    have hactive := (activeBank_spec s hb).1
    have hstaging := hbanks.1
    simp only [TablesSound, State.bank_setBank, State.setBank_session]
    grind [Bank.freeBank, Bank.outOfService]

/-- COMMIT_TABLE's own checks make the staging bank fit for service (R113). -/
theorem TablesSound_commit (hbanks : BanksSound s) (h : TablesSound s) {ss : Session} (hss : s.session = some ss)
    (hrise : risingFrom none (s.bank ss.bank).places = true) : TablesSound (s.commit ss) := by
  have hst : (s.bank ss.bank).state = .staging := (hbanks.1 ss.bank).mpr ⟨ss, hss, rfl⟩
  have hbank := bank_retireActive_of_staging hst ss.table
  obtain ⟨hrising, hlength, -⟩ := TablesSound_retireActive hbanks h ss.table
  unfold State.commit
  dsimp only
  generalize s.retireActive ss.table = u at hbank hrising hlength ⊢
  have hx : ∀ x, ({ u.setBank ss.bank { u.bank ss.bank with state := .active } with session := none } : State).bank x =
      if ss.bank = x then { u.bank ss.bank with state := .active } else u.bank x := fun x => State.bank_setBank u ss.bank x _
  simp only [TablesSound, hx]
  grind

/-- The marks that an evaluation sets and clears are none of the tables' contents. -/
theorem TablesSound_of_places (h : TablesSound s) (hs : t.session = s.session)
    (hb : ∀ b, t.bank b = Bank.freeBank ∧ (s.bank b).state = .retiring ∨
      (t.bank b).places = (s.bank b).places ∧ (t.bank b).state = (s.bank b).state)
    (hst : ∀ ss, s.session = some ss → (s.bank ss.bank).state = .staging) : TablesSound t := by
  obtain ⟨hrising, hlength, hreceived⟩ := h
  refine ⟨fun b hin => ?_, fun b hin => ?_, fun ss hss => ?_⟩
  · rcases hb b with ⟨hf, -⟩ | ⟨hp, hst⟩
    · simp [hf, Bank.freeBank] at hin
    · rw [hp]
      exact hrising b (hst ▸ hin)
  · rcases hb b with ⟨hf, -⟩ | ⟨hp, hst⟩
    · simp [hf, Bank.freeBank] at hin
    · rw [hp]
      exact hlength b (hst ▸ hin)
  · rw [hs] at hss
    rcases hb ss.bank with ⟨-, hr⟩ | ⟨hp, -⟩
    · rw [hst ss hss] at hr
      cases hr
    · rw [hp]
      exact hreceived ss hss

theorem TablesSound_startEvaluation (hbanks : BanksSound s) (h : TablesSound s) : TablesSound s.startEvaluation := by
  rcases startEvaluation_cases s with heq | ⟨e, rest, x, -, -, -, -, -, heq⟩ <;> rw [heq]
  · exact h
  · cases hb : x.bank with
    | none => exact h
    | some b =>
      refine TablesSound_of_places (s := s) h rfl (fun y => .inr ?_) (fun ss hss => (hbanks.1 ss.bank).mpr ⟨ss, hss, rfl⟩)
      have hx : ({ s.holdBank (some b) with evalQueue := rest, engine := some x } : State).bank y =
        if b = y then { s.bank b with held := true } else s.bank y := State.bank_setBank s b y _
      rw [hx]
      split
      · rename_i hy
        subst hy
        exact ⟨rfl, rfl⟩
      · exact ⟨rfl, rfl⟩

theorem TablesSound_completeEvaluation (hbanks : BanksSound s) (h : TablesSound s) : TablesSound s.completeEvaluation := by
  unfold State.completeEvaluation
  split
  · exact h
  · rename_i e _
    have hf := handResult_frameTo s e (s.evaluationResult e)
    have h' := TablesSound_frame hf h
    have hst : ∀ ss, (s.handResult e (s.evaluationResult e)).session = some ss →
        ((s.handResult e (s.evaluationResult e)).bank ss.bank).state = .staging := by
      intro ss hss
      have hb : (s.handResult e (s.evaluationResult e)).banks = s.banks := hf .banks rfl
      rw [State.bank, hb]
      exact (hbanks.1 ss.bank).mpr ⟨ss, (hf .session rfl).symm.trans hss, rfl⟩
    generalize s.handResult e (s.evaluationResult e) = v at h' hst ⊢
    have hsess : (v.releaseBank e.bank).session = v.session := by
      cases e.bank <;> rfl
    refine TablesSound_of_places (s := v) h' hsess (fun y => ?_) hst
    cases hb : e.bank with
    | none => exact .inr ⟨rfl, rfl⟩
    | some b =>
      have hx : ({ v.releaseBank (some b) with engine := none } : State).choose.bank y =
        if b = y then (v.bank b).dropReference else v.bank y := State.bank_setBank v b y _
      rw [hx]
      unfold Bank.dropReference
      by_cases hy : b = y
      · subst hy
        by_cases hr : (v.bank b).state = .retiring
        · exact .inl (by simp [hr])
        · exact .inr (by simp [hr])
      · exact .inr (by simp [hy])

theorem TablesSound_reset (s : State) (straps : BitVec 2) : TablesSound (s.powerOn straps) := by
  have hbank : ∀ b, (s.powerOn straps).bank b = Bank.freeBank := fun b => by
    simp [State.bank, State.powerOn, State.reset, Vector.get_eq_getElem]
  have hs : (s.powerOn straps).session = none := rfl
  simp only [TablesSound, hbank, hs]
  simp [Bank.freeBank]

theorem TablesSound_after (c : Instr) (hbanks : BanksSound s) (h : TablesSound s) : TablesSound (s.after c) := by
  have hown : ∀ {mine : Frame → Bool} {allowed : List Byte → Bool} {own : Frame → State → Answer},
      (∀ f t, (own f s).state? = some t → TablesSound t) → TablesSound (s.runCommand mine allowed own) :=
    fun ho => runCommand_keeps (fun t _ _ _ ht => ht) h ho
  cases c
  case powerOnReset straps => exact TablesSound_reset s straps
  case partReset straps =>
    show TablesSound (if s.resetDue then s.powerOn straps else s)
    split
    · exact TablesSound_reset s straps
    · exact h
  case beginTable =>
    refine hown (fun f t ht => ?_)
    obtain ⟨id, n, b, hn, -, -, rfl⟩ := beginTableOwn_state ht
    exact TablesSound_openSession h hn id b
  case loadSegments =>
    refine hown (fun f t ht => ?_)
    obtain ⟨ss, first, gs, hss, hfit, rfl⟩ := loadSegmentsOwn_state ht
    exact TablesSound_storeInSession hbanks h hss hfit
  case commitTable =>
    refine hown (fun f t ht => ?_)
    obtain ⟨ss, hss, -, hrise, rfl⟩ := commitTableOwn_state ht
    exact TablesSound_commit hbanks h hss hrise
  case abandonTable => exact hown (fun f t ht => abandonTableOwn_state ht ▸ TablesSound_abandonSession h)
  case dropTable =>
    refine hown (fun f t ht => ?_)
    obtain ⟨id, rfl⟩ := dropTableOwn_state ht
    exact TablesSound_retireActive hbanks h id
  case linkReset =>
    show TablesSound s.resetLink
    cases hl : s.lineLow with
    | true => rwa [resetLink_of_low hl]
    | false =>
      rw [resetLink_eq hl]
      exact TablesSound_frame (raise_frameTo _ _)
        (TablesSound_abandonSession (TablesSound_frame (latchesDropped_frameTo s) h))
  case evaluationStart => exact TablesSound_startEvaluation hbanks h
  case evaluationComplete => exact TablesSound_completeEvaluation hbanks h
  case sessionIdleTimeout =>
    show TablesSound s.expireSession
    unfold State.expireSession
    split
    · exact h
    · rename_i ss _
      exact TablesSound_frame (choose_frameTo _)
        (TablesSound_frame (raise_frameTo _ _) (TablesSound_abandonSession (s := s.advanceTo ss.expiry) h))
  all_goals exact TablesSound_frame (after_frameTo _ s) h

/-- Settles O56: every row keeps the contents of tables in service, and the idle tick touches none of them. -/
theorem tablesStayComplete : Obligations.TablesStayComplete := fun s t hbanks htables =>
  kept_of_rows (Q := fun s => BanksSound s ∧ TablesSound s) (fun _ _ h => h) (fun s h => by
    unfold State.idle
    split <;> exact h.2) (fun c _ h => TablesSound_after c h.1 h.2) s t ⟨hbanks, htables⟩

end Sys2Proof.Machine
end

