-- ==== Sys2Proof/Proofs/Collections.lean ====
section
/-! PROOF. How the rows of the part add to the link's collections: events and transitions meet the notice sets, records join the
report queue, and a reply takes the room of the deferred entry that it answers. -/

-- One proof after another, as in the tests: side by side they take more threads than memory allows.
set_option Elab.async false

namespace Sys2Proof.Machine

open Sys2Proof.Safety

/-- Nothing leaves the collections but deferred entries whose replies have joined the queue or are discarded; the notice sets
have met some events and transitions. -/
structure State.AddsTo (s t : State) : Prop where
  deferred : t.deferred.Sublist s.deferred
  room : t.replies.length + t.deferred.length ≤ s.replies.length + s.deferred.length
  replies : ∃ rs, t.replies = s.replies ++ rs
  notices : ∃ es : List PartEvent, t.notices = es.foldl (fun ns e => raiseIn e ns) s.notices
  alarms : ∃ ts : List Transition, t.alarms = ts.foldl (fun ns x => noteTransition x ns) s.alarms
  reports : ∃ rs, t.reports = s.reports ++ rs

section
variable {s t u : State}

theorem AddsTo_refl (s : State) : s.AddsTo s := ⟨.refl _, le_refl _, ⟨[], by simp⟩, ⟨[], rfl⟩, ⟨[], rfl⟩, ⟨[], by simp⟩⟩

theorem AddsTo_trans (h : s.AddsTo t) (h2 : t.AddsTo u) : s.AddsTo u := by
  obtain ⟨hd, hr, ⟨rs, hrs⟩, ⟨es, hes⟩, ⟨ts, hts⟩, ⟨qs, hqs⟩⟩ := h
  obtain ⟨hd2, hr2, ⟨rs2, hrs2⟩, ⟨es2, hes2⟩, ⟨ts2, hts2⟩, ⟨qs2, hqs2⟩⟩ := h2
  refine ⟨hd2.trans hd, hr2.trans hr, ⟨rs ++ rs2, ?_⟩, ⟨es ++ es2, ?_⟩, ⟨ts ++ ts2, ?_⟩, ⟨qs ++ qs2, ?_⟩⟩
  · rw [hrs2, hrs, List.append_assoc]
  · rw [hes2, hes, List.foldl_append]
  · rw [hts2, hts, List.foldl_append]
  · rw [hqs2, hqs, List.append_assoc]

/-- Where none of the collections is written. -/
theorem addsTo_of_eq (hd : t.deferred = s.deferred) (hr : t.replies = s.replies) (hn : t.notices = s.notices)
    (ha : t.alarms = s.alarms) (hq : t.reports = s.reports) : s.AddsTo t :=
  ⟨by rw [hd], by rw [hd, hr], ⟨[], by simp [hr]⟩, ⟨[], hn⟩, ⟨[], ha⟩, ⟨[], by simp [hq]⟩⟩

theorem addsTo_of_frame {fs : List Field} (hf : s.FrameTo fs t) (hd : fs.contains .deferred = false := by rfl)
    (hr : fs.contains .replies = false := by rfl) (hn : fs.contains .notices = false := by rfl)
    (ha : fs.contains .alarms = false := by rfl) (hq : fs.contains .reports = false := by rfl) : s.AddsTo t :=
  addsTo_of_eq (hf .deferred hd) (hf .replies hr) (hf .notices hn) (hf .alarms ha) (hf .reports hq)

theorem foldl_addsTo {α : Type} {f : State → α → State} (h : ∀ (t : State) x, t.AddsTo (f t x)) (xs : List α) :
    s.AddsTo (xs.foldl f s) := by
  induction xs generalizing s with
  | nil => exact AddsTo_refl _
  | cons x xs ih => exact AddsTo_trans (h s x) ih

end

section
variable (s : State)

/-! ### Notices and deliveries -/

theorem setList_addsTo (l : ListId) (r : ListRec) : s.AddsTo (s.setList l r) :=
  addsTo_of_frame (frameTo_of_patch (fs := [.lists]) rfl)

theorem raise_addsTo (e : PartEvent) : s.AddsTo (s.raise e) :=
  ⟨.refl _, le_refl _, ⟨[], by simp⟩, ⟨[e], rfl⟩, ⟨[], rfl⟩, ⟨[], by simp⟩⟩

theorem completeSample_deferred (u : Nat) (r : Result) : (s.completeSample u r).deferred.Sublist s.deferred := by
  unfold State.completeSample
  split
  · exact .refl _
  · exact List.filter_sublist

theorem completeSample_replies (u : Nat) (r : Result) : ∃ rs, (s.completeSample u r).replies = s.replies ++ rs := by
  unfold State.completeSample
  split
  · exact ⟨[], by simp⟩
  · exact ⟨_, rfl⟩

theorem deliver_addsTo (o : Origin) (r : Result) : s.AddsTo (s.deliver o r) := by
  have hf := deliver_frameTo s o r
  refine ⟨?_, deliver_room s o r, ?_, ⟨[], hf .notices rfl⟩, ⟨[], hf .alarms rfl⟩,
      ⟨[], (hf .reports rfl).trans (List.append_nil _).symm⟩⟩
  · cases o with
    | entry l k => exact .refl _
    | sample u => exact completeSample_deferred s u r
  · cases o with
    | entry l k => exact ⟨[], (List.append_nil _).symm⟩
    | sample u => exact completeSample_replies s u r

/-! ### Cores that leave a state -/

theorem noCoreSweep_addsTo (c : CoreId) : s.AddsTo (s.noCoreSweep c) := by
  unfold State.noCoreSweep
  refine AddsTo_trans (t := { s with pool := s.pool.filter (fun r => !s.lostRequest c r) })
      (addsTo_of_frame (frameTo_of_patch (fs := [.pool]) rfl)) ?_
  exact foldl_addsTo (fun t (r : Request) => deliver_addsTo t r.origin noCoreResult) _

theorem enterOffline_addsTo (c : CoreId) (why : OfflineReason) : s.AddsTo (s.enterOffline c why) :=
  AddsTo_trans (t := s.setCore c { s.core c with state := .offline, offlinePending := false })
    (addsTo_of_frame (frameTo_of_patch (fs := [.cores]) rfl)) (AddsTo_trans (raise_addsTo _ _) (noCoreSweep_addsTo _ c))

theorem settleCore_addsTo (c : CoreId) : s.AddsTo (s.settleCore c) := by
  rcases settleCore_cases s c with ⟨-, h⟩ | ⟨-, -, h⟩ | ⟨-, -, h⟩ <;> rw [h]
  · exact enterOffline_addsTo s c _
  · exact enterOffline_addsTo s c _
  · exact addsTo_of_frame (frameTo_of_patch (fs := [.cores, .idleSince]) rfl)

theorem leaveHold_addsTo (c : CoreId) : s.AddsTo (s.leaveHold c) := by
  rcases leaveHold_cases s c with ⟨-, h⟩ | ⟨-, h⟩ <;> rw [h]
  · exact AddsTo_trans (t := { s.setCore c { s.core c with latch := none } with holdOrder := s.holdOrder.erase c })
      (addsTo_of_frame (frameTo_of_patch (fs := [.cores, .holdOrder]) rfl)) (enterOffline_addsTo _ c _)
  · exact addsTo_of_frame (frameTo_of_patch (fs := [.cores, .holdOrder, .idleSince, .nextEvent]) rfl)

theorem handOff_addsTo (c : CoreId) (k : Core) (p : Params) : s.AddsTo (s.handOff c k p) := by
  unfold State.handOff
  split
  · exact AddsTo_trans (addsTo_of_frame (outstandingDone_frameTo s _)) (settleCore_addsTo _ c)
  · split
    · exact settleCore_addsTo s c
    · split
      · exact settleCore_addsTo s c
      · exact AddsTo_trans (deliver_addsTo s _ _) (settleCore_addsTo _ c)
      · dsimp only
        split
        · exact AddsTo_trans (addsTo_of_frame (joinQueue_frameTo s _)) (settleCore_addsTo _ c)
        · exact addsTo_of_frame (frameTo_of_patch (fs := [.cores, .holdOrder]) rfl)

theorem abortCore_addsTo (l : ListId) (c : CoreId) : s.AddsTo (s.abortCore l c) := by
  unfold State.abortCore
  dsimp only
  split
  · split <;> exact addsTo_of_frame (frameTo_of_patch (fs := [.cores]) rfl)
  · split
    · exact leaveHold_addsTo s c
    · exact AddsTo_refl s

theorem dropSampleLatch_addsTo (c : CoreId) : s.AddsTo (s.dropSampleLatch c) := by
  unfold State.dropSampleLatch
  split
  · exact leaveHold_addsTo s c
  · exact AddsTo_refl s

theorem answerRestore_addsTo (c : CoreId) (failed : Option Reference) : s.AddsTo (s.answerRestore c failed) := by
  unfold State.answerRestore
  split
  · exact AddsTo_refl s
  · rename_i d hd
    have hmem := List.mem_of_find?_eq_some hd
    have hlt : (s.deferred.filter (fun x => decide (x.uid ≠ d.uid))).length < s.deferred.length :=
      List.length_filter_lt_length_iff_exists.mpr ⟨d, hmem, by simp⟩
    exact ⟨List.filter_sublist, by simp only [List.length_append, List.length_singleton]; omega, ⟨_, rfl⟩, ⟨[], rfl⟩,
        ⟨[], rfl⟩, ⟨[], by simp⟩⟩

/-! ### Lists -/

theorem finishList_addsTo (l : ListId) (why : FinishReason) : s.AddsTo (s.finishList l why) :=
  AddsTo_trans (addsTo_of_frame (frameTo_of_patch (fs := [.lists]) rfl)) (raise_addsTo _ _)

theorem addsTo_of_issuesTo {t : State} (h : s.IssuesTo t) : s.AddsTo t := addsTo_of_frame (frameTo_of_issuesTo h)

theorem endCycle_addsTo (l : ListId) : s.AddsTo (s.endCycle l) := by
  have hcount : s.AddsTo (s.countCycle l) := addsTo_of_frame (frameTo_of_patch (fs := [.lists]) rfl)
  refine AddsTo_trans hcount ?_
  unfold State.endCycle
  dsimp only
  generalize s.countCycle l = t
  split
  · exact finishList_addsTo t l _
  · split
    · exact addsTo_of_issuesTo t (startCycle_issuesTo t l)
    · split
      · exact addsTo_of_issuesTo t (IssuesTo_trans (IssuesTo_setList t l _) (startCycle_issuesTo _ l))
      · exact addsTo_of_issuesTo t (IssuesTo_setList t l _)

theorem endDrain_addsTo (l : ListId) : s.AddsTo (s.endDrain l) := by
  unfold State.endDrain
  split
  · exact finishList_addsTo s l _
  · exact AddsTo_refl s

theorem afterRetire_addsTo (l : ListId) (last : Bool) : s.AddsTo (s.afterRetire l last) := by
  have hchain : ∀ t : State, t.AddsTo (t.triggerChained l) := fun t => addsTo_of_issuesTo t (triggerChained_issuesTo t l)
  unfold State.afterRetire
  split
  · split
    · exact AddsTo_trans (endCycle_addsTo s l) (hchain _)
    · exact addsTo_of_issuesTo s (issueSteps_issuesTo s l)
  · split
    · exact AddsTo_trans (AddsTo_trans (addsTo_of_frame (frameTo_of_patch (fs := [.lists]) rfl)) (endDrain_addsTo (s.countCycle l) l))
        (hchain _)
    · exact endDrain_addsTo s l
  · exact AddsTo_refl s

theorem monitor_addsTo (l : ListId) (e : Entry) (r : Result) : s.AddsTo (s.monitor l e r) := by
  unfold State.monitor
  dsimp only
  split
  · exact AddsTo_refl s
  · split
    · exact ⟨.refl _, le_refl _, ⟨[], by simp⟩, ⟨[], rfl⟩, ⟨[_], rfl⟩, ⟨[], by simp⟩⟩
    · exact addsTo_of_frame (frameTo_of_patch (fs := [.channels]) rfl)

theorem retireHead_addsTo (l : ListId) (admitted : Bool) : s.AddsTo (s.retireHead l admitted) := by
  unfold State.retireHead
  split
  · exact AddsTo_refl s
  · rename_i cfg e rest res _
    dsimp only
    refine AddsTo_trans (AddsTo_trans (AddsTo_trans (monitor_addsTo s l e res)
      (setList_addsTo _ l (((s.monitor l e res).list l).afterHead e rest))) ?_) (afterRetire_addsTo _ l _)
    split
    · exact ⟨.refl _, le_refl _, ⟨[], by simp [State.appendRecord]⟩, ⟨[], rfl⟩, ⟨[], rfl⟩, ⟨_, rfl⟩⟩
    · exact AddsTo_refl _

theorem handOut_addsTo (n : Nat) : s.AddsTo (s.handOut n) := by
  induction n generalizing s with
  | zero => exact AddsTo_refl s
  | succ n ih =>
    unfold State.handOut
    split
    · exact AddsTo_refl s
    · rename_i l rest _
      refine AddsTo_trans (AddsTo_trans (AddsTo_trans (t := { s with blocked := rest })
        (addsTo_of_frame (frameTo_of_patch (fs := [.blocked]) rfl)) (retireHead_addsTo _ l true)) ?_) (ih _)
      unfold State.rejoin
      split
      · exact addsTo_of_frame (frameTo_of_patch (fs := [.blocked]) rfl)
      · exact AddsTo_refl _

theorem drainList_addsTo (l : ListId) : s.AddsTo (s.drainList l) := by
  unfold State.drainList
  split
  · exact finishList_addsTo s l _
  · exact addsTo_of_frame (frameTo_of_patch (fs := [.lists]) rfl)
  · exact AddsTo_refl s

theorem abortList_addsTo (l : ListId) : s.AddsTo (s.abortList l) := by
  have hwork : s.AddsTo (s.abortWork l) := by
    have hcores : s.AddsTo
        ((List.finRange 4).foldl (State.abortCore l) { s with pool := s.pool.filter (fun r => !r.origin.ofList l) }) :=
      AddsTo_trans (t := { s with pool := s.pool.filter (fun r => !r.origin.ofList l) })
        (addsTo_of_frame (frameTo_of_patch (fs := [.pool]) rfl)) (foldl_addsTo (fun t c => abortCore_addsTo t l c) _)
    unfold State.abortWork
    dsimp only
    generalize (List.finRange 4).foldl (State.abortCore l) _ = u at hcores ⊢
    have hmoved : ∀ r : ListRec, u.AddsTo ({ u with
        evalQueue := u.evalQueue.filter (fun e => !e.origin.ofList l)
        engine := u.engine.map (Evaluation.voidFor l)
        blocked := u.blocked.erase l } : State) := fun _ =>
      addsTo_of_frame (frameTo_of_patch (fs := [.evalQueue, .engine, .blocked]) rfl)
    refine AddsTo_trans hcores (AddsTo_trans (hmoved (s.list l)) ?_)
    split
    · exact AddsTo_trans (setList_addsTo _ l _) (finishList_addsTo _ l _)
    · exact addsTo_of_frame (frameTo_of_patch (fs := [.lists]) rfl)
  unfold State.abortList
  split
  · exact finishList_addsTo s l _
  · exact hwork
  · exact hwork
  · exact AddsTo_refl s

/-! ### The link side of a reset -/

/-- What a link reset does to the notice sets and the collections once the link side is cleared. -/
theorem latchesDropped_addsTo : s.linkCleared.AddsTo s.latchesDropped := foldl_addsTo dropSampleLatch_addsTo _

theorem resetLink_addsTo (h : s.lineLow = false) : s.linkCleared.AddsTo s.resetLink := by
  rw [resetLink_eq h]
  exact AddsTo_trans (AddsTo_trans (latchesDropped_addsTo s) (addsTo_of_frame (abandonSession_frameTo _))) (raise_addsTo _ _)

/-! ### The rows -/

theorem choose_addsTo : s.AddsTo s.choose := addsTo_of_frame (choose_frameTo s)

theorem endDischarge_addsTo (c : CoreId) : s.AddsTo (s.endDischarge c) := by
  unfold State.endDischarge
  dsimp only
  split
  · rename_i p _ _
    refine AddsTo_trans (AddsTo_trans (AddsTo_trans (t := (s.advanceTo ((s.core c).phaseStart + Config.dischargeTicks)).releaseCore c p)
      ?_ (handOff_addsTo _ c (s.core c) p)) (addsTo_of_frame (frameTo_of_patch (t := State.newGrantEvent _)
        (fs := [.nextEvent]) rfl))) (choose_addsTo _)
    unfold State.releaseCore
    dsimp only
    split
    · exact addsTo_of_frame (frameTo_of_patch (fs := [.now, .cores]) rfl)
    · unfold State.releaseInput
      split <;> exact addsTo_of_frame (frameTo_of_patch (fs := [.now, .cores, .inputs, .freeSince]) rfl)
  · exact AddsTo_refl s

theorem endPair_addsTo (c : CoreId) (failed : Option Reference) : s.AddsTo (s.endPair c failed) := by
  have hready : ∀ t : State, t.AddsTo t.readyIfDone := by
    intro t
    unfold State.readyIfDone
    split
    · exact AddsTo_refl t
    · exact AddsTo_trans (raise_addsTo t .ready) (addsTo_of_frame (frameTo_of_patch (fs := [.cmdUnit]) rfl))
  have hcore : ∀ k : Core, s.AddsTo (s.setCore c k) := fun k => addsTo_of_frame (frameTo_of_patch (fs := [.cores]) rfl)
  have hidle : ∀ t : State, t.AddsTo (t.enterIdle c) := fun t => addsTo_of_frame (frameTo_of_patch (fs := [.cores, .idleSince]) rfl)
  have hevent : ∀ t : State, t.AddsTo t.newGrantEvent := fun t => addsTo_of_frame (frameTo_of_patch (fs := [.nextEvent]) rfl)
  unfold State.endPair
  refine AddsTo_trans ?_ (choose_addsTo _)
  split
  · unfold State.endStartupPair
    dsimp only
    split
    · exact AddsTo_trans (AddsTo_trans (AddsTo_trans (hcore _) (hidle _)) (hevent _)) (hready _)
    · exact AddsTo_trans (AddsTo_trans (hcore _) (raise_addsTo _ _)) (hready _)
  · unfold State.endRestorePair
    dsimp only
    split
    · exact AddsTo_trans (AddsTo_trans (AddsTo_trans (hcore _) (hidle _)) (answerRestore_addsTo _ c _)) (hevent _)
    · exact AddsTo_trans (hcore _) (answerRestore_addsTo _ c _)

theorem endCheckDischarge_addsTo (c : CoreId) : s.AddsTo (s.endCheckDischarge c) := by
  have hpair : ∀ x, s.AddsTo ((s.advanceTo ((s.core c).phaseStart + Config.dischargeTicks)).endPair c x) :=
    fun x => AddsTo_trans (addsTo_of_frame (frameTo_of_patch (t := State.advanceTo _ s) (fs := [.now]) rfl)) (endPair_addsTo _ c x)
  unfold State.endCheckDischarge
  dsimp only
  split
  · exact addsTo_of_frame (frameTo_of_patch (fs := [.now, .cores]) rfl)
  · exact hpair _
  · exact hpair _
  · exact hpair _
  · exact AddsTo_refl s

theorem serveHold_addsTo : s.AddsTo s.serveHold := by
  unfold State.serveHold
  split
  · exact AddsTo_refl s
  · split
    · exact AddsTo_refl s
    · rename_i c _ _ _ e _
      split
      · exact AddsTo_trans (AddsTo_trans (addsTo_of_frame (joinQueue_frameTo s e)) (leaveHold_addsTo _ c)) (choose_addsTo _)
      · exact AddsTo_refl s

theorem handResult_addsTo (e : Evaluation) (r : Result) : s.AddsTo (s.handResult e r) := by
  unfold State.handResult
  split
  · exact addsTo_of_frame (outstandingDone_frameTo s _)
  · exact deliver_addsTo s _ _

theorem completeEvaluation_addsTo : s.AddsTo s.completeEvaluation := by
  unfold State.completeEvaluation
  split
  · exact AddsTo_refl s
  · rename_i e _
    refine AddsTo_trans (AddsTo_trans (handResult_addsTo s e (s.evaluationResult e)) ?_) (choose_addsTo _)
    unfold State.releaseBank
    split <;> exact addsTo_of_frame (frameTo_of_patch (fs := [.banks, .engine]) rfl)

theorem attemptRetire_addsTo (l : ListId) : s.AddsTo (s.attemptRetire l) := by
  unfold State.attemptRetire
  split
  · exact AddsTo_refl s
  · split
    · exact AddsTo_trans (AddsTo_trans (addsTo_of_frame (frameTo_of_patch (fs := [.blocked]) rfl))
        (retireHead_addsTo _ l true)) (choose_addsTo _)
    · split
      · exact AddsTo_trans (retireHead_addsTo s l false) (choose_addsTo _)
      · split
        · exact AddsTo_refl s
        · exact addsTo_of_frame (frameTo_of_patch (fs := [.blocked]) rfl)

theorem linkError_addsTo : s.AddsTo s.linkError :=
  AddsTo_trans (AddsTo_trans (addsTo_of_frame (frameTo_of_patch (t := { s with rx := s.rx.hunting }) (fs := [.rx]) rfl))
    (raise_addsTo _ _)) (choose_addsTo _)

theorem takeByte_addsTo (b : Byte) : s.AddsTo (s.takeByte b) := by
  have hrx : ∀ r : Receiver, s.AddsTo { s with rx := r } := fun r => addsTo_of_frame (frameTo_of_patch (fs := [.rx]) rfl)
  unfold State.takeByte
  split
  · unfold State.takeStart
    split
    · exact hrx _
    · exact AddsTo_refl s
  · unfold State.takeLength
    split
    · exact hrx _
    · exact linkError_addsTo s
  · exact hrx _
  · unfold State.takeCheck
    split
    · exact hrx _
    · unfold State.judge
      split
      · exact linkError_addsTo s
      · split
        · exact linkError_addsTo s
        · split
          · exact linkError_addsTo s
          · unfold State.placeFrame
            split
            · exact addsTo_of_frame (frameTo_of_patch (fs := [.rx, .slots]) rfl)
            · exact AddsTo_trans (AddsTo_trans (hrx _) (raise_addsTo _ _)) (choose_addsTo _)

theorem takeBytes_addsTo (bs : List Byte) : s.AddsTo (s.takeBytes bs) := by
  unfold State.takeBytes
  split
  · exact AddsTo_refl s
  · exact foldl_addsTo takeByte_addsTo bs

theorem ite_addsTo {p : Prop} [Decidable p] {t : State} (h : s.AddsTo t) : s.AddsTo (if p then t else s) := by
  split
  · exact h
  · exact AddsTo_refl s

theorem expireSession_addsTo : s.AddsTo s.expireSession := by
  unfold State.expireSession
  split
  · exact AddsTo_refl s
  · rename_i ss _
    exact AddsTo_trans (AddsTo_trans (AddsTo_trans (t := s.advanceTo ss.expiry) (addsTo_of_frame (frameTo_of_patch (fs := [.now]) rfl))
      (addsTo_of_frame (abandonSession_frameTo _))) (raise_addsTo _ _)) (choose_addsTo _)

theorem arrive_sample_addsTo (u : Nat) (ch : ChannelId) (i : InputId) (p : Priority) :
    s.AddsTo (s.arrive (.sample u) ch i p) := by
  cases h : s.unreachable i with
  | false => rw [arrive_of_reachable h]; exact addsTo_of_frame (frameTo_of_patch (fs := [.pool, .nextEvent]) rfl)
  | true =>
    rw [arrive_of_unreachable h]
    exact AddsTo_trans (t := s.newGrantEvent) (addsTo_of_frame (frameTo_of_patch (fs := [.nextEvent]) rfl)) (deliver_addsTo _ _ _)

theorem sampleOwn_addsTo {f : Frame} {t : State} (h : sampleOwn f s = .deferred t) :
    ∃ subject, (s.defer f.tag subject).AddsTo t := by
  obtain ⟨ch, c, -, -, -, rfl⟩ := sampleOwn_state (f := f) (t := t) (by rw [h]; rfl)
  exact ⟨.sample ch, arrive_sample_addsTo _ _ _ _ _⟩

theorem restoreCoreOwn_addsTo {f : Frame} {t : State} (h : restoreCoreOwn f s = .deferred t) :
    ∃ subject, (s.defer f.tag subject).AddsTo t := by
  obtain ⟨c, -, -, -, rfl⟩ := restoreCoreOwn_state (f := f) (t := t) (by rw [h]; rfl)
  exact ⟨.restore c, addsTo_of_frame (frameTo_of_patch (fs := [.cores]) rfl)⟩

theorem stopListDrainOwn_addsTo {f : Frame} {t : State} (h : (stopListDrainOwn f s).state? = some t) : s.AddsTo t := by
  obtain ⟨l, -, rfl⟩ := stopListDrainOwn_state h
  exact drainList_addsTo s l

theorem stopListAbortOwn_addsTo {f : Frame} {t : State} (h : (stopListAbortOwn f s).state? = some t) : s.AddsTo t := by
  obtain ⟨l, -, rfl⟩ := stopListAbortOwn_state h
  exact abortList_addsTo s l

theorem takeCoreOfflineOwn_addsTo {f : Frame} {t : State} (h : (takeCoreOfflineOwn f s).state? = some t) : s.AddsTo t := by
  rcases takeCoreOfflineOwn_state h with rfl | ⟨c, ⟨-, rfl⟩ | rfl⟩
  · exact AddsTo_refl _
  · exact enterOffline_addsTo s c _
  · exact addsTo_of_frame (frameTo_of_patch (fs := [.cores]) rfl)

/-- The rows of the part's own events that only add to the collections. -/
def addsOnly : Instr → Bool
  | .frameReceived _ | .startByte | .lengthOutOfRange _ | .incompletenessTimeout | .framingError | .lineReturnsHigh | .grant
  | .settleEnd _ | .refPhaseComplete _ _ | .refPhaseTimeout _ | .sensePhaseComplete _ _ | .sensePosComplete _ _
  | .senseNegComplete _ _ | .senseTimeout _ | .dischargeEnd _ | .checkPeriodsComplete _ _ | .checkLimitExpiry _
  | .checkDischargeEnd _ | .restEnd _ | .periodExpiry _ | .holdServed | .evaluationStart | .evaluationComplete | .retire _
  | .abortComplete _ | .sessionIdleTimeout => true
  | _ => false

theorem after_addsTo {c : Instr} (h : addsOnly c = true) : s.AddsTo (s.after c) := by
  cases c
  case frameReceived bytes => exact takeBytes_addsTo s bytes
  case startByte => exact ite_addsTo s (takeBytes_addsTo s _)
  case lengthOutOfRange len => exact ite_addsTo s (takeBytes_addsTo s _)
  case incompletenessTimeout =>
    show s.AddsTo s.expireFrame
    unfold State.expireFrame
    split
    · exact AddsTo_refl s
    · rename_i n _
      exact AddsTo_trans (t := s.advanceTo n) (addsTo_of_frame (frameTo_of_patch (fs := [.now]) rfl)) (linkError_addsTo _)
  case framingError =>
    show s.AddsTo (if s.lineLow then s else s.linkError)
    split
    · exact AddsTo_refl s
    · exact linkError_addsTo s
  case dischargeEnd core => exact endDischarge_addsTo s core
  case checkDischargeEnd core => exact endCheckDischarge_addsTo s core
  case holdServed => exact serveHold_addsTo s
  case evaluationComplete => exact completeEvaluation_addsTo s
  case retire list => exact attemptRetire_addsTo s list
  case abortComplete list => exact ite_addsTo s (AddsTo_trans (finishList_addsTo s list _) (choose_addsTo _))
  case sessionIdleTimeout => exact expireSession_addsTo s
  case lineReturnsHigh | grant | settleEnd | refPhaseComplete | refPhaseTimeout | sensePhaseComplete | sensePosComplete
     | senseNegComplete | senseTimeout | checkPeriodsComplete | checkLimitExpiry | restEnd | periodExpiry | evaluationStart =>
    exact addsTo_of_frame (after_frameTo _ s)
  all_goals cases h

end

end Sys2Proof.Machine
end

