-- ==== Sys2Proof/Proofs/Names.lean ====
section
/-! PROOF. Notices merge (R132, R133, R172), and the tags of deferred entries and the subjects of notices stay distinct. -/

-- One proof after another, as in the tests: side by side they take more threads than memory allows.
set_option Elab.async false

namespace Sys2Proof.Machine

open Sys2Proof.Safety

/-! ### The alarm notice set -/

theorem noteTransition_of_absent (t : Transition) (ns : List AlarmNotice) (h : ∀ n ∈ ns, n.channel ≠ t.channel) :
    noteTransition t ns = ns ++ [{
      channel := t.channel, prior := t.old, newState := t.new, count := 1, value := t.value, list := t.list, cycle := t.cycle,
      sending := none }] := by
  induction ns with
  | nil => rfl
  | cons n ns ih =>
    rw [noteTransition, if_neg (h n List.mem_cons_self), ih (fun m hm => h m (List.mem_cons_of_mem _ hm)), List.cons_append]

theorem noteTransition_of_present (t : Transition) (before after : List AlarmNotice) (n : AlarmNotice)
    (hb : ∀ x ∈ before, x.channel ≠ t.channel) (h : n.channel = t.channel) :
    noteTransition t (before ++ n :: after) = before ++ n.update t :: after := by
  induction before with
  | nil => rw [List.nil_append, List.nil_append, noteTransition, if_pos h]
  | cons m ms ih =>
    rw [List.cons_append, noteTransition, if_neg (hb m List.mem_cons_self), ih (fun x hx => hb x (List.mem_cons_of_mem _ hx)),
      List.cons_append]

/-- Settles O43: the recursion of each set stops at the notice of the subject, or reaches the tail. -/
theorem noticesMerge : Obligations.NoticesMerge :=
  ⟨raiseIn_of_absent, fun e before after n => raiseIn_of_present e before after n, noteTransition_of_absent,
    fun t before after n => noteTransition_of_present t before after n⟩

/-! ### Both sets stay sound -/

/-- A set with at most one element for each key, all of whose elements are good. -/
def KeyedSound {α κ : Type} (key : α → κ) (good : α → Prop) (xs : List α) : Prop := (xs.map key).Nodup ∧ ∀ x ∈ xs, good x

section
variable {α κ : Type} {key : α → κ} {good : α → Prop} {xs : List α}

theorem KeyedSound_snoc {x : α} (h : KeyedSound key good xs) (hnew : ∀ y ∈ xs, key y ≠ key x) (hx : good x) :
    KeyedSound key good (xs ++ [x]) := by
  obtain ⟨hkeys, hgood⟩ := h
  refine ⟨?_, fun y hy => ?_⟩
  · rw [List.map_append, List.nodup_append]
    refine ⟨hkeys, List.nodup_singleton _, ?_⟩
    rintro _ hk _ hm rfl
    obtain ⟨y, hy, heq⟩ := List.mem_map.mp hk
    exact hnew y hy (heq.trans (List.mem_singleton.mp hm))
  · rcases List.mem_append.mp hy with hold | hlast
    · exact hgood y hold
    · exact List.mem_singleton.mp hlast ▸ hx

/-- One element changes in its place. -/
theorem KeyedSound_replace {before after : List α} {x y : α} (h : KeyedSound key good (before ++ x :: after))
    (hkey : key y = key x) (hy : good y) : KeyedSound key good (before ++ y :: after) := by
  obtain ⟨hkeys, hgood⟩ := h
  refine ⟨by simpa [hkey] using hkeys, fun z hz => ?_⟩
  simp only [List.mem_append, List.mem_cons] at hz hgood
  rcases hz with hbefore | rfl | hafter
  · exact hgood z (.inl hbefore)
  · exact hy
  · exact hgood z (.inr (.inr hafter))

/-- Elements change in their places, and some leave. -/
theorem KeyedSound_filterMap (h : KeyedSound key good xs) (f : α → Option α)
    (hf : ∀ x ∈ xs, ∀ y, f x = some y → key y = key x ∧ good y) : KeyedSound key good (xs.filterMap f) := by
  refine ⟨List.Nodup.sublist ?_ h.1, fun y hy => ?_⟩
  · clear h
    induction xs with
    | nil => exact .refl _
    | cons x xs ih =>
      have ih := ih (fun z hz => hf z (List.mem_cons_of_mem _ hz))
      cases hx : f x with
      | none => rw [List.filterMap_cons_none hx]; exact ih.cons _
      | some y =>
        rw [List.filterMap_cons_some hx, List.map_cons, List.map_cons, (hf x List.mem_cons_self y hx).1]
        exact ih.cons_cons _
  · obtain ⟨x, hx, heq⟩ := List.mem_filterMap.mp hy
    exact (hf x hx y heq).2

theorem KeyedSound_map (h : KeyedSound key good xs) (f : α → α) (hf : ∀ x ∈ xs, key (f x) = key x ∧ good (f x)) :
    KeyedSound key good (xs.map f) := by
  rw [← List.filterMap_eq_map]
  exact KeyedSound_filterMap h _ (fun x hx y hy => Option.some.inj hy ▸ hf x hx)

end

/-- The counts of a part notice are in range (R172, R173). -/
def PartNotice.InRange (n : PartNotice) : Prop := CountInRange n.count ∧ ∀ k, n.late = some k → k ≤ 255

/-- The counts of an alarm notice are in range (R131). -/
def AlarmNotice.InRange (n : AlarmNotice) : Prop := CountInRange n.count ∧ ∀ k, n.sending = some k → k.late ≤ 255

/-- The part of `NoticesDistinct` that speaks of the part notices. -/
def PartNoticesSound (ns : List PartNotice) : Prop := KeyedSound (fun n => n.event.key) PartNotice.InRange ns

/-- The part of `NoticesDistinct` that speaks of the alarm notices. -/
def AlarmNoticesSound (ns : List AlarmNotice) : Prop := KeyedSound AlarmNotice.channel AlarmNotice.InRange ns

theorem noticesDistinct_iff {s : State} : NoticesDistinct s ↔ AlarmNoticesSound s.alarms ∧ PartNoticesSound s.notices := by
  unfold NoticesDistinct PartNoticesSound AlarmNoticesSound
  constructor
  · rintro ⟨ha, hac, has, hn, hnc, hnl⟩
    exact ⟨⟨ha, fun n h => ⟨hac n h, has n h⟩⟩, hn, fun n h => ⟨hnc n h, hnl n h⟩⟩
  · rintro ⟨⟨ha, hac⟩, hn, hnc⟩
    exact ⟨ha, fun n h => (hac n h).1, fun n h => (hac n h).2, hn, fun n h => (hnc n h).1, fun n h => (hnc n h).2⟩

theorem countInRange_saturate (n : Nat) : CountInRange (saturate n) := by
  simp only [CountInRange, saturate, Config.saturation]
  omega

theorem countInRange_one : CountInRange 1 := ⟨le_refl 1, by omega⟩

/-- The first element with a property and what stands before it, or none has it. -/
theorem exists_first_or_none {α : Type} (p : α → Prop) [DecidablePred p] (xs : List α) :
    (∀ x ∈ xs, ¬ p x) ∨ ∃ before x after, xs = before ++ x :: after ∧ (∀ y ∈ before, ¬ p y) ∧ p x := by
  cases h : xs.find? (fun x => decide (p x)) with
  | none => exact .inl (fun x hx => by simpa using List.find?_eq_none.mp h x hx)
  | some x =>
    obtain ⟨hp, before, after, rfl, hb⟩ := List.find?_eq_some_iff_append.mp h
    exact .inr ⟨before, x, after, rfl, fun y hy => by simpa using hb y hy, by simpa using hp⟩

theorem PartNoticesSound_raiseIn {ns : List PartNotice} (h : PartNoticesSound ns) (e : PartEvent) :
    PartNoticesSound (raiseIn e ns) := by
  rcases exists_first_or_none (fun n : PartNotice => n.event.key = e.key) ns with hnone | ⟨before, n, after, rfl, hb, hn⟩
  · rw [raiseIn_of_absent e ns hnone]
    exact KeyedSound_snoc h hnone ⟨countInRange_one, fun k hk => by cases hk⟩
  · rw [raiseIn_of_present e before after n hb hn]
    refine KeyedSound_replace h hn.symm ⟨countInRange_saturate _, fun k hk => ?_⟩
    obtain ⟨j, -, rfl⟩ := Option.map_eq_some_iff.mp hk
    exact (countInRange_saturate j).2

theorem AlarmNoticesSound_noteTransition {ns : List AlarmNotice} (h : AlarmNoticesSound ns) (t : Transition) :
    AlarmNoticesSound (noteTransition t ns) := by
  rcases exists_first_or_none (fun n : AlarmNotice => n.channel = t.channel) ns with hnone | ⟨before, n, after, rfl, hb, hn⟩
  · rw [noteTransition_of_absent t ns hnone]
    exact KeyedSound_snoc h hnone ⟨countInRange_one, fun k hk => by cases hk⟩
  · rw [noteTransition_of_present t before after n hb hn]
    refine KeyedSound_replace (y := n.update t) h rfl ⟨countInRange_saturate _, fun k hk => ?_⟩
    obtain ⟨j, -, rfl⟩ := Option.map_eq_some_iff.mp hk
    exact (countInRange_saturate j.late).2

/-- Notices that lose their transmission fields keep their keys and counts (R136, R173). -/
theorem PartNoticesSound_cut {ns : List PartNotice} (h : PartNoticesSound ns) :
    PartNoticesSound (ns.map (fun n => { n with late := none })) :=
  KeyedSound_map h _ (fun n hn => ⟨rfl, (h.2 n hn).1, fun k hk => by cases hk⟩)

theorem AlarmNoticesSound_cut {ns : List AlarmNotice} (h : AlarmNoticesSound ns) :
    AlarmNoticesSound (ns.map (fun n => { n with sending := none })) :=
  KeyedSound_map h _ (fun n hn => ⟨rfl, (h.2 n hn).1, fun k hk => by cases hk⟩)

/-- The end of a NOTICE frame (R173). -/
theorem PartNoticesSound_sent {ns : List PartNotice} (h : PartNoticesSound ns) :
    PartNoticesSound (ns.filterMap PartNotice.afterFrame) := by
  refine KeyedSound_filterMap h _ (fun n hn m hm => ?_)
  obtain ⟨hcount, hlate⟩ := h.2 n hn
  unfold PartNotice.afterFrame at hm
  split at hm
  · cases hm
    exact ⟨rfl, hcount, hlate⟩
  · rename_i k hk
    split at hm
    · cases hm
    · cases hm
      exact ⟨rfl, ⟨Nat.one_le_iff_ne_zero.mpr ‹_›, hlate k hk⟩, fun j hj => by cases hj⟩

/-- The end of an ALARM frame (R134, R135). -/
theorem AlarmNoticesSound_sent {ns : List AlarmNotice} (h : AlarmNoticesSound ns) :
    AlarmNoticesSound (ns.filterMap AlarmNotice.afterFrame) := by
  refine KeyedSound_filterMap h _ (fun n hn m hm => ?_)
  obtain ⟨hcount, hlate⟩ := h.2 n hn
  unfold AlarmNotice.afterFrame at hm
  split at hm
  · cases hm
    exact ⟨rfl, hcount, hlate⟩
  · rename_i k hk
    split at hm
    · cases hm
    · cases hm
      exact ⟨rfl, ⟨Nat.one_le_iff_ne_zero.mpr ‹_›, hlate k hk⟩, fun j hj => by cases hj⟩

/-- The beginning of an ALARM frame marks the oldest notices (R134). -/
theorem AlarmNoticesSound_marked {ns : List AlarmNotice} (h : AlarmNoticesSound ns) (n : Nat) :
    AlarmNoticesSound ((ns.take n).map AlarmNotice.mark ++ ns.drop n) := by
  obtain ⟨hkeys, hrange⟩ := h
  refine ⟨?_, fun m hmem => ?_⟩
  · have hsame : ((ns.take n).map AlarmNotice.mark ++ ns.drop n).map AlarmNotice.channel = ns.map AlarmNotice.channel := by
      rw [List.map_append, List.map_map, show AlarmNotice.channel ∘ AlarmNotice.mark = AlarmNotice.channel from rfl,
        ← List.map_append, List.take_append_drop]
    rwa [hsame]
  · rcases List.mem_append.mp hmem with hm | hm
    · obtain ⟨x, hx, rfl⟩ := List.mem_map.mp hm
      refine ⟨(hrange x (List.mem_of_mem_take hx)).1, fun k hk => ?_⟩
      cases hk
      exact Nat.zero_le _
    · exact hrange m (List.mem_of_mem_drop hm)

/-- The beginning of a NOTICE frame marks the oldest notice (R173). -/
theorem PartNoticesSound_marked {n : PartNotice} {ns : List PartNotice} (h : PartNoticesSound (n :: ns)) :
    PartNoticesSound ({ n with late := some 0 } :: ns) :=
  KeyedSound_replace (before := []) h rfl
    ⟨(h.2 n List.mem_cons_self).1, fun _ hk => Option.some.inj hk ▸ Nat.zero_le _⟩

/-! ### Every row -/

section
variable {s t : State}

theorem TagsDistinct_of_sublist (hd : t.deferred.Sublist s.deferred) (h : TagsDistinct s) : TagsDistinct t :=
  ⟨h.1.sublist (hd.map _), fun d hmem => h.2 d (hd.subset hmem)⟩

/-- A deferred entry is created under a tag that is above 0 and held by none (R179, R182). -/
theorem TagsDistinct_defer (h : TagsDistinct s) {d : Deferred} (hd : t.deferred.Sublist (s.deferred ++ [d])) (h0 : d.tag ≠ 0)
    (hnew : ∀ x ∈ s.deferred, x.tag ≠ d.tag) : TagsDistinct t := by
  obtain ⟨hnodup, hne⟩ := h
  refine ⟨List.Nodup.sublist (hd.map _) ?_, fun x hx => ?_⟩
  · rw [List.map_append, List.nodup_append]
    refine ⟨hnodup, List.nodup_singleton _, ?_⟩
    rintro _ hx _ hm rfl
    obtain ⟨x, hmem, htag⟩ := List.mem_map.mp hx
    exact hnew x hmem (htag.trans (List.mem_singleton.mp hm))
  · rcases List.mem_append.mp (hd.subset hx) with hx | hx
    · exact hne x hx
    · cases List.mem_singleton.mp hx
      exact h0

/-- Names are distinct: the invariant of this file. -/
def NamesDistinct (s : State) : Prop := TagsDistinct s ∧ NoticesDistinct s

theorem NamesDistinct_addsTo (ha : s.AddsTo t) (h : NamesDistinct s) : NamesDistinct t := by
  obtain ⟨htags, hnotices⟩ := h
  obtain ⟨halarm, hpart⟩ := noticesDistinct_iff.mp hnotices
  refine ⟨TagsDistinct_of_sublist ha.deferred htags, noticesDistinct_iff.mpr ⟨?_, ?_⟩⟩
  · obtain ⟨ts, heq⟩ := ha.alarms
    rw [heq]
    clear heq
    generalize s.alarms = ns at halarm
    induction ts generalizing ns with
    | nil => exact halarm
    | cons x xs ih => exact ih _ (AlarmNoticesSound_noteTransition halarm x)
  · obtain ⟨es, heq⟩ := ha.notices
    rw [heq]
    clear heq
    generalize s.notices = ns at hpart
    induction es generalizing ns with
    | nil => exact hpart
    | cons x xs ih => exact ih _ (PartNoticesSound_raiseIn hpart x)

theorem NamesDistinct_congr (hd : t.deferred = s.deferred) (hn : t.notices = s.notices) (ha : t.alarms = s.alarms)
    (h : NamesDistinct s) : NamesDistinct t := by
  unfold NamesDistinct TagsDistinct NoticesDistinct at *
  rwa [hd, hn, ha]

theorem NamesDistinct_frame {fs : List Field} (hf : s.FrameTo fs t) (h : NamesDistinct s)
    (hd : fs.contains .deferred = false := by rfl) (hn : fs.contains .notices = false := by rfl)
    (ha : fs.contains .alarms = false := by rfl) : NamesDistinct t :=
  NamesDistinct_congr (hf .deferred hd) (hf .notices hn) (hf .alarms ha) h

theorem NamesDistinct_reset (s : State) (straps : BitVec 2) : NamesDistinct (s.powerOn straps) := by
  refine ⟨⟨List.nodup_nil, fun d hd => ?_⟩, noticesDistinct_iff.mpr ⟨⟨List.nodup_nil, fun n hn => ?_⟩, List.nodup_nil, fun n hn => ?_⟩⟩
  · cases hd
  · cases hn
  · cases hn

theorem NamesDistinct_linkCleared (h : NamesDistinct s) : NamesDistinct s.linkCleared := by
  obtain ⟨-, hnotices⟩ := h
  obtain ⟨halarm, hpart⟩ := noticesDistinct_iff.mp hnotices
  refine ⟨⟨List.nodup_nil, fun d hd => ?_⟩, noticesDistinct_iff.mpr ⟨AlarmNoticesSound_cut halarm, PartNoticesSound_cut hpart⟩⟩
  cases hd

theorem NamesDistinct_beginChosen (h : NamesDistinct s) : NamesDistinct s.beginChosen := by
  obtain ⟨htags, hnotices⟩ := id h
  obtain ⟨halarm, hpart⟩ := noticesDistinct_iff.mp hnotices
  unfold State.beginChosen
  split
  · exact h
  · unfold State.beginItem
    split
    · split <;> exact h
    · split
      · exact ⟨htags, noticesDistinct_iff.mpr ⟨AlarmNoticesSound_marked halarm _, hpart⟩⟩
      · exact h
    · split
      · rename_i n rest hn
        exact ⟨htags, noticesDistinct_iff.mpr ⟨halarm, PartNoticesSound_marked (hn ▸ hpart)⟩⟩
      · exact h
    · split <;> exact h

/-- The row of a command that answers at once: its own part may add to the collections. -/
theorem NamesDistinct_runCommand {mine : Frame → Bool} {allowed : List Byte → Bool} {own : Frame → State → Answer}
    (h : NamesDistinct s) (hown : ∀ f t, (own f s).state? = some t → s.AddsTo t) :
    NamesDistinct (s.runCommand mine allowed own) := by
  refine runCommand_keeps (P := NamesDistinct) (fun t _ _ _ ht => ht) h (fun f t ht => ?_)
  exact NamesDistinct_addsTo (hown f t ht) h

/-- The row of a command whose reply is deferred: its entry takes the tag of the frame, which no entry holds. -/
theorem NamesDistinct_runDeferred {mine : Frame → Bool} {allowed : List Byte → Bool} {own : Frame → State → Answer}
    (h : NamesDistinct s) (hdone : ∀ f o data t, own f s ≠ .done o data t)
    (hown : ∀ f t, own f s = .deferred t → ∃ subject, (s.defer f.tag subject).AddsTo t) :
    NamesDistinct (s.runCommand mine allowed own) := by
  refine runCommand_cases (P := NamesDistinct) h (fun _ _ _ _ => h)
    (fun f _ o data t _ _ _ _ _ _ ha _ => absurd ha (hdone f o data t)) (fun f rest t _ _ h0 hnew ha => ?_)
  obtain ⟨subject, hadds⟩ := hown f t ha
  have hdefer : NamesDistinct (s.defer f.tag subject) :=
    ⟨TagsDistinct_defer (t := s.defer f.tag subject) h.1 (.refl _) h0 hnew, h.2⟩
  exact NamesDistinct_addsTo (t := t) hadds hdefer

theorem sampleOwn_ne_done (f : Frame) (s : State) (o : OutcomeCode) (data : List Byte) (t : State) :
    sampleOwn f s ≠ .done o data t := by
  intro h
  obtain ⟨-, -, -, -, hd, -⟩ := sampleOwn_state (f := f) (s := s) (t := t) (by rw [h]; rfl)
  rw [h] at hd
  cases hd

theorem restoreCoreOwn_ne_done (f : Frame) (s : State) (o : OutcomeCode) (data : List Byte) (t : State) :
    restoreCoreOwn f s ≠ .done o data t := by
  intro h
  obtain ⟨-, -, -, hd, -⟩ := restoreCoreOwn_state (f := f) (s := s) (t := t) (by rw [h]; rfl)
  rw [h] at hd
  cases hd

/-- Every row keeps the names distinct. -/
theorem NamesDistinct_after (c : Instr) (h : NamesDistinct s) : NamesDistinct (s.after c) := by
  cases c
  case powerOnReset straps => exact NamesDistinct_reset s straps
  case partReset straps =>
    show NamesDistinct (if s.resetDue then s.powerOn straps else s)
    split
    · exact NamesDistinct_reset s straps
    · exact h
  case sample => exact NamesDistinct_runDeferred h (fun f => sampleOwn_ne_done f s) (fun f t ht => sampleOwn_addsTo s ht)
  case restoreCore =>
    exact NamesDistinct_runDeferred h (fun f => restoreCoreOwn_ne_done f s) (fun f t ht => restoreCoreOwn_addsTo s ht)
  case stopListDrain => exact NamesDistinct_runCommand h (fun f t ht => stopListDrainOwn_addsTo s ht)
  case stopListAbort => exact NamesDistinct_runCommand h (fun f t ht => stopListAbortOwn_addsTo s ht)
  case takeCoreOffline => exact NamesDistinct_runCommand h (fun f t ht => takeCoreOfflineOwn_addsTo s ht)
  case linkReset =>
    show NamesDistinct s.resetLink
    cases hl : s.lineLow with
    | true => rwa [resetLink_of_low hl]
    | false => exact NamesDistinct_addsTo (resetLink_addsTo s hl) (NamesDistinct_linkCleared h)
  case transmitFrameBegin =>
    show NamesDistinct (if s.mayChoose then s.beginChosen else s)
    split
    · exact NamesDistinct_beginChosen h
    · exact h
  case alarmFrameSent =>
    show NamesDistinct s.alarmSent
    unfold State.alarmSent
    split
    · obtain ⟨halarm, hpart⟩ := noticesDistinct_iff.mp h.2
      exact ⟨h.1, noticesDistinct_iff.mpr ⟨AlarmNoticesSound_sent halarm, hpart⟩⟩
    · exact h
  case noticeFrameSent =>
    show NamesDistinct s.noticeSent
    unfold State.noticeSent
    split
    · obtain ⟨halarm, hpart⟩ := noticesDistinct_iff.mp h.2
      exact ⟨h.1, noticesDistinct_iff.mpr ⟨halarm, PartNoticesSound_sent hpart⟩⟩
    · exact h
  case reportFrameSent =>
    show NamesDistinct s.reportSent
    unfold State.reportSent
    split
    · rename_i n _
      exact NamesDistinct_addsTo (AddsTo_trans (handOut_addsTo _ n) (choose_addsTo _))
        (NamesDistinct_congr (s := s) (t :=
          { s with tx := none, cutByte := none, reports := s.reports.drop n, credits := s.credits - n })
          rfl rfl rfl h)
    · exact h
  case identify | getStatus | resetPart | grantCredits | setChannel | getChannel | clearChannel | setList | getList | clearList
     | startList | triggerList | beginTable | loadSegments | commitTable | abandonTable | dropTable | getTable | unknownCommand
     | replyFrameSent =>
    exact NamesDistinct_frame (after_frameTo _ s) h
  all_goals exact NamesDistinct_addsTo (after_addsTo s rfl) h

/-- Settles O52: every row keeps tags and subjects distinct, and the idle tick touches none of them. -/
theorem namesStayDistinct : Obligations.NamesStayDistinct :=
  kept_of_rows (Q := NamesDistinct) (fun _ _ h => h) (fun s h => by
    unfold State.idle
    split <;> exact h) (fun c _ h => NamesDistinct_after c h)

end

end Sys2Proof.Machine
end

