-- ==== Sys2Proof/Proofs/Capacities.lean ====
section
/-! PROOF. No collection is taken past its places (R90, R139, R149, R164, R171, R182). -/

-- One proof after another, as in the tests: side by side they take more threads than memory allows.
set_option Elab.async false

namespace Sys2Proof.Machine

open Sys2Proof.Safety

/-! ### What a host command's own part leaves of the link -/

/-- The own part of a command that answers at once: it adds to the collections, touches neither the transmitter nor the slots
nor the choice, and keeps the credits' and the evaluation queue's bounds. -/
structure State.ServedTo (s t : State) : Prop where
  adds : s.AddsTo t
  slots : t.slots = s.slots
  tx : t.tx = s.tx
  cutByte : t.cutByte = s.cutByte
  lineLow : t.lineLow = s.lineLow
  choice : t.choice = s.choice
  reports : t.reports = s.reports
  credits : min 255 s.credits ≤ t.credits ∧ t.credits ≤ max 255 s.credits
  evalQueue : t.evalQueue.length ≤ s.evalQueue.length

section
variable {s t : State}

/-- The fields that `ServedTo` speaks of. -/
def servedFields : List Field :=
  [.slots, .tx, .cutByte, .lineLow, .choice, .reports, .credits, .evalQueue, .deferred, .replies, .notices, .alarms]

theorem same_of_disjoint {fs gs : List Field} (hf : s.FrameTo fs t) (hd : gs.all (fun F => !fs.contains F) = true) {F : Field}
    (hF : F ∈ gs) : F.Same s t :=
  hf F (by simpa using List.all_eq_true.mp hd F hF)

theorem servedTo_of_frame {fs : List Field} (hf : s.FrameTo fs t)
    (hd : servedFields.all (fun F => !fs.contains F) = true := by rfl) : s.ServedTo t := by
  have same : ∀ F ∈ servedFields, F.Same s t := fun F hF => same_of_disjoint hf hd hF
  have hcredits : t.credits = s.credits := same .credits (by simp [servedFields])
  have hqueue : t.evalQueue = s.evalQueue := same .evalQueue (by simp [servedFields])
  exact {
    adds := addsTo_of_eq (same .deferred (by simp [servedFields])) (same .replies (by simp [servedFields]))
      (same .notices (by simp [servedFields])) (same .alarms (by simp [servedFields])) (same .reports (by simp [servedFields]))
    slots := same .slots (by simp [servedFields])
    tx := same .tx (by simp [servedFields])
    cutByte := same .cutByte (by simp [servedFields])
    lineLow := same .lineLow (by simp [servedFields])
    choice := same .choice (by simp [servedFields])
    reports := same .reports (by simp [servedFields])
    credits := by rw [hcredits]; omega
    evalQueue := by rw [hqueue] }

theorem ServedTo_refl (s : State) : s.ServedTo s := servedTo_of_frame (FrameTo_refl [] s)

/-- Where notices, deferred entries and replies are written as well. -/
theorem servedTo_of_adds {fs : List Field} (ha : s.AddsTo t) (hf : s.FrameTo fs t)
    (hd : [Field.slots, .tx, .cutByte, .lineLow, .choice, .reports, .credits].all (fun F => !fs.contains F) = true)
    (hq : t.evalQueue.length ≤ s.evalQueue.length) : s.ServedTo t := by
  have same : ∀ F ∈ [Field.slots, .tx, .cutByte, .lineLow, .choice, .reports, .credits], F.Same s t :=
    fun F hF => same_of_disjoint hf hd hF
  have hcredits : t.credits = s.credits := same .credits (by simp)
  exact {
    adds := ha
    slots := same .slots (by simp)
    tx := same .tx (by simp)
    cutByte := same .cutByte (by simp)
    lineLow := same .lineLow (by simp)
    choice := same .choice (by simp)
    reports := same .reports (by simp)
    credits := by rw [hcredits]; omega
    evalQueue := hq }

/-- An abort takes ratios of the list out of the evaluation queue and puts none in (R69). -/
theorem abortList_evalQueue (s : State) (l : ListId) : (s.abortList l).evalQueue.length ≤ s.evalQueue.length := by
  have hcores : ((List.finRange 4).foldl (State.abortCore l)
      { s with pool := s.pool.filter (fun r => !r.origin.ofList l) }).evalQueue = s.evalQueue :=
    foldl_frameTo (fun t c => abortCore_frameTo t l c) _ .evalQueue rfl
  have hwork : (s.abortWork l).evalQueue.length ≤ s.evalQueue.length := by
    have hfilter : (s.abortWork l).evalQueue = s.evalQueue.filter (fun e => !e.origin.ofList l) := by
      unfold State.abortWork
      dsimp only
      split <;> exact congrArg (List.filter (fun e => !e.origin.ofList l)) hcores
    rw [hfilter]
    exact List.length_filter_le _ _
  unfold State.abortList
  split
  · exact le_refl _
  · exact hwork
  · exact hwork
  · exact le_refl _

/-- The rows of the commands that answer at once. -/
def answersAtOnce : Instr → Bool
  | .identify | .getStatus | .resetPart | .grantCredits | .setChannel | .getChannel | .clearChannel | .setList | .getList
  | .clearList | .startList | .stopListDrain | .stopListAbort | .triggerList | .beginTable | .loadSegments | .commitTable
  | .abandonTable | .dropTable | .getTable | .takeCoreOffline | .unknownCommand => true
  | _ => false

/-- What these rows are: the common frame of a command around an own part that leaves the link as it is. -/
theorem after_answersAtOnce {c : Instr} (h : answersAtOnce c = true) (s : State) :
    ∃ mine allowed own, s.after c = s.runCommand mine allowed own ∧ ∀ f t, (own f s).state? = some t → s.ServedTo t := by
  have hread : ∀ {t : State}, t = s → s.ServedTo t := fun h => h ▸ ServedTo_refl s
  have hlists : ∀ l r b, s.ServedTo ((s.setList l r).setRunMark l b) :=
    fun l r b => servedTo_of_frame (frameTo_of_patch (fs := [.lists, .runStart]) rfl)
  cases c
  case identify => exact ⟨_, _, _, rfl, fun f t ht => hread (by cases ht; rfl)⟩
  case getStatus => exact ⟨_, _, _, rfl, fun f t ht => hread (by cases ht; rfl)⟩
  case unknownCommand => exact ⟨_, _, _, rfl, fun f t ht => by cases ht⟩
  case getChannel => exact ⟨_, _, _, rfl, fun f t ht => hread (getChannelOwn_state ht)⟩
  case getList => exact ⟨_, _, _, rfl, fun f t ht => hread (getListOwn_state ht)⟩
  case getTable => exact ⟨_, _, _, rfl, fun f t ht => hread (getTableOwn_state ht)⟩
  case resetPart =>
    refine ⟨_, _, _, rfl, fun f t ht => ?_⟩
    cases ht
    exact servedTo_of_frame (frameTo_of_patch (fs := [.cmdUnit]) rfl)
  case grantCredits =>
    refine ⟨_, _, _, rfl, fun f t ht => ?_⟩
    obtain ⟨n, rfl, hle, hmax⟩ := grantCreditsOwn_state ht
    exact { ServedTo_refl s with
      adds := addsTo_of_frame (frameTo_of_patch (fs := [.credits]) rfl),
      credits := ⟨hle, hmax.trans (le_max_left _ _)⟩ }
  case setChannel =>
    refine ⟨_, _, _, rfl, fun f t ht => ?_⟩
    obtain ⟨ch, c, -, rfl⟩ := setChannelOwn_state ht
    exact servedTo_of_frame (frameTo_of_patch (fs := [.channels]) rfl)
  case clearChannel =>
    refine ⟨_, _, _, rfl, fun f t ht => ?_⟩
    rcases clearChannelOwn_state ht with rfl | ⟨ch, -, rfl⟩
    · exact ServedTo_refl t
    · exact servedTo_of_frame (frameTo_of_patch (fs := [.channels]) rfl)
  case setList =>
    refine ⟨_, _, _, rfl, fun f t ht => ?_⟩
    obtain ⟨l, c, -, -, -, -, -, rfl⟩ := setListOwn_state ht
    exact hlists l _ false
  case clearList =>
    refine ⟨_, _, _, rfl, fun f t ht => ?_⟩
    rcases clearListOwn_state ht with rfl | ⟨l, -, -, rfl⟩
    · exact ServedTo_refl t
    · exact hlists l _ false
  case startList =>
    refine ⟨_, _, _, rfl, fun f t ht => ?_⟩
    obtain ⟨l, c, -, -, rfl⟩ := startListOwn_state ht
    exact servedTo_of_frame (startList_frameTo s l c)
  case stopListDrain =>
    refine ⟨_, _, _, rfl, fun f t ht => ?_⟩
    obtain ⟨l, -, rfl⟩ := stopListDrainOwn_state ht
    have hf := drainList_frameTo s l
    exact servedTo_of_adds (drainList_addsTo s l) hf rfl (le_of_eq (congrArg List.length (hf .evalQueue rfl)))
  case stopListAbort =>
    refine ⟨_, _, _, rfl, fun f t ht => ?_⟩
    obtain ⟨l, -, rfl⟩ := stopListAbortOwn_state ht
    exact servedTo_of_adds (abortList_addsTo s l) (abortList_frameTo s l) rfl (abortList_evalQueue s l)
  case triggerList =>
    refine ⟨_, _, _, rfl, fun f t ht => ?_⟩
    obtain ⟨l, c, -, rfl⟩ := triggerListOwn_state ht
    exact servedTo_of_frame (frameTo_of_issuesTo (trigger_issuesTo s l))
  case beginTable =>
    refine ⟨_, _, _, rfl, fun f t ht => ?_⟩
    obtain ⟨id, n, b, -, -, -, rfl⟩ := beginTableOwn_state ht
    exact servedTo_of_frame (frameTo_of_patch (fs := [.banks, .session]) rfl)
  case loadSegments =>
    refine ⟨_, _, _, rfl, fun f t ht => ?_⟩
    obtain ⟨ss, first, gs, -, -, rfl⟩ := loadSegmentsOwn_state ht
    exact servedTo_of_frame (frameTo_of_patch (fs := [.banks, .session]) rfl)
  case commitTable =>
    refine ⟨_, _, _, rfl, fun f t ht => ?_⟩
    obtain ⟨ss, -, -, -, rfl⟩ := commitTableOwn_state ht
    exact servedTo_of_frame (commit_frameTo s ss)
  case abandonTable =>
    exact ⟨_, _, _, rfl, fun f t ht => abandonTableOwn_state ht ▸ servedTo_of_frame (abandonSession_frameTo s)⟩
  case dropTable =>
    refine ⟨_, _, _, rfl, fun f t ht => ?_⟩
    obtain ⟨id, rfl⟩ := dropTableOwn_state ht
    exact servedTo_of_frame (retireActive_frameTo s id)
  case takeCoreOffline =>
    refine ⟨_, _, _, rfl, fun f t ht => ?_⟩
    rcases takeCoreOfflineOwn_state ht with rfl | ⟨c, ⟨-, rfl⟩ | rfl⟩
    · exact ServedTo_refl t
    · have hf := enterOffline_frameTo s c .command
      exact servedTo_of_adds (enterOffline_addsTo s c _) hf rfl (le_of_eq (congrArg List.length (hf .evalQueue rfl)))
    · exact servedTo_of_frame (frameTo_of_patch (fs := [.cores]) rfl)
  all_goals cases h

/-! ### The bounds -/

/-- What the frame being sent promises stays true while replies, records and credits do not get fewer. -/
theorem SendingSound_mono (h : SendingSound s) (htx : t.tx = s.tx) (hreplies : s.replies ≠ [] → t.replies ≠ [])
    (hreports : s.reports.length ≤ t.reports.length) (hcredits : s.credits ≤ t.credits) : SendingSound t := by
  unfold SendingSound State.sendingKind at *
  rw [htx]
  split
  · rename_i n hn
    simp only [hn] at h
    omega
  · rename_i hn
    simp only [hn] at h
    exact hreplies h
  · trivial

/-- A state that the bounds of `s` hold for again: the frame being sent and its byte are the same. -/
theorem WithinCapacity_adds (h : WithinCapacity s) (ha : s.AddsTo t) (hslots : t.slots.length ≤ 4) (htx : t.tx = s.tx)
    (hcut : t.cutByte = s.cutByte) (hcredits : min 255 s.credits ≤ t.credits ∧ t.credits ≤ max 255 s.credits)
    (hreports : t.reports.length ≤ 64) (hqueue : t.evalQueue.length ≤ 6) : WithinCapacity t := by
  obtain ⟨-, hdeferred, hroom, -, hcreditMax, -, hsending, hfirst⟩ := h
  obtain ⟨rs, hrs⟩ := ha.replies
  obtain ⟨qs, hqs⟩ := ha.reports
  refine ⟨hslots, ha.deferred.length_le.trans hdeferred, ha.room.trans hroom, hreports, by omega, hqueue, ?_, ?_⟩
  · exact SendingSound_mono hsending htx (by simp_all) (by simp [hqs]) (by omega)
  · rwa [hcut, htx]

theorem WithinCapacity_served (h : WithinCapacity s) (hs : s.ServedTo t) : WithinCapacity t := by
  obtain ⟨hslots, -, -, hreports, -, hqueue, -, -⟩ := id h
  exact WithinCapacity_adds h hs.adds (hs.slots ▸ hslots) hs.tx hs.cutByte hs.credits (hs.reports ▸ hreports)
    (hs.evalQueue.trans hqueue)

/-- A row that leaves slots, transmitter, credits, records and ratios as they are. -/
theorem WithinCapacity_frame {fs : List Field} (h : WithinCapacity s) (ha : s.AddsTo t) (hf : s.FrameTo fs t)
    (hd : [Field.slots, .tx, .cutByte, .credits, .reports, .evalQueue].all (fun F => !fs.contains F) = true := by rfl) :
    WithinCapacity t := by
  have same : ∀ F ∈ [Field.slots, .tx, .cutByte, .credits, .reports, .evalQueue], F.Same s t :=
    fun F hF => same_of_disjoint hf hd hF
  obtain ⟨hslots, -, -, hreports, -, hqueue, -, -⟩ := id h
  have hcredits : t.credits = s.credits := same .credits (by simp)
  exact WithinCapacity_adds h ha (by rwa [show t.slots = s.slots from same .slots (by simp)]) (same .tx (by simp))
    (same .cutByte (by simp)) (by omega) (by rwa [show t.reports = s.reports from same .reports (by simp)])
    (by rwa [show t.evalQueue = s.evalQueue from same .evalQueue (by simp)])

/-- A command takes its frame out of its slot and queues its reply in the room that the unit has made sure of (R177). -/
theorem WithinCapacity_reply (h : WithinCapacity t) (hroom : t.replies.length + t.deferred.length < 8) (r : Reply)
    {rest : List Frame} (hrest : rest.length ≤ 4) :
    WithinCapacity ({ t with replies := t.replies ++ [r], slots := rest } : State).choose := by
  obtain ⟨-, hdeferred, -, hreports, hcredits, hqueue, hsending, hfirst⟩ := h
  refine ⟨hrest, hdeferred, ?_, hreports, hcredits, hqueue, ?_, hfirst⟩
  · show (t.replies ++ [r]).length + t.deferred.length ≤ 8
    rw [List.length_append, List.length_singleton]
    omega
  · exact SendingSound_mono hsending rfl (fun _ => List.append_ne_nil_of_right_ne_nil _ (List.cons_ne_nil _ _)) (le_refl _) (le_refl _)

/-- The frame is gone from its slot, and its reply is deferred. -/
theorem WithinCapacity_emptied (h : WithinCapacity t) {rest : List Frame} (hrest : rest.length ≤ 4) :
    WithinCapacity ({ t with slots := rest } : State).choose := by
  obtain ⟨-, hdeferred, hroom, hreports, hcredits, hqueue, hsending, hfirst⟩ := h
  exact ⟨hrest, hdeferred, hroom, hreports, hcredits, hqueue, hsending, hfirst⟩

theorem WithinCapacity_runCommand {mine : Frame → Bool} {allowed : List Byte → Bool} {own : Frame → State → Answer}
    (h : WithinCapacity s) (hown : ∀ f t, (own f s).state? = some t → s.ServedTo t) :
    WithinCapacity (s.runCommand mine allowed own) := by
  have hslots : s.slots.length ≤ 4 := h.1
  refine runCommand_cases h (fun f rest r ht => ?_) (fun f rest o data t r ht _ _ _ _ ha _ => ?_)
    (fun f rest t ht _ _ _ ha => ?_)
  · exact WithinCapacity_reply h ht.2.2 r (by rw [ht.1, List.length_cons] at hslots; omega)
  · have hs := hown f t (by rw [ha]; rfl)
    refine WithinCapacity_reply (WithinCapacity_served h hs) (lt_of_le_of_lt hs.adds.room ht.2.2) r ?_
    rw [List.length_tail, hs.slots]
    omega
  · have hs := hown f t (by rw [ha]; rfl)
    refine WithinCapacity_emptied (WithinCapacity_served h hs) ?_
    rw [List.length_tail, hs.slots]
    omega

/-- A deferred entry takes the place of the reply that the unit has made sure of (R177, R182). -/
theorem WithinCapacity_runDeferred {mine : Frame → Bool} {allowed : List Byte → Bool} {own : Frame → State → Answer}
    (h : WithinCapacity s) (hdone : ∀ f o data t, own f s ≠ .done o data t)
    (hown : ∀ f t, own f s = .deferred t → s.deferred.length < 4 ∧ ∃ subject, (s.defer f.tag subject).ServedTo t) :
    WithinCapacity (s.runCommand mine allowed own) := by
  obtain ⟨hslots, -, -, hreports, hcredits, hqueue, hsending, hfirst⟩ := id h
  refine runCommand_cases h (fun f rest r ht => ?_) (fun f _ o data t _ _ _ _ _ _ ha _ => absurd ha (hdone f o data t))
    (fun f rest t ht _ _ _ ha => ?_)
  · exact WithinCapacity_reply h ht.2.2 r (by rw [ht.1, List.length_cons] at hslots; omega)
  · obtain ⟨hlt, subject, hs⟩ := hown f t ha
    have hroom := ht.2.2
    have hlen : (s.defer f.tag subject).deferred.length = s.deferred.length + 1 := List.length_append
    have hdefer : WithinCapacity (s.defer f.tag subject) :=
      ⟨hslots, by omega, by show s.replies.length + _ ≤ 8; omega, hreports, hcredits, hqueue, hsending, hfirst⟩
    refine WithinCapacity_emptied (t := t) (WithinCapacity_served hdefer hs) ?_
    rw [List.length_tail, hs.slots]
    exact (Nat.sub_le _ 1).trans hslots

/-! ### The receiver's slots (R164) -/

theorem linkError_slots (s : State) : s.linkError.slots = s.slots := linkError_frameTo s .slots rfl

theorem takeByte_slots (h : s.slots.length ≤ 4) (b : Byte) : (s.takeByte b).slots.length ≤ 4 := by
  have herr : s.linkError.slots.length ≤ 4 := by rwa [linkError_slots]
  unfold State.takeByte
  split
  · unfold State.takeStart
    split <;> exact h
  · unfold State.takeLength
    split
    · exact h
    · exact herr
  · exact h
  · unfold State.takeCheck
    split
    · exact h
    · unfold State.judge
      split
      · exact herr
      · split
        · exact herr
        · split
          · exact herr
          · unfold State.placeFrame
            split
            · rename_i hlt
              simp only [Config.slotPlaces] at hlt
              simp only [List.length_append, List.length_singleton]
              omega
            · exact h

/-- A property that every byte keeps is kept by all of them. -/
theorem takeBytes_keeps {P : State → Prop} (hbyte : ∀ s b, P s → P (s.takeByte b)) (h : P s) (bs : List Byte) :
    P (s.takeBytes bs) := by
  unfold State.takeBytes
  split
  · exact h
  · clear * - hbyte h
    induction bs generalizing s with
    | nil => exact h
    | cons b bs ih => exact ih (hbyte s b h)

theorem WithinCapacity_takeBytes (h : WithinCapacity s) (bs : List Byte) : WithinCapacity (s.takeBytes bs) := by
  refine takeBytes_keeps (fun t b ht => ?_) h bs
  have hf := takeByte_frameTo t b
  obtain ⟨hslots, -, -, hreports, -, hqueue, -, -⟩ := id ht
  have hcredits : (t.takeByte b).credits = t.credits := hf .credits rfl
  refine WithinCapacity_adds ht (takeByte_addsTo t b) (takeByte_slots hslots b) (hf .tx rfl) (hf .cutByte rfl) (by omega) ?_ ?_
  · rwa [show (t.takeByte b).reports = t.reports from hf .reports rfl]
  · rwa [show (t.takeByte b).evalQueue = t.evalQueue from hf .evalQueue rfl]

/-! ### The evaluation queue (R90) -/

theorem settleCore_evalQueue (s : State) (c : CoreId) : (s.settleCore c).evalQueue = s.evalQueue :=
  settleCore_frameTo s c .evalQueue rfl

theorem joinQueue_evalQueue (s : State) (e : RatioEntry) : (s.joinQueue e).evalQueue = s.evalQueue ++ [e] :=
  setOriginStage_frameTo _ _ _ .evalQueue rfl

/-- A ratio is handed to the queue only where a place is free (R92). -/
theorem handOff_evalQueue (h : s.evalQueue.length ≤ 6) (c : CoreId) (k : Core) (p : Params) :
    (s.handOff c k p).evalQueue.length ≤ 6 := by
  unfold State.handOff
  split
  · rwa [settleCore_evalQueue, show (s.outstandingDone p.origin).evalQueue = s.evalQueue from
      outstandingDone_frameTo s p.origin .evalQueue rfl]
  · split
    · rwa [settleCore_evalQueue]
    · split
      · rwa [settleCore_evalQueue]
      · rename_i st r _
        rwa [settleCore_evalQueue, show (s.deliver p.origin _).evalQueue = s.evalQueue from deliver_frameTo s _ _ .evalQueue rfl]
      · dsimp only
        split
        · rename_i hfree
          have hlt : s.evalQueue.length < 6 := of_decide_eq_true (Bool.and_eq_true_iff.mp hfree).1
          rw [settleCore_evalQueue, joinQueue_evalQueue, List.length_append, List.length_singleton]
          omega
        · exact h

theorem releaseCore_frameTo (s : State) (c : CoreId) (p : Params) : s.FrameTo [.cores, .inputs, .freeSince] (s.releaseCore c p) := by
  unfold State.releaseCore
  dsimp only
  split
  · exact frameTo_of_patch rfl
  · unfold State.releaseInput
    split <;> exact frameTo_of_patch rfl

theorem endDischarge_evalQueue (h : s.evalQueue.length ≤ 6) (c : CoreId) : (s.endDischarge c).evalQueue.length ≤ 6 := by
  unfold State.endDischarge
  dsimp only
  split
  · rename_i p _ _
    have hrelease : ((s.advanceTo ((s.core c).phaseStart + Config.dischargeTicks)).releaseCore c p).evalQueue = s.evalQueue :=
      releaseCore_frameTo _ c p .evalQueue rfl
    exact handOff_evalQueue (hrelease ▸ h) c (s.core c) p
  · exact h

theorem serveHold_evalQueue (h : s.evalQueue.length ≤ 6) : s.serveHold.evalQueue.length ≤ 6 := by
  unfold State.serveHold
  split
  · exact h
  · split
    · exact h
    · rename_i c _ _ _ e _
      split
      · rename_i hlt
        have hleave : ((s.joinQueue e).leaveHold c).evalQueue = s.evalQueue ++ [e] :=
          (leaveHold_frameTo _ c .evalQueue rfl).trans (joinQueue_evalQueue s e)
        show ((s.joinQueue e).leaveHold c).evalQueue.length ≤ 6
        rw [hleave, List.length_append, List.length_singleton]
        exact hlt
      · exact h

theorem startEvaluation_evalQueue (s : State) : s.startEvaluation.evalQueue.length ≤ s.evalQueue.length := by
  rcases startEvaluation_cases s with heq | ⟨e, rest, x, -, hq, -, -, -, heq⟩
  · rw [heq]
  · rw [heq, hq, List.length_cons]
    exact Nat.le_succ _

/-! ### The report queue (R139, R141, R142) -/

theorem monitor_reports (s : State) (l : ListId) (e : Entry) (r : Result) : (s.monitor l e r).reports = s.reports := by
  unfold State.monitor
  dsimp only
  split
  · rfl
  · split <;> rfl

theorem afterRetire_reports (s : State) (l : ListId) (last : Bool) : (s.afterRetire l last).reports = s.reports :=
  frameTo_of_advancesTo (afterRetire_advancesTo s l last) .reports rfl

/-- A retirement adds at most its own record. -/
theorem retireHead_reports (s : State) (l : ListId) (admitted : Bool) :
    (s.retireHead l admitted).reports.length ≤ s.reports.length + (if admitted then 1 else 0) := by
  unfold State.retireHead
  split
  · exact Nat.le_add_right _ _
  · rename_i cfg e rest res _
    dsimp only
    rw [afterRetire_reports]
    cases admitted with
    | false => exact le_of_eq (congrArg List.length (monitor_reports s l e res))
    | true =>
      simp only [if_true, State.appendRecord, State.setRunMark_reports, State.setList_reports, List.length_append,
        List.length_singleton, monitor_reports]
      exact le_refl _

/-- The hand-out fills at most the places it is given. -/
theorem handOut_reports (n : Nat) (s : State) : (s.handOut n).reports.length ≤ s.reports.length + n := by
  induction n generalizing s with
  | zero => exact le_refl _
  | succ n ih =>
    unfold State.handOut
    split
    · exact Nat.le_add_right _ _
    · rename_i l rest _
      have hretire := retireHead_reports ({ s with blocked := rest } : State) l true
      have hrejoin : ∀ t : State, (t.rejoin l).reports = t.reports := by
        intro t
        unfold State.rejoin
        split <;> rfl
      have hrest := ih ((({ s with blocked := rest } : State).retireHead l true).rejoin l)
      rw [hrejoin] at hrest
      simp only [if_true] at hretire
      omega

theorem attemptRetire_reports (h : s.reports.length ≤ 64) (l : ListId) : (s.attemptRetire l).reports.length ≤ 64 := by
  unfold State.attemptRetire
  split
  · exact h
  · split
    · rename_i hlt
      have hretire := retireHead_reports ({ s with blocked := s.blocked.erase l } : State) l true
      exact hretire.trans hlt
    · split
      · exact (retireHead_reports s l false).trans h
      · split <;> exact h

/-! ### Every row -/

theorem WithinCapacity_reset (s : State) (straps : BitVec 2) : WithinCapacity (s.powerOn straps) :=
  ⟨Nat.zero_le _, Nat.zero_le _, Nat.zero_le _, Nat.zero_le _, Nat.zero_le _, Nat.zero_le _, trivial, .inl rfl⟩

/-- The transmitter is IDLE: nothing is promised. -/
theorem SendingSound_of_idle (h : s.tx = none) : SendingSound s := by
  unfold SendingSound State.sendingKind
  rw [h]
  trivial

theorem WithinCapacity_resetLink (h : WithinCapacity s) (hl : s.lineLow = false) : WithinCapacity s.resetLink := by
  obtain ⟨-, -, -, hreports, -, hqueue, -, -⟩ := h
  have hcleared : WithinCapacity s.linkCleared :=
    ⟨Nat.zero_le _, Nat.zero_le _, Nat.zero_le _, hreports, Nat.zero_le _, hqueue, trivial, .inr (fun f hf => by cases hf)⟩
  have hf : s.linkCleared.FrameTo [.cores, .notices, .pool, .lists, .deferred, .replies, .idleSince, .holdOrder, .nextEvent,
      .banks, .session] s.resetLink := by
    rw [resetLink_eq hl]
    exact FrameTo_trans (FrameTo_trans (foldl_frameTo (fun t c => FrameTo_mono (dropSampleLatch_frameTo t c) rfl) _)
      (FrameTo_mono (abandonSession_frameTo _) rfl)) (FrameTo_mono (raise_frameTo _ _) rfl)
  exact WithinCapacity_frame hcleared (resetLink_addsTo s hl) hf

/-- A frame begins at its first byte, with what it promises there (R151, R169). -/
theorem WithinCapacity_beginChosen (h : WithinCapacity s) : WithinCapacity s.beginChosen := by
  obtain ⟨hslots, hdeferred, hroom, hreports, hcredits, hqueue, -, -⟩ := id h
  have hfirst : ∀ (kind : TxKind) (bytes : List Byte) (f : TxFrame),
      some { kind := kind, bytes := bytes, position := 0 } = some f → f.position = 0 := by
    rintro kind bytes f hf
    cases hf
    rfl
  unfold State.beginChosen
  split
  · exact h
  · unfold State.beginItem
    split
    · split
      · rename_i r rest hr
        exact ⟨hslots, hdeferred, hroom, hreports, hcredits, hqueue, by simp [SendingSound, State.sendingKind,
            State.beginReply, State.beginFrame, hr],
          .inr (hfirst _ _)⟩
      · exact h
    · split
      · exact ⟨hslots, hdeferred, hroom, hreports, hcredits, hqueue, trivial, .inr (hfirst _ _)⟩
      · exact h
    · split
      · exact ⟨hslots, hdeferred, hroom, hreports, hcredits, hqueue, trivial, .inr (hfirst _ _)⟩
      · exact h
    · split
      · rename_i hoffered
        obtain ⟨hpos, hne⟩ := hoffered
        have hlen : 0 < s.reports.length := List.length_pos_iff.mpr hne
        refine ⟨hslots, hdeferred, hroom, hreports, hcredits, hqueue, ?_, .inr (hfirst _ _)⟩
        show 1 ≤ s.reportCount ∧ s.reportCount ≤ 8 ∧ s.reportCount ≤ s.reports.length ∧ s.reportCount ≤ s.credits
        simp only [State.reportCount, Config.maxPerFrame]
        omega
      · exact h

/-- The end of a frame leaves the transmitter IDLE; the bounds stay where the collections do not grow. -/
theorem WithinCapacity_sent (h : WithinCapacity s) (htx : t.tx = none) (hslots : t.slots = s.slots)
    (hdeferred : t.deferred = s.deferred) (hreplies : t.replies.length ≤ s.replies.length)
    (hreports : t.reports.length ≤ 64) (hcredits : t.credits ≤ s.credits) (hqueue : t.evalQueue = s.evalQueue) :
    WithinCapacity t := by
  obtain ⟨hsl, hd, hroom, -, hc, hq, -, -⟩ := h
  refine ⟨hslots ▸ hsl, hdeferred ▸ hd, by rw [hdeferred]; omega, hreports, hcredits.trans hc, hqueue ▸ hq,
    SendingSound_of_idle htx, .inr (fun f hf => ?_)⟩
  rw [htx] at hf
  cases hf

/-- The state when the last byte of a REPORT frame has been sent, before the opened places are handed out (R152). -/
def State.reportTaken (n : Nat) (s : State) : State :=
  { s with tx := none, cutByte := none, reports := s.reports.drop n, credits := s.credits - n }

theorem reportSent_eq {n : Nat} (h : s.sendingKind = some (.report n)) :
    s.reportSent = ((s.reportTaken n).handOut n).choose := by
  unfold State.reportSent
  rw [h]
  rfl

theorem reportSent_of_other (h : ∀ n, s.sendingKind ≠ some (.report n)) : s.reportSent = s := by
  unfold State.reportSent
  split
  · rename_i n hn
    exact absurd hn (h n)
  · rfl

theorem WithinCapacity_reportSent (h : WithinCapacity s) : WithinCapacity s.reportSent := by
  by_cases hk : ∃ n, s.sendingKind = some (.report n)
  · obtain ⟨n, hn⟩ := hk
    obtain ⟨-, -, -, hreports, -, -, hsending, -⟩ := id h
    unfold SendingSound at hsending
    rw [hn] at hsending
    obtain ⟨-, -, hle, -⟩ := hsending
    have htaken : (s.reportTaken n).reports.length = s.reports.length - n := List.length_drop
    have hout := handOut_reports n (s.reportTaken n)
    have hbase : WithinCapacity (s.reportTaken n) :=
      WithinCapacity_sent h rfl rfl rfl (le_refl _) (by omega) (Nat.sub_le _ _) rfl
    have hf := handOut_frameTo (s.reportTaken n) n
    obtain ⟨hslots, -, -, -, -, hqueue, -, -⟩ := id hbase
    have hcredits : ((s.reportTaken n).handOut n).credits = (s.reportTaken n).credits := hf .credits rfl
    have htotal : WithinCapacity ((s.reportTaken n).handOut n) := by
      refine WithinCapacity_adds hbase (handOut_addsTo _ n) ?_ (hf .tx rfl) (hf .cutByte rfl) (by omega) (by omega) ?_
      · rwa [show ((s.reportTaken n).handOut n).slots = (s.reportTaken n).slots from hf .slots rfl]
      · rwa [show ((s.reportTaken n).handOut n).evalQueue = (s.reportTaken n).evalQueue from hf .evalQueue rfl]
    rw [reportSent_eq hn]
    exact htotal
  · rwa [reportSent_of_other (fun n hn => hk ⟨n, hn⟩)]

/-- A row of the part that adds to the evaluation queue or the report queue within their bounds. -/
theorem WithinCapacity_queues {fs : List Field} (h : WithinCapacity s) (ha : s.AddsTo t) (hf : s.FrameTo fs t)
    (hreports : t.reports.length ≤ 64) (hqueue : t.evalQueue.length ≤ 6)
    (hd : [Field.slots, .tx, .cutByte, .credits].all (fun F => !fs.contains F) = true := by rfl) : WithinCapacity t := by
  have same : ∀ F ∈ [Field.slots, .tx, .cutByte, .credits], F.Same s t := fun F hF => same_of_disjoint hf hd hF
  have hcredits : t.credits = s.credits := same .credits (by simp)
  exact WithinCapacity_adds h ha (by rw [show t.slots = s.slots from same .slots (by simp)]; exact h.1) (same .tx (by simp))
    (same .cutByte (by simp)) (by omega) hreports hqueue

/-- Every row stays within the capacities. -/
theorem WithinCapacity_after (c : Instr) (h : WithinCapacity s) : WithinCapacity (s.after c) := by
  obtain ⟨-, -, -, hreports, -, hqueue, -, -⟩ := id h
  have hhost : ∀ {c}, answersAtOnce c = true → WithinCapacity (s.after c) := by
    intro c hc
    obtain ⟨mine, allowed, own, heq, hown⟩ := after_answersAtOnce hc s
    rw [heq]
    exact WithinCapacity_runCommand h hown
  cases c
  case powerOnReset straps => exact WithinCapacity_reset s straps
  case partReset straps =>
    show WithinCapacity (if s.resetDue then s.powerOn straps else s)
    split
    · exact WithinCapacity_reset s straps
    · exact h
  case sample =>
    refine WithinCapacity_runDeferred h (fun f => sampleOwn_ne_done f s) (fun f t ht => ?_)
    obtain ⟨ch, c, -, hlt, -, rfl⟩ := sampleOwn_state (f := f) (t := t) (by rw [ht]; rfl)
    have hf := arrive_sample_frameTo (s.defer f.tag (.sample ch)) s.nextUid ch c.input .urgent
    exact ⟨hlt, .sample ch, servedTo_of_adds (arrive_sample_addsTo _ _ _ _ _) hf rfl
      (le_of_eq (congrArg List.length (hf .evalQueue rfl)))⟩
  case restoreCore =>
    refine WithinCapacity_runDeferred h (fun f => restoreCoreOwn_ne_done f s) (fun f t ht => ?_)
    obtain ⟨c, -, hlt, -, rfl⟩ := restoreCoreOwn_state (f := f) (t := t) (by rw [ht]; rfl)
    exact ⟨hlt, .restore c, servedTo_of_frame (frameTo_of_patch (fs := [.cores]) rfl)⟩
  case linkReset =>
    show WithinCapacity s.resetLink
    cases hl : s.lineLow with
    | true => rwa [resetLink_of_low hl]
    | false => exact WithinCapacity_resetLink h hl
  case transmitFrameBegin =>
    show WithinCapacity (if s.mayChoose then s.beginChosen else s)
    split
    · exact WithinCapacity_beginChosen h
    · exact h
  case replyFrameSent =>
    show WithinCapacity s.replySent
    unfold State.replySent
    split
    · exact WithinCapacity_sent h rfl rfl rfl (by simp [List.length_tail]) hreports (le_refl _) rfl
    · exact h
  case alarmFrameSent =>
    show WithinCapacity s.alarmSent
    unfold State.alarmSent
    split
    · exact WithinCapacity_sent h rfl rfl rfl (le_refl _) hreports (le_refl _) rfl
    · exact h
  case noticeFrameSent =>
    show WithinCapacity s.noticeSent
    unfold State.noticeSent
    split
    · exact WithinCapacity_sent h rfl rfl rfl (le_refl _) hreports (le_refl _) rfl
    · exact h
  case reportFrameSent => exact WithinCapacity_reportSent h
  case frameReceived bytes => exact WithinCapacity_takeBytes h bytes
  case startByte =>
    show WithinCapacity (if s.rx.state = .hunt then s.takeBytes [0x5A#8] else s)
    split
    · exact WithinCapacity_takeBytes h _
    · exact h
  case lengthOutOfRange len =>
    show WithinCapacity (if s.rx.state = .length ∧ ¬ (2 ≤ len.toNat ∧ len.toNat ≤ 242) then s.takeBytes [len] else s)
    split
    · exact WithinCapacity_takeBytes h _
    · exact h
  case dischargeEnd core =>
    have hf := after_frameTo (.dischargeEnd core) s
    exact WithinCapacity_queues h (after_addsTo s rfl) hf (by rwa [show (s.after _).reports = s.reports from hf .reports rfl])
      (endDischarge_evalQueue hqueue core)
  case holdServed =>
    have hf := after_frameTo .holdServed s
    exact WithinCapacity_queues h (after_addsTo s rfl) hf (by rwa [show (s.after _).reports = s.reports from hf .reports rfl])
      (serveHold_evalQueue hqueue)
  case evaluationStart =>
    have hf := after_frameTo .evaluationStart s
    exact WithinCapacity_queues h (after_addsTo s rfl) hf (by rwa [show (s.after _).reports = s.reports from hf .reports rfl])
      ((startEvaluation_evalQueue s).trans hqueue)
  case retire list =>
    have hf := after_frameTo (.retire list) s
    exact WithinCapacity_queues h (after_addsTo s rfl) hf (attemptRetire_reports hreports list)
      (by rwa [show (s.after _).evalQueue = s.evalQueue from hf .evalQueue rfl])
  case identify | getStatus | resetPart | grantCredits | setChannel | getChannel | clearChannel | setList | getList | clearList
     | startList | stopListDrain | stopListAbort | triggerList | beginTable | loadSegments | commitTable | abandonTable
     | dropTable | getTable | takeCoreOffline | unknownCommand => exact hhost rfl
  all_goals exact WithinCapacity_frame h (after_addsTo s rfl) (after_frameTo _ s)

theorem WithinCapacity_idle (h : WithinCapacity s) : WithinCapacity s.idle := by
  obtain ⟨hslots, hdeferred, hroom, hreports, hcredits, hqueue, hsending, hfirst⟩ := h
  unfold State.idle
  split
  · exact ⟨hslots, hdeferred, hroom, hreports, hcredits, hqueue, hsending, .inl rfl⟩
  · rename_i hcut
    refine ⟨hslots, hdeferred, hroom, hreports, hcredits, hqueue, ?_, .inl (by simpa using hcut)⟩
    have hkind : (s.tx.map TxFrame.advance).map TxFrame.kind = s.tx.map TxFrame.kind := by
      rw [Option.map_map]
      refine congrArg (fun g => s.tx.map g) (funext (fun f => ?_))
      simp only [Function.comp, TxFrame.advance]
      split <;> rfl
    unfold SendingSound State.sendingKind at *
    dsimp only
    rwa [hkind]

end

end Sys2Proof.Machine
end

