-- ==== Sys2Proof/Proofs/Choices.lean ====
section
/-! PROOF. The transmitter's choice: each row that makes an item available ends with it, a choice made stands, and it stands on
an item that is there (R151, R170). -/

-- One proof after another, as in the tests: side by side they take more threads than memory allows.
set_option Elab.async false

namespace Sys2Proof.Machine

open Sys2Proof.Safety

section
variable {s t u : State}

/-! ### What a choice stands on -/

/-- There is an item of the kind. -/
def Offered (s : State) : ItemKind → Prop
  | .reply => s.replies ≠ []
  | .alarm => s.alarms ≠ []
  | .notice => s.notices ≠ []
  | .report => 0 < s.credits ∧ s.reports ≠ []

theorem choiceSound_iff : ChoiceSound s ↔
    (∀ k, s.choice = some k → s.tx = none ∧ s.lineLow = false ∧ Offered s k) ∧
      (FreeToChoose s → s.choice = none → firstAvailable s = none) := by
  unfold ChoiceSound
  refine and_congr_left' (forall_congr' fun k => ?_)
  cases k <;> rfl

theorem offered_of_firstAvailable {k : ItemKind} (h : firstAvailable s = some k) : Offered s k := by
  unfold firstAvailable at h
  split at h
  · cases h; assumption
  · split at h
    · cases h; assumption
    · split at h
      · cases h; assumption
      · split at h
        · cases h; assumption
        · cases h

/-- What a row adds takes no item away. -/
theorem offered_addsTo (ha : s.AddsTo t) (hc : min 255 s.credits ≤ t.credits) {k : ItemKind} (h : Offered s k) : Offered t k := by
  have hraise : ∀ (es : List PartEvent) (ns : List PartNotice), ns ≠ [] → es.foldl (fun ns e => raiseIn e ns) ns ≠ [] := by
    intro es
    induction es with
    | nil => exact fun _ h => h
    | cons e es ih =>
      refine fun ns _ => ih _ ?_
      obtain ⟨n, hn, -⟩ := exists_mem_raiseIn e ns
      exact List.ne_nil_of_mem hn
  have hnote : ∀ (ts : List Transition) (ns : List AlarmNotice), ns ≠ [] → ts.foldl (fun ns x => noteTransition x ns) ns ≠ [] := by
    intro ts
    induction ts with
    | nil => exact fun _ h => h
    | cons x xs ih =>
      intro ns hns
      refine ih _ ?_
      cases ns with
      | nil => exact absurd rfl hns
      | cons n ns =>
        show (if n.channel = x.channel then n.update x :: ns else n :: noteTransition x ns) ≠ []
        split <;> exact List.cons_ne_nil _ _
  obtain ⟨-, -, ⟨rs, hrs⟩, ⟨es, hes⟩, ⟨ts, hts⟩, ⟨qs, hqs⟩⟩ := ha
  cases k with
  | reply =>
    show t.replies ≠ []
    rw [hrs]
    exact List.append_ne_nil_of_left_ne_nil h _
  | alarm =>
    show t.alarms ≠ []
    rw [hts]
    exact hnote ts _ h
  | notice =>
    show t.notices ≠ []
    rw [hes]
    exact hraise es _ h
  | report =>
    obtain ⟨hpos, hne⟩ := h
    refine ⟨by omega, ?_⟩
    rw [hqs]
    exact List.append_ne_nil_of_left_ne_nil hne _

/-! ### Rows that end with the choice -/

/-- The row ends with the transmitter's choice, up to which the choice was left as it stood. -/
def State.ChoosesTo (s t : State) : Prop := ∃ u : State, u.choice = s.choice ∧ t = u.choose

theorem choosesTo_choose (h : u.choice = s.choice) : s.ChoosesTo u.choose := ⟨u, h, rfl⟩

/-- The fields that a choice depends on. -/
def offerFields : List Field := [.tx, .lineLow, .cmdUnit, .replies, .alarms, .notices, .credits, .reports, .choice]

/-- The row has to do with no item and with no frame. -/
def State.OffersSame (s t : State) : Prop := ∀ F ∈ offerFields, F.Same s t

theorem offersSame_of_frame {fs : List Field} (hf : s.FrameTo fs t)
    (hd : offerFields.all (fun F => !fs.contains F) = true := by rfl) : s.OffersSame t :=
  fun _ hF => same_of_disjoint hf hd hF

theorem OffersSame_refl (s : State) : s.OffersSame s := offersSame_of_frame (FrameTo_refl [] s)

/-- A choice made stands (R170). -/
theorem choice_choosesTo (h : s.ChoosesTo t) {k : ItemKind} (hk : s.choice = some k) : t.choice = some k := by
  obtain ⟨u, hu, rfl⟩ := h
  rw [choose_of_some (hu.trans hk)]
  exact hu.trans hk

theorem ChoiceSound_choosesTo (h : s.ChoosesTo t)
    (hkept : ∀ k, s.choice = some k → t.tx = none ∧ t.lineLow = false ∧ Offered t k) : ChoiceSound t := by
  obtain ⟨u, hu, rfl⟩ := h
  rw [choiceSound_iff]
  cases hc : s.choice with
  | some k =>
    rw [choose_of_some (hu.trans hc)] at hkept ⊢
    refine ⟨fun j hj => ?_, fun _ hnone => ?_⟩
    · cases hj.symm.trans (hu.trans hc)
      exact hkept k hc
    · cases hnone.symm.trans (hu.trans hc)
  | none =>
    have hnone : u.choice = none := hu.trans hc
    rw [choose_eq]
    by_cases hfree : FreeToChoose u
    · have hchoice : (chosen u).choice = firstAvailable u := if_pos ⟨hfree, hnone⟩
      refine ⟨fun k hk => ⟨hfree.1, hfree.2.1, ?_⟩, fun _ hn => hchoice.symm.trans hn⟩
      exact offered_of_firstAvailable (s := u) (hchoice.symm.trans hk)
    · have hchoice : (chosen u).choice = none := (if_neg (fun h => hfree h.1)).trans hnone
      refine ⟨fun k hk => ?_, fun hf _ => absurd hf hfree⟩
      cases hchoice.symm.trans hk

theorem ChoiceSound_offersSame (hs : s.OffersSame t) (h : ChoiceSound s) : ChoiceSound t := by
  have htx : t.tx = s.tx := hs .tx (by simp [offerFields])
  have hline : t.lineLow = s.lineLow := hs .lineLow (by simp [offerFields])
  have hunit : t.cmdUnit = s.cmdUnit := hs .cmdUnit (by simp [offerFields])
  have hreplies : t.replies = s.replies := hs .replies (by simp [offerFields])
  have halarms : t.alarms = s.alarms := hs .alarms (by simp [offerFields])
  have hnotices : t.notices = s.notices := hs .notices (by simp [offerFields])
  have hcredits : t.credits = s.credits := hs .credits (by simp [offerFields])
  have hreports : t.reports = s.reports := hs .reports (by simp [offerFields])
  have hchoice : t.choice = s.choice := hs .choice (by simp [offerFields])
  unfold ChoiceSound FreeToChoose firstAvailable at *
  rwa [htx, hline, hunit, hreplies, halarms, hnotices, hcredits, hreports, hchoice]

/-- A row that ends with the choice, leaves transmitter and line alone and takes no item away. -/
theorem ChoiceSound_added (hc : s.ChoosesTo t ∨ s.OffersSame t) (hoff : ∀ k, Offered s k → Offered t k) (htx : t.tx = s.tx)
    (hline : t.lineLow = s.lineLow) (h : ChoiceSound s) : ChoiceSound t := by
  rcases hc with hc | hs
  · refine ChoiceSound_choosesTo hc (fun k hk => ?_)
    obtain ⟨hidle, hhigh, hitem⟩ := (choiceSound_iff.mp h).1 k hk
    exact ⟨htx.trans hidle, hline.trans hhigh, hoff k hitem⟩
  · exact ChoiceSound_offersSame hs h

/-! ### The rows -/

theorem ite_choosesTo {p : Prop} [Decidable p] (h : s.ChoosesTo t) :
    s.ChoosesTo (if p then t else s) ∨ s.OffersSame (if p then t else s) := by
  split
  · exact .inl h
  · exact .inr (OffersSame_refl s)

theorem runCommand_choosesTo {mine : Frame → Bool} {allowed : List Byte → Bool} {own : Frame → State → Answer}
    (hown : ∀ f t, (own f s).state? = some t → t.choice = s.choice) :
    s.ChoosesTo (s.runCommand mine allowed own) ∨ s.OffersSame (s.runCommand mine allowed own) := by
  refine runCommand_cases (P := fun t => s.ChoosesTo t ∨ s.OffersSame t) (.inr (OffersSame_refl s)) ?_ ?_ ?_
  · exact fun _ _ _ _ => .inl (choosesTo_choose rfl)
  · exact fun f _ _ _ t _ _ _ _ _ _ ha _ => .inl (choosesTo_choose (hown f t (by rw [ha]; rfl)))
  · exact fun f _ t _ _ _ _ ha => .inl (choosesTo_choose (hown f t (by rw [ha]; rfl)))

theorem linkError_choosesTo (s : State) : s.ChoosesTo s.linkError := (choosesTo_choose rfl)

theorem endDischarge_choosesTo (s : State) (c : CoreId) : s.ChoosesTo (s.endDischarge c) ∨ s.OffersSame (s.endDischarge c) := by
  unfold State.endDischarge
  dsimp only
  split
  · refine .inl (choosesTo_choose ?_)
    exact (handOff_frameTo _ c _ _ .choice rfl).trans (releaseCore_frameTo _ c _ .choice rfl)
  · exact .inr (OffersSame_refl s)

theorem endPair_choosesTo (s : State) (c : CoreId) (failed : Option Reference) : s.ChoosesTo (s.endPair c failed) := by
  have hready : ∀ t : State, t.readyIfDone.choice = t.choice := by
    intro t
    unfold State.readyIfDone
    split <;> rfl
  have hanswer : ∀ (t : State) (x : Option Reference), (t.answerRestore c x).choice = t.choice := by
    intro t x
    unfold State.answerRestore
    split <;> rfl
  refine choosesTo_choose ?_
  split
  · unfold State.endStartupPair
    dsimp only
    split <;> exact hready _
  · unfold State.endRestorePair
    dsimp only
    split <;> exact hanswer _ _

theorem endCheckDischarge_choosesTo (s : State) (c : CoreId) :
    s.ChoosesTo (s.endCheckDischarge c) ∨ s.OffersSame (s.endCheckDischarge c) := by
  have hpair : ∀ x, s.ChoosesTo ((s.advanceTo ((s.core c).phaseStart + Config.dischargeTicks)).endPair c x) :=
    fun x => endPair_choosesTo (s.advanceTo ((s.core c).phaseStart + Config.dischargeTicks)) c x
  unfold State.endCheckDischarge
  dsimp only
  split
  · exact .inr (offersSame_of_frame (frameTo_of_patch (fs := [.now, .cores]) rfl))
  · exact .inl (hpair _)
  · exact .inl (hpair _)
  · exact .inl (hpair _)
  · exact .inr (OffersSame_refl s)

theorem serveHold_choosesTo (s : State) : s.ChoosesTo s.serveHold ∨ s.OffersSame s.serveHold := by
  unfold State.serveHold
  split
  · exact .inr (OffersSame_refl s)
  · split
    · exact .inr (OffersSame_refl s)
    · rename_i c _ _ _ e _
      split
      · exact .inl (choosesTo_choose ((leaveHold_frameTo _ c .choice rfl).trans (joinQueue_frameTo s e .choice rfl)))
      · exact .inr (OffersSame_refl s)

theorem completeEvaluation_choosesTo (s : State) :
    s.ChoosesTo s.completeEvaluation ∨ s.OffersSame s.completeEvaluation := by
  unfold State.completeEvaluation
  split
  · exact .inr (OffersSame_refl s)
  · rename_i e _
    have hrelease : ∀ (v : State) (b : Option BankId), (v.releaseBank b).choice = v.choice := by
      intro v b
      cases b <;> rfl
    exact .inl (choosesTo_choose ((hrelease _ _).trans (handResult_frameTo s e _ .choice rfl)))

theorem retireHead_choice (s : State) (l : ListId) (admitted : Bool) : (s.retireHead l admitted).choice = s.choice :=
  frameTo_of_retiresTo (retireHead_retiresTo s l admitted) .choice rfl

theorem attemptRetire_choosesTo (s : State) (l : ListId) :
    s.ChoosesTo (s.attemptRetire l) ∨ s.OffersSame (s.attemptRetire l) := by
  unfold State.attemptRetire
  split
  · exact .inr (OffersSame_refl s)
  · split
    · exact .inl (choosesTo_choose (retireHead_choice _ l true))
    · split
      · exact .inl (choosesTo_choose (retireHead_choice s l false))
      · split
        · exact .inr (OffersSame_refl s)
        · exact .inr (offersSame_of_frame (frameTo_of_patch (fs := [.blocked]) rfl))

theorem expireSession_choosesTo (s : State) : s.ChoosesTo s.expireSession ∨ s.OffersSame s.expireSession := by
  unfold State.expireSession
  split
  · exact .inr (OffersSame_refl s)
  · exact .inl (choosesTo_choose (abandonSession_frameTo _ .choice rfl))

theorem reportSent_choosesTo (s : State) : s.ChoosesTo s.reportSent ∨ s.OffersSame s.reportSent := by
  by_cases hk : ∃ n, s.sendingKind = some (.report n)
  · obtain ⟨n, hn⟩ := hk
    rw [reportSent_eq hn]
    exact .inl (choosesTo_choose (handOut_frameTo _ n .choice rfl))
  · rw [reportSent_of_other (fun n hn => hk ⟨n, hn⟩)]
    exact .inr (OffersSame_refl s)

/-- The rows that take bytes choose once for each link error in them; the rows of resets and of a frame's beginning treat the
choice in ways of their own. -/
def choosesOnce : Instr → Bool
  | .powerOnReset _ | .partReset _ | .linkReset | .transmitFrameBegin | .frameReceived _ | .startByte | .lengthOutOfRange _ => false
  | _ => true

/-- Every other row ends with the choice, or has to do with no item. -/
theorem after_choosesTo {c : Instr} (h : choosesOnce c = true) (s : State) :
    s.ChoosesTo (s.after c) ∨ s.OffersSame (s.after c) := by
  have hhost : ∀ {c}, answersAtOnce c = true → s.ChoosesTo (s.after c) ∨ s.OffersSame (s.after c) := by
    intro c hc
    obtain ⟨mine, allowed, own, heq, hown⟩ := after_answersAtOnce hc s
    rw [heq]
    exact runCommand_choosesTo (fun f t ht => (hown f t ht).choice)
  cases c
  case sample => exact runCommand_choosesTo (fun f t ht => sampleOwn_frameTo s ht .choice rfl)
  case restoreCore =>
    refine runCommand_choosesTo (fun f t ht => ?_)
    obtain ⟨c, -, -, -, rfl⟩ := restoreCoreOwn_state ht
    rfl
  case incompletenessTimeout =>
    show s.ChoosesTo s.expireFrame ∨ s.OffersSame s.expireFrame
    unfold State.expireFrame
    split
    · exact .inr (OffersSame_refl s)
    · exact .inl (choosesTo_choose rfl)
  case framingError =>
    show s.ChoosesTo (if s.lineLow then s else s.linkError) ∨ s.OffersSame (if s.lineLow then s else s.linkError)
    split
    · exact .inr (OffersSame_refl s)
    · exact .inl (linkError_choosesTo s)
  case lineReturnsHigh => exact .inl (choosesTo_choose rfl)
  case replyFrameSent => exact ite_choosesTo (choosesTo_choose rfl)
  case alarmFrameSent => exact ite_choosesTo (choosesTo_choose rfl)
  case noticeFrameSent => exact ite_choosesTo (choosesTo_choose rfl)
  case reportFrameSent => exact reportSent_choosesTo s
  case dischargeEnd core => exact endDischarge_choosesTo s core
  case checkDischargeEnd core => exact endCheckDischarge_choosesTo s core
  case holdServed => exact serveHold_choosesTo s
  case evaluationComplete => exact completeEvaluation_choosesTo s
  case retire list => exact attemptRetire_choosesTo s list
  case abortComplete list => exact ite_choosesTo (choosesTo_choose rfl)
  case sessionIdleTimeout => exact expireSession_choosesTo s
  case identify | getStatus | resetPart | grantCredits | setChannel | getChannel | clearChannel | setList | getList | clearList
     | startList | stopListDrain | stopListAbort | triggerList | beginTable | loadSegments | commitTable | abandonTable
     | dropTable | getTable | takeCoreOffline | unknownCommand => exact hhost rfl
  case grant | settleEnd | refPhaseComplete | refPhaseTimeout | sensePhaseComplete | sensePosComplete | senseNegComplete
     | senseTimeout | checkPeriodsComplete | checkLimitExpiry | restEnd | periodExpiry | evaluationStart =>
    exact .inr (offersSame_of_frame (after_frameTo _ s))
  all_goals cases h

/-! ### Bytes that are taken -/

/-- One byte of the receive line ends in at most one choice. -/
theorem takeByte_choosesTo (s : State) (b : Byte) : s.ChoosesTo (s.takeByte b) ∨ s.OffersSame (s.takeByte b) := by
  have hrx : ∀ r : Receiver, s.OffersSame { s with rx := r } := fun r => offersSame_of_frame (frameTo_of_patch (fs := [.rx]) rfl)
  unfold State.takeByte
  split
  · unfold State.takeStart
    split
    · exact .inr (hrx _)
    · exact .inr (OffersSame_refl s)
  · unfold State.takeLength
    split
    · exact .inr (hrx _)
    · exact .inl (linkError_choosesTo s)
  · exact .inr (hrx _)
  · unfold State.takeCheck
    split
    · exact .inr (hrx _)
    · unfold State.judge
      split
      · exact .inl (linkError_choosesTo s)
      · split
        · exact .inl (linkError_choosesTo s)
        · split
          · exact .inl (linkError_choosesTo s)
          · unfold State.placeFrame
            split
            · exact .inr (offersSame_of_frame (frameTo_of_patch (fs := [.rx, .slots]) rfl))
            · exact .inl (choosesTo_choose rfl)

/-- A row that adds only and leaves transmitter, line and credits alone. -/
theorem ChoiceSound_addsOnly (hc : s.ChoosesTo t ∨ s.OffersSame t) (ha : s.AddsTo t) {fs : List Field} (hf : s.FrameTo fs t)
    (hd : [Field.tx, .lineLow, .credits].all (fun F => !fs.contains F) = true) (h : ChoiceSound s) : ChoiceSound t := by
  have same : ∀ F ∈ [Field.tx, .lineLow, .credits], F.Same s t := fun F hF => same_of_disjoint hf hd hF
  have hcredits : t.credits = s.credits := same .credits (by simp)
  exact ChoiceSound_added hc (fun k => offered_addsTo ha (by omega)) (same .tx (by simp)) (same .lineLow (by simp)) h

theorem ChoiceSound_takeBytes (h : ChoiceSound s) (bs : List Byte) : ChoiceSound (s.takeBytes bs) :=
  takeBytes_keeps (fun t b ht =>
    ChoiceSound_addsOnly (takeByte_choosesTo t b) (takeByte_addsTo t b) (takeByte_frameTo t b) rfl ht) h bs

theorem choice_takeBytes {k : ItemKind} (h : s.choice = some k) (bs : List Byte) : (s.takeBytes bs).choice = some k :=
  takeBytes_keeps (P := fun t => t.choice = some k) (fun t b ht => by
    rcases takeByte_choosesTo t b with hc | hs
    · exact choice_choosesTo hc ht
    · exact (hs .choice (by simp [offerFields])).trans ht) h bs

/-! ### Every row -/

/-- A frame that is sent: there was no choice, for the transmitter was not IDLE. -/
theorem ChoiceSound_frameSent (hc : s.ChoosesTo t) (hsend : s.sendingKind.isSome = true) (h : ChoiceSound s) : ChoiceSound t := by
  refine ChoiceSound_choosesTo hc (fun k hk => ?_)
  have hidle := ((choiceSound_iff.mp h).1 k hk).1
  rw [State.sendingKind, hidle] at hsend
  cases hsend

theorem ChoiceSound_reset (s : State) (straps : BitVec 2) : ChoiceSound (s.powerOn straps) :=
  choiceSound_iff.mpr ⟨fun _ hk => (nomatch hk), fun _ _ => rfl⟩

/-- A break holds the line: there is no choice and none can be made (R168). -/
theorem ChoiceSound_of_break (hline : t.lineLow = true) (hchoice : t.choice = none) : ChoiceSound t := by
  rw [choiceSound_iff]
  refine ⟨fun k hk => ?_, fun hf _ => ?_⟩
  · rw [hchoice] at hk
    cases hk
  · cases hline.symm.trans hf.2.1

/-- A frame is being sent: there is no choice and none can be made. -/
theorem ChoiceSound_of_sending (htx : t.tx.isSome = true) (hchoice : t.choice = none) : ChoiceSound t := by
  rw [choiceSound_iff]
  refine ⟨fun k hk => ?_, fun hf _ => ?_⟩
  · rw [hchoice] at hk
    cases hk
  · rw [hf.1] at htx
    cases htx

theorem ChoiceSound_resetLink (hl : s.lineLow = false) : ChoiceSound s.resetLink := by
  have hf : s.linkCleared.FrameTo [.cores, .notices, .pool, .lists, .deferred, .replies, .idleSince, .holdOrder, .nextEvent,
      .banks, .session] s.resetLink := by
    rw [resetLink_eq hl]
    exact FrameTo_trans (FrameTo_trans (foldl_frameTo (fun t c => FrameTo_mono (dropSampleLatch_frameTo t c) rfl) _)
      (FrameTo_mono (abandonSession_frameTo _) rfl)) (FrameTo_mono (raise_frameTo _ _) rfl)
  exact ChoiceSound_of_break (hf .lineLow rfl) (hf .choice rfl)

theorem ChoiceSound_beginChosen (h : ChoiceSound s) : ChoiceSound s.beginChosen := by
  unfold State.beginChosen
  split
  · exact h
  · unfold State.beginItem
    split
    · split
      · exact ChoiceSound_of_sending rfl rfl
      · exact h
    · split
      · exact ChoiceSound_of_sending rfl rfl
      · exact h
    · split
      · exact ChoiceSound_of_sending rfl rfl
      · exact h
    · split
      · exact ChoiceSound_of_sending rfl rfl
      · exact h

/-- A host row takes no item away. -/
theorem offered_runCommand {mine : Frame → Bool} {allowed : List Byte → Bool} {own : Frame → State → Answer}
    (hown : ∀ f t, (own f s).state? = some t → ∀ k, Offered s k → Offered t k) {k : ItemKind} (h : Offered s k) :
    Offered (s.runCommand mine allowed own) k := by
  have hreply : ∀ (t : State) (r : Reply) (sl : List Frame), Offered t k →
      Offered ({ t with replies := t.replies ++ [r], slots := sl } : State).choose k := by
    intro t r sl ht
    cases k with
    | reply => exact List.append_ne_nil_of_left_ne_nil ht _
    | alarm | notice | report => exact ht
  refine runCommand_cases (P := fun t => Offered t k) h (fun f rest r _ => hreply s r rest h)
    (fun f _ o data t r _ _ _ _ _ ha _ => ?_) (fun f _ t _ _ _ _ ha => ?_)
  · exact hreply t r _ (hown f t (by rw [ha]; rfl) k h)
  · have := hown f t (by rw [ha]; rfl) k h
    cases k <;> exact this

theorem offered_defer {k : ItemKind} (h : Offered s k) (tag : Byte) (subject : DeferredSubject) : Offered (s.defer tag subject) k := by
  cases k <;> exact h

/-- The rows of host commands take no item away. -/
theorem offered_host {c : Instr} (h : answersAtOnce c = true ∨ c = .sample ∨ c = .restoreCore) (k : ItemKind) (hk : Offered s k) :
    Offered (s.after c) k := by
  rcases h with hc | rfl | rfl
  · obtain ⟨mine, allowed, own, heq, hown⟩ := after_answersAtOnce hc s
    rw [heq]
    exact offered_runCommand (fun f t ht _ => offered_addsTo (hown f t ht).adds (hown f t ht).credits.1) hk
  · refine offered_runCommand (fun f t ht j hj => ?_) hk
    obtain ⟨ch, c, -, -, -, rfl⟩ := sampleOwn_state ht
    have hf := arrive_sample_frameTo (s.defer f.tag (.sample ch)) s.nextUid ch c.input .urgent
    exact offered_addsTo (arrive_sample_addsTo _ _ _ _ _) (by rw [show _ = _ from hf .credits rfl]; omega) (offered_defer hj _ _)
  · refine offered_runCommand (fun f t ht j hj => ?_) hk
    obtain ⟨c, -, -, -, rfl⟩ := restoreCoreOwn_state ht
    cases j <;> exact hj

theorem ChoiceSound_after (c : Instr) (h : ChoiceSound s) : ChoiceSound (s.after c) := by
  cases c
  case powerOnReset straps => exact ChoiceSound_reset s straps
  case partReset straps =>
    show ChoiceSound (if s.resetDue then s.powerOn straps else s)
    split
    · exact ChoiceSound_reset s straps
    · exact h
  case linkReset =>
    show ChoiceSound s.resetLink
    cases hl : s.lineLow with
    | true => rwa [resetLink_of_low hl]
    | false => exact ChoiceSound_resetLink hl
  case lineReturnsHigh =>
    refine ChoiceSound_choosesTo (choosesTo_choose rfl) (fun k hk => ?_)
    obtain ⟨hidle, -, hitem⟩ := (choiceSound_iff.mp h).1 k hk
    exact ⟨hidle, rfl, by cases k <;> exact hitem⟩
  case transmitFrameBegin =>
    show ChoiceSound (if s.mayChoose then s.beginChosen else s)
    split
    · exact ChoiceSound_beginChosen h
    · exact h
  case replyFrameSent =>
    show ChoiceSound s.replySent
    unfold State.replySent
    split
    · exact ChoiceSound_frameSent (s := s) (choosesTo_choose rfl) (by simp [*]) h
    · exact h
  case alarmFrameSent =>
    show ChoiceSound s.alarmSent
    unfold State.alarmSent
    split
    · exact ChoiceSound_frameSent (s := s) (choosesTo_choose rfl) (by simp [*]) h
    · exact h
  case noticeFrameSent =>
    show ChoiceSound s.noticeSent
    unfold State.noticeSent
    split
    · exact ChoiceSound_frameSent (s := s) (choosesTo_choose rfl) (by simp [*]) h
    · exact h
  case reportFrameSent =>
    show ChoiceSound s.reportSent
    by_cases hk : ∃ n, s.sendingKind = some (.report n)
    · obtain ⟨n, hn⟩ := hk
      rw [reportSent_eq hn]
      exact ChoiceSound_frameSent (s := s) (choosesTo_choose (handOut_frameTo _ n .choice rfl)) (by rw [hn]; rfl) h
    · rwa [reportSent_of_other (fun n hn => hk ⟨n, hn⟩)]
  case frameReceived bytes => exact ChoiceSound_takeBytes h bytes
  case startByte =>
    show ChoiceSound (if s.rx.state = .hunt then s.takeBytes [0x5A#8] else s)
    split
    · exact ChoiceSound_takeBytes h _
    · exact h
  case lengthOutOfRange len =>
    show ChoiceSound (if s.rx.state = .length ∧ ¬ (2 ≤ len.toNat ∧ len.toNat ≤ 242) then s.takeBytes [len] else s)
    split
    · exact ChoiceSound_takeBytes h _
    · exact h
  case sample =>
    have hf := after_frameTo .sample s
    exact ChoiceSound_added (after_choosesTo rfl s) (offered_host (.inr (.inl rfl))) (hf .tx rfl) (hf .lineLow rfl) h
  case restoreCore =>
    have hf := after_frameTo .restoreCore s
    exact ChoiceSound_added (after_choosesTo rfl s) (offered_host (.inr (.inr rfl))) (hf .tx rfl) (hf .lineLow rfl) h
  case identify | getStatus | resetPart | grantCredits | setChannel | getChannel | clearChannel | setList | getList | clearList
     | startList | stopListDrain | stopListAbort | triggerList | beginTable | loadSegments | commitTable | abandonTable
     | dropTable | getTable | takeCoreOffline | unknownCommand =>
    exact ChoiceSound_added (after_choosesTo rfl s) (offered_host (.inl rfl)) (after_frameTo _ s .tx rfl)
      (after_frameTo _ s .lineLow rfl) h
  all_goals exact ChoiceSound_addsOnly (after_choosesTo rfl s) (after_addsTo s rfl) (after_frameTo _ s) rfl h

theorem ChoiceSound_idle (h : ChoiceSound s) : ChoiceSound s.idle := by
  unfold State.idle
  split
  · exact h
  · rw [choiceSound_iff] at h ⊢
    obtain ⟨hstands, hnothing⟩ := h
    refine ⟨fun k hk => ?_, fun hf hnone => ?_⟩
    · obtain ⟨hidle, hline, hitem⟩ := hstands k hk
      exact ⟨by simp [hidle], hline, by cases k <;> exact hitem⟩
    · obtain ⟨htx, hline, hunit⟩ := hf
      exact hnothing ⟨by simpa using htx, hline, hunit⟩ hnone

end

/-- Settles O51: every row and the idle tick stay within the capacities, and leave a choice only on an item that is there. -/
theorem capacitiesAreKept : Obligations.CapacitiesAreKept :=
  ⟨kept_of_rows (Q := WithinCapacity) (fun _ _ h => h) (fun _ h => WithinCapacity_idle h) (fun c _ h => WithinCapacity_after c h),
    kept_of_rows (Q := ChoiceSound) (fun _ _ h => h) (fun _ h => ChoiceSound_idle h) (fun c _ h => ChoiceSound_after c h)⟩

end Sys2Proof.Machine
end

