-- ==== Sys2Proof/Proofs/CoreMoves.lean ====
section
/-! PROOF. How each operation changes the record of a core, and with it the agreement of core states, latches, HOLD order and
claims (R3, R4, R25, R27, R93). -/

-- One proof after another, as in the tests: side by side they take more threads than memory allows.
set_option Elab.async false

namespace Sys2Proof.Machine

open Sys2Proof.Safety

/-- The record of one core is replaced; the other cores keep theirs. -/
def State.CoreSet (c : CoreId) (k : Core) (s t : State) : Prop := ∀ d, t.core d = if c = d then k else s.core d

section
variable {s t u : State} {c : CoreId} {k k' : Core}

theorem coreSet_setCore (s : State) (c : CoreId) (k : Core) : s.CoreSet c k (s.setCore c k) := fun d => State.core_setCore s c d k

theorem CoreSet_trans (h : s.CoreSet c k u) (h2 : u.CoreSet c k' t) : s.CoreSet c k' t := by
  intro d
  rw [h2 d, h d]
  split <;> rfl

theorem core_congr (h : t.cores = s.cores) (d : CoreId) : t.core d = s.core d := by rw [State.core, State.core, h]

theorem CoreSet_congr (h : s.CoreSet c k u) (hc : t.cores = u.cores) : s.CoreSet c k t := fun d => (core_congr hc d).trans (h d)

theorem CoreSet_of_eq (hs : u.cores = s.cores) (h : u.CoreSet c k t) : s.CoreSet c k t :=
  fun d => (h d).trans (by rw [core_congr hs])

theorem CoreSet_same (h : s.CoreSet c k t) : t.core c = k := by rw [h c, if_pos rfl]

/-- A core comes to rest: IDLE or OFFLINE, with all that the conversion left as it is. -/
structure Core.RestsAs (k k' : Core) : Prop where
  state : k'.state = .idle ∨ k'.state = .offline
  claimed : k'.claimed = k.claimed
  params : k'.params = k.params
  cancelled : k'.cancelled = k.cancelled
  meas : k'.meas = k.meas
  latch : k'.latch = k.latch

theorem exists_rests (hset : s.CoreSet c k' t) (h : k.RestsAs k') : ∃ k', k.RestsAs k' ∧ s.CoreSet c k' t := ⟨k', h, hset⟩

theorem RestsAs_notConverting (h : k.RestsAs k') : k'.state.isConverting = false := by
  rcases h.state with hs | hs <;> rw [hs] <;> rfl

theorem RestsAs_notHold (h : k.RestsAs k') : k'.state ≠ .hold := by
  rcases h.state with hs | hs <;> rw [hs] <;> exact nofun

/-! ### Operations -/

theorem enterOffline_core (s : State) (c : CoreId) (why : OfflineReason) :
    s.CoreSet c { s.core c with state := .offline, offlinePending := false } (s.enterOffline c why) := by
  obtain ⟨po, ls, ds, rs, h⟩ := enterOffline_frame s c why
  rw [h]
  exact CoreSet_congr (coreSet_setCore s c _) rfl

theorem settleCore_core (s : State) (c : CoreId) : ∃ k', (s.core c).RestsAs k' ∧ s.CoreSet c k' (s.settleCore c) := by
  rcases settleCore_cases s c with ⟨-, h⟩ | ⟨-, -, h⟩ | ⟨-, -, h⟩ <;> rw [h]
  · exact exists_rests (enterOffline_core s c _) ⟨.inr rfl, rfl, rfl, rfl, rfl, rfl⟩
  · exact exists_rests (enterOffline_core s c _) ⟨.inr rfl, rfl, rfl, rfl, rfl, rfl⟩
  · exact exists_rests (fun d => State.enterIdle_core s c d) ⟨.inl rfl, rfl, rfl, rfl, rfl, rfl⟩

theorem leaveHold_core (s : State) (c : CoreId) :
    (∃ k', ({ s.core c with latch := none } : Core).RestsAs k' ∧ s.CoreSet c k' (s.leaveHold c)) ∧
      (s.leaveHold c).holdOrder = s.holdOrder.erase c := by
  rcases leaveHold_cases s c with ⟨-, h⟩ | ⟨-, h⟩ <;> rw [h]
  · have hlatch : s.CoreSet c { s.core c with latch := none }
        { s.setCore c { s.core c with latch := none } with holdOrder := s.holdOrder.erase c } :=
      CoreSet_congr (coreSet_setCore s c _) rfl
    have hoff := CoreSet_trans hlatch (enterOffline_core _ c .command)
    rw [CoreSet_same hlatch] at hoff
    exact ⟨exists_rests hoff ⟨.inr rfl, rfl, rfl, rfl, rfl, rfl⟩, enterOffline_frameTo _ c _ .holdOrder rfl⟩
  · exact ⟨exists_rests (CoreSet_congr (coreSet_setCore s c _) rfl) ⟨.inl rfl, rfl, rfl, rfl, rfl, rfl⟩, rfl⟩

/-- The hand-off leaves the core at rest, or in HOLD at the end of the HOLD order (R11). -/
theorem handOff_core (s : State) (c : CoreId) (k : Core) (p : Params) :
    (∃ k', (s.core c).RestsAs k' ∧ s.CoreSet c k' (s.handOff c k p) ∧ (s.handOff c k p).holdOrder = s.holdOrder) ∨
      ∃ r, k.cancelled = false ∧ s.originExists p.origin = true ∧ k.meas.outcome = some (.valid r) ∧
        s.handOff c k p = s.enterHold c { origin := p.origin, channel := p.channel, ratio := r } := by
  have hsettle : ∀ u : State, u.cores = s.cores → u.holdOrder = s.holdOrder →
      ∃ k', (s.core c).RestsAs k' ∧ s.CoreSet c k' (u.settleCore c) ∧ (u.settleCore c).holdOrder = s.holdOrder := by
    intro u hu hh
    obtain ⟨k', hrest, hset⟩ := settleCore_core u c
    exact ⟨k', core_congr hu c ▸ hrest, CoreSet_of_eq hu hset, (settleCore_frameTo u c .holdOrder rfl).trans hh⟩
  unfold State.handOff
  split
  · have hf := outstandingDone_frameTo s p.origin
    exact .inl (hsettle _ (hf .cores rfl) (hf .holdOrder rfl))
  · rename_i hcancelled
    split
    · exact .inl (hsettle s rfl rfl)
    · rename_i hexists
      split
      · exact .inl (hsettle s rfl rfl)
      · rename_i st r _
        have hf := deliver_frameTo s p.origin { status := st, ratio := r, value := none }
        exact .inl (hsettle _ (hf .cores rfl) (hf .holdOrder rfl))
      · rename_i r hr
        dsimp only
        split
        · have hf := joinQueue_frameTo s { origin := p.origin, channel := p.channel, ratio := r }
          exact .inl (hsettle _ (hf .cores rfl) (hf .holdOrder rfl))
        · exact .inr ⟨r, by simpa using hcancelled, by simpa using hexists, hr, rfl⟩

/-! ### The end of DISCHARGE -/

/-- The state in which the input is released and the conversion removed from the core (R10, R11). -/
def State.released (s : State) (c : CoreId) (p : Params) : State :=
  (s.advanceTo ((s.core c).phaseStart + Config.dischargeTicks)).releaseCore c p

theorem endDischarge_cases (s : State) (c : CoreId) : s.endDischarge c = s ∨
    ∃ p, (s.core c).state = .discharge ∧ (s.core c).params = some p ∧
      s.endDischarge c = ((s.released c p).handOff c (s.core c) p).newGrantEvent.choose := by
  unfold State.endDischarge
  dsimp only
  split
  · rename_i p hs hp
    exact .inr ⟨p, hs, hp, rfl⟩
  · exact .inl rfl

theorem released_frameTo (s : State) (c : CoreId) (p : Params) :
    s.FrameTo [.now, .cores, .inputs, .freeSince] (s.released c p) :=
  FrameTo_trans (t := s.advanceTo ((s.core c).phaseStart + Config.dischargeTicks)) (frameTo_of_patch rfl)
    (FrameTo_mono (releaseCore_frameTo _ c p) rfl)

theorem released_core (s : State) (c : CoreId) (p : Params) :
    s.CoreSet c { s.core c with claimed := none, params := none, meas := {} } (s.released c p) := by
  unfold State.released State.releaseCore
  dsimp only
  split
  · exact CoreSet_congr (coreSet_setCore s c _) rfl
  · unfold State.releaseInput
    split <;> exact CoreSet_congr (coreSet_setCore s c _) rfl

/-- The release frees the claimed input, or lets it rest; the others keep their records. -/
theorem released_input (s : State) (c : CoreId) (p : Params) (i : InputId) :
    ((s.core c).claimed = some i ∧ ∀ d, (s.released c p).input i ≠ .claimed d) ∨
      ((s.core c).claimed ≠ some i ∧ (s.released c p).input i = s.input i) := by
  unfold State.released State.releaseCore
  dsimp only
  have hcore : (s.advanceTo ((s.core c).phaseStart + Config.dischargeTicks)).core c = s.core c := rfl
  rw [hcore]
  split
  · rename_i hnone
    exact .inr ⟨by simp [hnone], rfl⟩
  · rename_i j hj
    by_cases hij : j = i
    · subst hij
      refine .inl ⟨hj, fun d => ?_⟩
      unfold State.releaseInput
      split <;> simp [State.freeInput]
    · refine .inr ⟨by simpa [hj] using hij, ?_⟩
      unfold State.releaseInput
      split <;> simp [State.freeInput, hij]

/-! ### Grants -/

theorem mem_of_firstByRank {rs : List Request} {r : Request} (h : firstByRank rs = some r) : r ∈ rs := by
  induction rs with
  | nil => cases h
  | cons q rs ih =>
    unfold firstByRank at h
    split at h
    · cases h
      exact List.mem_cons_self
    · rename_i x hx
      split at h
      · exact List.mem_cons_of_mem _ (ih (hx.trans h))
      · cases h
        exact List.mem_cons_self

theorem nextGrant_spec {n : Nat} {r : Request} (h : s.nextGrant = some (n, r)) : r ∈ s.pool ∧ EligibleAt s n r := by
  unfold State.nextGrant at h
  split at h
  · cases h
  · obtain ⟨q, hq, heq⟩ := Option.map_eq_some_iff.mp h
    cases heq
    obtain ⟨hmem, he⟩ := List.mem_filter.mp (mem_of_firstByRank hq)
    exact ⟨hmem, eligibleAt_iff.mp he⟩

/-- The core of a grant is IDLE and serves the input (R78). -/
theorem chosenCore_spec {n : Nat} {r : Request} (h : EligibleAt s n r) :
    (s.core (s.chosenCore n r)).state = .idle ∧ serves (s.chosenCore n r) r.input = true := by
  obtain ⟨-, -, -, c, hserves, hidle, hsince⟩ := h
  unfold State.chosenCore
  split
  · rename_i hby
    exact ⟨of_decide_eq_true (Bool.and_eq_true_iff.mp hby).1, (serves_iff _ _).mpr (.inl rfl)⟩
  · rename_i hby
    rcases (serves_iff c r.input).mp hserves with rfl | rfl
    · exact absurd (Bool.and_eq_true_iff.mpr ⟨decide_eq_true hidle, decide_eq_true hsince⟩) hby
    · exact ⟨hidle, hserves⟩

/-- What a grant does: a request of the pool goes to an IDLE core that serves its FREE input (R76 to R79). -/
theorem grantNext_cases (s : State) : s.grantNext = s ∨
    ∃ (r : Request) (c : CoreId) (cfg : ChannelConfig), r ∈ s.pool ∧ s.input r.input = .free ∧ (s.core c).state = .idle ∧
      serves c r.input = true ∧
      s.grantNext = ((({ s with pool := s.pool.erase r } : State).setInput r.input (.claimed c)).setCore c
        ((s.core c).granted (paramsFor r cfg) s.now)).setOriginStage r.origin .converting := by
  unfold State.grantNext
  split
  · exact .inl rfl
  · rename_i n r hn
    obtain ⟨hmem, he⟩ := nextGrant_spec hn
    obtain ⟨hidle, hserves⟩ := chosenCore_spec he
    unfold State.grantTo
    split
    · exact .inl rfl
    · rename_i cfg _
      exact .inr ⟨r, s.chosenCore n r, cfg, hmem, he.1.1, hidle, hserves, rfl⟩

/-! ### Checks -/

theorem endPair_core (s : State) (c : CoreId) (failed : Option Reference) :
    ∃ k', (s.core c).RestsAs k' ∧ s.CoreSet c k' (s.endPair c failed) := by
  have hready : ∀ t : State, t.readyIfDone.cores = t.cores := by
    intro t
    unfold State.readyIfDone
    split <;> rfl
  have hanswer : ∀ (t : State) (x : Option Reference), (t.answerRestore c x).cores = t.cores := by
    intro t x
    unfold State.answerRestore
    split <;> rfl
  have hidle : ∀ k : Core, s.CoreSet c { k with state := .idle } ((s.setCore c k).enterIdle c) := by
    intro k
    have := CoreSet_trans (coreSet_setCore s c k) (t := (s.setCore c k).enterIdle c) (fun d => State.enterIdle_core _ c d)
    rwa [CoreSet_same (coreSet_setCore s c k)] at this
  unfold State.endPair
  split
  · unfold State.endStartupPair
    dsimp only
    split
    · exact exists_rests (CoreSet_congr (hidle _) (hready _)) ⟨.inl rfl, rfl, rfl, rfl, rfl, rfl⟩
    · exact exists_rests (CoreSet_congr (coreSet_setCore s c _) (hready _)) ⟨.inr rfl, rfl, rfl, rfl, rfl, rfl⟩
  · unfold State.endRestorePair
    dsimp only
    split
    · exact exists_rests (CoreSet_congr (hidle _) (hanswer _ _)) ⟨.inl rfl, rfl, rfl, rfl, rfl, rfl⟩
    · exact exists_rests (CoreSet_congr (coreSet_setCore s c _) (hanswer _ _)) ⟨.inr rfl, rfl, rfl, rfl, rfl, rfl⟩

/-- A check and its discharge keep the core in the checks, or bring it to rest; what it held before is as it was (R17). -/
structure Core.ChecksAs (k k' : Core) : Prop where
  before : k.state.isCheck = true
  after : k'.state.isCheck = true ∨ k'.state = .idle ∨ k'.state = .offline
  claimed : k'.claimed = k.claimed
  params : k'.params = k.params
  cancelled : k'.cancelled = k.cancelled
  latch : k'.latch = k.latch

/-- What a row of the checks does to its core. -/
def State.ChecksTo (c : CoreId) (s t : State) : Prop := t = s ∨ ∃ k', (s.core c).ChecksAs k' ∧ s.CoreSet c k' t

theorem checksTo_intro (hset : s.CoreSet c k' t) (h : (s.core c).ChecksAs k') : s.ChecksTo c t := .inr ⟨k', h, hset⟩

theorem checking_isCheck (h : k.checking = true) : k.state.isCheck = true := by
  unfold Core.checking at h
  cases hs : k.state <;> simp_all [CoreState.isCheck]

theorem passCheck_checksTo (s : State) (c : CoreId) (n : PeriodCount) : s.ChecksTo c (s.passCheck c n) := by
  unfold State.passCheck
  split
  · rename_i h
    have hcheck := checking_isCheck (Bool.and_eq_true_iff.mp h).1
    exact checksTo_intro (CoreSet_congr (coreSet_setCore s c _) rfl) ⟨hcheck, .inl hcheck, rfl, rfl, rfl, rfl⟩
  · exact .inl rfl

theorem failCheck_checksTo (s : State) (c : CoreId) : s.ChecksTo c (s.failCheck c) := by
  unfold State.failCheck
  split
  · rename_i h
    have hcheck := checking_isCheck h
    exact checksTo_intro (CoreSet_congr (coreSet_setCore s c _) rfl) ⟨hcheck, .inl hcheck, rfl, rfl, rfl, rfl⟩
  · exact .inl rfl

theorem endCheckDischarge_checksTo (s : State) (c : CoreId) : s.ChecksTo c (s.endCheckDischarge c) := by
  have hpair : ∀ x, (s.core c).state.isCheck = true →
      s.ChecksTo c ((s.advanceTo ((s.core c).phaseStart + Config.dischargeTicks)).endPair c x) := by
    intro x hcheck
    obtain ⟨k', hrest, hset⟩ := endPair_core (s.advanceTo ((s.core c).phaseStart + Config.dischargeTicks)) c x
    exact .inr ⟨k', ⟨hcheck, .inr hrest.state, hrest.claimed, hrest.params, hrest.cancelled, hrest.latch⟩,
      CoreSet_of_eq rfl hset⟩
  unfold State.endCheckDischarge
  dsimp only
  split
  · rename_i hs _
    exact checksTo_intro (CoreSet_congr (coreSet_setCore s c _) rfl) ⟨by rw [hs]; rfl, .inl rfl, rfl, rfl, rfl, rfl⟩
  · rename_i hs _
    exact hpair _ (by rw [hs]; rfl)
  · rename_i hs _
    exact hpair _ (by rw [hs]; rfl)
  · rename_i hs _
    exact hpair _ (by rw [hs]; rfl)
  · exact .inl rfl

end

end Sys2Proof.Machine
end

