-- ==== Sys2Proof/Proofs/HoldAndClaims.lean ====
section
/-! PROOF. Latches, HOLD order and claims stay in agreement with the core states (R3, R4, R25, R27, R93). -/

-- One proof after another, as in the tests: side by side they take more threads than memory allows.
set_option Elab.async false

namespace Sys2Proof.Machine

open Sys2Proof.Safety

section
variable {s t u : State} {c : CoreId} {k k' : Core}

/-! ### The HOLD order -/

theorem HoldSound_congr (hc : ∀ d, t.core d = s.core d) (hh : t.holdOrder = s.holdOrder) (h : HoldSound s) : HoldSound t := by
  obtain ⟨hlatch, hmem, hnodup⟩ := h
  exact ⟨fun d => by rw [hc]; exact hlatch d, fun d => by rw [hc, hh]; exact hmem d, by rwa [hh]⟩

theorem HoldSound_frame {fs : List Field} (hf : s.FrameTo fs t) (h : HoldSound s) (hc : fs.contains .cores = false := by rfl)
    (hh : fs.contains .holdOrder = false := by rfl) : HoldSound t :=
  HoldSound_congr (core_congr (hf .cores hc)) (hf .holdOrder hh) h

/-- The record of a core is replaced by one that is in HOLD when it was, with a latch exactly then. -/
theorem HoldSound_coreSet (hset : s.CoreSet c k t) (hh : t.holdOrder = s.holdOrder)
    (hhold : k.state = .hold ↔ (s.core c).state = .hold) (hlatch : k.latch.isSome = (s.core c).latch.isSome)
    (h : HoldSound s) : HoldSound t := by
  obtain ⟨hl, hmem, hnodup⟩ := h
  refine ⟨fun d => ?_, fun d => ?_, by rwa [hh]⟩
  · rw [hset d]
    split
    · rw [hlatch, hl c, decide_eq_decide.mpr hhold]
    · exact hl d
  · rw [hh, hset d]
    split
    · rename_i hd
      rw [← hd, hhold]
      exact hmem c
    · exact hmem d

/-- A core outside HOLD comes to rest. -/
theorem HoldSound_rests (hset : s.CoreSet c k' t) (hh : t.holdOrder = s.holdOrder) (hrest : (s.core c).RestsAs k')
    (hc : (s.core c).state ≠ .hold) (h : HoldSound s) : HoldSound t :=
  HoldSound_coreSet hset hh ⟨fun hk => absurd hk (RestsAs_notHold hrest), fun hs => absurd hs hc⟩ (by rw [hrest.latch]) h

/-- A core leaves HOLD with its latch gone (R12). -/
theorem HoldSound_leaveHold (h : HoldSound s) : HoldSound (s.leaveHold c) := by
  obtain ⟨⟨k', hrest, hset⟩, horder⟩ := leaveHold_core s c
  obtain ⟨hl, hmem, hnodup⟩ := h
  refine ⟨fun d => ?_, fun d => ?_, by rw [horder]; exact hnodup.erase c⟩
  · rw [hset d]
    split
    · rw [hrest.latch, decide_eq_false (RestsAs_notHold hrest)]
      rfl
    · exact hl d
  · rw [horder, hnodup.mem_erase_iff, hset d, hmem d]
    split
    · rename_i hd
      exact ⟨fun hne => absurd hd.symm hne.1, fun hk => absurd hk (RestsAs_notHold hrest)⟩
    · rename_i hd
      exact ⟨fun hne => hne.2, fun hs => ⟨Ne.symm hd, hs⟩⟩

/-- A core outside HOLD enters it, last in the order (R11, R93). -/
theorem HoldSound_enterHold (hc : (s.core c).state ≠ .hold) (e : RatioEntry) (h : HoldSound s) : HoldSound (s.enterHold c e) := by
  obtain ⟨hl, hmem, hnodup⟩ := h
  have hset : s.CoreSet c { s.core c with state := .hold, latch := some e } (s.enterHold c e) :=
    CoreSet_congr (coreSet_setCore s c _) rfl
  have horder : (s.enterHold c e).holdOrder = s.holdOrder ++ [c] := rfl
  have hnot : c ∉ s.holdOrder := fun hin => hc ((hmem c).mp hin)
  refine ⟨fun d => ?_, fun d => ?_, ?_⟩
  · rw [hset d]
    split
    · rfl
    · exact hl d
  · rw [horder, List.mem_append, List.mem_singleton, hset d, hmem d]
    split
    · rename_i hd
      simp [hd]
    · rename_i hd
      exact ⟨fun ho => ho.resolve_right (Ne.symm hd), .inl⟩
  · rw [horder, List.nodup_append]
    refine ⟨hnodup, List.nodup_singleton c, ?_⟩
    rintro d hd _ hm rfl
    exact hnot (List.mem_singleton.mp hm ▸ hd)

/-! ### Claims -/

theorem ClaimsAgree_congr (hc : ∀ d, t.core d = s.core d) (hi : t.inputs = s.inputs) (h : ClaimsAgree s) : ClaimsAgree t := by
  unfold ClaimsAgree State.input at *
  simpa only [hc, hi] using h

theorem ClaimsAgree_frame {fs : List Field} (hf : s.FrameTo fs t) (h : ClaimsAgree s) (hc : fs.contains .cores = false := by rfl)
    (hi : fs.contains .inputs = false := by rfl) : ClaimsAgree t :=
  ClaimsAgree_congr (core_congr (hf .cores hc)) (hf .inputs hi) h

/-- The record of a core is replaced by one with the same claim that converts when it did. -/
theorem ClaimsAgree_coreSet (hset : s.CoreSet c k t) (hi : t.inputs = s.inputs) (hclaim : k.claimed = (s.core c).claimed)
    (hconv : k.state.isConverting = (s.core c).state.isConverting) (h : ClaimsAgree s) : ClaimsAgree t := by
  obtain ⟨hagree, hserves, hexact⟩ := h
  have hclaims : ∀ d, (t.core d).claimed = (s.core d).claimed := by
    intro d
    rw [hset d]
    split
    · rename_i hd
      rw [hclaim, hd]
    · rfl
  refine ⟨fun d i => ?_, fun d i => ?_, fun d => ?_⟩
  · rw [hclaims, State.input, hi]
    exact hagree d i
  · rw [hclaims]
    exact hserves d i
  · rw [hclaims, hexact d, hset d]
    split
    · rename_i hd
      rw [hconv, hd]
    · rfl

theorem claimed_none_of_not_converting (h : ClaimsAgree s) (hc : (s.core c).state.isConverting = false) :
    (s.core c).claimed = none := by
  have := h.2.2 c
  rw [hc] at this
  exact Option.not_isSome_iff_eq_none.mp (by simp [this])

/-- A core that does not convert comes to rest. -/
theorem ClaimsAgree_rests (hset : s.CoreSet c k' t) (hi : t.inputs = s.inputs) (hclaim : k'.claimed = (s.core c).claimed)
    (hrest : k'.state.isConverting = false) (hc : (s.core c).state.isConverting = false) (h : ClaimsAgree s) : ClaimsAgree t :=
  ClaimsAgree_coreSet hset hi hclaim (hrest.trans hc.symm) h

/-- The release at the end of DISCHARGE takes the claim off both (R10). -/
theorem ClaimsAgree_released (hset : s.CoreSet c k t) (hclaim : k.claimed = none) (hconv : k.state.isConverting = false)
    (hinput : ∀ i, ((s.core c).claimed = some i ∧ ∀ d, t.input i ≠ .claimed d) ∨
      ((s.core c).claimed ≠ some i ∧ t.input i = s.input i)) (h : ClaimsAgree s) : ClaimsAgree t := by
  obtain ⟨hagree, hserves, hexact⟩ := h
  refine ⟨fun d i => ?_, fun d i => ?_, fun d => ?_⟩
  · rw [hset d]
    rcases hinput i with ⟨hmine, hgone⟩ | ⟨hother, hsame⟩
    · refine ⟨fun hd => ?_, fun hd => absurd hd (hgone d)⟩
      split at hd
      · rw [hclaim] at hd
        cases hd
      · rename_i hne
        have := ((hagree c i).mp hmine).symm.trans ((hagree d i).mp hd)
        exact absurd (InputRec.claimed.inj this) hne
    · rw [hsame]
      split
      · rename_i hd
        subst hd
        rw [hclaim]
        exact ⟨nofun, fun hi => absurd ((hagree c i).mpr hi) hother⟩
      · exact hagree d i
  · rw [hset d]
    split
    · rw [hclaim]
      exact nofun
    · exact hserves d i
  · rw [hset d]
    split
    · rw [hclaim, hconv]
      rfl
    · exact hexact d

/-- A grant claims a FREE input for a core that serves it and claims none (R5, R27). -/
theorem ClaimsAgree_granted {i : InputId} (hset : s.CoreSet c k t) (hclaim : k.claimed = some i)
    (hconv : k.state.isConverting = true) (hinput : ∀ j, t.input j = if i = j then .claimed c else s.input j)
    (hfree : s.input i = .free) (hidle : (s.core c).claimed = none) (hserves : serves c i = true) (h : ClaimsAgree s) :
    ClaimsAgree t := by
  obtain ⟨hagree, hs, hexact⟩ := h
  refine ⟨fun d j => ?_, fun d j => ?_, fun d => ?_⟩
  · rw [hset d, hinput j]
    by_cases hd : c = d <;> by_cases hj : i = j
    · subst hd hj
      simp [hclaim]
    · subst hd
      rw [if_pos rfl, if_neg hj, hclaim, ← hagree c j, hidle]
      simp [hj]
    · subst hj
      rw [if_neg hd, if_pos rfl]
      refine ⟨fun hc => ?_, fun hc => absurd (InputRec.claimed.inj hc) hd⟩
      rw [(hagree d i).mp hc] at hfree
      cases hfree
    · rw [if_neg hd, if_neg hj]
      exact hagree d j
  · rw [hset d]
    split
    · rename_i hd
      subst hd
      rw [hclaim]
      rintro ⟨⟩
      exact hserves
    · exact hs d j
  · rw [hset d]
    split
    · rw [hclaim, hconv]
      rfl
    · exact hexact d

/-! ### Both together -/

/-- Latches and HOLD order agree, and where the claims do they still do: what each row is proved to keep. -/
def HoldAndClaims (s t : State) : Prop := HoldSound t ∧ (ClaimsAgree s → ClaimsAgree t)

theorem HoldAndClaims_refl (h : HoldSound s) : HoldAndClaims s s := ⟨h, id⟩

theorem HoldAndClaims_trans (h : HoldAndClaims s u) (h2 : HoldAndClaims u t) : HoldAndClaims s t := ⟨h2.1, fun hs => h2.2 (h.2 hs)⟩

theorem HoldAndClaims_frame {fs : List Field} (hf : s.FrameTo fs t) (h : HoldSound s) (hc : fs.contains .cores = false := by rfl)
    (hh : fs.contains .holdOrder = false := by rfl) (hi : fs.contains .inputs = false := by rfl) : HoldAndClaims s t :=
  ⟨HoldSound_frame hf h hc hh, fun hs => ClaimsAgree_frame hf hs hc hi⟩

theorem isConverting_ne_hold {st : CoreState} (h : st.isConverting = true) : st ≠ .hold := by
  rintro rfl
  cases h

theorem HoldAndClaims_leaveHold (hc : (s.core c).state = .hold) (h : HoldSound s) : HoldAndClaims s (s.leaveHold c) := by
  obtain ⟨⟨k', hrest, hset⟩, -⟩ := leaveHold_core s c
  refine ⟨HoldSound_leaveHold h, fun hs => ?_⟩
  exact ClaimsAgree_rests hset (leaveHold_frameTo s c .inputs rfl) hrest.claimed (RestsAs_notConverting hrest) (by rw [hc]; rfl) hs

theorem HoldAndClaims_abortCore (l : ListId) (c : CoreId) (h : HoldSound s) : HoldAndClaims s (s.abortCore l c) := by
  have hcancel : ∀ k : Core, (s.core c).state.isConverting = true → k.state.isConverting = true → k.latch = (s.core c).latch →
      k.claimed = (s.core c).claimed → HoldAndClaims s (s.setCore c k) := by
    intro k hconv hk hlatch hclaim
    refine ⟨HoldSound_coreSet (coreSet_setCore s c k) rfl ?_ (by rw [hlatch]) h,
      ClaimsAgree_coreSet (coreSet_setCore s c k) rfl hclaim (hk.trans hconv.symm)⟩
    exact ⟨fun hold => absurd hold (isConverting_ne_hold hk), fun hold => absurd hold (isConverting_ne_hold hconv)⟩
  unfold State.abortCore
  dsimp only
  split
  · rename_i hfor
    have hconv := (Bool.and_eq_true_iff.mp hfor).1
    split
    · exact hcancel _ hconv hconv rfl rfl
    · exact hcancel _ hconv rfl rfl rfl
  · split
    · rename_i hfor
      exact HoldAndClaims_leaveHold (of_decide_eq_true (Bool.and_eq_true_iff.mp hfor).1) h
    · exact HoldAndClaims_refl h

theorem HoldAndClaims_dropSampleLatch (c : CoreId) (h : HoldSound s) : HoldAndClaims s (s.dropSampleLatch c) := by
  unfold State.dropSampleLatch
  split
  · rename_i hfor
    exact HoldAndClaims_leaveHold hfor.1 h
  · exact HoldAndClaims_refl h

theorem HoldAndClaims_foldl {α : Type} {f : State → α → State} (hstep : ∀ (u : State) x, HoldSound u → HoldAndClaims u (f u x))
    (xs : List α) (h : HoldSound s) : HoldAndClaims s (xs.foldl f s) := by
  induction xs generalizing s with
  | nil => exact HoldAndClaims_refl h
  | cons x xs ih => exact HoldAndClaims_trans (hstep s x h) (ih (hstep s x h).1)

theorem HoldAndClaims_abortList (l : ListId) (h : HoldSound s) : HoldAndClaims s (s.abortList l) := by
  have hwork : HoldAndClaims s (s.abortWork l) := by
    have hpool : HoldAndClaims s { s with pool := s.pool.filter (fun r => !r.origin.ofList l) } :=
      HoldAndClaims_frame (frameTo_of_patch (fs := [.pool]) rfl) h
    have hcores := HoldAndClaims_trans hpool
      (HoldAndClaims_foldl (fun u c hu => HoldAndClaims_abortCore l c hu) (List.finRange 4) hpool.1)
    unfold State.abortWork
    dsimp only
    generalize (List.finRange 4).foldl (State.abortCore l) _ = u at hcores ⊢
    refine HoldAndClaims_trans hcores ?_
    split <;> exact HoldAndClaims_frame (frameTo_of_patch (fs := [.evalQueue, .engine, .blocked, .lists, .notices]) rfl) hcores.1
  unfold State.abortList
  split
  · exact HoldAndClaims_frame (frameTo_of_patch (fs := [.lists, .notices]) rfl) h
  · exact hwork
  · exact hwork
  · exact HoldAndClaims_refl h

theorem HoldAndClaims_phaseTo (hp : s.PhaseTo c t) (h : HoldSound s) : HoldAndClaims s t := by
  rcases hp with rfl | ⟨n, k', rfl, hmoves⟩
  · exact HoldAndClaims_refl h
  · have hset : s.CoreSet c k' ((s.advanceTo n).setCore c k') := CoreSet_of_eq rfl (coreSet_setCore _ c k')
    refine ⟨HoldSound_coreSet hset rfl ?_ (by rw [hmoves.latch_eq]) h, fun hs => ?_⟩
    · exact ⟨fun hk => absurd hk (isConverting_ne_hold hmoves.after), fun hk => absurd hk (isConverting_ne_hold hmoves.before)⟩
    · exact ClaimsAgree_coreSet hset rfl hmoves.claimed_eq (hmoves.after.trans hmoves.before.symm) hs

theorem isCheck_spec {st : CoreState} (h : st.isCheck = true) : st ≠ .hold ∧ st.isConverting = false := by
  cases st
  case checkA => exact ⟨nofun, rfl⟩
  case checkB => exact ⟨nofun, rfl⟩
  all_goals cases h

theorem HoldAndClaims_checksTo {fs : List Field} (hp : s.ChecksTo c t) (hf : s.FrameTo fs t)
    (hh : fs.contains .holdOrder = false) (hi : fs.contains .inputs = false) (h : HoldSound s) : HoldAndClaims s t := by
  rcases hp with rfl | ⟨k', hk, hset⟩
  · exact HoldAndClaims_refl h
  · obtain ⟨hnotHold, hnotConv⟩ := isCheck_spec hk.before
    have hafter : k'.state ≠ .hold ∧ k'.state.isConverting = false := by
      rcases hk.after with hcheck | hidle | hoff
      · exact isCheck_spec hcheck
      · rw [hidle]; exact ⟨nofun, rfl⟩
      · rw [hoff]; exact ⟨nofun, rfl⟩
    refine ⟨HoldSound_coreSet hset (hf .holdOrder hh) ?_ (by rw [hk.latch]) h, fun hs => ?_⟩
    · exact ⟨fun hold => absurd hold hafter.1, fun hold => absurd hold hnotHold⟩
    · exact ClaimsAgree_rests hset (hf .inputs hi) hk.claimed hafter.2 hnotConv hs

theorem HoldAndClaims_endDischarge (c : CoreId) (h : HoldSound s) : HoldAndClaims s (s.endDischarge c) := by
  rcases endDischarge_cases s c with heq | ⟨p, hstate, -, heq⟩ <;> rw [heq]
  · exact HoldAndClaims_refl h
  · have hnotHold : (s.core c).state ≠ .hold := by rw [hstate]; exact nofun
    have hrel := released_core s c p
    have horder : (s.released c p).holdOrder = s.holdOrder := released_frameTo s c p .holdOrder rfl
    have hheld : HoldSound (s.released c p) := HoldSound_coreSet hrel horder Iff.rfl rfl h
    have hnotHold' : ((s.released c p).core c).state ≠ .hold := by rw [CoreSet_same hrel]; exact hnotHold
    have hinputs : ∀ u : State, u.inputs = (s.released c p).inputs → ∀ i,
        ((s.core c).claimed = some i ∧ ∀ d, u.input i ≠ .claimed d) ∨ ((s.core c).claimed ≠ some i ∧ u.input i = s.input i) := by
      intro u hu i
      have := released_input s c p i
      rwa [State.input, ← hu] at this
    rcases handOff_core (s.released c p) c (s.core c) p with ⟨k', hrest, hset, hh⟩ | ⟨r, -, -, -, hhold⟩
    · refine ⟨HoldSound_rests (CoreSet_congr hset rfl) hh hrest hnotHold' hheld, fun hs => ?_⟩
      rw [CoreSet_same hrel] at hrest
      exact ClaimsAgree_released (CoreSet_congr (CoreSet_trans hrel hset) rfl) hrest.claimed (RestsAs_notConverting hrest)
        (hinputs _ (handOff_frameTo _ c _ p .inputs rfl)) hs
    · rw [hhold]
      refine ⟨HoldSound_enterHold hnotHold' _ hheld, fun hs => ?_⟩
      have hset := coreSet_setCore (s.released c p) c
        { (s.released c p).core c with state := .hold, latch := some { origin := p.origin, channel := p.channel, ratio := r } }
      refine ClaimsAgree_released (CoreSet_congr (CoreSet_trans hrel hset) rfl) ?_ rfl (hinputs _ rfl) hs
      rw [CoreSet_same hrel]

theorem HoldAndClaims_grantNext (h : HoldSound s) : HoldAndClaims s s.grantNext := by
  rcases grantNext_cases s with heq | ⟨r, c, cfg, -, hfree, hidle, hserves, heq⟩ <;> rw [heq]
  · exact HoldAndClaims_refl h
  · have hnotHold : (s.core c).state ≠ .hold := by rw [hidle]; exact nofun
    have hset : s.CoreSet c ((s.core c).granted (paramsFor r cfg) s.now)
        (((({ s with pool := s.pool.erase r } : State).setInput r.input (.claimed c)).setCore c
          ((s.core c).granted (paramsFor r cfg) s.now)).setOriginStage r.origin .converting) :=
      CoreSet_congr (coreSet_setCore s c _) (setOriginStage_frameTo _ _ _ .cores rfl)
    refine ⟨HoldSound_coreSet hset (setOriginStage_frameTo _ _ _ .holdOrder rfl) ⟨nofun, fun hold => absurd hold hnotHold⟩ rfl h,
      fun hs => ?_⟩
    refine ClaimsAgree_granted (i := r.input) hset rfl rfl (fun j => ?_) hfree ?_ hserves hs
    · rw [State.input, show _ = _ from setOriginStage_frameTo _ r.origin .converting .inputs rfl]
      exact State.input_setInput s r.input j (.claimed c)
    · exact claimed_none_of_not_converting hs (by rw [hidle]; rfl)

theorem HoldAndClaims_reset (s : State) (straps : BitVec 2) : HoldAndClaims s (s.powerOn straps) := by
  have hcore : ∀ c, (s.powerOn straps).core c = Core.afterReset := fun c => by
    simp [State.core, State.powerOn, State.reset, Vector.get_eq_getElem]
  have hinput : ∀ i, (s.powerOn straps).input i = .free := fun i => by
    simp [State.input, State.powerOn, State.reset, Vector.get_eq_getElem]
  have horder : (s.powerOn straps).holdOrder = [] := rfl
  refine ⟨⟨fun c => by rw [hcore]; rfl, fun c => by rw [hcore, horder]; exact ⟨nofun, nofun⟩, List.nodup_nil⟩, fun _ => ?_⟩
  refine ⟨fun c i => ?_, fun c i => ?_, fun c => by rw [hcore]; rfl⟩
  · rw [hcore, hinput]
    exact ⟨nofun, nofun⟩
  · rw [hcore]
    exact nofun

theorem HoldAndClaims_serveHold (h : HoldSound s) : HoldAndClaims s s.serveHold := by
  unfold State.serveHold
  split
  · exact HoldAndClaims_refl h
  · rename_i c rest horder
    split
    · exact HoldAndClaims_refl h
    · rename_i e _
      split
      · have hjoin : HoldAndClaims s (s.joinQueue e) := HoldAndClaims_frame (joinQueue_frameTo s e) h
        have hhold : ((s.joinQueue e).core c).state = .hold := by
          rw [core_congr (joinQueue_frameTo s e .cores rfl)]
          exact (h.2.1 c).mp (by rw [horder]; exact List.mem_cons_self)
        have hleave := HoldAndClaims_leaveHold hhold hjoin.1
        exact HoldAndClaims_trans (HoldAndClaims_trans hjoin hleave) (HoldAndClaims_frame (choose_frameTo _) hleave.1)
      · exact HoldAndClaims_refl h

theorem HoldAndClaims_resetLink (h : HoldSound s) : HoldAndClaims s s.resetLink := by
  cases hl : s.lineLow with
  | true => rw [resetLink_of_low hl]; exact HoldAndClaims_refl h
  | false =>
    rw [resetLink_eq hl]
    have hclear : HoldAndClaims s s.linkCleared := HoldAndClaims_frame (frameTo_of_patch
      (fs := [.lineLow, .rx, .slots, .pool, .deferred, .replies, .credits, .tx, .cutByte, .choice, .alarms, .notices]) rfl) h
    have hlatches := HoldAndClaims_trans hclear
      (HoldAndClaims_foldl (fun u c hu => HoldAndClaims_dropSampleLatch c hu) (List.finRange 4) hclear.1)
    exact HoldAndClaims_trans hlatches (HoldAndClaims_frame
      (FrameTo_trans (FrameTo_mono (gs := [.banks, .session, .notices]) (abandonSession_frameTo _) rfl)
        (FrameTo_mono (raise_frameTo _ _) rfl)) hlatches.1)

theorem HoldAndClaims_runCommand {mine : Frame → Bool} {allowed : List Byte → Bool} {own : Frame → State → Answer}
    (h : HoldSound s) (hown : ∀ f t, (own f s).state? = some t → HoldAndClaims s t) :
    HoldAndClaims s (s.runCommand mine allowed own) :=
  runCommand_keeps (P := HoldAndClaims s) (fun _ _ _ _ ht => ht) (HoldAndClaims_refl h) hown

theorem HoldAndClaims_endRest (i : InputId) (h : HoldSound s) : HoldAndClaims s (s.endRest i) := by
  unfold State.endRest
  split
  · rename_i n hrest
    refine ⟨HoldSound_congr (fun _ => rfl) rfl h, fun hs => ?_⟩
    obtain ⟨hagree, hserves, hexact⟩ := hs
    refine ⟨fun c j => ?_, hserves, hexact⟩
    have hin : (((s.advanceTo n).freeInput i).newGrantEvent).input j = if i = j then .free else s.input j :=
      State.freeInput_input (s.advanceTo n) i j
    rw [hin]
    split
    · rename_i hij
      subst hij
      refine ⟨fun hc => ?_, nofun⟩
      rw [(hagree c i).mp hc] at hrest
      cases hrest
    · exact hagree c j
  · exact HoldAndClaims_refl h

/-- Every row keeps latches, HOLD order and claims in agreement. -/
theorem HoldAndClaims_after (c : Instr) (h : HoldSound s) : HoldAndClaims s (s.after c) := by
  cases c
  case powerOnReset straps => exact HoldAndClaims_reset s straps
  case partReset straps =>
    show HoldAndClaims s (if s.resetDue then s.powerOn straps else s)
    split
    · exact HoldAndClaims_reset s straps
    · exact HoldAndClaims_refl h
  case stopListAbort =>
    refine HoldAndClaims_runCommand h (fun f t ht => ?_)
    obtain ⟨l, -, rfl⟩ := stopListAbortOwn_state ht
    exact HoldAndClaims_abortList l h
  case takeCoreOffline =>
    refine HoldAndClaims_runCommand h (fun f t ht => ?_)
    rcases takeCoreOfflineOwn_state ht with rfl | ⟨c, ⟨hidle, rfl⟩ | rfl⟩
    · exact HoldAndClaims_refl h
    · have hset := enterOffline_core s c .command
      have hf := enterOffline_frameTo s c .command
      refine ⟨HoldSound_coreSet hset (hf .holdOrder rfl) ?_ rfl h, fun hs => ?_⟩
      · rw [hidle]
        exact ⟨nofun, nofun⟩
      · exact ClaimsAgree_rests hset (hf .inputs rfl) rfl rfl (by rw [hidle]; rfl) hs
    · have hset := coreSet_setCore s c { s.core c with offlinePending := true }
      exact ⟨HoldSound_coreSet hset rfl Iff.rfl rfl h, ClaimsAgree_coreSet hset rfl rfl rfl⟩
  case restoreCore =>
    refine HoldAndClaims_runCommand h (fun f t ht => ?_)
    obtain ⟨c, hoff, -, -, rfl⟩ := restoreCoreOwn_state ht
    have hset : s.CoreSet c { (s.core c).enter .checkA s.now with checkPassed := none }
        ((s.defer f.tag (.restore c)).setCore c { (s.core c).enter .checkA s.now with checkPassed := none }) :=
      CoreSet_of_eq rfl (coreSet_setCore _ c _)
    refine ⟨HoldSound_coreSet hset rfl ?_ rfl h, fun hs => ?_⟩
    · rw [hoff]
      exact ⟨nofun, nofun⟩
    · exact ClaimsAgree_rests hset rfl rfl rfl (by rw [hoff]; rfl) hs
  case linkReset => exact HoldAndClaims_resetLink h
  case grant => exact HoldAndClaims_grantNext h
  case settleEnd core => exact HoldAndClaims_phaseTo (endSettle_phaseTo s core) h
  case refPhaseComplete core count => exact HoldAndClaims_phaseTo (completeRef_phaseTo s core count) h
  case refPhaseTimeout core => exact HoldAndClaims_phaseTo (timeoutRef_phaseTo s core) h
  case sensePhaseComplete core count => exact HoldAndClaims_phaseTo (completeSense_phaseTo s core count) h
  case sensePosComplete core count => exact HoldAndClaims_phaseTo (completeForward_phaseTo s core count) h
  case senseNegComplete core count => exact HoldAndClaims_phaseTo (completeReverse_phaseTo s core count) h
  case senseTimeout core => exact HoldAndClaims_phaseTo (timeoutSense_phaseTo s core) h
  case checkPeriodsComplete core count =>
    exact HoldAndClaims_checksTo (passCheck_checksTo s core count) (after_frameTo (.checkPeriodsComplete core count) s) rfl rfl h
  case checkLimitExpiry core =>
    exact HoldAndClaims_checksTo (failCheck_checksTo s core) (after_frameTo (.checkLimitExpiry core) s) rfl rfl h
  case checkDischargeEnd core =>
    exact HoldAndClaims_checksTo (endCheckDischarge_checksTo s core) (after_frameTo (.checkDischargeEnd core) s) rfl rfl h
  case dischargeEnd core => exact HoldAndClaims_endDischarge core h
  case restEnd input => exact HoldAndClaims_endRest input h
  case holdServed => exact HoldAndClaims_serveHold h
  all_goals exact HoldAndClaims_frame (after_frameTo _ s) h

/-- Settles O54: every row keeps the agreement, and the idle tick touches none of it. -/
theorem coresAndClaimsStayInAgreement : Obligations.CoresAndClaimsStayInAgreement := by
  intro s t h hstep
  refine kept_of_rows (Q := fun u => HoldSound u ∧ (ClaimsAgree s → ClaimsAgree u))
    (P := fun u => HoldSound u ∧ (ClaimsAgree s → ClaimsAgree u)) (fun _ _ hu => hu) (fun u hu => ?_)
    (fun c u hu => ?_) s t ⟨h, id⟩ hstep
  · unfold State.idle
    split <;> exact hu
  · obtain ⟨hhold, hclaims⟩ := HoldAndClaims_after c hu.1
    exact ⟨hhold, fun hs => hclaims (hu.2 hs)⟩

end

end Sys2Proof.Machine
end

