-- ==== Sys2Proof/Proofs/CommandRows.lean ====
section
/-! PROOF. The rows of the command unit: which row executes a frame, with which rule for the length and which part of its own,
and the statements about the machine as a whole and the commands of the part itself. -/

-- One proof after another, as in the tests: side by side they take more threads than memory allows.
set_option Elab.async false

namespace Sys2Proof.Machine

open Sys2Proof.Safety

section
variable {s : State} {f : Frame} {rest : List Frame}

/-! ### The answer of a row, by the kind of answer its own part gives -/

section
variable {c : Instr} {k : Byte} {allowed : List Byte → Bool} {own : Frame → State → Answer}

/-- The frame is addressed to the row `c`, and the command's own part answers it with `a`. -/
structure Answers (c : Instr) (s : State) (f : Frame) (rest : List Frame) (a : Answer) : Prop where
  /-- The row gives the answer, empties the slot and lets the transmitter choose. -/
  runs : exec c s = .next (s.giveAnswer f a).emptySlot.choose
  /-- The frame stands in the oldest slot. -/
  slots : s.slots = f :: rest

/-- A frame that passes the checks of its tag and of its length is answered by the own part of its row. -/
theorem answers_own (hrow : exec c s = .next (s.runCommand (ofKind k) allowed own)) (h : Addressed k s f rest)
    (hk : k ∈ commandKinds) (ha : allowed f.payload = true) {a : Answer} (hown : own f s = a) : Answers c s f rest a :=
  ⟨by rw [hrow, runCommand_of_addressed h hk ha, hown], h.1.1⟩

theorem Answers.refused {o : OutcomeCode} (h : Answers c s f rest (.refused o)) :
    exec c s = .next (answered s f rest o []) := by rw [h.runs, emptySlot_refused h.slots]

theorem Answers.badField {n : Nat} (h : Answers c s f rest (.badField n)) :
    exec c s = .next (answered s f rest .badField [byte n]) := by rw [h.runs, emptySlot_badField h.slots]

theorem Answers.done {o : OutcomeCode} {data : List Byte} {t : State} (h : Answers c s f rest (.done o data t))
    (ht : t.slots = s.slots) : exec c s = .next (answered t f rest o data) := by
  rw [h.runs, emptySlot_done (ht.trans h.slots)]

theorem Answers.deferred {t : State} (h : Answers c s f rest (.deferred t)) (ht : t.slots = s.slots) :
    exec c s = .next (chosen { t with slots := rest }) := by rw [h.runs, emptySlot_deferred (ht.trans h.slots)]

end

/-! ### Which row executes a frame -/

theorem byteAt_one_eq_one (p : List Byte) : byteAt p 1 = 1 ↔ p[1]? = some 1#8 := by
  rw [byteAt_eq_getD, List.getD_eq_getElem?_getD]
  cases p[1]? with
  | none => decide
  | some b => simp [← BitVec.toNat_inj]

/-- The payload's length has this form, read as a Bool by the row and by the table of 10.5. -/
theorem listLength_eq (p : List Byte) : listLength p = decide (11 ≤ p.length ∧ p.length = 11 + (p.getD 10 0).toNat) := by
  rw [listLength, byteAt_eq_getD]

/-- The first check of a row's fields is that of its subject number (R181). -/
theorem withFields_subject {p : List Byte} {limit : Nat} (h : limit < num p 0) (cs : List (Nat × Bool)) (a : Answer) :
    withFields ((1, decide (byteAt p 0 ≤ limit)) :: cs) a = .badField 1 := by
  have hbad : decide (byteAt p 0 ≤ limit) = false := by simpa [byteAt_eq_num] using h
  rw [hbad]
  rfl

/-- What the row of a frame of a command kind is: its rule for the length is that of 10.5, and its own part refuses a subject
number out of range at field 1. -/
def IsCommand (f : Frame) (s : State) : Prop :=
  ∃ mine allowed own, mine f = true ∧ exec (rowOf f) s = .next (s.runCommand mine allowed own) ∧
    allowed f.payload = lengthFits f ∧ rowOf f ≠ .unknownCommand ∧
    ∀ limit, subjectLimit f.kind = some limit → limit < num f.payload 0 → own f s = .badField 1

theorem isCommand_of_kind {k tag : Byte} {p : List Byte} {allowed : List Byte → Bool} {own : Frame → State → Answer}
    (hrow : exec (rowOf ⟨k, tag, p⟩) s = .next (s.runCommand (ofKind k) allowed own))
    (hlen : allowed p = lengthFits ⟨k, tag, p⟩) (hknown : rowOf ⟨k, tag, p⟩ ≠ .unknownCommand)
    (hsubject : ∀ limit, subjectLimit k = some limit → limit < num p 0 → own ⟨k, tag, p⟩ s = .badField 1) :
    IsCommand ⟨k, tag, p⟩ s :=
  ⟨ofKind k, allowed, own, decide_eq_true rfl, hrow, hlen, hknown, hsubject⟩

/-- A STOP_LIST frame goes to one of two rows, by its mode byte (assumption 4). -/
theorem isCommand_stopList (tag : Byte) (p : List Byte) (s : State) : IsCommand ⟨kindStopList, tag, p⟩ s := by
  by_cases hmode : byteAt p 1 = 1
  · have hrow : rowOf ⟨kindStopList, tag, p⟩ = .stopListAbort := if_pos ((byteAt_one_eq_one p).mp hmode)
    exact ⟨isAbortFrame, exactly 2, stopListAbortOwn, by simp [isAbortFrame, ofKind, hmode], by rw [hrow]; rfl, rfl,
      by rw [hrow]; exact nofun, fun limit h hlt => withFields_subject (Option.some.inj h ▸ hlt) _ _⟩
  · have hrow : rowOf ⟨kindStopList, tag, p⟩ = .stopListDrain := if_neg (fun h => hmode ((byteAt_one_eq_one p).mpr h))
    exact ⟨isDrainFrame, exactly 2, stopListDrainOwn, by simp [isDrainFrame, ofKind, hmode], by rw [hrow]; rfl, rfl,
      by rw [hrow]; exact nofun, fun limit h hlt => withFields_subject (Option.some.inj h ▸ hlt) _ _⟩

/-- Every command kind has its row (R187 and 10.5). -/
theorem isCommand_of_mem (hk : f.kind ∈ commandKinds) (s : State) : IsCommand f s := by
  obtain ⟨k, tag, p⟩ := f
  simp only [commandKinds, List.mem_cons, List.not_mem_nil, or_false] at hk
  have subject {own : Frame → State → Answer} (limit : Nat) {cs : List (Nat × Bool)} {a : Answer}
      (hown : own ⟨k, tag, p⟩ s = withFields ((1, decide (byteAt p 0 ≤ limit)) :: cs) a) (n : Nat) (h : some limit = some n)
      (hlt : n < num p 0) : own ⟨k, tag, p⟩ s = .badField 1 := by
    rw [hown, withFields_subject (Option.some.inj h ▸ hlt)]
  rcases hk with rfl | rfl | rfl | rfl | rfl | rfl | rfl | rfl | rfl | rfl | rfl | rfl | rfl | rfl | rfl | rfl | rfl | rfl | rfl | rfl |
    rfl | rfl
  · exact isCommand_of_kind rfl (allowed := exactly 0) (own := identifyOwn) rfl nofun nofun
  · exact isCommand_of_kind rfl (allowed := exactly 0) (own := getStatusOwn) rfl nofun nofun
  · exact isCommand_of_kind rfl (allowed := exactly 0) (own := resetPartOwn) rfl nofun nofun
  · exact isCommand_of_kind rfl (allowed := exactly 1) (own := grantCreditsOwn) rfl nofun nofun
  · exact isCommand_of_kind rfl (allowed := exactly 25) (own := setChannelOwn) rfl nofun nofun
  · exact isCommand_of_kind rfl (allowed := exactly 1) (own := getChannelOwn) rfl nofun (subject 31 rfl)
  · exact isCommand_of_kind rfl (allowed := exactly 1) (own := clearChannelOwn) rfl nofun (subject 31 rfl)
  · exact isCommand_of_kind rfl (allowed := exactly 1) (own := sampleOwn) rfl nofun (subject 31 rfl)
  · exact isCommand_of_kind rfl (allowed := listLength) (own := setListOwn) (listLength_eq p) nofun nofun
  · exact isCommand_of_kind rfl (allowed := exactly 1) (own := getListOwn) rfl nofun (subject 7 rfl)
  · exact isCommand_of_kind rfl (allowed := exactly 1) (own := clearListOwn) rfl nofun (subject 7 rfl)
  · exact isCommand_of_kind rfl (allowed := exactly 1) (own := startListOwn) rfl nofun (subject 7 rfl)
  · exact isCommand_stopList tag p s
  · exact isCommand_of_kind rfl (allowed := exactly 1) (own := triggerListOwn) rfl nofun (subject 7 rfl)
  · exact isCommand_of_kind rfl (allowed := exactly 2) (own := beginTableOwn) rfl nofun (subject 7 rfl)
  · exact isCommand_of_kind rfl (allowed := loadLength) (own := loadSegmentsOwn) rfl nofun nofun
  · exact isCommand_of_kind rfl (allowed := exactly 1) (own := commitTableOwn) rfl nofun (subject 7 rfl)
  · exact isCommand_of_kind rfl (allowed := exactly 0) (own := abandonTableOwn) rfl nofun nofun
  · exact isCommand_of_kind rfl (allowed := exactly 1) (own := dropTableOwn) rfl nofun (subject 7 rfl)
  · exact isCommand_of_kind rfl (allowed := exactly 2) (own := getTableOwn) rfl nofun (subject 7 rfl)
  · exact isCommand_of_kind rfl (allowed := exactly 1) (own := takeCoreOfflineOwn) rfl nofun (subject 3 rfl)
  · exact isCommand_of_kind rfl (allowed := exactly 1) (own := restoreCoreOwn) rfl nofun (subject 3 rfl)

/-- A frame of no command kind goes to the row UNKNOWN_COMMAND. -/
theorem rowOf_of_not_mem (h : f.kind ∉ commandKinds) : rowOf f = .unknownCommand := by
  obtain ⟨k, tag, p⟩ := f
  have hne : ∀ n : Nat, BitVec.ofNat 8 n ∈ commandKinds → k.toNat ≠ n := fun n hn heq =>
    h (by rw [show k = BitVec.ofNat 8 n by rw [← heq, BitVec.ofNat_toNat, BitVec.setWidth_eq]]; exact hn)
  unfold rowOf
  split
  case h_23 => rfl
  all_goals exact absurd ‹_› (hne _ (by decide))

/-! ### The common checks -/

/-- The refusals of the first four checks are given by every row in their order (R178, R179). -/
theorem refused_of_common {o : OutcomeCode} (h : Takes s f rest) (ho : commonRefusal s f = some o) :
    exec (rowOf f) s = .next (answered s f rest o []) := by
  have given {mine : Frame → Bool} {allowed : List Byte → Bool} {own : Frame → State → Answer} {c : Instr} (hm : mine f = true)
      (hrow : exec c s = .next (s.runCommand mine allowed own)) (ha : commandAnswer allowed own f s = .refused o) :
      exec c s = .next (answered s f rest o []) := by
    rw [hrow, runCommand_of_takes h hm, ha, emptySlot_refused h.1]
  by_cases hk : f.kind ∈ commandKinds
  · obtain ⟨mine, allowed, own, hm, hrow, hlen, hknown, -⟩ := isCommand_of_mem hk s
    have htag : s.tagHeld f.tag = true ↔ ∃ d ∈ s.deferred, d.tag = f.tag := by simp [State.tagHeld]
    refine given hm hrow ?_
    rw [commonRefusal, if_neg hknown] at ho
    rw [commandAnswer, if_neg (not_not.mpr hk), hlen]
    simp only [htag]
    split_ifs at ho ⊢ <;> simp_all
  · have hrow := rowOf_of_not_mem hk
    rw [commonRefusal, if_pos hrow, Option.some.injEq] at ho
    rw [hrow]
    exact given (mine := unknownKind) (decide_eq_true hk) rfl (by rw [commandAnswer, if_pos hk, ho])

/-- A frame whose common checks find nothing is answered by its row's own part. -/
theorem commandAnswer_of_common {allowed : List Byte → Bool} {own : Frame → State → Answer}
    (hc : commonRefusal s f = none) (hlen : allowed f.payload = lengthFits f) : commandAnswer allowed own f s = own f s := by
  unfold commonRefusal at hc
  split_ifs at hc with hknown htag hheld hfits
  refine commandAnswer_of_checks ?_ htag (fun d hd he => hheld ⟨d, hd, he⟩) (by rw [hlen]; exact Bool.of_not_eq_false hfits)
  by_contra hk
  exact hknown (rowOf_of_not_mem hk)

/-- Settles O4: every row makes the common checks first, and a subject number is its first field. -/
theorem commonChecksRefuse : Obligations.CommonChecksRefuse := by
  refine ⟨fun s f rest o h ho => refused_of_common h ho, fun s f rest h hrow => ?_, fun s f rest limit h hc hl hlt => ?_⟩
  · rw [← hrow]
    exact refused_of_common h (if_pos hrow)
  · have hk : f.kind ∈ commandKinds := by
      by_contra hk
      rw [commonRefusal, if_pos (rowOf_of_not_mem hk)] at hc
      exact nomatch hc
    obtain ⟨mine, allowed, own, hm, hrow, hlen, -, hsubject⟩ := isCommand_of_mem hk s
    rw [hrow, runCommand_of_takes h hm, commandAnswer_of_common hc hlen, hsubject limit hl hlt,
      emptySlot_badField h.1]
    rfl

/-! ### Waiting in the slot -/

theorem rowOf_congr {k : Byte} (h : f.kind = k) : rowOf f = rowOf ⟨k, f.tag, f.payload⟩ := by subst h; rfl

/-- A row leaves alone what another row executes. -/
theorem exec_waits {c : Instr} {mine : Frame → Bool} {allowed : List Byte → Bool} {own : Frame → State → Answer}
    (hrow : exec c s = .next (s.runCommand mine allowed own)) (hmine : ∀ f, mine f = true → rowOf f = c)
    (h : ∀ f rest, Takes s f rest → rowOf f ≠ c) : exec c s = .next s := by
  rw [hrow, runCommand_idle (fun f rest ht => Bool.of_not_eq_true (fun hm => h f rest ht (hmine f hm)))]

/-- The same for a row that executes one kind. -/
theorem exec_waits_kind {c : Instr} {k : Byte} {allowed : List Byte → Bool} {own : Frame → State → Answer}
    (hrow : exec c s = .next (s.runCommand (ofKind k) allowed own)) (hk : ∀ tag p, rowOf ⟨k, tag, p⟩ = c)
    (h : ∀ f rest, Takes s f rest → rowOf f ≠ c) : exec c s = .next s :=
  exec_waits hrow (fun _ hm => (rowOf_congr (of_decide_eq_true hm)).trans (hk _ _)) h

theorem rowOf_of_isAbortFrame (h : isAbortFrame f = true) : rowOf f = .stopListAbort := by
  simp only [isAbortFrame, ofKind, Bool.and_eq_true, decide_eq_true_eq] at h
  rw [rowOf_congr h.1]
  exact if_pos ((byteAt_one_eq_one _).mp h.2)

theorem rowOf_of_isDrainFrame (h : isDrainFrame f = true) : rowOf f = .stopListDrain := by
  simp only [isDrainFrame, ofKind, Bool.and_eq_true, decide_eq_true_eq, Bool.not_eq_true', decide_eq_false_iff_not] at h
  rw [rowOf_congr h.1]
  exact if_neg (fun hm => h.2 ((byteAt_one_eq_one _).mpr hm))

/-- Settles O5: each row executes only the frames that `rowOf` gives it. -/
theorem commandsWaitInTheirSlots : Obligations.CommandsWaitInTheirSlots := by
  intro c s hc h
  cases c
  case stopListDrain => exact exec_waits rfl (fun _ => rowOf_of_isDrainFrame) h
  case stopListAbort => exact exec_waits rfl (fun _ => rowOf_of_isAbortFrame) h
  case unknownCommand => exact exec_waits rfl (fun _ hm => rowOf_of_not_mem (of_decide_eq_true hm)) h
  case identify | getStatus | resetPart | grantCredits | setChannel | getChannel | clearChannel | sample | setList | getList |
      clearList | startList | triggerList | beginTable | loadSegments | commitTable | abandonTable | dropTable | getTable |
      takeCoreOffline | restoreCore => exact exec_waits_kind rfl (fun tag p => rfl) h
  all_goals simp [hostRows] at hc

end

end Sys2Proof.Machine
end

