-- ==== Sys2Proof/Proofs/PartRows.lean ====
section
/-! PROOF. The machine as a whole: the step and its queue, the resets and what they leave, the commands of the part itself and
the timers of rests and of the session. -/

-- One proof after another, as in the tests: side by side they take more threads than memory allows.
set_option Elab.async false

namespace Sys2Proof.Machine

open Sys2Proof.Safety

/-! ### The step -/

/-- Settles O1: the queue is in no row's frame. -/
theorem stepRunsTheFrontCommand : Obligations.StepRunsTheFrontCommand := by
  refine ⟨fun c rest s => rfl, fun c s t h => ?_, fun s h => ?_⟩
  · have hpending : (touched c).contains .pending = false := by cases c <;> rfl
    rw [eq_after_of_exec h]
    exact same_of_untouched hpending s
  · have hstep : step s = .next s.idle := by simp only [step, h]
    exact hstep

/-! ### The reset state -/

section
variable (straps : BitVec 2)

@[simp] theorem reset_core (c : CoreId) : State.reset.core c = Core.afterReset := by simp [State.core, State.reset]
@[simp] theorem reset_input (i : InputId) : State.reset.input i = .free := by simp [State.input, State.reset]
@[simp] theorem reset_channel (ch : ChannelId) : State.reset.channel ch = Channel.undefined := by
  simp [State.channel, State.reset]
@[simp] theorem reset_list (l : ListId) : State.reset.list l = ListRec.emptyList := by simp [State.list, State.reset]
@[simp] theorem reset_bank (b : BankId) : State.reset.bank b = Bank.freeBank := by simp [State.bank, State.reset]
@[simp] theorem reset_runMark (l : ListId) : State.reset.runMark l = false := by simp [State.runMark, State.reset]

end

/-- Settles O3: field by field, the reset state. -/
theorem afterPowerOnReset : Obligations.AfterPowerOnReset := by
  refine ⟨fun c => ?_, reset_input, reset_channel, reset_list, reset_bank, reset_runMark, rfl, rfl, rfl, rfl, rfl, rfl, rfl, rfl, rfl,
    rfl, rfl, rfl, rfl, rfl, rfl, rfl, rfl, rfl, rfl, rfl, fun n => rfl⟩
  rw [reset_core]
  exact ⟨rfl, rfl, rfl, rfl, rfl, rfl, rfl, rfl⟩

/-! #### The reset state has every property that the steps keep -/

theorem liveWork_reset : liveWork State.reset = [] := by
  have h : ∀ c, (convertingFor (State.reset.core c)).map (fun o => (o, Stage.converting)) = none ∧
      (latchedFor (State.reset.core c)).map (fun o => (o, Stage.converting)) = none := by
    intro c
    rw [reset_core]
    exact ⟨rfl, rfl⟩
  have hnone : ∀ (g : CoreId → Option (Origin × Stage)), (∀ c, g c = none) → (List.finRange 4).filterMap g = [] := fun g hg =>
    List.filterMap_eq_nil_iff.mpr (fun c _ => hg c)
  unfold liveWork
  rw [hnone _ (fun c => (h c).1), hnone _ (fun c => (h c).2)]
  rfl

theorem workSound_reset : WorkSound State.reset := by
  refine ⟨fun l => ?_, fun l ch hch => ?_, ⟨fun c => ?_, fun c => ?_, List.nodup_nil⟩, fun c => ?_, fun l k st _ => ?_, ?_⟩
  · rw [reset_list]
    exact ⟨rfl, rfl⟩
  · rw [reset_list] at hch
    exact absurd hch (List.not_mem_nil)
  · rw [reset_core]
    rfl
  · rw [reset_core]
    exact ⟨nofun, nofun⟩
  · rw [reset_core]
    exact ⟨nofun, nofun⟩
  · rw [liveWork_reset, reset_list]
    rfl
  · refine ⟨List.nodup_nil, nofun, fun u => ?_, fun u hu => ?_, nofun, nofun⟩
    · rw [liveWork_reset]
      exact Nat.zero_le 1
    · rw [liveWork_reset] at hu
      exact absurd hu List.not_mem_nil

theorem outstandingExact_reset : OutstandingExact State.reset := by
  have hwork : ∀ l, cancelledWork State.reset l = 0 := by
    intro l
    have hnone : (List.finRange 4).countP (fun c => cancelledFor (State.reset.core c) l) = 0 :=
      List.countP_eq_zero.mpr (fun c _ => by rw [reset_core]; exact Bool.false_ne_true)
    rw [cancelledWork, hnone]
    rfl
  refine ⟨fun l => ⟨?_, fun _ => hwork l⟩, fun c => ?_⟩
  · rw [hwork, reset_list]
    rfl
  · rw [reset_core]
    exact nofun

theorem banksSound_reset : BanksSound State.reset := by
  refine ⟨fun b => ?_, nofun, fun b b' t h => ?_, fun b => ?_, fun b => ?_, fun b => ?_, fun b => ?_⟩ <;> rw [reset_bank] at *
  · exact ⟨nofun, nofun⟩
  · exact nomatch h
  · exact ⟨nofun, nofun⟩
  · exact nofun
  · exact nofun
  · exact fun _ => rfl

/-- Settles O50: every property speaks of collections, which are empty, and of records at their reset values. -/
theorem resetStateIsSound : Obligations.ResetStateIsSound := by
  refine ⟨?_, ⟨List.nodup_nil, nofun⟩, ⟨List.nodup_nil, nofun, nofun, List.nodup_nil, nofun, nofun⟩, fun l => ?_, ?_, banksSound_reset,
    ⟨fun b => ?_, fun b => ?_, nofun⟩, ⟨fun l => ?_, fun l m => ?_⟩, ⟨nofun, fun _ _ => rfl⟩, outstandingExact_reset,
    workSound_reset, ⟨List.Pairwise.nil, nofun⟩, ⟨List.nodup_nil, nofun, nofun⟩⟩
  · exact ⟨by decide, by decide, by decide, by decide, by decide, by decide, trivial, .inl rfl⟩
  · rw [reset_list]
    exact ⟨⟨nofun, fun h => nomatch h.1⟩, nofun, fun _ => rfl, Nat.zero_le _, ⟨fun _ => rfl, fun _ => rfl⟩⟩
  · refine ⟨fun c i => ?_, fun c i => ?_, fun c => ?_⟩ <;> rw [reset_core]
    · rw [reset_input]
      exact ⟨nofun, nofun⟩
    · exact nofun
    · rfl
  · rw [reset_bank]
    exact nofun
  · rw [reset_bank]
    exact fun h => absurd rfl h
  · rw [reset_list]
    exact ⟨fun _ => rfl, fun _ => rfl⟩
  · rw [reset_list]
    exact nofun

/-! ### The resets -/

theorem resetDue_iff {s : State} :
    s.resetDue = true ↔ s.cmdUnit = .stopped ∧ ∀ r ∈ s.replies, ¬ (r.kind = 0x03#8 ∧ r.outcome = .ok) := by
  rw [State.resetDue, Bool.and_eq_true, decide_eq_true_eq, Bool.not_eq_true', List.any_eq_false]
  exact and_congr_right' (forall₂_congr (fun r _ => by
    rw [Reply.isReset, Bool.and_eq_true, decide_eq_true_eq, decide_eq_true_eq]
    exact Iff.rfl))

/-- Settles O2: RESET_PART stops the unit, and its reset waits for the reply that RESET_PART queued. -/
theorem resetsReturnEveryBlock : Obligations.ResetsReturnEveryBlock := by
  refine ⟨fun straps s => rfl, fun s f rest h hp => ?_, fun straps s h hr => ?_, fun straps s h => ?_⟩
  · exact (answers_own rfl h (by decide) (allowed := exactly 0) (by rw [hp]; rfl) (own := resetPartOwn) rfl).done rfl
  · exact congrArg Host.Outcome.next (if_pos (resetDue_iff.mpr ⟨h, hr⟩))
  · refine congrArg Host.Outcome.next (if_neg (fun hdue => ?_))
    obtain ⟨hstopped, hnone⟩ := resetDue_iff.mp hdue
    rcases h with h | ⟨r, hr, hreset⟩
    · exact h hstopped
    · exact hnone r hr hreset

/-! ### IDENTIFY and GRANT_CREDITS -/

/-- Settles O6: the data are those of `identifyData`, whose family code stands low byte first. -/
theorem identifyReportsThePart : Obligations.IdentifyReportsThePart := by
  intro s f rest h hp
  exact (answers_own rfl h (by decide) (allowed := exactly 0) (by rw [hp]; rfl) (own := identifyOwn) rfl).done rfl

/-- Settles O8: an amount of 0 fails the field check, any other is added and capped. -/
theorem creditsAreGranted : Obligations.CreditsAreGranted := by
  intro s f rest a h hp
  have answers {ans : Answer} (hown : grantCreditsOwn f s = ans) : Answers .grantCredits s f rest ans :=
    answers_own rfl h (by decide) (by rw [hp]; rfl) hown
  have hamount : byteAt f.payload 0 = a.toNat := by rw [hp, byteAt_zero]
  by_cases ha : a = 0
  · rw [if_pos ha]
    refine (answers (withFields_of_some ?_ _)).badField
    rw [hamount, ha]
    rfl
  · have hpos : 1 ≤ a.toNat := by
      have : a.toNat ≠ 0 := fun h0 => ha (BitVec.eq_of_toNat_eq h0)
      omega
    rw [if_neg ha, ← hamount]
    refine (answers (withFields_of_none ?_ _)).done rfl
    rw [hamount, decide_eq_true hpos]
    rfl

/-! ### GET_STATUS -/

/-- Settles O7: the status data are four core entries of two bytes, eight list states, eight single bytes, nine bank entries of
two bytes and the session. -/
theorem statusReportsThePart : Obligations.StatusReportsThePart := by
  intro s f rest h hp
  refine ⟨s.statusData, (answers_own rfl h (by decide) (allowed := exactly 0) (by rw [hp]; rfl) (own := getStatusOwn) rfl).done rfl,
    ?_⟩
  have hsession : (sessionBytes s.session).length = 5 := by cases s.session <;> rfl
  simp only [coreCode_eq, listCode_eq, bankCode_eq]
  refine ⟨?_, fun c => ?_, fun l => ?_, rfl, rfl, rfl, ?_, rfl, rfl, rfl, rfl, fun b => ?_, ?_⟩
  · rw [State.statusData, List.length_append, hsession]
    rfl
  · fin_cases c <;> exact ⟨rfl, rfl⟩
  · fin_cases l <;> rfl
  · have hengine : s.statusData[19]? = some (boolCode s.engine.isSome) := rfl
    rw [hengine]
    cases s.engine <;> rfl
  · have hbank : s.statusData[24 + 2 * b.val]? = some (s.bank b).state.code ∧
        s.statusData[25 + 2 * b.val]? = some (match (s.bank b).table with | none => 0 | some t => byte t.val) := by
      fin_cases b <;> exact ⟨rfl, rfl⟩
    exact hbank
  · have hdrop : s.statusData.drop 42 = sessionBytes s.session := rfl
    rw [hdrop]
    cases s.session <;> rfl

/-! ### ABANDON_TABLE and the timers of rests and of the session -/

theorem abandonSession_of_some {s : State} {k : Session} (h : s.session = some k) :
    s.abandonSession = { s.setBank k.bank Bank.freeBank with session := none } := by rw [State.abandonSession, h]

/-- Settles O26: the session's bank is FREE and the session closed. -/
theorem abandonDiscardsTheSession : Obligations.AbandonDiscardsTheSession := by
  intro s f rest h hp
  have answers {ans : Answer} (hown : abandonTableOwn f s = ans) : Answers .abandonTable s f rest ans :=
    answers_own rfl h (by decide) (by rw [hp]; rfl) hown
  refine ⟨fun hnone => (answers ?_).refused, fun k hk => ?_⟩
  · rw [abandonTableOwn, hnone]
    rfl
  · refine (answers (ans := .done .ok [] { s.setBank k.bank Bank.freeBank with session := none }) ?_).done rfl
    rw [← abandonSession_of_some hk, abandonTableOwn, hk]
    rfl

/-- Settles O28: each timer that runs moves the clock and ends what it timed. -/
theorem restAndSessionTimersExpire : Obligations.RestAndSessionTimersExpire := by
  refine ⟨fun s i t h => ?_, fun s i h => ?_, fun s k h => ?_, fun s h => ?_⟩
  · have hend : s.endRest i = ((s.advanceTo t).freeInput i).newGrantEvent := by rw [State.endRest, h]
    exact congrArg Host.Outcome.next hend
  · have hend : s.endRest i = s := by
      unfold State.endRest
      split
      case h_1 t ht => exact absurd ht (h t)
      case h_2 => rfl
    exact congrArg Host.Outcome.next hend
  · have hend : s.expireSession = (((s.advanceTo k.expiry).abandonSession).raise .sessionExpired).choose := by
      rw [State.expireSession, h]
    rw [abandonSession_of_some (s := s.advanceTo k.expiry) h, choose_eq] at hend
    exact congrArg Host.Outcome.next hend
  · have hend : s.expireSession = s := by rw [State.expireSession, h]
    exact congrArg Host.Outcome.next hend

end Sys2Proof.Machine
end

