-- ==== Sys2Proof/Proofs/ChannelRows.lean ====
section
/-! PROOF. The payload of SET_CHANNEL and the commands of the channel table: what the bytes of R189 spell and that each
configuration in range is spelled by them. -/

-- One proof after another, as in the tests: side by side they take more threads than memory allows.
set_option Elab.async false

namespace Sys2Proof.Machine

open Sys2Proof.Safety

/-! ### Fields of a payload -/

section
variable (b : Byte) (p : List Byte) (i : Nat)

@[simp] theorem num_cons_zero : num (b :: p) 0 = b.toNat := rfl
@[simp] theorem num_cons_succ : num (b :: p) (i + 1) = num p i := rfl
@[simp] theorem num16_cons_succ : num16 (b :: p) (i + 1) = num16 p i := rfl
@[simp] theorem num32_cons_succ : num32 (b :: p) (i + 1) = num32 p i := rfl
@[simp] theorem int32_cons_succ : int32 (b :: p) (i + 1) = int32 p i := rfl

theorem num_lt : num p i < 256 := (p.getD i 0).isLt

theorem num16_lt : num16 p i < 65536 := by
  have := num_lt p i
  have := num_lt p (i + 1)
  rw [num16]
  omega

theorem num32_lt : num32 p i < 4294967296 := by
  have := num16_lt p i
  have := num16_lt p (i + 2)
  rw [num32]
  omega

theorem int32_range : -2147483648 ≤ int32 p i ∧ int32 p i ≤ 2147483647 := by
  have := num32_lt p i
  unfold int32
  split <;> omega

theorem num16_twoBytes {n : Nat} (h : n < 65536) : num16 (twoBytes n ++ p) 0 = n := by
  simp only [num16, twoBytes, List.cons_append, num_cons_zero, num_cons_succ, byte_toNat]
  omega

theorem num32_fourBytes (v : Int) : num32 (fourBytes v ++ p) 0 = (v % 4294967296).toNat := by
  simp only [num32, num16, fourBytes, List.cons_append, num_cons_zero, num_cons_succ, byte_toNat]
  omega

theorem num32_fourBytes_natCast {n : Nat} (h : n < 4294967296) : num32 (fourBytes n ++ p) 0 = n := by
  rw [num32_fourBytes]
  omega

theorem int32_fourBytes {v : Int} (h : -2147483648 ≤ v) (h2 : v ≤ 2147483647) : int32 (fourBytes v ++ p) 0 = v := by
  rw [int32, num32_fourBytes]
  split <;> omega

/-- A field that comes after four bytes. -/
theorem num32_after_fourBytes (v : Int) : num32 (fourBytes v ++ p) (i + 4) = num32 p i := rfl

theorem int32_after_fourBytes (v : Int) : int32 (fourBytes v ++ p) (i + 4) = int32 p i := rfl

/-! A payload is made of its fields. -/

variable {p i}

theorem drop_eq_byte (h : i < p.length) : p.drop i = byte (num p i) :: p.drop (i + 1) := by
  rw [List.drop_eq_getElem_cons h]
  simp [num, byte, h]

theorem drop_eq_twoBytes (h : i + 1 < p.length) : p.drop i = twoBytes (num16 p i) ++ p.drop (i + 2) := by
  have h1 := num_lt p i
  have hlo : byte (num16 p i) = byte (num p i) := BitVec.eq_of_toNat_eq (by simp only [byte_toNat, num16]; omega)
  have hhi : byte (num16 p i / 256) = byte (num p (i + 1)) := BitVec.eq_of_toNat_eq (by simp only [byte_toNat, num16]; omega)
  rw [drop_eq_byte (by omega), drop_eq_byte h, twoBytes, hlo, hhi]
  rfl

theorem fourBytes_eq_of_num32 {v : Int} (h : (v % 4294967296).toNat = num32 p i) :
    fourBytes v = twoBytes (num16 p i) ++ twoBytes (num16 p (i + 2)) := by
  have h1 := num16_lt p i
  have hbytes : ∀ a b : Nat, a % 256 = b % 256 → byte a = byte b := fun a b hab => BitVec.eq_of_toNat_eq (by simpa using hab)
  simp only [fourBytes, h, twoBytes, List.cons_append, List.nil_append, num32]
  rw [hbytes (num16 p i + 65536 * num16 p (i + 2)) (num16 p i) (by omega),
    hbytes ((num16 p i + 65536 * num16 p (i + 2)) / 256) (num16 p i / 256) (by omega),
    hbytes ((num16 p i + 65536 * num16 p (i + 2)) / 65536) (num16 p (i + 2)) (by omega),
    hbytes ((num16 p i + 65536 * num16 p (i + 2)) / 16777216) (num16 p (i + 2) / 256) (by omega)]

theorem drop_eq_fourBytes (h : i + 3 < p.length) {v : Int} (hv : (v % 4294967296).toNat = num32 p i) :
    p.drop i = fourBytes v ++ p.drop (i + 4) := by
  rw [fourBytes_eq_of_num32 hv, List.append_assoc, drop_eq_twoBytes (i := i) (by omega), drop_eq_twoBytes (i := i + 2) h]

theorem drop_eq_int32 (h : i + 3 < p.length) : p.drop i = fourBytes (int32 p i) ++ p.drop (i + 4) := by
  refine drop_eq_fourBytes h ?_
  have := num32_lt p i
  unfold int32
  split <;> omega

end

/-! ### What a SET_CHANNEL payload spells -/

/-- The fields of the payload are those of the configuration (R189). -/
structure SpelledChannel (ch : ChannelId) (c : ChannelConfig) (p : List Byte) : Prop where
  channel : num p 0 = ch.val
  input : num p 1 = c.input.val
  reference : num p 2 = if c.reference = .refA then 0 else 1
  excitation : num p 3 = if c.excitation = .dc then 0 else 1
  gate : num p 4 = c.gate
  settle : num p 5 = c.settle
  phaseLimit : num16 p 6 = c.phaseLimit
  rest : num p 8 = c.rest
  table : num p 9 = c.table.elim 255 Fin.val
  shift : num p 10 = c.shift
  includeRaw : num p 11 = c.includeRaw.toNat
  present : num p 12 = c.limits.isSome.toNat
  limits : ∀ k, c.limits = some k → int32 p 13 = k.low ∧ int32 p 17 = k.high ∧ num32 p 21 = k.hysteresis

section
variable {ch : ChannelId} {c : ChannelConfig} {p : List Byte}

/-- The first 13 bytes of the layout, whose last one says whether limits follow. -/
theorem take_channelLayout (ch : ChannelId) (c : ChannelConfig) : (channelLayout ch c).take 13 =
    [byte ch.val, byte c.input.val, if c.reference = .refA then 0 else 1, if c.excitation = .dc then 0 else 1, byte c.gate,
      byte c.settle] ++ twoBytes c.phaseLimit ++
      [byte c.rest, byte (c.table.elim 255 Fin.val), byte c.shift, if c.includeRaw then 1 else 0, byte c.limits.isSome.toNat] := by
  cases ht : c.table <;> cases hl : c.limits <;> simp only [channelLayout, ht, hl] <;> rfl

theorem spelledChannel_of_payload (h : ChannelPayload ch c p) (hv : ValidChannel c) : SpelledChannel ch c p := by
  obtain ⟨-, htake, hwhole⟩ := h
  obtain ⟨⟨-, hgate⟩, -, hsettle, ⟨-, hphase⟩, hrest, hshift, hlimits⟩ := hv
  have hp : p = (channelLayout ch c).take 13 ++ p.drop 13 := by rw [← htake, List.take_append_drop]
  have htable : c.table.elim 255 Fin.val < 256 := by
    cases c.table with
    | none => decide
    | some t => exact Nat.lt_trans t.isLt (by decide)
  have hpresent : c.limits.isSome.toNat < 256 := lt_of_le_of_lt (Bool.toNat_le _) (by decide)
  rw [take_channelLayout] at hp
  have hlater : ∀ k, c.limits = some k → int32 p 13 = k.low ∧ int32 p 17 = k.high ∧ num32 p 21 = k.hysteresis := by
    intro k hk
    obtain ⟨hlow, hlt, hhigh, hhyst⟩ := hlimits k hk
    have hdrop : p.drop 13 = fourBytes k.low ++ fourBytes k.high ++ fourBytes k.hysteresis := by
      rw [hwhole (by rw [hk]; rfl), channelLayout, hk]
      rfl
    rw [hp, hdrop]
    have h4 := int32_fourBytes (fourBytes k.high ++ (fourBytes k.hysteresis ++ [])) hlow (by omega)
    have h5 := int32_fourBytes (fourBytes k.hysteresis ++ []) (by omega : -2147483648 ≤ k.high) hhigh
    have h6 := num32_fourBytes_natCast [] (by omega : k.hysteresis < 4294967296)
    exact ⟨h4, h5, h6⟩
  constructor
  case limits => exact hlater
  all_goals rw [hp]
  case channel => exact byte_toNat_of_lt (by omega)
  case input => exact byte_toNat_of_lt (by omega)
  case reference => exact apply_ite BitVec.toNat _ _ _
  case excitation => exact apply_ite BitVec.toNat _ _ _
  case gate => exact byte_toNat_of_lt (by omega)
  case settle => exact byte_toNat_of_lt (by omega)
  case phaseLimit => exact num16_twoBytes [] (by omega)
  case rest => exact byte_toNat_of_lt (by omega)
  case table => exact byte_toNat_of_lt htable
  case shift => exact byte_toNat_of_lt (by omega)
  case includeRaw => cases c.includeRaw <;> rfl
  case present => exact byte_toNat_of_lt hpresent

/-- The row stores what the payload spells. -/
theorem channelConfigOf_of_spelled (h : SpelledChannel ch c p) :
    channelOf (byteAt p 0) = ch ∧ channelConfigOf p = c := by
  obtain ⟨hch, hin, href, hexc, hgate, hsettle, hphase, hrest, htable, hshift, hraw, hpresent, hlimits⟩ := h
  obtain ⟨input, reference, excitation, gate, settle, phaseLimit, rest, table, shift, includeRaw, limits⟩ := c
  have hlim : limitsOf p = limits := by
    cases limits with
    | none => exact if_neg (by rw [byteAt_eq_num, hpresent]; exact Nat.zero_ne_one)
    | some k =>
      obtain ⟨h1, h2, h3⟩ := hlimits k rfl
      rw [limitsOf, if_pos (by rw [byteAt_eq_num, hpresent]; rfl), signedAt_eq_int32, signedAt_eq_int32, fieldAt_eq_num32, h1, h2, h3]
  have htab : (if num p 9 = 255 then none else some (tableOf (num p 9))) = table := by
    cases table with
    | none => exact if_pos htable
    | some t =>
      have ht : num p 9 = t.val := htable
      rw [if_neg (by have := t.isLt; omega), ht, tableOf, Fin.ofNat_val_eq_self]
  simp only [channelConfigOf, hlim, byteAt_eq_num, fieldAt_eq_num16, hch, hin, href, hexc, hgate, hsettle, hphase, hrest, htab, hshift,
    hraw, ChannelConfig.mk.injEq]
  refine ⟨Fin.ofNat_val_eq_self ch, Fin.ofNat_val_eq_self input, ?_, ?_, trivial, trivial, trivial, trivial, trivial, trivial,
      ?_, trivial⟩
  · cases reference <;> rfl
  · cases excitation <;> rfl
  · cases includeRaw <;> rfl

/-- A configuration in range passes every check. -/
theorem channelFault_of_spelled (h : SpelledChannel ch c p) (hv : ValidChannel c) : channelFault p = none := by
  obtain ⟨hch, hin, href, hexc, hgate, hsettle, hphase, hrest, htable, hshift, hraw, hpresent, hlimits⟩ := h
  obtain ⟨⟨hg1, hg2⟩, halt, hs, ⟨hp1, hp2⟩, hr, hk, hl⟩ := hv
  have h1 := ch.isLt
  have h2 := c.input.isLt
  have hexcCode : num p 3 ≤ 1 ∧ (num p 3 = 1 → 5 ≤ num p 4) := by
    rw [hexc, hgate]
    cases he : c.excitation with
    | dc => exact ⟨Nat.zero_le 1, nofun⟩
    | alternating => exact ⟨le_refl 1, fun _ => halt he⟩
  have hrefCode : num p 2 ≤ 1 := by rw [href]; split <;> decide
  have htableCode : num p 9 ≤ 7 ∨ num p 9 = 255 := by
    rw [htable]
    cases c.table with
    | none => exact .inr rfl
    | some t => exact .inl (Nat.le_of_lt_succ t.isLt)
  have hrawCode : num p 11 ≤ 1 := hraw ▸ Bool.toNat_le _
  have hpresentCode : num p 12 ≤ 1 := hpresent ▸ Bool.toNat_le _
  have hlimitsCode : num p 12 = 1 → int32 p 13 < int32 p 17 ∧ (num32 p 21 : Int) ≤ int32 p 17 - int32 p 13 := by
    intro h
    rw [hpresent] at h
    cases hc : c.limits with
    | none => rw [hc] at h; exact nomatch h
    | some k =>
      obtain ⟨hk1, hk2, hk3⟩ := hlimits k hc
      obtain ⟨-, hlt, -, hhyst⟩ := hl k hc
      rw [hk1, hk2, hk3]
      exact ⟨hlt, hhyst⟩
  unfold channelFault
  rw [if_neg (by omega), if_neg (by omega), if_neg (by omega), if_neg (by omega), if_neg (by omega), if_neg (by omega),
    if_neg (by omega), if_neg (by omega), if_neg (by omega), if_neg (by omega), if_neg (by omega), if_neg (by omega)]

theorem ite_some_eq_none_iff {Q : Prop} [Decidable Q] {n : Nat} {x : Option Nat} :
    (if Q then some n else x) = none ↔ ¬ Q ∧ x = none := by
  by_cases h : Q <;> simp [h]

/-- A payload without a fault is made of the fields that the row reads from it. -/
theorem spelledChannel_of_fault_none (h : channelFault p = none) :
    SpelledChannel (channelOf (num p 0)) (channelConfigOf p) p ∧ ValidChannel (channelConfigOf p) := by
  simp only [channelFault, ite_some_eq_none_iff] at h
  obtain ⟨h1, h2, h3, h4, h5, h6, h7, h8, h9, h10, h11, h12, -⟩ := h
  have hlow := int32_range p 13
  have hhigh := int32_range p 17
  have hlim : ∀ k, limitsOf p = some k → num p 12 = 1 ∧ int32 p 13 = k.low ∧ int32 p 17 = k.high ∧ num32 p 21 = k.hysteresis := by
    intro k hk
    unfold limitsOf at hk
    split_ifs at hk with h1
    rw [byteAt_eq_num] at h1
    obtain rfl := Option.some.inj hk
    exact ⟨h1, (signedAt_eq_int32 p 13).symm, (signedAt_eq_int32 p 17).symm, (fieldAt_eq_num32 p 21).symm⟩
  constructor
  · refine ⟨?_, ?_, ?_, ?_, byteAt_eq_num p 4 |>.symm, byteAt_eq_num p 5 |>.symm, fieldAt_eq_num16 p 6 |>.symm,
      byteAt_eq_num p 8 |>.symm, ?_, byteAt_eq_num p 10 |>.symm, ?_, ?_, fun k hk => (hlim k hk).2⟩
    · exact (Nat.mod_eq_of_lt (by omega)).symm
    all_goals simp only [channelConfigOf, byteAt_eq_num]
    · exact (Nat.mod_eq_of_lt (by omega)).symm
    · by_cases h0 : num p 2 = 0
      · rw [if_pos h0, h0]
        rfl
      · rw [if_neg h0, show num p 2 = 1 by omega]
        rfl
    · by_cases h0 : num p 3 = 0
      · rw [if_pos h0, h0]
        rfl
      · rw [if_neg h0, show num p 3 = 1 by omega]
        rfl
    · by_cases h0 : num p 9 = 255
      · rw [if_pos h0, h0]
        rfl
      · rw [if_neg h0]
        exact (Nat.mod_eq_of_lt (by omega)).symm
    · by_cases h0 : num p 11 = 1
      · rw [decide_eq_true h0, h0]
        rfl
      · rw [decide_eq_false h0, show num p 11 = 0 by omega]
        rfl
    · by_cases h0 : num p 12 = 1
      · rw [limitsOf, byteAt_eq_num, if_pos h0, h0]
        rfl
      · rw [limitsOf, byteAt_eq_num, if_neg h0, show num p 12 = 0 by omega]
        rfl
  · have hs := num_lt p 5
    have hr := num_lt p 8
    have hlimits : ∀ k, limitsOf p = some k →
        -2147483648 ≤ k.low ∧ k.low < k.high ∧ k.high ≤ 2147483647 ∧ (k.hysteresis : Int) ≤ k.high - k.low := by
      intro k hk
      obtain ⟨hone, hl, hh, hy⟩ := hlim k hk
      omega
    refine ⟨?_, ?_, ?_, ?_, ?_, ?_, hlimits⟩ <;> simp only [channelConfigOf, byteAt_eq_num, fieldAt_eq_num16]
    · omega
    · intro he
      by_cases h0 : num p 3 = 0
      · rw [if_pos h0] at he
        exact nomatch he
      · omega
    · omega
    · omega
    · omega
    · omega

/-- The bytes of a payload are those of the fields they spell. -/
theorem payload_of_spelledChannel (hlen : p.length = 25) (h : SpelledChannel ch c p) : ChannelPayload ch c p := by
  obtain ⟨hch, hin, href, hexc, hgate, hsettle, hphase, hrest, htable, hshift, hraw, hpresent, hlimits⟩ := h
  have hp : p = (channelLayout ch c).take 13 ++ p.drop 13 := by
    rw [take_channelLayout]
    conv_lhs =>
      rw [← List.drop_zero (l := p), drop_eq_byte (by omega), drop_eq_byte (by omega), drop_eq_byte (by omega),
        drop_eq_byte (by omega), drop_eq_byte (by omega), drop_eq_byte (by omega), drop_eq_twoBytes (by omega),
        drop_eq_byte (by omega), drop_eq_byte (by omega), drop_eq_byte (by omega), drop_eq_byte (by omega),
        drop_eq_byte (by omega)]
    simp only [Nat.reduceAdd, hch, hin, href, hexc, hgate, hsettle, hphase, hrest, htable, hshift, hraw, hpresent]
    rw [apply_ite byte, apply_ite byte]
    cases c.includeRaw <;> rfl
  have htake : p.take 13 = (channelLayout ch c).take 13 := by
    have hlen13 : ((channelLayout ch c).take 13).length = 13 := by rw [take_channelLayout]; rfl
    rw [hp, List.take_left' hlen13]
  refine ⟨hlen, htake, fun hsome => ?_⟩
  obtain ⟨k, hk⟩ := Option.isSome_iff_exists.mp hsome
  obtain ⟨h1, h2, h3⟩ := hlimits k hk
  have hdrop : p.drop 13 = fourBytes k.low ++ fourBytes k.high ++ fourBytes k.hysteresis := by
    rw [drop_eq_int32 (i := 13) (by omega), drop_eq_int32 (i := 17) (by omega),
      drop_eq_fourBytes (i := 21) (v := (k.hysteresis : Int)) (by omega) (by have := num32_lt p 21; omega), h1, h2,
        List.drop_of_length_le (by omega),
      List.append_nil, List.append_assoc]
  rw [hp, hdrop, take_channelLayout, channelLayout, hk]
  cases c.table <;> rfl

/-- A check of a row, and the fault that a statement names where it fails. -/
theorem firstBad_cons_of_iff {n : Nat} {P Q : Prop} [Decidable P] [Decidable Q] {cs : List (Nat × Bool)} {x : Option Nat}
    (h : P ↔ ¬ Q) (hrest : firstBad cs = x) : firstBad ((n, decide P) :: cs) = if Q then some n else x := by
  by_cases hq : Q
  · rw [if_pos hq, decide_eq_false (fun hp => h.mp hp hq)]
    rfl
  · rw [if_neg hq, decide_eq_true (h.mpr hq)]
    exact hrest

/-- The checks of the row are those of R35, in its order. -/
theorem firstBad_channelChecks (p : List Byte) : firstBad (channelChecks p) = channelFault p := by
  simp only [channelChecks, byteAt_eq_num, fieldAt_eq_num16, fieldAt_eq_num32, signedAt_eq_int32]
  refine firstBad_cons_of_iff ?_ <| firstBad_cons_of_iff ?_ <| firstBad_cons_of_iff ?_ <| firstBad_cons_of_iff ?_ <|
    firstBad_cons_of_iff ?_ <| firstBad_cons_of_iff ?_ <| firstBad_cons_of_iff ?_ <| firstBad_cons_of_iff ?_ <|
    firstBad_cons_of_iff ?_ <| firstBad_cons_of_iff ?_ <| firstBad_cons_of_iff ?_ <| firstBad_cons_of_iff ?_ rfl <;> omega

end

/-! ### The rows of the channel table -/

section
variable {s : State} {f : Frame} {rest : List Frame}

/-- A subject number in a payload's first byte is read as it was written. -/
theorem byteAt_zero_byte {n : Nat} {p q : List Byte} (h : p = byte n :: q) (hn : n < 256) : byteAt p 0 = n := by
  rw [h, byteAt_zero, byte_toNat_of_lt hn]

theorem setChannelOwn_of_payload {ch : ChannelId} {c : ChannelConfig} (hp : ChannelPayload ch c f.payload) (hv : ValidChannel c) :
    setChannelOwn f s =
      if s.activeUse ch then .refused .inUse else .done .ok [] (s.setChannel ch (Channel.configured c)) := by
  have hspelled := spelledChannel_of_payload hp hv
  obtain ⟨hch, hc⟩ := channelConfigOf_of_spelled hspelled
  rw [setChannelOwn, withFields_of_none (by rw [firstBad_channelChecks, channelFault_of_spelled hspelled hv])]
  simp only [hch, hc]

theorem answers_setChannel (h : Addressed 0x08 s f rest) (hlen : f.payload.length = 25) {a : Answer} (hown : setChannelOwn f s = a) :
    Answers .setChannel s f rest a := answers_own rfl h (by decide) (decide_eq_true hlen) hown

/-- Settles O9. -/
theorem setChannelStoresWhatItsPayloadSpells : Obligations.SetChannelStoresWhatItsPayloadSpells := by
  intro s f rest ch c h hp hv hactive
  refine (answers_setChannel h hp.1 ?_).done rfl
  rw [setChannelOwn_of_payload hp hv, if_neg (fun ha => hactive ((activeUse_iff s ch).mp ha))]
  rfl

/-- Settles O10: the row's checks are R35's, and a payload without a fault is made of the fields read from it. -/
theorem setChannelRefuses : Obligations.SetChannelRefuses := by
  refine ⟨fun s f rest n h hlen hfault => ?_, fun s f rest ch c h hp hv hactive => ?_, fun p hlen hfault => ?_⟩
  · exact (answers_setChannel h hlen (withFields_of_some ((firstBad_channelChecks _).trans hfault) _)).badField
  · refine (answers_setChannel h hp.1 ?_).refused
    rw [setChannelOwn_of_payload hp hv, if_pos ((activeUse_iff s ch).mpr hactive)]
  · obtain ⟨hspelled, hv⟩ := spelledChannel_of_fault_none hfault
    exact ⟨_, _, payload_of_spelledChannel hlen hspelled, hv⟩

theorem withFields_channelField {ch : ChannelId} {p : List Byte} (hp : p = [byte ch.val]) (a : Answer) :
    withFields (channelField p) a = a := by
  rw [channelField, byteAt_zero_byte hp (by omega), decide_eq_true (Nat.le_of_lt_succ ch.isLt)]
  rfl

theorem channelOf_subject {ch : ChannelId} {p : List Byte} (hp : p = [byte ch.val]) : channelOf (byteAt p 0) = ch := by
  rw [byteAt_zero_byte hp (by omega), channelOf, Fin.ofNat_val_eq_self]

/-- Settles O11: each row by the channel's configuration and its use count. -/
theorem channelsAreReadAndCleared : Obligations.ChannelsAreReadAndCleared := by
  have read {s f rest} {ch : ChannelId} (h : Addressed 0x09 s f rest) (hp : f.payload = [byte ch.val]) {a : Answer}
      (hown : getChannelOwn f s = a) : Answers .getChannel s f rest a :=
    answers_own rfl h (by decide) (by rw [hp]; rfl) hown
  have cleared {s f rest} {ch : ChannelId} (h : Addressed 0x0A s f rest) (hp : f.payload = [byte ch.val]) {a : Answer}
      (hown : clearChannelOwn f s = a) : Answers .clearChannel s f rest a :=
    answers_own rfl h (by decide) (by rw [hp]; rfl) hown
  refine ⟨fun s f rest ch h hp hc => ?_, fun s f rest ch c h hp hc => ?_, fun s f rest ch h hp hu => ?_,
    fun s f rest ch h hp hu => ?_⟩
  · exact (read h hp (by simp only [getChannelOwn, withFields_channelField hp, channelOf_subject hp, hc])).refused
  · have hdata : channelLayout ch c ++ ([if (s.channel ch).smoothed = none then 0 else 1] : List Byte) ++
          int32Bytes ((s.channel ch).smoothed.getD 0) ++ [alarmCode (s.channel ch).alarm, byte (s.useCount ch)] =
        channelData ch c (s.channel ch) (s.useCount ch) := by
      rw [channelLayout_eq, alarmCode_eq, channelData]
      cases (s.channel ch).smoothed <;> rfl
    rw [hdata]
    exact (read h hp (by simp only [getChannelOwn, withFields_channelField hp, channelOf_subject hp, hc])).done rfl
  · exact (cleared h hp (by simp only [clearChannelOwn, withFields_channelField hp, channelOf_subject hp, if_pos hu])).refused
  · have hzero : ¬ 0 < s.useCount ch := by omega
    cases hc : (s.channel ch).config with
    | none =>
      rw [if_pos rfl]
      exact (cleared h hp (by
        simp only [clearChannelOwn, withFields_channelField hp, channelOf_subject hp, if_neg hzero, hc])).done rfl
    | some c =>
      rw [if_neg nofun]
      exact (cleared h hp (a := .done .ok [] (s.setChannel ch Channel.undefined)) (by
        simp only [clearChannelOwn, withFields_channelField hp, channelOf_subject hp, if_neg hzero, hc])).done rfl

/-- The entry that a SAMPLE has just created is found under its `uid`. -/
theorem findSample_defer {tag : Byte} {ch : ChannelId} (h : ∀ d ∈ s.deferred, d.uid ≠ s.nextUid) :
    (s.defer tag (.sample ch)).newGrantEvent.findSample s.nextUid =
      some ({ uid := s.nextUid, tag := tag, subject := .sample ch }, ch) := by
  have hold : s.findSample s.nextUid = none := by
    refine List.findSome?_eq_none_iff.mpr (fun d hd => ?_)
    split
    · exact if_neg (h d hd)
    · rfl
  have happend : (s.defer tag (.sample ch)).newGrantEvent.findSample s.nextUid =
      (s.findSample s.nextUid).or (some ({ uid := s.nextUid, tag := tag, subject := .sample ch }, ch)) :=
    List.findSome?_append.trans (congrArg (Option.or _) (by simp))
  rw [happend, hold]
  rfl

/-- Settles O12: by the channel's configuration, the room in the table and the cores of its input. -/
theorem sampleAsksForOneConversion : Obligations.SampleAsksForOneConversion := by
  have sampled {s f rest} {ch : ChannelId} (h : Addressed 0x0B s f rest) (hp : f.payload = [byte ch.val]) {a : Answer}
      (hown : sampleOwn f s = a) : Answers .sample s f rest a :=
    answers_own rfl h (by decide) (by rw [hp]; rfl) hown
  have accepted {s : State} {f : Frame} {ch : ChannelId} {c : ChannelConfig} (hp : f.payload = [byte ch.val])
      (hc : (s.channel ch).config = some c) (hroom : s.deferred.length < 4) :
      sampleOwn f s = .deferred ((s.defer f.tag (.sample ch)).arrive (.sample s.nextUid) ch c.input .urgent) := by
    simp only [sampleOwn, withFields_channelField hp, channelOf_subject hp, hc]
    exact if_neg (Nat.not_le_of_lt hroom)
  have hcores : ∀ (s : State) tag ch i, (s.defer tag (.sample ch)).unreachable i = s.unreachable i := fun s tag ch i =>
    unreachable_congr rfl i
  refine ⟨fun s f rest ch h hp hc => ?_, fun s f rest ch c h hp hc hfull => ?_, fun s f rest ch c h hp hc hroom hreach => ?_,
    fun s f rest ch c h hp hc hroom hlost hfresh => ?_⟩
  · exact (sampled h hp (by simp only [sampleOwn, withFields_channelField hp, channelOf_subject hp, hc])).refused
  · exact (sampled h hp (by
      simp only [sampleOwn, withFields_channelField hp, channelOf_subject hp, hc]; exact if_pos hfull)).refused
  · have hr : s.unreachable c.input = false := Bool.of_not_eq_true (fun hu => hreach ((unreachable_iff s c.input).mp hu))
    have hown := accepted hp hc hroom
    rw [arrive_of_reachable ((hcores s f.tag ch c.input).trans hr)] at hown
    exact (sampled h hp hown).deferred rfl
  · have hown := accepted hp hc hroom
    have hkept : (s.defer f.tag (.sample ch)).newGrantEvent.deferred.filter (fun x => decide (x.uid ≠ s.nextUid)) = s.deferred := by
      refine (List.filter_append ..).trans ?_
      rw [List.filter_eq_self.mpr (fun d hd => decide_eq_true (hfresh d hd)),
        List.filter_cons_of_neg (by rw [decide_eq_true_eq]; exact fun hne => hne rfl), List.filter_nil, List.append_nil]
    rw [arrive_of_unreachable ((hcores s f.tag ch c.input).trans ((unreachable_iff s c.input).mpr hlost)), State.deliver,
      completeSample_of_present _ noCoreResult (findSample_defer hfresh), hkept] at hown
    rw [(sampled h hp hown).deferred rfl, answered, h.2.1]
    rfl

end

end Sys2Proof.Machine
end

