-- ==== Sys2Proof/Proofs/ListRows.lean ====
section
/-! PROOF. The payload of SET_LIST, the chain test, and the commands that define, read, clear and start a list. -/

-- One proof after another, as in the tests: side by side they take more threads than memory allows.
set_option Elab.async false

namespace Sys2Proof.Machine

open Sys2Proof.Safety

/-! ### The chain test (R47) -/

section
variable (s : State)

/-- The source of a CHAINED list. -/
def State.sourceOf (a : ListId) : Option ListId :=
  match (s.list a).config with
  | none => none
  | some c => match c.trigger with
    | .chained b => some b
    | _ => none

/-- The list that a walk of `n` sources ends at. -/
def State.sourceAfter : Nat → ListId → Option ListId
  | 0, a => some a
  | n + 1, a => (s.sourceOf a).bind (State.sourceAfter n)

variable {s} {t : ListId}

theorem chainedTo_iff {a b : ListId} : (s.list a).chainedTo b = true ↔ s.sourceOf a = some b := by
  unfold ListRec.chainedTo State.sourceOf
  cases (s.list a).config with
  | none => exact ⟨nofun, nofun⟩
  | some c =>
    dsimp only
    rw [decide_eq_true_eq]
    cases c.trigger with
    | chained m => simp
    | continuous | periodic | onCommand => exact ⟨nofun, nofun⟩

theorem chainReaches_succ (n : Nat) (a : ListId) :
    s.chainReaches t (n + 1) a = true ↔ a = t ∨ ∃ b, s.sourceOf a = some b ∧ s.chainReaches t n b = true := by
  by_cases ha : a = t
  · rw [State.chainReaches, if_pos ha]
    exact ⟨fun _ => .inl ha, fun _ => rfl⟩
  · rw [State.chainReaches, if_neg ha]
    unfold State.sourceOf
    cases (s.list a).config with
    | none => simp [ha]
    | some c =>
      dsimp only
      cases c.trigger with
      | chained m => simp [ha]
      | continuous | periodic | onCommand => simp [ha]

/-- The test with fuel `n` finds the walks of at most `n` sources. -/
theorem chainReaches_iff_sourceAfter (n : Nat) (a : ListId) :
    s.chainReaches t n a = true ↔ ∃ k ≤ n, s.sourceAfter k a = some t := by
  induction n generalizing a with
  | zero =>
    rw [State.chainReaches, decide_eq_true_eq]
    constructor
    · rintro rfl
      exact ⟨0, le_refl 0, rfl⟩
    · rintro ⟨k, hk, h⟩
      obtain rfl := Nat.le_zero.mp hk
      exact Option.some.inj h
  | succ n ih =>
    rw [chainReaches_succ]
    constructor
    · rintro (rfl | ⟨b, hb, h⟩)
      · exact ⟨0, Nat.zero_le _, rfl⟩
      · obtain ⟨k, hk, h⟩ := (ih b).mp h
        exact ⟨k + 1, Nat.succ_le_succ hk, by rw [State.sourceAfter, hb]; exact h⟩
    · rintro ⟨k, hk, h⟩
      cases k with
      | zero => exact .inl (Option.some.inj h)
      | succ k =>
        obtain ⟨b, hb, h⟩ := Option.bind_eq_some_iff.mp h
        exact .inr ⟨b, hb, (ih b).mpr ⟨k, Nat.le_of_succ_le_succ hk, h⟩⟩

theorem reaches_iff_sourceAfter {a : ListId} : Reaches s t a ↔ ∃ k, s.sourceAfter k a = some t := by
  constructor
  · intro h
    induction h with
    | here => exact ⟨0, rfl⟩
    | next a b hab _ ih =>
      obtain ⟨k, hk⟩ := ih
      exact ⟨k + 1, by rw [State.sourceAfter, chainedTo_iff.mp hab]; exact hk⟩
  · rintro ⟨k, hk⟩
    induction k generalizing a with
    | zero => rw [← Option.some.inj hk]; exact .here
    | succ k ih =>
      obtain ⟨b, hb, hk⟩ := Option.bind_eq_some_iff.mp hk
      exact .next a b (chainedTo_iff.mpr hb) (ih hk)

theorem sourceAfter_add (i j : Nat) (a : ListId) : s.sourceAfter (i + j) a = (s.sourceAfter i a).bind (s.sourceAfter j) := by
  induction i generalizing a with
  | zero => rw [Nat.zero_add]; rfl
  | succ i ih =>
    rw [Nat.succ_add, State.sourceAfter, State.sourceAfter, Option.bind_assoc]
    exact Option.bind_congr (fun b _ => ih b)

/-- The shortest walk to a list passes no list twice, so it has at most seven sources. -/
theorem exists_short_walk {a : ListId} (h : ∃ k, s.sourceAfter k a = some t) : ∃ k ≤ 8, s.sourceAfter k a = some t := by
  classical
  let k := Nat.find h
  have hk : s.sourceAfter k a = some t := Nat.find_spec h
  have hshort : ∀ j < k, s.sourceAfter j a ≠ some t := fun j hj => Nat.find_min h hj
  have hsome : ∀ i ≤ k, (s.sourceAfter i a).isSome = true := by
    intro i hi
    rw [← Nat.add_sub_cancel' hi, sourceAfter_add] at hk
    obtain ⟨b, hb, -⟩ := Option.bind_eq_some_iff.mp hk
    rw [hb]
    rfl
  have hdistinct : ∀ i j, i < j → j ≤ k → s.sourceAfter i a ≠ s.sourceAfter j a := by
    intro i j hij hj heq
    refine hshort (i + (k - j)) (by omega) ?_
    rw [sourceAfter_add, heq, ← sourceAfter_add, Nat.add_sub_cancel' hj]
    exact hk
  have hinj : Function.Injective (fun i : Fin (k + 1) => (s.sourceAfter i.val a).get (hsome i.val (Nat.le_of_lt_succ i.isLt))) := by
    intro i j hij
    by_contra hne
    have heq : s.sourceAfter i.val a = s.sourceAfter j.val a := Option.get_inj.mp hij
    rcases Nat.lt_or_gt_of_ne (fun hv => hne (Fin.ext hv)) with hlt | hlt
    · exact hdistinct _ _ hlt (Nat.le_of_lt_succ j.isLt) heq
    · exact hdistinct _ _ hlt (Nat.le_of_lt_succ i.isLt) heq.symm
  have hcard := Fintype.card_le_of_injective _ hinj
  rw [Fintype.card_fin, Fintype.card_fin] at hcard
  exact ⟨k, by omega, hk⟩

/-- The chain test of SET_LIST finds every walk. -/
theorem chainReaches_iff {a : ListId} : s.chainReaches t 8 a = true ↔ Reaches s t a := by
  rw [chainReaches_iff_sourceAfter, reaches_iff_sourceAfter]
  exact ⟨fun ⟨k, _, h⟩ => ⟨k, h⟩, exists_short_walk⟩

end

/-! ### What a SET_LIST payload spells -/

/-- The checks of one field for each item of a list. -/
theorem firstBad_map {α : Type} (g : α → Nat) (P : α → Prop) [DecidablePred P] (xs : List α) :
    firstBad (xs.map (fun j => (g j, decide (P j)))) = (xs.find? (fun j => decide (¬ P j))).map g := by
  induction xs with
  | nil => rfl
  | cons x xs ih =>
    by_cases hx : P x
    · rw [List.map_cons, decide_eq_true hx, firstBad_cons_true, ih, List.find?_cons_of_neg (by simpa using hx)]
    · rw [List.map_cons, decide_eq_false hx, firstBad_cons_false, List.find?_cons_of_pos (by simpa using hx)]
      rfl

/-- The checks of the row are those of R46, in its order. -/
theorem firstBad_listChecks (p : List Byte) : firstBad (listChecks p) = listFault p := by
  have hsteps : firstBad ((List.range (num p 10)).map (fun j => (10 + j, decide (num p (11 + j) ≤ 31)))) =
      ((List.range (num p 10)).find? (fun j => decide (31 < num p (11 + j)))).map (fun j => 10 + j) := by
    rw [firstBad_map]
    simp only [Nat.not_le]
  simp only [listChecks, byteAt_eq_num, fieldAt_eq_num16, List.cons_append, List.nil_append]
  refine firstBad_cons_of_iff ?_ <| firstBad_cons_of_iff ?_ <| firstBad_cons_of_iff ?_ <| firstBad_cons_of_iff ?_ <|
    firstBad_cons_of_iff ?_ <| firstBad_cons_of_iff ?_ <| firstBad_cons_of_iff ?_ <| firstBad_cons_of_iff ?_ hsteps <;> omega

section
variable {l : ListId} {c : ListConfig} {p : List Byte}

theorem num_append_length (xs ys : List Byte) (j : Nat) : num (xs ++ ys) (xs.length + j) = num ys j := by
  rw [num, num, List.getD_append_right _ _ _ _ (Nat.le_add_right _ _), Nat.add_sub_cancel_left]

theorem num_map_byte {n : Nat} (xs : List (Fin n)) (hn : n ≤ 256) {j : Nat} (h : j < xs.length) :
    num (xs.map (fun x => byte x.val)) j = xs[j].val := by
  rw [num, List.getD_eq_getElem _ _ (by rw [List.length_map]; exact h), List.getElem_map]
  exact byte_toNat_of_lt (by omega)

/-- The payload of a valid configuration passes the checks, names the list and gives the configuration back. -/
theorem listConfigOf_of_payload (h : ListPayload l c p) (hv : ValidList c) :
    listFault p = none ∧ listOf (byteAt p 0) = l ∧ listConfigOf p = c ∧ listLength p = true := by
  obtain ⟨source, period, hsource, hperiod, hp⟩ := h
  obtain ⟨hcycles, ⟨hc1, hc4⟩, ⟨hs1, hs32⟩, hper⟩ := hv
  have h0 : num p 0 = l.val := by rw [hp]; exact byte_toNat_of_lt (by omega)
  have h1 : num p 1 = (triggerCode c.trigger).toNat := by rw [hp]; rfl
  have h2 : num p 2 = source.toNat := by rw [hp]; rfl
  have h3 : ∀ q, c.trigger = .periodic q → num16 p 3 = q := by
    intro q hq
    obtain ⟨-, hq2⟩ := hper q hq
    rw [hp, hperiod q hq]
    exact num16_twoBytes [] (by omega)
  have h5 : num16 p 5 = c.cycles := by rw [hp]; exact num16_twoBytes [] (by omega)
  have h7 : num p 7 = c.priority.val := by rw [hp]; exact byte_toNat_of_lt (by omega)
  have h8 : num p 8 = c.concurrency := by rw [hp]; exact byte_toNat_of_lt (by omega)
  have h9 : num p 9 = if c.policy = .discard then 0 else 1 := by rw [hp]; exact apply_ite BitVec.toNat _ _ _
  have h10 : num p 10 = c.steps.length := by rw [hp]; exact byte_toNat_of_lt (by omega)
  have h11 : ∀ j (hj : j < c.steps.length), num p (11 + j) = c.steps[j].val := by
    intro j hj
    rw [hp, listLayoutWith, ← num_map_byte c.steps (by decide) hj]
    exact num_append_length _ _ j
  have hlen : p.length = 11 + c.steps.length := by
    rw [hp, listLayoutWith, List.length_append, List.length_map]
    rfl
  have hcode : num p 1 ≤ 3 ∧ (num p 1 = 3 → ∃ m, c.trigger = .chained m) ∧ (num p 1 = 1 → ∃ q, c.trigger = .periodic q) := by
    rw [h1]
    cases c.trigger with
    | chained m => exact ⟨(le_refl 3 : 3 ≤ 3), fun _ => ⟨m, rfl⟩, fun h => absurd h (by decide : ¬ 3 = 1)⟩
    | periodic q => exact ⟨(by decide : 1 ≤ 3), fun h => absurd h (by decide : ¬ 1 = 3), fun _ => ⟨q, rfl⟩⟩
    | continuous => exact ⟨(by decide : 0 ≤ 3), fun h => absurd h (by decide : ¬ 0 = 3), fun h => absurd h (by decide : ¬ 0 = 1)⟩
    | onCommand => exact ⟨(by decide : 2 ≤ 3), fun h => absurd h (by decide : ¬ 2 = 3), fun h => absurd h (by decide : ¬ 2 = 1)⟩
  obtain ⟨hcode, hchained, hperiodic⟩ := hcode
  refine ⟨?_, ?_, ?_, ?_⟩
  · have hf3 : num p 1 = 3 → num p 2 ≤ 7 := by
      intro h
      obtain ⟨m, hm⟩ := hchained h
      rw [h2, hsource m hm, byte_toNat_of_lt (by omega)]
      omega
    have hf4 : num p 1 = 1 → 10 ≤ num16 p 3 ∧ num16 p 3 ≤ 60000 := by
      intro h
      obtain ⟨q, hq⟩ := hperiodic h
      rw [h3 q hq]
      exact hper q hq
    have hpolicy : num p 9 ≤ 1 := by rw [h9]; split <;> decide
    have hsteps : (List.range (num p 10)).find? (fun j => decide (31 < num p (11 + j))) = none := by
      refine List.find?_eq_none.mpr (fun j hj => ?_)
      rw [decide_eq_true_eq, Nat.not_lt]
      rw [h10, List.mem_range] at hj
      rw [h11 j hj]
      omega
    unfold listFault
    rw [if_neg (by omega), if_neg (by omega), if_neg (by omega), if_neg (by omega), if_neg (by omega), if_neg (by omega),
      if_neg (by omega), if_neg (by omega), hsteps]
    rfl
  · rw [byteAt_eq_num, h0, listOf, Fin.ofNat_val_eq_self]
  · have htrigger : triggerOf p = c.trigger := by
      unfold triggerOf
      rw [byteAt_eq_num, h1]
      cases ht : c.trigger with
      | continuous => rfl
      | periodic q => exact congrArg Trigger.periodic ((fieldAt_eq_num16 p 3).trans (h3 q ht))
      | onCommand => rfl
      | chained m =>
        refine congrArg Trigger.chained ?_
        rw [byteAt_eq_num, h2, hsource m ht, byte_toNat_of_lt (by omega), listOf, Fin.ofNat_val_eq_self]
    have hsteps : (List.range (byteAt p 10)).map (fun j => channelOf (byteAt p (11 + j))) = c.steps := by
      refine List.ext_getElem (by rw [List.length_map, List.length_range, byteAt_eq_num, h10]) (fun j hj hj' => ?_)
      rw [List.getElem_map, List.getElem_range, byteAt_eq_num, h11 j hj', channelOf, Fin.ofNat_val_eq_self]
    have hpolicy : (if byteAt p 9 = 0 then FullPolicy.discard else .hold) = c.policy := by
      rw [byteAt_eq_num, h9]
      cases c.policy <;> rfl
    rw [listConfigOf, htrigger, hsteps, hpolicy, fieldAt_eq_num16, h5, byteAt_eq_num, h7, byteAt_eq_num, h8, Fin.ofNat_val_eq_self]
  · rw [listLength, byteAt_eq_num, h10, hlen]
    exact decide_eq_true ⟨by omega, rfl⟩

end

/-! ### The rows that define, read, clear and start a list -/

section
variable {s : State} {f : Frame} {rest : List Frame} {l : ListId} {c : ListConfig} {m : ListId}

theorem setListOwn_of_payload (hp : ListPayload l c f.payload) (hv : ValidList c) : setListOwn f s =
    if (s.list l).state ≠ .empty ∧ (s.list l).state ≠ .idle then .refused .wrongState
    else if c.steps.any (fun ch => (s.channel ch).config.isNone) then .refused .notDefined
    else match s.chainRefusal l c.trigger with
      | some o => .refused o
      | none =>
        if Config.stepPlaces < s.stepPlacesWith l c then .refused .stepPoolFull
        else .done .ok [] ((s.setList l (ListRec.configured c)).setRunMark l false) := by
  obtain ⟨hfault, hl, hc, -⟩ := listConfigOf_of_payload hp hv
  rw [setListOwn, withFields_of_none ((firstBad_listChecks _).trans hfault)]
  simp only [hl, hc] <;> rfl

theorem answers_setList (h : Addressed 0x10 s f rest) (hlen : listLength f.payload = true) {a : Answer} (hown : setListOwn f s = a) :
    Answers .setList s f rest a := answers_own rfl h (by decide) hlen hown

/-- The outcome of the checks of the trigger (R46, checks 4 and 5). -/
theorem chainRefusal_none (h : ∀ m, c.trigger = .chained m → ¬ Reaches s l m ∧ (s.list m).state ≠ .empty) :
    s.chainRefusal l c.trigger = none := by
  unfold State.chainRefusal
  split
  case h_1 m hm =>
    obtain ⟨hwalk, hstate⟩ := h m hm
    rw [if_neg (fun hr => hwalk (chainReaches_iff.mp hr)), if_neg hstate]
  case h_2 => rfl

theorem chainRefusal_loop (hm : c.trigger = .chained m) (h : Reaches s l m) : s.chainRefusal l c.trigger = some .chainLoop := by
  rw [hm]
  exact if_pos (chainReaches_iff.mpr h)

theorem chainRefusal_empty (hm : c.trigger = .chained m) (h : ¬ Reaches s l m) (hstate : (s.list m).state = .empty) :
    s.chainRefusal l c.trigger = some .notDefined := by
  rw [hm, State.chainRefusal, if_neg (fun hr => h (chainReaches_iff.mp hr)), if_pos hstate]

theorem any_undefined_iff : c.steps.any (fun ch => (s.channel ch).config.isNone) = true ↔
    ∃ ch ∈ c.steps, (s.channel ch).config = none := by simp

theorem any_undefined_false (h : ∀ ch ∈ c.steps, (s.channel ch).config.isSome = true) :
    ¬ c.steps.any (fun ch => (s.channel ch).config.isNone) = true := by
  rw [any_undefined_iff]
  rintro ⟨ch, hch, hnone⟩
  exact absurd (h ch hch) (by rw [hnone]; exact nofun)

theorem not_defined_of_state (h : (s.list l).state = .empty ∨ (s.list l).state = .idle) :
    ¬ ((s.list l).state ≠ .empty ∧ (s.list l).state ≠ .idle) := fun hn => h.elim hn.1 hn.2

/-- Settles O13. -/
theorem setListStoresWhatItsPayloadSpells : Obligations.SetListStoresWhatItsPayloadSpells := by
  intro s f rest l c h hp hv hstate hsteps hchain hroom
  obtain ⟨-, -, -, hlen⟩ := listConfigOf_of_payload hp hv
  refine (answers_setList h hlen ?_).done rfl
  rw [setListOwn_of_payload hp hv, if_neg (not_defined_of_state hstate), if_neg (any_undefined_false hsteps)]
  simp only [chainRefusal_none hchain]
  rw [if_neg (show ¬ Config.stepPlaces < s.stepPlacesWith l c from Nat.not_lt_of_le hroom)]
  rfl

/-- Settles O14: the checks of the payload, then those of the state in their order. -/
theorem setListRefuses : Obligations.SetListRefuses := by
  refine ⟨fun s f rest n h hlen hfault => ?_, fun s f rest l c h hp hv => ?_⟩
  · have hlength : listLength f.payload = true := by
      rw [lengthFits, h.2.1] at hlen
      rw [listLength_eq]
      exact hlen
    exact (answers_setList h hlength (withFields_of_some ((firstBad_listChecks _).trans hfault) _)).badField
  · obtain ⟨-, -, -, hlen⟩ := listConfigOf_of_payload hp hv
    have hown := setListOwn_of_payload (s := s) hp hv
    refine ⟨fun hstate => ?_, fun hstate => ?_⟩
    · rw [if_pos hstate] at hown
      exact (answers_setList h hlen hown).refused
    · rw [if_neg (not_defined_of_state hstate)] at hown
      refine ⟨fun hundefined => ?_, fun hsteps => ?_⟩
      · rw [if_pos (any_undefined_iff.mpr hundefined)] at hown
        exact (answers_setList h hlen hown).refused
      · rw [if_neg (any_undefined_false hsteps)] at hown
        refine ⟨fun m hm hloop => ?_, fun m hm hno hempty => ?_, fun hchain hfull => ?_⟩
        · simp only [chainRefusal_loop hm hloop] at hown
          exact (answers_setList h hlen hown).refused
        · simp only [chainRefusal_empty hm hno hempty] at hown
          exact (answers_setList h hlen hown).refused
        · simp only [chainRefusal_none hchain] at hown
          rw [if_pos (show Config.stepPlaces < s.stepPlacesWith l c from hfull)] at hown
          exact (answers_setList h hlen hown).refused

/-- The list that a payload of one byte names. -/
theorem withFields_listField {p q : List Byte} (hp : p = byte l.val :: q) (a : Answer) : withFields (listField p) a = a := by
  rw [listField, byteAt_zero_byte hp (by omega), decide_eq_true (Nat.le_of_lt_succ l.isLt)]
  rfl

theorem listOf_subject {p q : List Byte} (hp : p = byte l.val :: q) : listOf (byteAt p 0) = l := by
  rw [byteAt_zero_byte hp (by omega), listOf, Fin.ofNat_val_eq_self]

/-- The window entries of a GET_LIST reply. -/
theorem entryBytes_eq (e : Entry) : Entry.bytes e = [byte e.step, byte e.channel.val] ++ leBytes 2 e.cycle.toNat ++
    ([stageCode e.stage, match e.stage with | .ready r => statusCode r.status | _ => 0] : List Byte) := by
  rw [Entry.bytes, stageCode_eq]
  cases e.stage with
  | ready r => simp only [statusCode_eq]; rfl
  | waiting | converting | evaluating => rfl

/-- Settles O15: the data are those of `listData`; CLEAR_LIST by use as a source and by state. -/
theorem listsAreReadAndCleared : Obligations.ListsAreReadAndCleared := by
  have read {s f rest} {l : ListId} (h : Addressed 0x11 s f rest) (hp : f.payload = [byte l.val]) {a : Answer}
      (hown : getListOwn f s = a) : Answers .getList s f rest a :=
    answers_own rfl h (by decide) (by rw [hp]; rfl) hown
  have cleared {s f rest} {l : ListId} (h : Addressed 0x12 s f rest) (hp : f.payload = [byte l.val]) {a : Answer}
      (hown : clearListOwn f s = a) : Answers .clearList s f rest a :=
    answers_own rfl h (by decide) (by rw [hp]; rfl) hown
  refine ⟨fun s f rest l h hp hc => ?_, fun s f rest l c h hp hc => ?_, fun s f rest l h hp => ?_⟩
  · exact (read h hp (by simp only [getListOwn, withFields_listField hp, listOf_subject hp, hc])).refused
  · have hown : getListOwn f s = .done .ok (listData l c (s.list l)) s := by
      simp only [getListOwn, withFields_listField hp, listOf_subject hp, hc]
    rw [(read h hp hown).done rfl, listData, listLayout_eq, listCode_eq, funext entryBytes_eq]
    cases (s.list l).remaining <;> cases (s.list l).startPending <;> rfl
  · have hown : clearListOwn f s =
        if (s.list l).state = .empty then .done .ok [] s
        else if (List.finRange 8).any (fun m => (s.list m).chainedTo l) then .refused .inUse
        else if (s.list l).state ≠ .idle then .refused .wrongState
        else .done .ok [] ((s.setList l ListRec.emptyList).setRunMark l false) := by
      simp only [clearListOwn, withFields_listField hp, listOf_subject hp]
    have hsource : (List.finRange 8).any (fun m => (s.list m).chainedTo l) = true ↔ ∃ m, (s.list m).chainedTo l = true := by simp
    by_cases hempty : (s.list l).state = .empty
    · rw [if_pos hempty] at hown ⊢
      exact (cleared h hp hown).done rfl
    · rw [if_neg hempty] at hown ⊢
      by_cases huse : ∃ m, (s.list m).chainedTo l = true
      · rw [if_pos (hsource.mpr huse)] at hown
        rw [if_pos huse]
        exact (cleared h hp hown).refused
      · rw [if_neg (fun h => huse (hsource.mp h))] at hown
        rw [if_neg huse]
        by_cases hidle : (s.list l).state ≠ .idle
        · rw [if_pos hidle] at hown ⊢
          exact (cleared h hp hown).refused
        · rw [if_neg hidle] at hown ⊢
          exact (cleared h hp hown).done rfl

/-- Settles O16: START_LIST by the list's state, then by its trigger. -/
theorem startListStartsByTrigger : Obligations.StartListStartsByTrigger := by
  have started {s f rest} {l : ListId} (h : Addressed 0x13 s f rest) (hp : f.payload = [byte l.val]) {a : Answer}
      (hown : startListOwn f s = a) : Answers .startList s f rest a :=
    answers_own rfl h (by decide) (by rw [hp]; rfl) hown
  refine ⟨fun s f rest l h hp hc => ?_, fun s f rest l c h hp hc => ⟨fun hstate => ?_, fun hstate => ?_⟩⟩
  · exact (started h hp (by simp only [startListOwn, withFields_listField hp, listOf_subject hp, hc])).refused
  · exact (started h hp (by simp only [startListOwn, withFields_listField hp, listOf_subject hp, hc, if_pos hstate])).refused
  · have hown : startListOwn f s = .done .ok [] (s.startList l c) := by
      simp only [startListOwn, withFields_listField hp, listOf_subject hp, hc]
      exact if_neg (not_not.mpr hstate)
    have hslots : (s.startList l c).slots = s.slots :=
      (startList_frameTo s l c) .slots rfl
    have hrow := (started h hp hown).done hslots
    have hset : ∀ r x : ListRec, (((s.setList l r).setRunMark l true).setList l x) = (s.setList l x).setRunMark l true := fun r x => by
      have hswap : (((s.setList l r).setRunMark l true).setList l x) = ((s.setList l r).setList l x).setRunMark l true := rfl
      rw [hswap, State.setList_setList]
    have hlist : ∀ r : ListRec, ((s.setList l r).setRunMark l true).list l = r := fun r => list_setList_same s l r
    refine ⟨fun ht => ?_, fun ht => ?_, fun p ht => ?_⟩ <;> rw [hrow]
    · have harmed : s.startList l c =
          ((s.setList l { (s.list l).started c with state := .armed }).setRunMark l true) := by
        rcases ht with ht | ⟨m, ht⟩ <;> simp only [State.startList, ht, hset, hlist]
      rw [harmed]
      rfl
    · simp only [State.startList, ht]
      rfl
    · simp only [State.startList, ht, hset, hlist]
      rfl

end

end Sys2Proof.Machine
end

