-- ==== Sys2Proof/Proofs/SequencerRows.lean ====
section
/-! PROOF. Cycles, triggers and stops of the lists: the end of a cycle, the steps that a starting cycle issues, STOP_LIST and the
three kinds of trigger. -/

-- One proof after another, as in the tests: side by side they take more threads than memory allows.
set_option Elab.async false

namespace Sys2Proof.Machine

open Sys2Proof.Safety

section
variable {s : State} {f : Frame} {rest : List Frame} {l : ListId} {c : ListConfig}

/-! ### The end of a cycle -/

theorem finishList_eq (s : State) (l : ListId) (why : FinishReason) : s.finishList l why = finished s l why := rfl

/-- Settles O18: by the cycles that remain, the trigger and the pending start. -/
theorem cycleEndGoesOn : Obligations.CycleEndGoesOn := by
  intro s l c left hc hleft
  have hcount : s.countCycle l = s.setList l { s.list l with remaining := left } := by
    have hd : (s.list l).remaining.decrement = left := by
      rw [hleft]
      cases (s.list l).remaining <;> rfl
    rw [State.countCycle, hd]
  have hcont : ({ s.list l with remaining := left } : ListRec).isContinuous = decide (c.trigger = .continuous) := by
    simp only [ListRec.isContinuous, hc]
  have hend : s.endCycle l =
      if left = .count 0 then (s.setList l { s.list l with remaining := left }).finishList l .countReached
      else if decide (c.trigger = .continuous) then (s.setList l { s.list l with remaining := left }).startCycle l
      else if (s.list l).startPending then
        (s.setList l { s.list l with remaining := left, startPending := false }).startCycle l
      else s.setList l { s.list l with remaining := left, state := .armed } := by
    simp only [State.endCycle, hcount, list_setList_same, hcont, State.setList_setList]
  refine ⟨fun h => ?_, fun h ht => ?_, fun h ht hp => ?_, fun h ht hp => ?_⟩
  · rw [hend, if_pos h]
    rfl
  · rw [hend, if_neg h, if_pos (decide_eq_true ht)]
  · rw [hend, if_neg h, if_neg (by simpa using ht), if_pos hp]
  · rw [hend, if_neg h, if_neg (by simpa using ht), if_neg (by simp [hp])]

/-! ### STOP_LIST -/

/-- A STOP_LIST frame is answered by the row of its mode. -/
theorem answers_stopList {i : Instr} {mine : Frame → Bool} {own : Frame → State → Answer} {p : Byte × Byte}
    (hrow : exec i s = .next (s.runCommand mine (exactly 2) own)) (h : Addressed 0x14 s f rest) (hp : f.payload = [p.1, p.2])
    (hm : mine f = true) {a : Answer} (hown : own f s = a) : Answers i s f rest a := by
  obtain ⟨htakes, hkind, htag, hheld⟩ := h
  refine ⟨?_, htakes.1⟩
  rw [hrow, runCommand_of_takes htakes hm, commandAnswer_of_checks (by rw [hkind]; decide) htag hheld (by rw [hp]; rfl), hown]

theorem withFields_stopFields {m : Byte} {p : List Byte} (hp : p = [byte l.val, m]) (hm : m.toNat ≤ 1) (a : Answer) :
    withFields (stopFields p) a = a := by
  have h1 : byteAt p 1 = m.toNat := by rw [hp, byteAt_succ, byteAt_zero]
  rw [stopFields, byteAt_zero_byte hp (by omega), h1, decide_eq_true (Nat.le_of_lt_succ l.isLt), decide_eq_true hm]
  rfl

theorem byteAt_mode {a m : Byte} {p : List Byte} (hp : p = [a, m]) : byteAt p 1 = m.toNat := by rw [hp, byteAt_succ, byteAt_zero]

/-- Settles O19: each mode by the list's state, and the end of an abort by the outstanding count. -/
theorem stopListActsByState : Obligations.StopListActsByState := by
  have drain {s f rest} {l : ListId} {m : Byte} (h : Addressed 0x14 s f rest) (hp : f.payload = [byte l.val, m]) (hm : m ≠ 1)
      {a : Answer} (hown : stopListDrainOwn f s = a) : Answers .stopListDrain s f rest a := by
    refine answers_stopList (p := (byte l.val, m)) rfl h hp ?_ hown
    have hone : m.toNat ≠ 1 := fun heq => hm (BitVec.eq_of_toNat_eq heq)
    rw [isDrainFrame, byteAt_mode hp, decide_eq_false hone, show ofKind kindStopList f = true from decide_eq_true h.2.1]
    rfl
  have abort {s f rest} {l : ListId} (h : Addressed 0x14 s f rest) (hp : f.payload = [byte l.val, 1]) {a : Answer}
      (hown : stopListAbortOwn f s = a) : Answers .stopListAbort s f rest a := by
    refine answers_stopList (p := (byte l.val, 1)) rfl h hp ?_ hown
    rw [isAbortFrame, byteAt_mode hp, show ofKind kindStopList f = true from decide_eq_true h.2.1]
    rfl
  refine ⟨fun s f rest l m h hp hm => ?_, fun s f rest l h hp => ?_, fun s f rest l h hp => ?_, fun s l => ?_⟩
  · refine (drain h hp (fun h1 => by rw [h1] at hm; exact absurd hm (by decide)) (withFields_of_some (n := 2) ?_ _)).badField
    rw [stopFields, byteAt_zero_byte hp (by omega), byteAt_mode hp, decide_eq_true (Nat.le_of_lt_succ l.isLt),
      decide_eq_false (Nat.not_le_of_lt hm)]
    rfl
  · have hown : stopListDrainOwn f s = if (s.list l).state = .empty then .refused .notDefined else .done .ok [] (s.drainList l) := by
      simp only [stopListDrainOwn, withFields_stopFields hp (Nat.zero_le 1), listOf_subject hp]
    have kept {t : State} (hne : (s.list l).state ≠ .empty) (ht : s.drainList l = t) (hslots : t.slots = s.slots) :
        exec .stopListDrain s = .next (answered t f rest .ok []) := by
      rw [if_neg hne, ht] at hown
      exact (drain h hp (by decide) hown).done hslots
    cases hstate : (s.list l).state with
    | empty =>
      rw [if_pos hstate] at hown
      exact (drain h hp (by decide) hown).refused
    | armed => exact kept (by rw [hstate]; exact nofun) (by rw [State.drainList, hstate]; rfl) rfl
    | running => exact kept (by rw [hstate]; exact nofun) (by rw [State.drainList, hstate]) rfl
    | idle | draining | aborting => exact kept (by rw [hstate]; exact nofun) (by rw [State.drainList, hstate]) rfl
  · have hown : stopListAbortOwn f s = if (s.list l).state = .empty then .refused .notDefined else .done .ok [] (s.abortList l) := by
      simp only [stopListAbortOwn, withFields_stopFields hp (le_refl 1), listOf_subject hp]
    refine ⟨fun hstate => ?_, fun hstate => ?_, fun hstate => ?_⟩
    · rw [if_pos hstate] at hown
      exact (abort h hp hown).refused
    · have hsame : s.abortList l = s := by rcases hstate with hstate | hstate <;> rw [State.abortList, hstate]
      rw [if_neg (by rcases hstate with hstate | hstate <;> rw [hstate] <;> exact nofun), hsame] at hown
      exact (abort h hp hown).done rfl
    · have hfinished : s.abortList l = finished s l .aborted := by rw [State.abortList, hstate]; rfl
      rw [if_neg (by rw [hstate]; exact nofun), hfinished] at hown
      exact (abort h hp hown).done rfl
  · refine congrArg Host.Outcome.next ?_
    rw [State.completeAbort, choose_eq]
    rfl

/-! ### Triggers -/

theorem triggered_running (h : (s.list l).state = .running) : triggered s l = s.setList l (triggeredRunning (s.list l)) := by
  rw [triggered, h]

theorem triggered_armed (h : (s.list l).state = .armed) : triggered s l = s.startCycle l := by rw [triggered, h]

theorem triggered_other (ha : (s.list l).state ≠ .armed) (hr : (s.list l).state ≠ .running) : triggered s l = s := by
  unfold triggered
  split
  case h_1 h => exact absurd h ha
  case h_2 h => exact absurd h hr
  case h_3 => rfl

theorem trigger_eq (s : State) (l : ListId) : s.trigger l = triggered s l := by
  unfold State.trigger
  split
  case h_1 h => exact (triggered_armed h).symm
  case h_2 h =>
    rw [triggered_running h, triggeredRunning]
    split <;> rfl
  case h_3 ha hr => exact (triggered_other ha hr).symm

theorem issueSteps_config (s : State) (l m : ListId) : ((s.issueSteps l).list m).config = (s.list m).config := by
  by_cases h : m = l
  · subst h
    obtain ⟨n, w, hself⟩ := issueSteps_self s m
    rw [hself]
  · rw [issueSteps_other s h]

theorem startCycle_config (s : State) (l m : ListId) : ((s.startCycle l).list m).config = (s.list m).config := by
  rw [State.startCycle, issueSteps_config]
  by_cases h : m = l
  · subst h
    rw [list_setList_same]
  · rw [list_setList_of_ne _ h]

theorem trigger_config (s : State) (l m : ListId) : ((s.trigger l).list m).config = (s.list m).config := by
  have same : ∀ r : ListRec, r.config = (s.list l).config → ((s.setList l r).list m).config = (s.list m).config := by
    intro r hr
    by_cases h : m = l
    · subst h
      rw [list_setList_same, hr]
    · rw [list_setList_of_ne _ h]
  unfold State.trigger
  split
  · exact startCycle_config s l m
  · split
    · exact same _ rfl
    · exact same _ rfl
  · rfl

theorem chainedTo_congr {r r' : ListRec} (h : r'.config = r.config) (source : ListId) : r'.chainedTo source = r.chainedTo source := by
  rw [ListRec.chainedTo, ListRec.chainedTo, h]

/-- Which lists are chained to a source does not change while their triggers are taken. -/
theorem triggerChained_eq (s : State) (source : ListId) :
    s.triggerChained source = ((List.finRange 8).filter (fun m => (s.list m).chainedTo source)).foldl triggered s := by
  have general : ∀ (ms : List ListId) (t : State), (∀ m, ((t.list m).config = (s.list m).config)) →
      ms.foldl (fun t m => if (t.list m).chainedTo source then t.trigger m else t) t =
        (ms.filter (fun m => (s.list m).chainedTo source)).foldl triggered t := by
    intro ms
    induction ms with
    | nil => exact fun t _ => rfl
    | cons m ms ih =>
      intro t ht
      rw [List.foldl_cons, chainedTo_congr (ht m) source]
      cases hm : (s.list m).chainedTo source with
      | false =>
        rw [if_neg Bool.false_ne_true, List.filter_cons_of_neg (by rw [hm]; exact Bool.false_ne_true)]
        exact ih t ht
      | true =>
        rw [if_pos rfl, List.filter_cons_of_pos (p := fun m => (s.list m).chainedTo source) hm, List.foldl_cons, ← trigger_eq]
        exact ih _ (fun m' => (trigger_config t m m').trans (ht m'))
  exact general _ s (fun _ => rfl)

/-- Settles O21: `triggered` is the trigger of the model, on one list and along the chain. -/
theorem triggersActByState : Obligations.TriggersActByState := by
  have answers {s f rest} {l : ListId} (h : Addressed 0x15 s f rest) (hp : f.payload = [byte l.val]) {a : Answer}
      (hown : triggerListOwn f s = a) : Answers .triggerList s f rest a :=
    answers_own rfl h (by decide) (by rw [hp]; rfl) hown
  refine ⟨fun s f rest l h hp hc => ?_, fun s f rest l c h hp hc => ?_, fun s l c k p hc ht hk => ?_, fun s l ht => ?_,
    triggerChained_eq, fun s source hnone => ?_, fun s source l hl => ?_⟩
  · exact (answers h hp (by simp only [triggerListOwn, withFields_listField hp, listOf_subject hp, hc])).refused
  · have hown : triggerListOwn f s =
        if c.trigger ≠ .onCommand then .refused .wrongState
        else if (s.list l).state ≠ .armed ∧ (s.list l).state ≠ .running then .refused .wrongState
        else .done .ok [] (s.trigger l) := by
      simp only [triggerListOwn, withFields_listField hp, listOf_subject hp, hc]
    by_cases htrigger : c.trigger ≠ .onCommand
    · rw [if_pos htrigger] at hown ⊢
      exact (answers h hp hown).refused
    · rw [if_neg htrigger, trigger_eq] at hown
      rw [if_neg htrigger]
      cases hstate : (s.list l).state with
      | armed =>
        rw [if_neg (fun hn => hn.1 hstate), triggered_armed hstate] at hown
        exact (answers h hp hown).done (frameTo_of_issuesTo (startCycle_issuesTo s l) .slots rfl)
      | running =>
        rw [if_neg (fun hn => hn.2 hstate), triggered_running hstate] at hown
        exact (answers h hp hown).done rfl
      | empty | idle | draining | aborting =>
        rw [if_pos (by rw [hstate]; exact ⟨nofun, nofun⟩)] at hown
        exact (answers h hp hown).refused
  · intro later
    have hexp : s.expirePeriod l = triggered ({ s with now := max s.now k.next }.setList l later) l := by
      rw [← trigger_eq]
      simp only [State.expirePeriod, hk, hc, ht]
      rfl
    have hlater : ({ s with now := max s.now k.next }.setList l later).list l = later := list_setList_same _ l later
    refine congrArg Host.Outcome.next ?_
    rw [hexp]
    cases hstate : (s.list l).state with
    | armed => exact triggered_armed (by rw [hlater]; exact hstate)
    | running =>
      refine (triggered_running (by rw [hlater]; exact hstate)).trans ?_
      rw [hlater, State.setList_setList]
    | empty | idle | draining | aborting =>
      exact triggered_other (by rw [hlater]; exact fun h => nomatch hstate.symm.trans h)
        (by rw [hlater]; exact fun h => nomatch hstate.symm.trans h)
  · refine congrArg Host.Outcome.next ?_
    simp only [State.expirePeriod, ht]
  · rw [triggerChained_eq, List.filter_eq_nil_iff.mpr (fun m _ => by rw [hnone m]; exact Bool.false_ne_true)]
    rfl
  · have hfilter : (List.finRange 8).filter (fun m => (s.list m).chainedTo source) = [l] := by
      have hcongr : (List.finRange 8).filter (fun m => (s.list m).chainedTo source) = (List.finRange 8).filter
          (fun m => decide (m = l)) :=
        List.filter_congr (fun m _ => Bool.eq_iff_iff.mpr ((hl m).trans decide_eq_true_iff.symm))
      have honly : ∀ l : ListId, (List.finRange 8).filter (fun m => decide (m = l)) = [l] := by decide
      rw [hcongr, honly]
    rw [triggerChained_eq, hfilter]
    rfl

/-! ### Issue of steps -/

section
variable {ch : ChannelId} {k : ChannelConfig}

/-- The newest entry of a window takes a stage. -/
theorem setStage_snoc {w : List Entry} {e : Entry} (h : ∀ x ∈ w, x.step ≠ e.step) (st : Stage) :
    setStage e.step st (w ++ [e]) = w ++ [{ e with stage := st }] := by
  have hold : setStage e.step st w = w := by
    unfold setStage
    exact (List.map_congr_left (fun x hx => if_neg (h x hx))).trans (List.map_id' w)
  have hnew : setStage e.step st [e] = [{ e with stage := st }] := congrArg (fun x => [x]) (if_pos rfl)
  rw [show setStage e.step st (w ++ [e]) = setStage e.step st w ++ setStage e.step st [e] from List.map_append, hold, hnew]

/-- One step is issued: its entry joins the window, READY where no core can serve it, and else its request joins the pool (R60,
R82). -/
theorem issueStep_eq (hk : (s.channel ch).config = some k) (hfresh : ∀ e ∈ (s.list l).window, e.step ≠ (s.list l).cursor) :
    s.issueStep l c ch = { s.setList l { s.list l with
        cursor := (s.list l).cursor + 1
        window := (s.list l).window ++ [{
          step := (s.list l).cursor, channel := ch, cycle := (s.list l).cycle,
          stage := if s.unreachable k.input then .ready noCore else .waiting }] } with
      pool := s.pool ++ (if s.unreachable k.input then [] else [{
        origin := .entry l (s.list l).cursor, channel := ch, input := k.input, priority := .level c.priority, age := s.nextEvent }])
      nextEvent := s.nextEvent + 1 } := by
  obtain ⟨r, hr⟩ : ∃ r : ListRec, r = { s.list l with
      window := (s.list l).window ++ [{ step := (s.list l).cursor, channel := ch, cycle := (s.list l).cycle, stage := .waiting }]
      cursor := (s.list l).cursor + 1 } := ⟨_, rfl⟩
  have hissue : s.issueStep l c ch =
      (s.setList l r).arrive (.entry l (s.list l).cursor) ch k.input (.level c.priority) := by
    simp only [State.issueStep, hk, hr]
  have hcores : (s.setList l r).unreachable k.input = s.unreachable k.input := unreachable_congr rfl _
  cases hu : s.unreachable k.input with
  | false =>
    rw [hissue, arrive_of_reachable (hcores.trans hu), hr]
    rfl
  | true =>
    have hdeliver : (s.setList l r).newGrantEvent.deliver (.entry l (s.list l).cursor) noCoreResult =
        ((s.setList l r).setList l { (s.setList l r).list l with
          window := setStage (s.list l).cursor (.ready noCore) ((s.setList l r).list l).window }).newGrantEvent := rfl
    have hstage : setStage (s.list l).cursor (.ready noCore) r.window = (s.list l).window ++ [{
        step := (s.list l).cursor, channel := ch, cycle := (s.list l).cycle, stage := .ready noCore }] := by
      rw [hr]
      exact setStage_snoc (e := { step := (s.list l).cursor, channel := ch, cycle := (s.list l).cycle, stage := .waiting })
        hfresh _
    rw [hissue, arrive_of_unreachable (hcores.trans hu), hdeliver, list_setList_same, State.setList_setList, hstage, hr,
      if_pos rfl, if_pos rfl, List.append_nil]
    rfl

/-- A list that is not RUNNING, has a full window or has no step left issues none. -/
theorem issue_stops (n : Nat) (hc : (s.list l).config = some c)
    (h : (s.list l).state ≠ .running ∨ c.concurrency ≤ (s.list l).window.length ∨ c.steps.length ≤ (s.list l).cursor) :
    s.issue n l = s := by
  cases n with
  | zero => rfl
  | succ n =>
    simp only [State.issue, hc]
    split
    case isTrue hroom =>
      rcases h with h | h | h
      · exact absurd hroom.1 h
      · omega
      · rw [List.getElem?_eq_none h]
    case isFalse => rfl

theorem issue_succ (n : Nat) (hc : (s.list l).config = some c) (hrun : (s.list l).state = .running)
    (hroom : (s.list l).window.length < c.concurrency) (hstep : c.steps[(s.list l).cursor]? = some ch) :
    s.issue (n + 1) l = (s.issueStep l c ch).issue n l := by
  simp only [State.issue, hc, if_pos (And.intro hrun hroom), hstep]

/-- The list has started a cycle and issued its first `j` steps. -/
def State.issuedUpTo (s : State) (l : ListId) (c : ListConfig) (j : Nat) : State :=
  { s.setList l { s.list l with
      state := .running, cycle := (s.list l).cycle + 1, cursor := j, window := (List.range j).filterMap (issuedEntry s l c) } with
    pool := s.pool ++ (List.range j).filterMap (issuedRequest s l c), nextEvent := s.nextEvent + j }

theorem issuedUpTo_list (s : State) (l : ListId) (c : ListConfig) (j : Nat) : (s.issuedUpTo l c j).list l = { s.list l with
    state := .running, cycle := (s.list l).cycle + 1, cursor := j, window := (List.range j).filterMap (issuedEntry s l c) } :=
  list_setList_same s l _

/-- The entries of the steps issued so far stand for those steps. -/
theorem step_of_mem_issued {j : Nat} {e : Entry} (h : e ∈ (List.range j).filterMap (issuedEntry s l c)) : e.step < j := by
  obtain ⟨i, hi, he⟩ := List.mem_filterMap.mp h
  obtain ⟨ch, -, he⟩ := Option.bind_eq_some_iff.mp he
  obtain ⟨k, -, rfl⟩ := Option.map_eq_some_iff.mp he
  exact List.mem_range.mp hi

section
variable (h : MayStart s l c)
include h

/-- The channel and the configuration that a step of the list names. -/
theorem exists_step_channel {j : Nat} (hj : j < c.steps.length) :
    ∃ ch k, c.steps[j]? = some ch ∧ (s.channel ch).config = some k := by
  obtain ⟨k, hk⟩ := Option.isSome_iff_exists.mp (h.2.2.2 _ (List.getElem_mem hj))
  exact ⟨_, k, List.getElem?_eq_getElem hj, hk⟩

theorem length_issued {j : Nat} (hj : j ≤ c.steps.length) : ((List.range j).filterMap (issuedEntry s l c)).length = j := by
  induction j with
  | zero => rfl
  | succ j ih =>
    obtain ⟨ch, k, hch, hk⟩ := exists_step_channel h hj
    rw [List.range_succ, List.filterMap_append, List.length_append, ih (Nat.le_of_succ_le hj)]
    simp [issuedEntry, hch, hk]

omit h in
theorem issuedUpTo_succ {j : Nat} (hch : c.steps[j]? = some ch) (hk : (s.channel ch).config = some k) :
    (s.issuedUpTo l c j).issueStep l c ch = s.issuedUpTo l c (j + 1) := by
  have hentry : issuedEntry s l c j = some {
      step := j, channel := ch, cycle := (s.list l).cycle + 1,
      stage := if s.unreachable k.input then .ready noCore else .waiting } := by rw [issuedEntry, hch]; simp [hk]
  have hrequest : issuedRequest s l c j = if s.unreachable k.input then none else some {
      origin := .entry l j, channel := ch, input := k.input, priority := .level c.priority, age := s.nextEvent + j } := by
    rw [issuedRequest, hch]
    simp [hk]
  have hself := issuedUpTo_list s l c j
  have hfresh : ∀ e ∈ ((s.issuedUpTo l c j).list l).window, e.step ≠ ((s.issuedUpTo l c j).list l).cursor := by
    rw [hself]
    exact fun e he => Nat.ne_of_lt (step_of_mem_issued he)
  rw [issueStep_eq (s := s.issuedUpTo l c j) (k := k) hk hfresh, hself,
    show (s.issuedUpTo l c j).unreachable k.input = s.unreachable k.input from unreachable_congr rfl _]
  have hset : ∀ r : ListRec, (s.issuedUpTo l c j).setList l r = { s.setList l r with
      pool := s.pool ++ (List.range j).filterMap (issuedRequest s l c), nextEvent := s.nextEvent + j } := by
    intro r
    have hswap : (s.issuedUpTo l c j).setList l r = { ((s.setList l { s.list l with
        state := .running, cycle := (s.list l).cycle + 1, cursor := j,
        window := (List.range j).filterMap (issuedEntry s l c) }).setList l r) with
      pool := s.pool ++ (List.range j).filterMap (issuedRequest s l c), nextEvent := s.nextEvent + j } := rfl
    rw [hswap, State.setList_setList]
  have hwindow : (List.range (j + 1)).filterMap (issuedEntry s l c) = (List.range j).filterMap (issuedEntry s l c) ++ [{
      step := j, channel := ch, cycle := (s.list l).cycle + 1,
      stage := if s.unreachable k.input then .ready noCore else .waiting }] := by
    rw [List.range_succ, List.filterMap_append, List.filterMap_cons_some hentry, List.filterMap_nil]
  have hpool : (List.range (j + 1)).filterMap (issuedRequest s l c) = (List.range j).filterMap (issuedRequest s l c) ++
      (if s.unreachable k.input then [] else [{
        origin := .entry l j, channel := ch, input := k.input, priority := .level c.priority, age := s.nextEvent + j }]) := by
    rw [List.range_succ, List.filterMap_append]
    cases hu : s.unreachable k.input with
    | true => rw [List.filterMap_cons_none (by rw [hrequest, hu]; rfl)]; rfl
    | false => rw [List.filterMap_cons_some (by rw [hrequest, hu]; rfl)]; rfl
  have hnext : s.issuedUpTo l c (j + 1) = { s.setList l { s.list l with
      state := .running, cycle := (s.list l).cycle + 1, cursor := j + 1
      window := (List.range j).filterMap (issuedEntry s l c) ++ [{
        step := j, channel := ch, cycle := (s.list l).cycle + 1,
        stage := if s.unreachable k.input then .ready noCore else .waiting }] } with
    pool := s.pool ++ (List.range j).filterMap (issuedRequest s l c) ++ (if s.unreachable k.input then [] else [{
      origin := .entry l j, channel := ch, input := k.input, priority := .level c.priority, age := s.nextEvent + j }])
    nextEvent := s.nextEvent + j + 1 } := by
    rw [State.issuedUpTo, hwindow, hpool, ← List.append_assoc]
    rfl
  rw [hset, hnext]
  rfl

theorem issue_issuedUpTo (n j : Nat) (hj : j ≤ min c.concurrency c.steps.length) :
    (s.issuedUpTo l c j).issue n l = s.issuedUpTo l c (min (j + n) (min c.concurrency c.steps.length)) := by
  have hself := issuedUpTo_list s l c
  have hconfig : ∀ j, ((s.issuedUpTo l c j).list l).config = some c := fun j => by rw [hself]; exact h.1
  have hlength : ∀ j ≤ c.steps.length, ((s.issuedUpTo l c j).list l).window.length = j := fun j hj => by
    rw [hself]
    exact length_issued h hj
  have hcursor : ∀ j, ((s.issuedUpTo l c j).list l).cursor = j := fun j => by rw [hself]
  induction n generalizing j with
  | zero => rw [Nat.add_zero, Nat.min_eq_left hj]; rfl
  | succ n ih =>
    by_cases hlast : j = min c.concurrency c.steps.length
    · rw [Nat.min_eq_right (by omega), ← hlast]
      refine issue_stops _ (hconfig j) (.inr ?_)
      rw [hlength j (by omega), hcursor j]
      omega
    · obtain ⟨ch, k, hch, hk⟩ := exists_step_channel h (j := j) (by omega)
      rw [issue_succ n (hconfig j) (by rw [hself]) (by rw [hlength j (by omega)]; omega) (by rw [hcursor j]; exact hch),
        issuedUpTo_succ hch hk, ih (j + 1) (by omega), Nat.succ_add_eq_add_succ]

theorem startCycle_eq : s.startCycle l = cycleStarted s l c := by
  obtain ⟨-, hempty, hfour, -⟩ := id h
  have hstart : s.startCycle l = (s.issuedUpTo l c 0).issue Config.maxWindow l := by
    have hzero : s.setList l { s.list l with cycle := (s.list l).cycle + 1, cursor := 0, state := .running } = s.issuedUpTo l c 0 := by
      have hrec : ({ s.list l with cycle := (s.list l).cycle + 1, cursor := 0, state := .running } : ListRec) = { s.list l with
          state := .running, cycle := (s.list l).cycle + 1, cursor := 0, window := (List.range 0).filterMap (issuedEntry s l c) } := by
        rw [show (List.range 0).filterMap (issuedEntry s l c) = (s.list l).window from hempty.symm]
      rw [hrec, State.issuedUpTo, show s.pool ++ (List.range 0).filterMap (issuedRequest s l c) = s.pool from List.append_nil _]
      rfl
    rw [State.startCycle, hzero]
    rfl
  have hfuel : min c.concurrency c.steps.length ≤ 0 + Config.maxWindow := by
    have : Config.maxWindow = 4 := rfl
    omega
  rw [hstart, issue_issuedUpTo h _ _ (Nat.zero_le _), Nat.min_eq_right hfuel]
  rfl

end

/-- Settles O17: a cycle's first steps one by one, the next step of a window with one place, and none otherwise. -/
theorem cycleStartIssuesTheFirstSteps : Obligations.CycleStartIssuesTheFirstSteps := by
  refine ⟨fun s l c h => startCycle_eq h, fun s l c ch k hc hrun hroom hstep hk hfresh => ?_, fun s l c hc h => issue_stops _ hc h⟩
  have hone : s.issueSteps l = s.issueStep l c ch := by
    have hrec : (s.issueStep l c ch).list l = { s.list l with
        cursor := (s.list l).cursor + 1
        window := (s.list l).window ++ [{
          step := (s.list l).cursor, channel := ch, cycle := (s.list l).cycle,
          stage := if s.unreachable k.input then .ready noCore else .waiting }] } := by
      rw [issueStep_eq hk hfresh]
      exact list_setList_same s l _
    rw [State.issueSteps, show Config.maxWindow = 3 + 1 from rfl, issue_succ 3 hc hrun (by omega) hstep]
    refine issue_stops 3 (c := c) (by rw [hrec]; exact hc) (.inr (.inl ?_))
    rw [hrec, List.length_append]
    exact Nat.le_of_eq hroom.symm
  rw [hone, issueStep_eq hk hfresh]
  by_cases hlost : BothOffline s k.input
  · rw [if_pos ((unreachable_iff s k.input).mpr hlost), if_pos ((unreachable_iff s k.input).mpr hlost), if_pos hlost,
      List.append_nil]
    rfl
  · have hreach : ¬ s.unreachable k.input = true := fun hu => hlost ((unreachable_iff s k.input).mp hu)
    rw [if_neg hreach, if_neg hreach, if_neg hlost]

end

end

end Sys2Proof.Machine
end

