-- ==== Sys2Proof/Proofs/TableRows.lean ====
section
/-! PROOF. The commands of the table banks: the session's bank, the segments that a LOAD_SEGMENTS payload spells, the commit and
what is read back. -/

-- One proof after another, as in the tests: side by side they take more threads than memory allows.
set_option Elab.async false

namespace Sys2Proof.Machine

open Sys2Proof.Safety

section
variable {s : State} {f : Frame} {rest : List Frame} {t : TableId} {b : BankId}

theorem lowestFreeBank_of_first (hb : (s.bank b).state = .free) (hfirst : ∀ x, x < b → (s.bank x).state ≠ .free) :
    s.lowestFreeBank = some b := by
  cases h : s.lowestFreeBank with
  | none => exact absurd hb (by simpa using List.find?_eq_none.mp h b (List.mem_finRange b))
  | some x =>
    have hx : (s.bank x).state = .free := lowestFreeBank_spec h
    have hle : b ≤ x := not_lt.mp (fun hlt => hfirst x hlt hx)
    obtain ⟨-, i, hi, heq, hbefore⟩ := List.find?_eq_some_iff_getElem.mp h
    rw [List.getElem_finRange] at heq
    have hix : i = x.val := congrArg Fin.val heq
    rcases Nat.lt_or_ge b.val i with hlt | hge
    · have := hbefore b.val hlt
      rw [List.getElem_finRange] at this
      exact absurd (decide_eq_true hb) (by simpa using this)
    · exact congrArg some (le_antisymm (Fin.le_def.mpr (by omega)) hle)

theorem lowestFreeBank_of_none (h : ∀ b, (s.bank b).state ≠ .free) : s.lowestFreeBank = none :=
  List.find?_eq_none.mpr (fun b _ => by simpa using h b)

theorem tableOf_subject {p q : List Byte} (hp : p = byte t.val :: q) : tableOf (byteAt p 0) = t := by
  rw [byteAt_zero_byte hp (by omega), tableOf, Fin.ofNat_val_eq_self]

theorem tableField_subject {p q : List Byte} (hp : p = byte t.val :: q) : tableField p = (1, true) := by
  rw [tableField, byteAt_zero_byte hp (by omega), decide_eq_true (Nat.le_of_lt_succ t.isLt)]

/-- Settles O23: the field checks, then the session, then the search for a FREE bank. -/
theorem sessionOpensOnTheLowestFreeBank : Obligations.SessionOpensOnTheLowestFreeBank := by
  have answers {s f rest} {t : TableId} {n : Byte} (h : Addressed 0x18 s f rest) (hp : f.payload = [byte t.val, n]) {a : Answer}
      (hown : beginTableOwn f s = a) : Answers .beginTable s f rest a :=
    answers_own rfl h (by decide) (by rw [hp]; rfl) hown
  have count {p : List Byte} {t : TableId} {n : Byte} (hp : p = [byte t.val, n]) : byteAt p 1 = n.toNat := byteAt_mode hp
  refine ⟨fun s f rest t n h hp hn => ?_, fun s f rest t n h hp hn0 hn16 => ?_⟩
  · refine (answers h hp (withFields_of_some (n := 2) ?_ _)).badField
    have hbad : ¬ (1 ≤ n.toNat ∧ n.toNat ≤ 16) := by
      rcases hn with rfl | hn
      · decide
      · omega
    rw [tableField_subject hp, count hp, decide_eq_false hbad]
    rfl
  · have hrange : 1 ≤ n.toNat ∧ n.toNat ≤ 16 :=
      ⟨Nat.one_le_iff_ne_zero.mpr (fun h0 => hn0 (BitVec.eq_of_toNat_eq h0)), hn16⟩
    have hown (hnone : s.session = none) : beginTableOwn f s = match s.lowestFreeBank with
        | none => .refused .banksBusy
        | some b => .done .ok [byte b.val] (s.openSession t n.toNat b) := by
      simp only [beginTableOwn, tableField_subject hp, count hp, decide_eq_true hrange, hnone, tableOf_subject hp]
      rfl
    refine ⟨fun hopen => ?_, fun hnone hbusy => ?_, fun b hnone hb hfirst => ?_⟩
    · refine (answers h hp ?_).refused
      simp only [beginTableOwn, tableField_subject hp, count hp, decide_eq_true hrange, hopen]
      rfl
    · exact (answers h hp (by rw [hown hnone, lowestFreeBank_of_none hbusy])).refused
    · exact (answers h hp (a := .done .ok [byte b.val] (s.openSession t n.toNat b)) (by
        simp only [hown hnone, lowestFreeBank_of_first hb hfirst])).done rfl

/-! ### The segments of a payload -/

theorem length_segmentLayout (g : Segment) : (segmentLayout g).length = 20 := rfl

theorem drop_flatMap_segmentLayout (gs : List Segment) (j : Nat) :
    (gs.flatMap segmentLayout).drop (20 * j) = (gs.drop j).flatMap segmentLayout := by
  induction gs generalizing j with
  | nil => simp
  | cons g gs ih =>
    cases j with
    | zero => rfl
    | succ j =>
      rw [List.drop_succ_cons, ← ih, List.flatMap_cons, show 20 * (j + 1) = (segmentLayout g).length + 20 * j by
        rw [length_segmentLayout]; omega, List.drop_append]
      simp

theorem length_flatMap_segmentLayout (gs : List Segment) : (gs.flatMap segmentLayout).length = 20 * gs.length := by
  induction gs with
  | nil => rfl
  | cons g gs ih => rw [List.flatMap_cons, List.length_append, ih, length_segmentLayout, List.length_cons]; omega

theorem num_drop (p : List Byte) (a i : Nat) : num (p.drop a) i = num p (a + i) := by
  rw [num, num, List.getD_eq_getElem?_getD, List.getD_eq_getElem?_getD, List.getElem?_drop]

theorem int32_drop (p : List Byte) (a i : Nat) : int32 (p.drop a) i = int32 p (a + i) := by
  simp only [int32, num32, num16, num_drop, Nat.add_assoc]

section
variable {p q : List Byte} {j : Nat} {g : Segment}

/-- The degree byte of the segment that stands at its place of the payload. -/
theorem degree_of_drop (h : p.drop (1 + 20 * j) = segmentLayout g ++ q) (hd : g.degree ≤ 255) :
    byteAt p (4 + 20 * j) = g.degree := by
  rw [byteAt_eq_num, show 4 + 20 * j = 1 + 20 * j + 3 by omega, ← num_drop, h]
  exact byte_toNat_of_lt (Nat.lt_succ_of_le hd)

/-- A segment in range is read back from its twenty bytes. -/
theorem segmentOf_of_drop (h : p.drop (1 + 20 * j) = segmentLayout g ++ q) (hg : ValidSegment g) : segmentOf p j = g := by
  obtain ⟨hx, hd, hcs⟩ := hg
  have hxHi : fieldAt p (1 + 20 * j) 3 = g.xHi := by
    have hbytes : fieldAt p (1 + 20 * j) 3 = leValue [byte g.xHi, byte (g.xHi / 256), byte (g.xHi / 65536)] := by
      rw [fieldAt, h]
      rfl
    rw [hbytes]
    simp only [leValue, byte_toNat]
    omega
  have coefficient {v : Int} {i : Nat} {r : List Byte} (hv : v ∈ [g.c0, g.c1, g.c2, g.c3])
      (hi : int32 (segmentLayout g ++ q) i = int32 (fourBytes v ++ r) 0) : signedAt p (1 + 20 * j + i) = v := by
    rw [signedAt_eq_int32, ← int32_drop, h, hi]
    exact int32_fourBytes r (hcs v hv).1 (hcs v hv).2
  have hdegree : byteAt p (1 + 20 * j + 3) = g.degree := by
    rw [show 1 + 20 * j + 3 = 4 + 20 * j by omega]
    exact degree_of_drop h (by omega)
  have h0 : signedAt p (1 + 20 * j + 4) = g.c0 := coefficient (r := fourBytes g.c1 ++ fourBytes g.c2 ++ fourBytes g.c3 ++ q)
      (by simp) rfl
  have h1 : signedAt p (1 + 20 * j + 8) = g.c1 := coefficient (r := fourBytes g.c2 ++ fourBytes g.c3 ++ q) (by simp) rfl
  have h2 : signedAt p (1 + 20 * j + 12) = g.c2 := coefficient (r := fourBytes g.c3 ++ q) (by simp) rfl
  have h3 : signedAt p (1 + 20 * j + 16) = g.c3 := coefficient (r := q) (by simp) rfl
  simp only [segmentOf, hxHi, hdegree, h0, h1, h2, h3]

end

section
variable {first : Byte} {gs : List Segment} {p : List Byte} (hp : p = first :: gs.flatMap segmentLayout)
include hp

theorem drop_of_payload {j : Nat} {g : Segment} (hg : gs[j]? = some g) : ∃ q, p.drop (1 + 20 * j) = segmentLayout g ++ q := by
  obtain ⟨hj, rfl⟩ := List.getElem?_eq_some_iff.mp hg
  rw [hp, Nat.add_comm, List.drop_succ_cons, drop_flatMap_segmentLayout, List.drop_eq_getElem_cons hj]
  exact ⟨_, rfl⟩

theorem segmentCount_of_payload : segmentCount p = gs.length := by
  rw [segmentCount, hp, List.length_cons, length_flatMap_segmentLayout]
  omega

theorem loadLength_of_payload (h1 : 1 ≤ gs.length) (h4 : gs.length ≤ 4) : loadLength p = true := by
  rw [loadLength, hp, List.length_cons, length_flatMap_segmentLayout]
  exact decide_eq_true (by omega)

/-- The fields of the payload are in range when the first index and the degrees are. -/
theorem firstBad_loadChecks (hfirst : first.toNat ≤ 15) : firstBad (loadChecks p) =
    ((List.range gs.length).find? (fun j => decide (¬ byteAt p (4 + 20 * j) ≤ 3))).map (fun j => 3 + 6 * j) := by
  rw [loadChecks, segmentCount_of_payload hp, show byteAt p 0 = first.toNat by rw [hp, byteAt_zero], decide_eq_true hfirst,
    firstBad_cons_true, firstBad_map]

end

/-- Settles O24: the checks of the fields, then the session and its count, and the segments at their places. -/
theorem segmentsAreStoredAtTheirIndices : Obligations.SegmentsAreStoredAtTheirIndices := by
  intro s f rest first gs h hp h1 h4
  have answers {a : Answer} (hown : loadSegmentsOwn f s = a) : Answers .loadSegments s f rest a :=
    answers_own rfl h (by decide) (loadLength_of_payload hp h1 h4) hown
  have hzero : byteAt f.payload 0 = first.toNat := by rw [hp, byteAt_zero]
  refine ⟨fun hfirst => ?_, fun hfirst j g hg hd hd255 hbefore => ?_, fun hfirst hvalid => ?_⟩
  · refine (answers (withFields_of_some (n := 1) ?_ _)).badField
    rw [loadChecks, hzero, decide_eq_false (Nat.not_le_of_lt hfirst)]
    rfl
  · refine (answers (withFields_of_some (n := 3 + 6 * j) ?_ _)).badField
    obtain ⟨q, hq⟩ := drop_of_payload hp hg
    have hj : j < gs.length := (List.getElem?_eq_some_iff.mp hg).1
    have hfind : (List.range gs.length).find? (fun j => decide (¬ byteAt f.payload (4 + 20 * j) ≤ 3)) = some j := by
      refine List.find?_range_eq_some.mpr ⟨?_, List.mem_range.mpr hj, fun i hi => ?_⟩
      · rw [degree_of_drop hq hd255]
        simpa using hd
      · obtain ⟨x, hx, hxd⟩ := hbefore i hi
        obtain ⟨r, hr⟩ := drop_of_payload hp hx
        rw [degree_of_drop hr (by omega)]
        simpa using hxd
    rw [firstBad_loadChecks hp hfirst, hfind]
    rfl
  · have hread : (List.range gs.length).map (segmentOf f.payload) = gs := by
      refine List.ext_getElem (by simp) (fun j hj hj' => ?_)
      obtain ⟨q, hq⟩ := drop_of_payload hp (List.getElem?_eq_getElem hj')
      rw [List.getElem_map, List.getElem_range]
      exact segmentOf_of_drop hq (hvalid _ (List.getElem_mem hj'))
    have hchecks : firstBad (loadChecks f.payload) = none := by
      have hfind : (List.range gs.length).find? (fun j => decide (¬ byteAt f.payload (4 + 20 * j) ≤ 3)) = none := by
        refine List.find?_eq_none.mpr (fun j hj => ?_)
        have hj := List.mem_range.mp hj
        obtain ⟨q, hq⟩ := drop_of_payload hp (List.getElem?_eq_getElem hj)
        have hdeg := (hvalid _ (List.getElem_mem hj)).2.1
        rw [degree_of_drop hq (by omega)]
        simpa using hdeg
      rw [firstBad_loadChecks hp hfirst, hfind]
      rfl
    refine ⟨fun hnone => ?_, fun k hk => ⟨fun hpast => ?_, fun hfit hplaces => ?_⟩⟩
    · refine (answers ?_).refused
      rw [loadSegmentsOwn, withFields_of_none hchecks, hnone]
    · refine (answers (a := .badField 1) ?_).badField
      simp only [loadSegmentsOwn, withFields_of_none hchecks, hk, hzero, segmentCount_of_payload hp]
      exact if_pos (by omega)
    · refine ⟨storeSegments first.toNat gs (s.bank k.bank).places, (List.range' first.toNat gs.length).foldl receiveIndex k.received,
        (answers (a := .done .ok [] (s.storeInSession k first.toNat gs)) ?_).done rfl, ?_, fun i hi => ?_, fun i hi => ?_,
        fun i => ?_, fun hn => nodup_foldl_receiveIndex hn⟩
      · simp only [loadSegmentsOwn, withFields_of_none hchecks, hk, hzero, segmentCount_of_payload hp, hread]
        exact if_neg (by omega)
      · rw [length_storeSegments, hplaces]
      · rw [getElem?_storeSegments (by omega), if_pos (by omega), Nat.add_sub_cancel_left]
      · rw [getElem?_storeSegments (by omega), if_neg (by omega)]
      · rw [mem_foldl_receiveIndex, List.mem_range'_1]

/-! ### The commit -/

theorem complete_iff (k : Session) : k.complete = true ↔ ∀ i, i < k.count → i ∈ k.received := by
  simp [Session.complete]

/-- Upper bounds that rise one after another rise throughout. -/
theorem risingFrom_map (below : Option Nat) (gs : List Segment) : risingFrom below (gs.map some) = true ↔
    (∀ x, below = some x → ∀ g ∈ gs, x < g.xHi) ∧ gs.Pairwise (fun g h => g.xHi < h.xHi) := by
  induction gs generalizing below with
  | nil => exact ⟨fun _ => ⟨fun _ _ _ hg => absurd hg List.not_mem_nil, List.Pairwise.nil⟩, fun _ => by cases below <;> rfl⟩
  | cons g gs ih =>
    have hrest : risingFrom (some g.xHi) (gs.map some) = true ↔ (∀ h ∈ gs, g.xHi < h.xHi) ∧ gs.Pairwise (fun g h => g.xHi < h.xHi) := by
      rw [ih]
      exact and_congr_left' ⟨fun h => h _ rfl, fun h x hx => Option.some.inj hx ▸ h⟩
    rw [List.pairwise_cons]
    cases below with
    | none => exact hrest.trans ⟨fun h => ⟨nofun, h⟩, fun h => h.2⟩
    | some x =>
      rw [List.map_cons, risingFrom, Bool.and_eq_true, decide_eq_true_eq, hrest]
      refine ⟨fun ⟨hx, hg, hpw⟩ => ⟨fun y hy k hk => ?_, hg, hpw⟩, fun ⟨hx, h⟩ => ⟨hx x rfl g List.mem_cons_self, h⟩⟩
      obtain rfl := Option.some.inj hy
      rcases List.mem_cons.mp hk with rfl | hk
      · exact hx
      · exact Nat.lt_trans hx (hg k hk)

/-- Settles O25: the session of the id, its received-set, the order of the bounds, and the exchange. -/
theorem commitPutsTheVersionInService : Obligations.CommitPutsTheVersionInService := by
  intro s f rest t h hp
  have answers {a : Answer} (hown : commitTableOwn f s = a) : Answers .commitTable s f rest a :=
    answers_own rfl h (by decide) (by rw [hp]; rfl) hown
  refine ⟨fun hother => ?_, fun k hk hkt => ?_⟩
  · refine (answers (a := .refused .noSession) ?_).refused
    simp only [commitTableOwn, tableField_subject hp, tableOf_subject hp]
    cases hs : s.session with
    | none => rfl
    | some k => exact if_pos (hother k hs)
  · have hown : commitTableOwn f s =
        if !k.complete then .refused .tableIncomplete
        else if !risingFrom none (s.bank k.bank).places then .refused .tableOrder
        else .done .ok [byte k.bank.val] (s.commit k) := by
      simp only [commitTableOwn, tableField_subject hp, tableOf_subject hp, hk]
      exact if_neg (not_not.mpr hkt)
    refine ⟨fun ⟨i, hi, hmiss⟩ => ?_, fun hall gs hgs => ?_⟩
    · have hincomplete : k.complete = false := Bool.of_not_eq_true (fun hc => hmiss ((complete_iff k).mp hc i hi))
      rw [hincomplete] at hown
      exact (answers hown).refused
    · have hrising := risingFrom_map none gs
      rw [(complete_iff k).mpr hall, hgs] at hown
      refine ⟨fun horder => ?_, fun horder hstaging => ?_⟩
      · rw [Bool.of_not_eq_true (fun hr => horder (hrising.mp hr).2)] at hown
        exact (answers hown).refused
      · rw [hrising.mpr ⟨nofun, horder⟩] at hown
        have hslots : (s.commit k).slots = s.slots := retireActive_frameTo s k.table .slots rfl
        have hrow := (answers (a := .done .ok [byte k.bank.val] (s.commit k)) hown).done hslots
        refine ⟨fun hnone => ?_, fun b hb => ?_⟩
        · have hretire : s.retireActive k.table = s := by rw [State.retireActive, hkt, activeBank_of_none s hnone]
          rw [hrow, State.commit, hretire]
        · have hretire : s.retireActive k.table = s.setBank b (outOfActive (s.bank b)) := by
            rw [State.retireActive, hkt, activeBank_of_only s hb]
            rfl
          have hbank := bank_retireActive_of_staging hstaging k.table
          rw [hretire] at hbank
          rw [hrow, State.commit, hretire, hbank]

/-! ### DROP_TABLE and GET_TABLE -/

/-- The segments that are read, as the bytes of their layout. -/
theorem flatMap_read (gs : List Segment) (i : Nat) :
    (((gs.map some).drop i).take 4).flatMap (fun g => (g.getD Segment.zero).bytes) = ((gs.drop i).take 4).flatMap segmentLayout := by
  rw [← List.map_drop, ← List.map_take, List.flatMap_map, show segmentLayout = Segment.bytes from funext segmentLayout_eq]
  rfl

/-- Settles O27: by the ACTIVE bank of the id. -/
theorem tablesAreDroppedAndRead : Obligations.TablesAreDroppedAndRead := by
  refine ⟨fun s f rest t h hp => ?_, fun s f rest t first h hp => ?_⟩
  · have answers {a : Answer} (hown : dropTableOwn f s = a) : Answers .dropTable s f rest a :=
      answers_own rfl h (by decide) (by rw [hp]; rfl) hown
    refine ⟨fun hnone => ?_, fun b hb => ?_⟩
    · refine (answers (a := .refused .notDefined) ?_).refused
      simp only [dropTableOwn, tableField_subject hp, tableOf_subject hp, activeBank_of_none s hnone]
      rfl
    · refine (answers (a := .done .ok [] (s.setBank b (outOfActive (s.bank b)))) ?_).done rfl
      simp only [dropTableOwn, tableField_subject hp, tableOf_subject hp, activeBank_of_only s hb, State.retireActive]
      rfl
  · have answers {a : Answer} (hown : getTableOwn f s = a) : Answers .getTable s f rest a :=
      answers_own rfl h (by decide) (by rw [hp]; rfl) hown
    have hfirst : byteAt f.payload 1 = first.toNat := byteAt_mode hp
    refine ⟨fun hlarge => ?_, fun hle hnone => ?_, fun b gs hle hb hgs => ?_⟩
    · refine (answers (withFields_of_some (n := 2) ?_ _)).badField
      rw [tableField_subject hp, hfirst, decide_eq_false (Nat.not_le_of_lt hlarge)]
      rfl
    · refine (answers (a := .refused .notDefined) ?_).refused
      simp only [getTableOwn, tableField_subject hp, tableOf_subject hp, hfirst, decide_eq_true hle, activeBank_of_none s hnone]
      rfl
    · have hown : getTableOwn f s =
          if (s.bank b).places.length ≤ first.toNat then .badField 2
          else .done .ok (tableData t b (s.bank b) first.toNat) s := by
        simp only [getTableOwn, tableField_subject hp, tableOf_subject hp, hfirst, decide_eq_true hle, activeBank_of_only s hb]
        rfl
      rw [hgs, List.length_map] at hown
      refine ⟨fun hpast => ?_, fun hin => ?_⟩
      · rw [if_pos hpast] at hown
        exact (answers hown).badField
      · rw [if_neg (Nat.not_le_of_lt hin), tableData, hgs, List.length_map, flatMap_read,
          show byte first.toNat = first from BitVec.eq_of_toNat_eq (byte_toNat_of_lt first.isLt)] at hown
        exact (answers hown).done rfl

end

end Sys2Proof.Machine
end

