-- ==== Sys2Proof/Proofs/PhaseRows.lean ====
section
/-! PROOF. A conversion from its grant to the end of its sense measurement: the grant, the phases and their limits, and what the
core does to the sensor and the capacitor meanwhile. -/

-- One proof after another, as in the tests: side by side they take more threads than memory allows.
set_option Elab.async false

namespace Sys2Proof.Machine

open Sys2Proof.Safety

section
variable {s : State} {c : CoreId} {p : Params} {n : PeriodCount}

/-! ### The grant -/

/-- Settles O29: the arbiter's choice is the first request of the first pass, and the grant writes it. -/
theorem grantGoesToTheFirstEligible : Obligations.GrantGoesToTheFirstEligible := by
  refine ⟨fun s n r k c hearlier hage hr he hfirst hk hc => ?_, fun s hnone => ?_⟩
  · have hnext := nextGrant_of_first hearlier hage hr he hfirst
    have hcore : s.chosenCore n r = c := by
      rw [hc, State.chosenCore, State.idleBy, State.coreIdle]
      simp only [Bool.and_eq_true, decide_eq_true_eq]
    have hgrant : s.grantNext = s.grantTo r c := by rw [State.grantNext, hnext, ← hcore]
    have hto : s.grantTo r c = ((({ s with pool := s.pool.erase r } : State).setInput r.input (.claimed c)).setCore c
        ((s.core c).granted (paramsFor r k) s.now)).setOriginStage r.origin .converting := by
      simp only [State.grantTo, hk]
      rfl
    exact congrArg Host.Outcome.next (hgrant.trans hto)
  · have hgrant : s.grantNext = s := by rw [State.grantNext, nextGrant_of_none hnone]
    exact congrArg Host.Outcome.next hgrant

/-! ### What each phase does when it is due, and when it is not -/

theorem phaseCompletes_of_le {periods ticks limit : Nat} (h : ticks ≤ limit) :
    phaseCompletes { periods := periods, ticks := ticks } periods limit = true := by
  rw [phaseCompletes, decide_eq_true rfl, decide_eq_true h]
  rfl

theorem phaseCompletes_false {last limit : Nat} (h : n.periods ≠ last ∨ limit < n.ticks) : phaseCompletes n last limit = false := by
  rw [phaseCompletes, Bool.and_eq_false_iff, decide_eq_false_iff_not, decide_eq_false_iff_not, Nat.not_le]
  exact h

section
variable (hp : (s.core c).params = some p)

theorem endSettle_of_ne (h : (s.core c).state ≠ .select) : s.endSettle c = s := by
  unfold State.endSettle
  dsimp only
  split
  · exact absurd ‹_› h
  · rfl

theorem completeRef_of_ne (h : (s.core c).state ≠ .ref) : s.completeRef c n = s := by
  unfold State.completeRef
  dsimp only
  split
  · exact absurd ‹_› h
  · rfl

theorem timeoutRef_of_ne (h : (s.core c).state ≠ .ref) : s.timeoutRef c = s := by
  unfold State.timeoutRef
  dsimp only
  split
  · exact absurd ‹_› h
  · rfl

theorem completeSense_of_ne (h : (s.core c).state ≠ .sense) : s.completeSense c n = s := by
  unfold State.completeSense
  dsimp only
  split
  · exact absurd ‹_› h
  · rfl

theorem completeForward_of_ne (h : (s.core c).state ≠ .sensePos) : s.completeForward c n = s := by
  unfold State.completeForward
  dsimp only
  split
  · exact absurd ‹_› h
  · rfl

theorem completeReverse_of_ne (h : (s.core c).state ≠ .senseNeg) : s.completeReverse c n = s := by
  unfold State.completeReverse
  dsimp only
  split
  · exact absurd ‹_› h
  · rfl

theorem isSensing_iff {st : CoreState} : st.isSensing = true ↔ st = .sense ∨ st = .sensePos ∨ st = .senseNeg := by
  cases st <;> simp [CoreState.isSensing]

theorem timeoutSense_of_not_sensing (h : (s.core c).state.isSensing = false) : s.timeoutSense c = s := by
  unfold State.timeoutSense
  dsimp only
  split
  · rw [h]
    rfl
  · rfl

include hp

/-! Each row as its definition reads when the core is in the row's state. -/

theorem endSettle_of_select (hs : (s.core c).state = .select) : s.endSettle c =
    (s.advanceTo ((s.core c).phaseStart + p.settle * Config.settleUnit)).setCore c
      ((s.core c).enter .ref (s.advanceTo ((s.core c).phaseStart + p.settle * Config.settleUnit)).now) := by
  unfold State.endSettle
  dsimp only
  split
  case h_1 q _ hq => rw [Option.some.inj (hp.symm.trans hq)]
  case h_2 hno => exact absurd hp (hno p hs)

theorem completeRef_of_ref (hs : (s.core c).state = .ref) : s.completeRef c n =
    if phaseCompletes n p.periods p.limitTicks then
      (s.advanceTo ((s.core c).phaseStart + n.ticks)).setCore c
        ({ s.core c with meas := { (s.core c).meas with tRef := some n.ticks }, stalls := 0 }.enter (senseState p.excitation)
          (s.advanceTo ((s.core c).phaseStart + n.ticks)).now)
    else s := by
  unfold State.completeRef
  dsimp only
  split
  case h_1 q _ hq => rw [Option.some.inj (hp.symm.trans hq)]
  case h_2 hno => exact absurd hp (hno p hs)

theorem timeoutRef_of_ref (hs : (s.core c).state = .ref) : s.timeoutRef c =
    (s.advanceTo ((s.core c).phaseStart + p.limitTicks)).setCore c
      ({ s.core c with
        meas := { (s.core c).meas with outcome := some (.fault .refStall none) }, stalls := stallsUp (s.core c).stalls }.enter
        .discharge (s.advanceTo ((s.core c).phaseStart + p.limitTicks)).now) := by
  unfold State.timeoutRef
  dsimp only
  split
  case h_1 q _ hq => rw [Option.some.inj (hp.symm.trans hq)]
  case h_2 hno => exact absurd hp (hno p hs)

theorem completeSense_of_sense (hs : (s.core c).state = .sense) : s.completeSense c n =
    if phaseCompletes n p.periods p.limitTicks then
      (s.advanceTo ((s.core c).phaseStart + n.ticks)).setCore c
        ({ s.core c with meas := { (s.core c).meas with
          tSense := some n.ticks
          outcome := some (decideOutcome none (computedRatio ((s.core c).meas.tRef.getD 0) n.ticks)) } }.enter .discharge
          (s.advanceTo ((s.core c).phaseStart + n.ticks)).now)
    else s := by
  unfold State.completeSense
  dsimp only
  split
  case h_1 q _ hq => rw [Option.some.inj (hp.symm.trans hq)]
  case h_2 hno => exact absurd hp (hno p hs)

theorem completeForward_of_sensePos (hs : (s.core c).state = .sensePos) : s.completeForward c n =
    if phaseCompletes n p.halfPeriods p.limitTicks then
      (s.advanceTo ((s.core c).phaseStart + n.ticks)).setCore c
        { s.core c with meas := { (s.core c).meas with forward := some n.ticks }, state := .senseNeg }
    else s := by
  unfold State.completeForward
  dsimp only
  split
  case h_1 q _ hq => rw [Option.some.inj (hp.symm.trans hq)]
  case h_2 hno => exact absurd hp (hno p hs)

theorem completeReverse_of_senseNeg (hs : (s.core c).state = .senseNeg) : s.completeReverse c n =
    if phaseCompletes { n with ticks := (s.core c).meas.forward.getD 0 + n.ticks } p.halfPeriods p.limitTicks then
      (s.advanceTo ((s.core c).phaseStart + ((s.core c).meas.forward.getD 0 + n.ticks))).setCore c
        ({ s.core c with meas := { (s.core c).meas with
          reverse := some n.ticks
          tSense := some ((s.core c).meas.forward.getD 0 + n.ticks)
          outcome := some (decideOutcome (some ((s.core c).meas.forward.getD 0, n.ticks))
            (computedRatio ((s.core c).meas.tRef.getD 0) ((s.core c).meas.forward.getD 0 + n.ticks))) } }.enter .discharge
          (s.advanceTo ((s.core c).phaseStart + ((s.core c).meas.forward.getD 0 + n.ticks))).now)
    else s := by
  unfold State.completeReverse
  dsimp only
  split
  case h_1 q _ hq => rw [Option.some.inj (hp.symm.trans hq)]
  case h_2 hno => exact absurd hp (hno p hs)

theorem timeoutSense_of_sensing (hs : (s.core c).state.isSensing = true) : s.timeoutSense c =
    (s.advanceTo ((s.core c).phaseStart + p.limitTicks)).setCore c
      ({ s.core c with meas := { (s.core c).meas with outcome := some (.fault .openLead none) } }.enter .discharge
        (s.advanceTo ((s.core c).phaseStart + p.limitTicks)).now) := by
  unfold State.timeoutSense
  dsimp only
  split
  case h_1 q hq => rw [if_pos hs, Option.some.inj (hp.symm.trans hq)]
  case h_2 hno => exact absurd (hp.symm.trans hno) nofun

theorem completeRef_of_count (h : n.periods ≠ 2 ^ p.gate ∨ p.phaseLimit * 16000 < n.ticks) : s.completeRef c n = s := by
  by_cases hs : (s.core c).state = .ref
  · rw [completeRef_of_ref hp hs]
    exact if_neg (ne_true_of_eq_false (phaseCompletes_false h))
  · exact completeRef_of_ne hs

theorem completeSense_of_count (h : n.periods ≠ 2 ^ p.gate ∨ p.phaseLimit * 16000 < n.ticks) : s.completeSense c n = s := by
  by_cases hs : (s.core c).state = .sense
  · rw [completeSense_of_sense hp hs]
    exact if_neg (ne_true_of_eq_false (phaseCompletes_false h))
  · exact completeSense_of_ne hs

theorem completeForward_of_count (h : n.periods ≠ 2 ^ p.gate / 2 ∨ p.phaseLimit * 16000 < n.ticks) : s.completeForward c n = s := by
  by_cases hs : (s.core c).state = .sensePos
  · rw [completeForward_of_sensePos hp hs]
    exact if_neg (ne_true_of_eq_false (phaseCompletes_false h))
  · exact completeForward_of_ne hs

/-- The reverse half shares its limit with the forward half, whose count comes in. -/
theorem completeReverse_of_count (h : n.periods ≠ 2 ^ p.gate / 2 ∨
    p.phaseLimit * 16000 < (s.core c).meas.forward.getD 0 + n.ticks) : s.completeReverse c n = s := by
  by_cases hs : (s.core c).state = .senseNeg
  · rw [completeReverse_of_senseNeg hp hs]
    exact if_neg (ne_true_of_eq_false
      (phaseCompletes_false (n := { n with ticks := (s.core c).meas.forward.getD 0 + n.ticks }) h))
  · exact completeReverse_of_ne hs

end

/-! ### The reference side -/

theorem senseState_eq (e : Excitation) : senseState e = if e = .dc then .sense else .sensePos := by cases e <;> rfl

/-- Settles O30: each row when it is due and when it is not, and the switches in SELECT and REF. -/
theorem referencePhaseEnds : Obligations.ReferencePhaseEnds := by
  refine ⟨fun s c p now hs hp hn => ?_, fun s c p n hs hp h => ?_, fun s c p ticks now hs hp ht hn => ?_,
    fun s c p now hs hp hn => ?_, fun s c hs => ?_, fun s c n hs => ⟨?_, ?_⟩, fun s c p i hp hi => ⟨fun hs => ⟨fun d => ?_, ?_, ?_⟩,
    fun hs => ?_, fun hs => ?_⟩, fun s i hi => ?_⟩
  · have hend : s.endSettle c = { s.setCore c { s.core c with state := .ref, phaseStart := now } with now := now } := by
      rw [endSettle_of_select hp hs, hn]
      rfl
    exact congrArg Host.Outcome.next hend
  · exact congrArg Host.Outcome.next (completeRef_of_count hp h)
  · have hend : s.completeRef c { periods := 2 ^ p.gate, ticks := ticks } =
        { s.setCore c { s.core c with
            state := if p.excitation = .dc then .sense else .sensePos, phaseStart := now, stalls := 0,
            meas := { (s.core c).meas with tRef := some ticks } } with now := now } := by
      refine ((completeRef_of_ref hp hs).trans (if_pos (phaseCompletes_of_le ht))).trans ?_
      rw [senseState_eq, hn]
      rfl
    exact congrArg Host.Outcome.next hend
  · have hend : s.timeoutRef c =
        { s.setCore c { s.core c with
            state := .discharge, phaseStart := now, stalls := min 3 ((s.core c).stalls + 1),
            meas := { (s.core c).meas with outcome := some (.fault .refStall none) } } with now := now } := by
      rw [timeoutRef_of_ref hp hs, hn]
      rfl
    exact congrArg Host.Outcome.next hend
  · exact congrArg Host.Outcome.next (endSettle_of_ne hs)
  · exact congrArg Host.Outcome.next (completeRef_of_ne hs)
  · exact congrArg Host.Outcome.next (timeoutRef_of_ne hs)
  · rw [State.connected_iff, hi]
    exact ⟨fun h => (InputRec.claimed.inj h).symm, fun h => by rw [h]⟩
  · rcases hs with hs | hs <;> simp only [Core.referenceSwitch, hs, hp] <;> rfl
  · rw [State.oscillatesAt_of_claimed hi, decide_eq_false_iff_not, Core.capacitor_eq_throughSensor]
    rcases hs with hs | hs <;> rw [hs] <;> decide
  · rw [State.excitationAt_of_claimed hi, Core.excitation, hs]
  · simp only [Core.capacitor, Core.referenceSwitch, hs, hp, Option.map_some]
  · obtain ⟨hexc, hosc⟩ := State.quiet_of_unclaimed hi
    exact ⟨hexc, hosc, fun c => Bool.of_not_eq_true (fun h => hi c (State.connected_iff.mp h))⟩

/-! ### The sense side -/

/-- Settles O32: each row when it is due and when it is not, and the sensor in a sense measurement. -/
theorem sensePhaseEnds : Obligations.SensePhaseEnds := by
  refine ⟨fun s c p ticks now tRef hs hp hr ht hn => ?_, fun s c p ticks hs hp ht => ?_,
    fun s c p ticks forward now tRef hs hp hr hf ht hn => ?_, fun s c p now hs hp hn => ?_, fun s c p n hp => ⟨fun h => ?_,
      fun h => ⟨?_, ?_⟩, fun forward hf h => ?_⟩, fun s c n => ⟨fun hs => ?_, fun hs => ?_, fun hs => ?_, fun hs => ?_⟩,
    fun s c i hi => ⟨fun hs => ⟨?_, ?_, ?_⟩, fun hs => ⟨?_, ?_, ?_⟩⟩⟩
  · have hend : s.completeSense c { periods := 2 ^ p.gate, ticks := ticks } =
        { s.setCore c { s.core c with
            state := .discharge, phaseStart := now,
            meas := { (s.core c).meas with
              tSense := some ticks, outcome := some (decideOutcome none (computedRatio tRef ticks)) } } with now := now } := by
      refine ((completeSense_of_sense hp hs).trans (if_pos (phaseCompletes_of_le ht))).trans ?_
      rw [hr, hn]
      rfl
    exact congrArg Host.Outcome.next hend
  · have hend : s.completeForward c { periods := 2 ^ p.gate / 2, ticks := ticks } =
        { s.setCore c { s.core c with
            state := .senseNeg, meas := { (s.core c).meas with forward := some ticks } } with
          now := max s.now ((s.core c).phaseStart + ticks) } := by
      exact (completeForward_of_sensePos hp hs).trans (if_pos (phaseCompletes_of_le ht))
    exact congrArg Host.Outcome.next hend
  · have hend : s.completeReverse c { periods := 2 ^ p.gate / 2, ticks := ticks } =
        { s.setCore c { s.core c with
            state := .discharge, phaseStart := now,
            meas := { (s.core c).meas with
              reverse := some ticks, tSense := some (forward + ticks),
              outcome := some (decideOutcome (some (forward, ticks)) (computedRatio tRef (forward + ticks))) } } with
          now := now } := by
      have hfwd : (s.core c).meas.forward.getD 0 = forward := by rw [hf]; rfl
      have hraw := completeReverse_of_senseNeg hp hs (n := { periods := 2 ^ p.gate / 2, ticks := ticks })
      rw [hfwd] at hraw
      refine (hraw.trans (if_pos (phaseCompletes_of_le ht))).trans ?_
      rw [hr, hn]
      rfl
    exact congrArg Host.Outcome.next hend
  · have hend : s.timeoutSense c =
        { s.setCore c { s.core c with
            state := .discharge, phaseStart := now,
            meas := { (s.core c).meas with outcome := some (.fault .openLead none) } } with now := now } := by
      rw [timeoutSense_of_sensing hp (isSensing_iff.mpr hs), hn]
      rfl
    exact congrArg Host.Outcome.next hend
  · exact congrArg Host.Outcome.next (completeSense_of_count hp h)
  · exact congrArg Host.Outcome.next (completeForward_of_count hp h)
  · exact congrArg Host.Outcome.next (completeReverse_of_count hp (h.imp_right (fun h => Nat.lt_add_left _ h)))
  · exact congrArg Host.Outcome.next (completeReverse_of_count hp (.inr (by rw [hf]; exact h)))
  · exact congrArg Host.Outcome.next (completeSense_of_ne hs)
  · exact congrArg Host.Outcome.next (completeForward_of_ne hs)
  · exact congrArg Host.Outcome.next (completeReverse_of_ne hs)
  · refine congrArg Host.Outcome.next (timeoutSense_of_not_sensing (Bool.of_not_eq_true (fun h => ?_)))
    obtain ⟨h1, h2, h3⟩ := hs
    exact (isSensing_iff.mp h).elim h1 (fun h => h.elim h2 h3)
  · rw [State.excitationAt_of_claimed hi, Core.excitation]
    rcases hs with hs | hs <;> rw [hs]
  · rw [State.oscillatesAt_of_claimed hi, decide_eq_true_iff, Core.capacitor_eq_throughSensor]
    exact hs.imp_right .inl
  · exact (Core.capacitor_eq_throughSensor _).mpr (hs.imp_right .inl)
  · rw [State.excitationAt_of_claimed hi, Core.excitation, hs]
  · rw [State.oscillatesAt_of_claimed hi, decide_eq_true_iff, Core.capacitor_eq_throughSensor]
    exact .inr (.inr hs)
  · exact (Core.capacitor_eq_throughSensor _).mpr (.inr (.inr hs))

end

end Sys2Proof.Machine
end

