-- ==== Sys2Proof/Proofs/CoreRows.lean ====
section
/-! PROOF. The end of DISCHARGE, the check pairs, the ways into OFFLINE and the core in HOLD that takes a free place. -/

-- One proof after another, as in the tests: side by side they take more threads than memory allows.
set_option Elab.async false

namespace Sys2Proof.Machine

open Sys2Proof.Safety

section
variable {s u : State} {f : Frame} {rest : List Frame} {c : CoreId} {p : Params}

/-! ### Into OFFLINE -/

theorem enterOffline_of_none_lost {why : OfflineReason}
    (hu : u = { s.setCore c { s.core c with state := .offline, offlinePending := false } with
      notices := raiseIn (.coreOffline c why) s.notices })
    (h : ∀ r ∈ s.pool, ¬ (serves c r.input = true ∧ BothOffline u r.input)) : s.enterOffline c why = u := by
  have hsweep : s.enterOffline c why = u.noCoreSweep c := by rw [hu]; rfl
  have hpool : u.pool = s.pool := by rw [hu]; rfl
  rw [hsweep]
  refine noCoreSweep_of_none (fun r hr => Bool.of_not_eq_true (fun hl => ?_))
  obtain ⟨hserves, hlost⟩ := Bool.and_eq_true_iff.mp hl
  exact h r (hpool ▸ hr) ⟨hserves, (unreachable_iff u r.input).mp hlost⟩

theorem enterOffline_eq {why : OfflineReason}
    (hu : u = { s.setCore c { s.core c with state := .offline, offlinePending := false } with
      notices := raiseIn (.coreOffline c why) s.notices })
    (h : SamplesHaveWork s) : s.enterOffline c why = completedNoCore u (lostWith u [c]) := by
  have hsweep : s.enterOffline c why = u.noCoreSweep c := by rw [hu]; rfl
  have hpending : SamplesPending u u.pool := by
    rw [hu]
    exact (show SamplesPending s s.pool from samplesPending_pool h)
  rw [hsweep, noCoreSweep_eq c hpending]

theorem withFields_coreField {q : List Byte} {x : List Byte} (hq : x = byte c.val :: q) (a : Answer) :
    withFields (coreField x) a = a := by
  rw [coreField, byteAt_zero_byte hq (by omega), decide_eq_true (Nat.le_of_lt_succ c.isLt)]
  rfl

theorem coreOf_subject {q : List Byte} {x : List Byte} (hq : x = byte c.val :: q) : coreOf (byteAt x 0) = c := by
  rw [byteAt_zero_byte hq (by omega), coreOf, Fin.ofNat_val_eq_self]

/-- Settles O36: every way into OFFLINE is `enterOffline`, whose sweep is the completion of the lost requests. -/
theorem coresGoOffline : Obligations.CoresGoOffline := by
  refine ⟨fun s u c why hu => ⟨enterOffline_of_none_lost hu, enterOffline_eq hu⟩, fun s f rest c h hp => ?_⟩
  have answers {a : Answer} (hown : takeCoreOfflineOwn f s = a) : Answers .takeCoreOffline s f rest a :=
    answers_own rfl h (by decide) (by rw [hp]; rfl) hown
  have hslots (why : OfflineReason) : (s.enterOffline c why).slots = s.slots := enterOffline_frameTo s c why .slots rfl
  refine ⟨fun hs => ?_, fun hs => ?_, fun hs => ?_, fun hs u hu => ⟨fun hnone => ?_, fun hwork => ?_⟩⟩
  · refine (answers (a := .refused .wrongState) ?_).refused
    rcases hs with hs | hs <;> simp only [takeCoreOfflineOwn, withFields_coreField hp, coreOf_subject hp, hs]
  · refine (answers (a := .done .ok [byte c.val] s) ?_).done rfl
    simp only [takeCoreOfflineOwn, withFields_coreField hp, coreOf_subject hp, hs]
  · refine (answers (a := .done .okAfterCurrent [byte c.val] (s.setCore c { s.core c with offlinePending := true })) ?_).done rfl
    unfold takeCoreOfflineOwn
    rw [withFields_coreField hp, coreOf_subject hp]
    dsimp only
    split <;> simp_all [CoreState.isConverting]
  · have hown : takeCoreOfflineOwn f s = .done .ok [byte c.val] (s.enterOffline c .command) := by
      simp only [takeCoreOfflineOwn, withFields_coreField hp, coreOf_subject hp, hs]
    rw [← enterOffline_of_none_lost hu hnone]
    exact (answers hown).done (hslots .command)
  · have hown : takeCoreOfflineOwn f s = .done .ok [byte c.val] (s.enterOffline c .command) := by
      simp only [takeCoreOfflineOwn, withFields_coreField hp, coreOf_subject hp, hs]
    rw [← enterOffline_eq hu hwork]
    exact (answers hown).done (hslots .command)

/-! ### The core in HOLD that takes a free place -/

/-- Settles O37: the oldest core in HOLD joins the queue and leaves HOLD. -/
theorem heldRatioTakesThePlace : Obligations.HeldRatioTakesThePlace := by
  refine ⟨fun s u c rest e hh hl hroom hu => ?_, fun s hs => ?_⟩
  · have hserve : s.serveHold = ((s.joinQueue e).leaveHold c).choose := by
      simp only [State.serveHold, hh, hl]
      exact if_pos hroom
    have hleft : ({ (s.joinQueue e).setCore c { (s.joinQueue e).core c with latch := none } with
        holdOrder := (s.joinQueue e).holdOrder.erase c } : State) = u := by
      have horder : (s.joinQueue e).holdOrder.erase c = rest := by
        rw [show (s.joinQueue e).holdOrder = c :: rest from (joinQueue_frameTo s e .holdOrder rfl).trans hh, List.erase_cons_head]
      rw [horder, hu, State.joinQueue]
      cases e.origin <;> rfl
    have hmark : (u.core c).offlinePending = (s.core c).offlinePending := by
      have hset : u.core c = (s.setCore c { s.core c with latch := none }).core c := by
        rw [hu]
        exact core_congr (setOriginStage_frameTo _ e.origin .evaluating .cores rfl) c
      rw [hset, State.core_setCore, if_pos rfl]
    have hleave : (s.joinQueue e).leaveHold c =
        if (u.core c).offlinePending then u.enterOffline c .command else (u.enterIdle c).newGrantEvent := by rw [← hleft]; rfl
    have hevent : u.nextEvent = s.nextEvent ∧ u.idleSince = s.idleSince := by
      rw [hu]
      cases e.origin <;> exact ⟨rfl, rfl⟩
    refine congrArg Host.Outcome.next ?_
    rw [hserve, choose_eq, hleave, hmark]
    obtain ⟨hnext, hidle⟩ := hevent
    rw [← hnext, ← hidle]
    rfl
  · have hserve : s.serveHold = s := by
      unfold State.serveHold
      split
      · rfl
      · rename_i hh
        split
        · rfl
        · rcases hs with hs | hs
          · rw [hs] at hh
            cases hh
          · exact if_neg (Nat.not_lt_of_le hs)
    exact congrArg Host.Outcome.next hserve

/-! ### The end of DISCHARGE -/

/-- The pending SAMPLE with a `uid` that no entry before it has. -/
theorem findSample_split {before after : List Deferred} {d : Deferred} {ch : ChannelId} (hd : s.deferred = before ++ d :: after)
    (hs : d.subject = .sample ch) (hb : ∀ x ∈ before, x.uid ≠ d.uid) : s.findSample d.uid = some (d, ch) := by
  have hold : before.findSome? (fun x => match x.subject with
      | .sample ch => if x.uid = d.uid then some (x, ch) else none
      | .restore _ => none) = none := by
    refine List.findSome?_eq_none_iff.mpr (fun x hx => ?_)
    split
    · exact if_neg (hb x hx)
    · rfl
  unfold State.findSample
  rw [hd, List.findSome?_append]
  refine (congrArg (fun o => Option.or o _) hold).trans ?_
  simp [hs]

/-- The entry is the only one with its `uid`. -/
theorem filter_uid_split {before after : List Deferred} {d : Deferred} (h : ∀ x ∈ before ++ after, x.uid ≠ d.uid) :
    (before ++ d :: after).filter (fun x => decide (x.uid ≠ d.uid)) = before ++ after := by
  have hkeep : ∀ xs : List Deferred, (∀ x ∈ xs, x ∈ before ++ after) → xs.filter (fun x => decide (x.uid ≠ d.uid)) = xs :=
    fun xs hxs => List.filter_eq_self.mpr (fun x hx => decide_eq_true (h x (hxs x hx)))
  rw [List.filter_append, List.filter_cons_of_neg (by rw [decide_eq_true_eq]; exact fun hne => hne rfl),
    hkeep before (fun x hx => List.mem_append_left _ hx), hkeep after (fun x hx => List.mem_append_right _ hx)]

theorem settleCore_eq (s : State) (c : CoreId) : s.settleCore c = afterConversion s c := rfl

theorem settleCore_nextEvent (s : State) (c : CoreId) : (s.settleCore c).nextEvent = s.nextEvent :=
  settleCore_frameTo s c .nextEvent rfl

/-- Settles O33: the release, the hand-off by mark, origin and outcome, and the next state. -/
theorem dischargeReleasesAndHandsOff : Obligations.DischargeReleasesAndHandsOff := by
  refine ⟨fun s u c p i now hs hp hi hn hu => ?_, fun s c => ⟨fun hs => ?_, fun hs => ?_⟩, fun u l k r => rfl,
    fun u w r before after d ch hd hw hsub hother => ?_⟩
  · have hrelease : (s.advanceTo ((s.core c).phaseStart + Config.dischargeTicks)).releaseCore c p = u := by
      have hclaimed : ((s.advanceTo ((s.core c).phaseStart + Config.dischargeTicks)).core c).claimed = some i := hi
      unfold State.releaseCore
      dsimp only
      rw [hclaimed]
      dsimp only
      unfold State.releaseInput
      by_cases hr : p.rest = 0
      · rw [if_pos hr, hu, if_pos hr, if_pos hr, hn]
        rfl
      · rw [if_neg hr, hu, if_neg hr, if_neg hr, hn]
        rfl
    have hend : s.endDischarge c = (u.handOff c (s.core c) p).newGrantEvent.choose := by
      unfold State.endDischarge
      dsimp only
      split
      case h_1 q _ hq => rw [← Option.some.inj (hp.symm.trans hq), hrelease]
      case h_2 hno => exact absurd hp (hno p hs)
    have hevent : u.nextEvent = s.nextEvent := by rw [hu]; rfl
    have settled {v : State} (hv : u.handOff c (s.core c) p = v.settleCore c) (hnext : v.nextEvent = s.nextEvent) :
        exec (.dischargeEnd c) s = .next (chosen { afterConversion v c with nextEvent := s.nextEvent + 1 }) := by
      refine congrArg Host.Outcome.next (hend.trans ?_)
      rw [hv, choose_eq, ← settleCore_eq, ← hnext, ← settleCore_nextEvent v c]
      rfl
    have hfind : ∀ w, u.findSample w = s.findSample w := fun w => by rw [hu]; rfl
    have hqueue : u.evalQueue = s.evalQueue ∧ u.holdOrder = s.holdOrder := by rw [hu]; exact ⟨rfl, rfl⟩
    obtain ⟨hqueue, hhold⟩ := hqueue
    refine ⟨fun hcancelled l k ho => ?_, fun w ho hgone => ?_, fun hlive horigin => ?_⟩
    · refine settled (v := u.setList l { u.list l with outstanding := (u.list l).outstanding - 1 }) ?_ hevent
      rw [State.handOff, if_pos hcancelled, ho]
      rfl
    · refine settled (v := u) ?_ hevent
      cases hcancelled : (s.core c).cancelled with
      | true =>
        rw [State.handOff, if_pos hcancelled, ho]
        rfl
      | false =>
        have hnone : u.originExists p.origin = false := by
          rw [ho]
          exact (congrArg Option.isSome (hfind w)).trans (hgone.resolve_left (by rw [hcancelled]; exact Bool.false_ne_true))
        rw [State.handOff, if_neg (by rw [hcancelled]; exact Bool.false_ne_true), hnone]
        rfl
    · have hexists : u.originExists p.origin = true := by
        rcases horigin with ⟨l, k, ho⟩ | ⟨w, ho, hw⟩ <;> rw [ho]
        · rfl
        · exact (congrArg Option.isSome (hfind w)).trans hw
      have hhand : u.handOff c (s.core c) p = match (s.core c).meas.outcome with
          | none => u.settleCore c
          | some (.fault st r) => (u.deliver p.origin { status := st, ratio := r, value := none }).settleCore c
          | some (.valid r) =>
            if u.placeFree then (u.joinQueue { origin := p.origin, channel := p.channel, ratio := r }).settleCore c
            else u.enterHold c { origin := p.origin, channel := p.channel, ratio := r } := by
        rw [State.handOff, if_neg (by rw [hlive]; exact Bool.false_ne_true), hexists]
        rfl
      refine ⟨fun st x ho => ?_, fun x ho => ⟨fun hroom hempty => ?_, fun hfull => ?_⟩⟩
      · refine settled ?_ ((deliver_frameTo u p.origin { status := st, ratio := x, value := none } .nextEvent rfl).trans hevent)
        rw [hhand, ho]
      · have hplace : u.placeFree = true := by
          rw [State.placeFree, hqueue, hhold, hempty, decide_eq_true (show s.evalQueue.length < Config.evalPlaces from hroom)]
          rfl
        refine settled (v := u.joinQueue { origin := p.origin, channel := p.channel, ratio := x }) ?_
          ((joinQueue_frameTo u _ .nextEvent rfl).trans hevent)
        rw [hhand, ho]
        exact if_pos hplace
      · have hplace : u.placeFree = false := by
          rw [State.placeFree, hqueue, hhold, Bool.and_eq_false_iff, decide_eq_false_iff_not, Nat.not_lt, List.isEmpty_eq_false_iff]
          exact hfull
        refine congrArg Host.Outcome.next (hend.trans ?_)
        have hheld : u.handOff c (s.core c) p = u.enterHold c { origin := p.origin, channel := p.channel, ratio := x } := by
          rw [hhand, ho]
          exact if_neg (by rw [hplace]; exact Bool.false_ne_true)
        rw [hheld, choose_eq, ← hevent, ← hhold]
        rfl
  · refine congrArg Host.Outcome.next ?_
    unfold State.endDischarge
    dsimp only
    split
    · exact absurd ‹_› hs
    · rfl
  · simp only [Core.capacitor, hs]
  · subst hw
    have hfound := findSample_split hd hsub (fun x hx => hother x (List.mem_append_left _ hx))
    rw [State.deliver, completeSample_of_present u r hfound, hd, filter_uid_split hother, sampleLayout_eq]
    rfl

/-! ### Check pairs -/

theorem checking_iff {k : Core} : k.checking = true ↔ (k.state = .checkA ∨ k.state = .checkB) ∧ k.checkPassed = none := by
  rw [Core.checking, Bool.and_eq_true, Bool.or_eq_true, decide_eq_true_eq, decide_eq_true_eq, Option.isNone_iff_eq_none]

/-- A core that has just been written enters IDLE. -/
theorem enterIdle_setCore (s : State) (c : CoreId) (k : Core) : (s.setCore c k).enterIdle c =
    { s.setCore c { k with state := .idle } with idleSince := s.idleSince.set c s.nextEvent } := by
  have hcore : (s.setCore c k).core c = k := by rw [State.core_setCore, if_pos rfl]
  have hset : (s.setCore c k).setCore c { k with state := .idle } = s.setCore c { k with state := .idle } := State.setCore_setCore ..
  rw [State.enterIdle, hcore, hset]
  rfl

theorem isCheck_iff {st : CoreState} : st.isCheck = true ↔ st = .checkA ∨ st = .checkB := by
  cases st <;> simp [CoreState.isCheck]

theorem readyIfDone_eq (v : State) : v.readyIfDone =
    if ∃ d, (v.core d).state = .checkA ∨ (v.core d).state = .checkB then v
    else { v with notices := raiseIn .ready v.notices, cmdUnit := .taking } := by
  have hany : (List.finRange 4).any (fun c => (v.core c).state.isCheck) = true ↔
      ∃ d, (v.core d).state = .checkA ∨ (v.core d).state = .checkB := by
    simp only [List.any_eq_true, List.mem_finRange, true_and, isCheck_iff]
  unfold State.readyIfDone
  by_cases h : ∃ d, (v.core d).state = .checkA ∨ (v.core d).state = .checkB
  · rw [if_pos (hany.mpr h), if_pos h]
  · rw [if_neg (fun ha => h (hany.mp ha)), if_neg h]
    rfl

/-- The moment at which the discharge after a check ends. -/
def State.atCheckEnd (s : State) (c : CoreId) : State := s.advanceTo ((s.core c).phaseStart + Config.dischargeTicks)

/-- Which check failed, by the state of the core and the mark of its check (R17). -/
def PairEnds (k : Core) (failed : Option Reference) : Prop :=
  (failed = none ∧ k.state = .checkB ∧ k.checkPassed = some true) ∨
    (failed = some .refA ∧ k.state = .checkA ∧ k.checkPassed = some false) ∨
    (failed = some .refB ∧ k.state = .checkB ∧ k.checkPassed = some false)

theorem endCheckDischarge_of_pairEnds {failed : Option Reference} (h : PairEnds (s.core c) failed) :
    s.endCheckDischarge c = (s.atCheckEnd c).endPair c failed := by
  rcases h with ⟨rfl, hs, hp⟩ | ⟨rfl, hs, hp⟩ | ⟨rfl, hs, hp⟩ <;> simp only [State.endCheckDischarge, hs, hp, State.atCheckEnd]

/-- Settles O34: the count, the limit, the discharge to the second check, and the end of a start-up pair. -/
theorem checksRunInPairs : Obligations.ChecksRunInPairs := by
  refine ⟨fun s c ticks now hs hp => ⟨fun ht hn => ?_, fun hn => ?_⟩, fun s c n h => ?_, fun k hk => ?_, fun s c now hs hp hn => ?_,
    fun s u v c failed hunit hpair hu hv => ?_⟩
  · have hpass : s.passCheck c { periods := 256, ticks := ticks } = s.endCheckCount c true ((s.core c).phaseStart + ticks) := by
      have hcompletes : phaseCompletes { periods := 256, ticks := ticks } Config.checkPeriods Config.checkLimitTicks = true :=
        phaseCompletes_of_le ht
      rw [State.passCheck, checking_iff.mpr ⟨hs, hp⟩, hcompletes]
      rfl
    refine congrArg Host.Outcome.next (hpass.trans ?_)
    rw [hn]
    rfl
  · have hfail : s.failCheck c = s.endCheckCount c false ((s.core c).phaseStart + 800000) := if_pos (checking_iff.mpr ⟨hs, hp⟩)
    refine congrArg Host.Outcome.next (hfail.trans ?_)
    rw [hn]
    rfl
  · have hlast : phaseCompletes n Config.checkPeriods Config.checkLimitTicks = false := phaseCompletes_false h
    refine congrArg Host.Outcome.next (if_neg ?_)
    rw [hlast, Bool.and_false]
    exact Bool.false_ne_true
  · rcases hk with hk | hk <;> cases hp : k.checkPassed <;> simp [Core.capacitor, Core.referenceSwitch, hk, hp]
  · have hend : s.endCheckDischarge c =
        { s.setCore c { s.core c with state := .checkB, checkPassed := none, phaseStart := now } with now := now } := by
      unfold State.endCheckDischarge
      dsimp only
      split
      case h_1 =>
        rw [hn]
        rfl
      all_goals simp_all
    exact congrArg Host.Outcome.next hend
  · have hends : ∃ which : Option Reference, PairEnds (s.core c) which ∧ which.isSome = failed := by
      rcases hpair with ⟨hs, hp⟩ | ⟨hs, hp, rfl⟩
      · cases failed with
        | false => exact ⟨none, .inl ⟨rfl, hs, hp⟩, rfl⟩
        | true => exact ⟨some .refB, .inr (.inr ⟨rfl, hs, hp⟩), rfl⟩
      · exact ⟨some .refA, .inr (.inl ⟨rfl, hs, hp⟩), rfl⟩
    obtain ⟨which, hwhich, hfailed⟩ := hends
    have hpairEnd : (s.atCheckEnd c).endStartupPair c which = v.readyIfDone := by
      cases which with
      | none =>
        obtain rfl : failed = false := hfailed.symm
        have hcore := enterIdle_setCore (s.atCheckEnd c) c { s.core c with checkPassed := none }
        have hidle : (((s.atCheckEnd c).setCore c { s.core c with checkPassed := none }).enterIdle c).newGrantEvent = v := by
          rw [hcore, hv, if_neg Bool.false_ne_true, hu]
          rfl
        exact congrArg State.readyIfDone hidle
      | some r =>
        obtain rfl : failed = true := hfailed.symm
        refine congrArg State.readyIfDone ?_
        rw [hv, if_pos rfl, hu]
        rfl
    have hpairRow : (s.atCheckEnd c).endPair c which = chosen v.readyIfDone := by
      rw [State.endPair, if_pos (show (s.atCheckEnd c).cmdUnit = .starting from hunit), hpairEnd, choose_eq]
    refine congrArg Host.Outcome.next ((endCheckDischarge_of_pairEnds hwhich).trans (hpairRow.trans ?_))
    rw [readyIfDone_eq]

/-! ### RESTORE_CORE -/

theorem answerRestore_of_absent (failed : Option Reference) (h : ∀ d ∈ s.deferred, d.subject ≠ .restore c) :
    s.answerRestore c failed = s := by
  have hnone : s.deferred.find? (fun d => decide (d.subject = .restore c)) = none :=
    List.find?_eq_none.mpr (fun d hd => by simpa using h d hd)
  rw [State.answerRestore, hnone]

theorem answerRestore_of_split {before after : List Deferred} {d : Deferred} (failed : Option Reference)
    (hd : s.deferred = before ++ d :: after) (hs : d.subject = .restore c)
    (h : ∀ x ∈ before ++ after, x.subject ≠ .restore c ∧ x.uid ≠ d.uid) :
    s.answerRestore c failed =
      { s with replies := s.replies ++ [restoreReply d.tag c failed], deferred := before ++ after } := by
  have hfind : s.deferred.find? (fun d => decide (d.subject = .restore c)) = some d := by
    rw [hd, List.find?_append, List.find?_eq_none.mpr (fun x hx => by
      simpa using (h x (List.mem_append_left _ hx)).1), List.find?_cons_of_pos
        (p := fun d : Deferred => decide (d.subject = DeferredSubject.restore c)) (decide_eq_true hs)]
    rfl
  have hfilter := filter_uid_split (fun x hx => (h x hx).2)
  rw [← hd] at hfilter
  simp only [State.answerRestore, hfind, hfilter]

/-- The end of a pair that RESTORE_CORE started, but for its answer. -/
theorem endRestorePair_eq (failed : Option Reference)
    (hu : u = { s.setCore c (match failed with
            | none => { s.core c with checkPassed := none, state := .idle, stalls := 0 }
            | some _ => { s.core c with checkPassed := none, state := .offline }) with
          now := max s.now ((s.core c).phaseStart + 3200)
          idleSince := if failed = none then s.idleSince.set c s.nextEvent else s.idleSince
          nextEvent := if failed = none then s.nextEvent + 1 else s.nextEvent }) :
    (s.atCheckEnd c).endRestorePair c failed = u.answerRestore c failed := by
  cases failed with
  | none =>
    have hcore := enterIdle_setCore (s.atCheckEnd c) c { s.core c with checkPassed := none, stalls := 0 }
    have hidle : (((s.atCheckEnd c).setCore c { s.core c with checkPassed := none, stalls := 0 }).enterIdle c).newGrantEvent = u := by
      rw [hcore, hu]
      rfl
    have hswap : ∀ v : State, (v.answerRestore c none).newGrantEvent = v.newGrantEvent.answerRestore c none := by
      intro v
      unfold State.answerRestore
      rw [show v.newGrantEvent.deferred = v.deferred from rfl]
      cases v.deferred.find? (fun d => decide (d.subject = .restore c)) <;> rfl
    rw [← hidle, ← hswap]
    rfl
  | some r =>
    rw [hu]
    rfl

/-- Settles O35: the command by state and room, and the end of its pair with and without its entry. -/
theorem restoredCoresAreChecked : Obligations.RestoredCoresAreChecked := by
  refine ⟨fun s f rest c h hp => ?_, fun s u c failed hunit hpair hu => ?_⟩
  · have answers {a : Answer} (hown : restoreCoreOwn f s = a) : Answers .restoreCore s f rest a :=
      answers_own rfl h (by decide) (by rw [hp]; rfl) hown
    have hown : restoreCoreOwn f s =
        if (s.core c).state ≠ .offline then .refused .wrongState
        else if Config.deferredPlaces ≤ s.deferred.length then .refused .noRoom
        else .deferred ((s.defer f.tag (.restore c)).setCore c { (s.core c).enter .checkA s.now with checkPassed := none }) := by
      simp only [restoreCoreOwn, withFields_coreField hp, coreOf_subject hp]
    refine ⟨fun hs => ?_, fun hs hfull => ?_, fun hs hroom => ?_⟩
    · rw [if_pos hs] at hown
      exact (answers hown).refused
    · rw [if_neg (not_not.mpr hs), if_pos (show Config.deferredPlaces ≤ s.deferred.length from hfull)] at hown
      exact (answers hown).refused
    · rw [if_neg (not_not.mpr hs), if_neg (show ¬ Config.deferredPlaces ≤ s.deferred.length from Nat.not_le_of_lt hroom)] at hown
      exact (answers hown).deferred rfl
  · have hrow : exec (.checkDischargeEnd c) s = .next (chosen (u.answerRestore c failed)) := by
      have hrestore : (s.atCheckEnd c).endPair c failed = ((s.atCheckEnd c).endRestorePair c failed).choose := by
        rw [State.endPair, if_neg (show (s.atCheckEnd c).cmdUnit ≠ .starting from hunit)]
      refine congrArg Host.Outcome.next ((endCheckDischarge_of_pairEnds hpair).trans (hrestore.trans ?_))
      rw [choose_eq, endRestorePair_eq failed hu]
    have hsame : u.deferred = s.deferred ∧ u.replies = s.replies := by rw [hu]; exact ⟨rfl, rfl⟩
    refine ⟨fun hnone => ?_, fun before d after hd hs hother => ?_⟩
    · rw [hrow, answerRestore_of_absent failed (by rw [hsame.1]; exact hnone)]
    · rw [hrow, answerRestore_of_split failed (hsame.1.trans hd) hs hother, hsame.2]
      rcases hpair with ⟨rfl, -, -⟩ | ⟨rfl, -, -⟩ | ⟨rfl, -, -⟩ <;> rfl

end

end Sys2Proof.Machine
end

