-- ==== Sys2Proof/Proofs/EngineRows.lean ====
section
/-! PROOF. The evaluation engine: Horner's scheme, the start of an evaluation with its segment search, its course and where the
result goes. -/

-- One proof after another, as in the tests: side by side they take more threads than memory allows.
set_option Elab.async false

namespace Sys2Proof.Machine

open Sys2Proof.Safety

/-! ### Horner's scheme (R97) -/

section
variable {d : Nat} {acc c : Int} {mark : Bool} {cs : List Int}

theorem hornerSum_eq (d : Nat) (acc c : Int) : hornerSum d acc c = (acc * (d : Int)).fdiv 65536 + c := by
  rw [hornerSum, Int.fdiv_eq_ediv_of_nonneg _ (by decide)]

theorem sat32_range (x : Int) : -2147483648 ≤ sat32 x ∧ sat32 x ≤ 2147483647 := by
  unfold sat32
  omega

/-- The clamp changes exactly the numbers out of range. -/
theorem sat32_ne_iff {x : Int} : sat32 x ≠ x ↔ x < -2147483648 ∨ 2147483647 < x := by
  unfold sat32
  omega

theorem horner_cons (d : Nat) (acc c : Int) (mark : Bool) (cs : List Int) : horner d acc mark (c :: cs) =
    horner d (sat32 (hornerSum d acc c)) (mark || decide (sat32 (hornerSum d acc c) ≠ hornerSum d acc c)) cs := rfl

theorem horner_range (h1 : -2147483648 ≤ acc) (h2 : acc ≤ 2147483647) :
    -2147483648 ≤ (horner d acc mark cs).1 ∧ (horner d acc mark cs).1 ≤ 2147483647 := by
  induction cs generalizing acc mark with
  | nil => exact ⟨h1, h2⟩
  | cons c cs ih => exact ih (sat32_range _).1 (sat32_range _).2

theorem horner_marked (h : mark = true) : (horner d acc mark cs).2 = true := by
  induction cs generalizing acc mark with
  | nil => exact h
  | cons c cs ih => exact ih (by rw [h]; rfl)

/-- The recursion without clamps. -/
def exactHorner (d : Nat) (acc : Int) (cs : List Int) : Int := cs.foldl (fun a c => (a * (d : Int)).fdiv 65536 + c) acc

/-- Every sum of the recursion without clamps is a signed 32-bit number. -/
def SumsInRange (d : Nat) (acc : Int) (cs : List Int) : Prop :=
  ∀ n, n < cs.length → -2147483648 ≤ exactHorner d acc (cs.take (n + 1)) ∧ exactHorner d acc (cs.take (n + 1)) ≤ 2147483647

theorem sumsInRange_cons : SumsInRange d acc (c :: cs) ↔
    (-2147483648 ≤ hornerSum d acc c ∧ hornerSum d acc c ≤ 2147483647) ∧ SumsInRange d (hornerSum d acc c) cs := by
  have hstep : ∀ xs, exactHorner d acc (c :: xs) = exactHorner d (hornerSum d acc c) xs := fun xs => by
    rw [exactHorner, List.foldl_cons, ← hornerSum_eq]
    rfl
  constructor
  · intro h
    refine ⟨?_, fun n hn => ?_⟩
    · have h0 := h 0 (Nat.succ_pos _)
      rwa [List.take_succ_cons, hstep] at h0
    · have hn := h (n + 1) (Nat.succ_lt_succ hn)
      rwa [List.take_succ_cons, hstep] at hn
  · rintro ⟨hfirst, hlater⟩ n hn
    rw [List.take_succ_cons, hstep]
    cases n with
    | zero => exact hfirst
    | succ n => exact hlater n (Nat.lt_of_succ_lt_succ hn)

theorem horner_exact (h : (horner d acc mark cs).2 = false) : (horner d acc mark cs).1 = exactHorner d acc cs ∧
    SumsInRange d acc cs := by
  induction cs generalizing acc mark with
  | nil => exact ⟨rfl, fun n hn => absurd hn (Nat.not_lt_zero n)⟩
  | cons c cs ih =>
    rw [horner_cons] at h ⊢
    by_cases hclamped : sat32 (hornerSum d acc c) ≠ hornerSum d acc c
    · rw [decide_eq_true hclamped, Bool.or_true, horner_marked rfl] at h
      exact nomatch h
    · rw [not_not.mp hclamped] at h ⊢
      obtain ⟨hvalue, hsums⟩ := ih h
      refine ⟨hvalue.trans ?_, sumsInRange_cons.mpr ⟨?_, hsums⟩⟩
      · rw [exactHorner, exactHorner, List.foldl_cons, ← hornerSum_eq]
      · have := sat32_range (hornerSum d acc c)
        rwa [not_not.mp hclamped] at this

theorem horner_unmarked (h : SumsInRange d acc cs) : (horner d acc mark cs).2 = mark := by
  induction cs generalizing acc mark with
  | nil => rfl
  | cons c cs ih =>
    obtain ⟨hfirst, hlater⟩ := sumsInRange_cons.mp h
    have hkept : sat32 (hornerSum d acc c) = hornerSum d acc c := by
      by_contra hne
      have := sat32_ne_iff.mp hne
      omega
    rw [horner_cons, hkept, decide_eq_false (not_not.mpr rfl), Bool.or_false]
    exact ih hlater

/-- Settles O41: by induction on the coefficients that remain. -/
theorem hornerIsExactUnlessMarked : Obligations.HornerIsExactUnlessMarked := by
  intro d acc mark cs
  refine ⟨rfl, fun c sum hsum => ?_, horner_range, horner_marked, horner_exact, horner_unmarked⟩
  rw [horner_cons, hornerSum_eq, ← hsum, decide_eq_decide.mpr sat32_ne_iff]
  rfl

end

/-! ### The start of an evaluation -/

section
variable {s : State}

theorem segments_of_map {b : Bank} {gs : List Segment} (h : b.places = gs.map some) : b.segments = gs := by
  rw [Bank.segments, h, List.filterMap_map]
  exact List.filterMap_some

/-- Leading and lower coefficients by the degree. -/
theorem leading_of_mem {g : Segment} {lead : Int} (h : (g.degree, lead) ∈ [(0, g.c0), (1, g.c1), (2, g.c2), (3, g.c3)]) :
    g.leading = lead := by
  simp only [List.mem_cons, Prod.mk.injEq, List.not_mem_nil, or_false] at h
  rcases h with ⟨hd, rfl⟩ | ⟨hd, rfl⟩ | ⟨hd, rfl⟩ | ⟨hd, rfl⟩ <;> simp only [Segment.leading, hd]

theorem lower_of_mem {g : Segment} {lead : Int} {lower : List Int} (h : (g.degree, lead, lower) ∈
    [(0, g.c0, []), (1, g.c1, [g.c0]), (2, g.c2, [g.c1, g.c0]), (3, g.c3, [g.c2, g.c1, g.c0])]) : g.lower = lower := by
  simp only [List.mem_cons, Prod.mk.injEq, List.not_mem_nil, or_false] at h
  rcases h with ⟨hd, rfl, rfl⟩ | ⟨hd, rfl, rfl⟩ | ⟨hd, rfl, rfl⟩ | ⟨hd, rfl, rfl⟩ <;> simp only [Segment.lower, hd]

theorem startProgress_of_none {gs : List Segment} {ratio : Nat} (h : ∀ g ∈ gs, g.xHi < ratio) :
    startProgress gs ratio = { segment := none, acc := 0, saturated := false } := by
  have hfind : findSegment gs ratio = none :=
    List.findIdx?_eq_none_iff.mpr (fun g hg => decide_eq_false (Nat.not_le_of_lt (h g hg)))
  rw [startProgress, hfind]

theorem startProgress_of_first {gs : List Segment} {ratio i : Nat} {g : Segment} (hg : gs[i]? = some g) (hr : ratio ≤ g.xHi)
    (hbefore : ∀ j h, j < i → gs[j]? = some h → h.xHi < ratio) :
    startProgress gs ratio = { segment := some i, acc := g.leading, saturated := false } := by
  obtain ⟨hi, rfl⟩ := List.getElem?_eq_some_iff.mp hg
  have hfind : findSegment gs ratio = some i := by
    refine List.findIdx?_eq_some_iff_getElem.mpr ⟨hi, decide_eq_true hr, fun j hj => ?_⟩
    have hlt := hbefore j _ hj (List.getElem?_eq_getElem (by omega))
    simpa using hlt
  simp only [startProgress, hfind, hg]

/-- Settles O38: the channel's table decides the course, and the bank's segments the progress. -/
theorem evaluationStartsOnTheHead : Obligations.EvaluationStartsOnTheHead := by
  refine ⟨fun s e rest hengine hq => ?_, fun s h => ?_⟩
  · have hstart : s.startEvaluation =
        { s.holdBank (s.bankFor (s.tableOfChannel e.channel)) with
          evalQueue := rest
          engine := some {
            origin := e.origin, channel := e.channel, ratio := e.ratio, table := s.tableOfChannel e.channel
            bank := s.bankFor (s.tableOfChannel e.channel), void := false
            progress := s.progressIn e.ratio (s.bankFor (s.tableOfChannel e.channel)) } } := by
      simp only [State.startEvaluation, hengine, hq]
    refine ⟨fun hnone => ?_, fun k t hk ht => ⟨fun hnone => ?_, fun b hb gs hgs => ?_⟩⟩
    · have htable : s.tableOfChannel e.channel = none := by
        unfold State.tableOfChannel
        cases hc : (s.channel e.channel).config with
        | none => rfl
        | some k => exact hnone k hc
      rw [htable] at hstart
      exact congrArg Host.Outcome.next hstart
    · have htable : s.tableOfChannel e.channel = some t := by rw [State.tableOfChannel, hk, ← ht]
      rw [htable, State.bankFor, activeBank_of_none s hnone] at hstart
      exact congrArg Host.Outcome.next hstart
    · have htable : s.tableOfChannel e.channel = some t := by rw [State.tableOfChannel, hk, ← ht]
      rw [htable, State.bankFor, activeBank_of_only s hb] at hstart
      have hprogress : s.progressIn e.ratio (some b) = startProgress gs e.ratio := by
        rw [State.progressIn, segments_of_map hgs]
      rw [hprogress] at hstart
      refine ⟨startProgress gs e.ratio, congrArg Host.Outcome.next hstart, fun hno => ?_, fun i g lead hg hr hbefore hlead => ?_⟩
      · rw [startProgress_of_none hno]
      · rw [startProgress_of_first hg hr hbefore, leading_of_mem hlead]
  · have hstart : s.startEvaluation = s := by
      rcases startEvaluation_cases s with heq | ⟨e, rest, x, hengine, hq, -⟩
      · exact heq
      · rcases h with h | h
        · rw [hengine] at h
          cases h
        · rw [h] at hq
          cases hq
    exact congrArg Host.Outcome.next hstart

/-! ### Course and completion -/

/-- Settles O40: the course by table, bank and segment, then the arithmetic in the segment found. -/
theorem evaluationFollowsItsCourse : Obligations.EvaluationFollowsItsCourse := by
  intro s e
  refine ⟨fun ht => ?_, fun t ht => ⟨fun hb => ?_, fun b hb => ⟨fun hn => ?_, fun i g lead lower gs hgs hg hlow hp below hbelow => ?_⟩⟩⟩
  · simp only [State.evaluationResult, ht]
  · simp only [State.evaluationResult, ht, hb]
  · simp only [State.evaluationResult, ht, hb, hn]
  · have hbound : lowerBound gs i = below := by
      rw [hbelow]
      cases i with
      | zero => rfl
      | succ i =>
        rw [lowerBound, if_neg (Nat.succ_ne_zero i), Nat.add_sub_cancel, List.getD_eq_getElem?_getD, List.getElem?_map]
        cases gs[i]? <;> rfl
    have hfinish : finishProgress gs e.ratio { segment := some i, acc := lead, saturated := false } i =
        horner (e.ratio - below) lead false lower := by
      simp only [finishProgress, hg, hbound, lower_of_mem hlow]
    simp only [State.evaluationResult, ht, hb, hp, segments_of_map hgs, hfinish]

theorem releaseBank_eq (s : State) (b : Option BankId) : s.releaseBank b = bankDropped s b := by cases b <;> rfl

/-- Settles O39: by the void mark and the origin. -/
theorem evaluationReachesItsOrigin : Obligations.EvaluationReachesItsOrigin := by
  refine ⟨fun s e he => ?_, fun s h => ?_⟩
  · have hcomplete : ∀ t : State, s.handResult e (s.evaluationResult e) = t → exec .evaluationComplete s =
        .next (chosen { bankDropped t e.bank with engine := none }) := by
      intro t ht
      have hrow : s.completeEvaluation =
          { (s.handResult e (s.evaluationResult e)).releaseBank e.bank with engine := none }.choose := by
        simp only [State.completeEvaluation, he]
      rw [ht, releaseBank_eq, choose_eq] at hrow
      exact congrArg Host.Outcome.next hrow
    refine ⟨fun hv l k ho => hcomplete _ ?_, fun hv l k ho => hcomplete _ ?_, fun u ho hgone => hcomplete s ?_,
      fun hv u before d after ch ho hd hu hs hother => ?_⟩
    · rw [State.handResult, if_pos hv, ho]
      rfl
    · rw [State.handResult, if_neg (by rw [hv]; exact Bool.false_ne_true), ho]
      rfl
    · unfold State.handResult
      rw [ho]
      cases e.void with
      | true => rfl
      | false =>
        refine completeSample_of_absent s _ (List.findSome?_eq_none_iff.mpr (fun d hd => ?_))
        split
        · exact if_neg (hgone d hd)
        · rfl
    · subst hu
      have hfound := findSample_split hd hs (fun x hx => hother x (List.mem_append_left _ hx))
      have hhand : s.handResult e (s.evaluationResult e) = { s with
          deferred := before ++ after
          replies := s.replies ++ [{
            tag := d.tag, kind := 0x0B, outcome := .ok, data := sampleLayout ch (s.evaluationResult e) }] } := by
        rw [State.handResult, if_neg (by rw [hv]; exact Bool.false_ne_true), ho, State.deliver,
          completeSample_of_present s _ hfound, hd, filter_uid_split hother, sampleLayout_eq]
        rfl
      rw [hcomplete _ hhand]
      cases e.bank <;> rfl
  · have hrow : s.completeEvaluation = s := by rw [State.completeEvaluation, h]
    exact congrArg Host.Outcome.next hrow

end

end Sys2Proof.Machine
end

