-- ==== Sys2Proof/Proofs/ReportRows.lean ====
section
/-! PROOF. The retirement of a window's head and what leaves the collections at the end of a frame. -/

-- One proof after another, as in the tests: side by side they take more threads than memory allows.
set_option Elab.async false

namespace Sys2Proof.Machine

open Sys2Proof.Safety

section
variable {s : State} {l : ListId} {c : ListConfig} {e : Entry} {w : List Entry} {r : Result}

/-! ### Retirement -/

theorem setChannel_self (s : State) (ch : ChannelId) : s.setChannel ch (s.channel ch) = s := by
  rw [State.setChannel, State.channel, Vector.get_eq_getElem, Vector.set_getElem_self]

theorem raisesNotice_iff (t : Transition) :
    t.raisesNotice = true ↔ ¬ (t.old = t.new ∨ (t.old = .pending ∧ t.new = .normal)) := by
  simp only [Transition.raisesNotice, Bool.and_eq_true, decide_eq_true_eq, Bool.not_eq_true', Bool.and_eq_false_iff,
    decide_eq_false_iff_not]
  tauto

/-- The monitor's work on an entry's result: its channel and the alarm notices (R121, R129). -/
theorem monitor_eq (s : State) (l : ListId) (e : Entry) (r : Result) : s.monitor l e r =
    { s.setChannel e.channel (monitoredChannel (s.channel e.channel) r) with
      alarms := if (alarmChange s l e r).old = (alarmChange s l e r).new ∨
          ((alarmChange s l e r).old = .pending ∧ (alarmChange s l e r).new = .normal) then s.alarms
        else noteTransition (alarmChange s l e r) s.alarms } := by
  cases hc : (s.channel e.channel).config with
  | none =>
    have hsame : monitoredChannel (s.channel e.channel) r = s.channel e.channel := by rw [monitoredChannel, hc]
    have hmonitor : s.monitor l e r = s := by simp only [State.monitor, hc]
    have hstays : (alarmChange s l e r).old = (alarmChange s l e r).new := by
      rw [alarmChange, hsame]
    rw [hmonitor, hsame, setChannel_self, if_pos (.inl hstays)]
  | some cfg =>
    have hk : monitoredChannel (s.channel e.channel) r = (s.channel e.channel).afterResult cfg r := by rw [monitoredChannel, hc]
    have hchange : alarmChange s l e r = {
        channel := e.channel, old := (s.channel e.channel).alarm, new := ((s.channel e.channel).afterResult cfg r).alarm,
        value := r.validValue.map (monitored cfg.shift (s.channel e.channel).smoothed), list := l, cycle := e.cycle } := by
      rw [alarmChange, hk, hc]
      rfl
    have hmonitor : s.monitor l e r =
        if (alarmChange s l e r).raisesNotice then
          { s.setChannel e.channel ((s.channel e.channel).afterResult cfg r) with
            alarms := noteTransition (alarmChange s l e r) s.alarms }
        else s.setChannel e.channel ((s.channel e.channel).afterResult cfg r) := by
      rw [hchange]
      simp only [State.monitor, hc]
    rw [hmonitor, hk]
    by_cases hn : (alarmChange s l e r).raisesNotice = true
    · rw [if_pos hn, if_neg ((raisesNotice_iff _).mp hn)]
    · rw [if_neg hn, if_pos (not_not.mp (fun h => hn ((raisesNotice_iff _).mpr h)))]
      rfl

theorem validValue_eq (r : Result) : r.validValue = if r.status = .ok ∨ r.status = .saturated then r.value else none := by
  unfold Result.validValue
  cases r.status <;> simp

/-- The record of a retiring entry, from the channel after the monitor's step. -/
theorem buildRecord_eq : buildRecord l c (s.list l) (s.runMark l) (monitoredChannel (s.channel e.channel) r) e r =
    recordOf s l c e r := by
  have hsmoothed : ∀ k : Channel, k.smoothedField = k.config.bind (fun cfg => if cfg.shift = 0 then none else k.smoothed) := by
    intro k
    unfold Channel.smoothedField
    cases k.config <;> rfl
  have hraw : ∀ k : Channel, k.rawField r.ratio = k.config.bind (fun cfg => if cfg.includeRaw then r.ratio else none) := by
    intro k
    unfold Channel.rawField
    cases k.config <;> rfl
  rw [buildRecord, recordOf, validValue_eq, hsmoothed, hraw]
  rfl

/-- What follows the departure of an entry is step 7 of a retirement. -/
theorem afterRetire_eq (s : State) (l : ListId) (last : Bool) : s.afterRetire l last = goesOn s l last := by
  have hcount : s.countCycle l = s.setList l { s.list l with remaining := oneFewer (s.list l).remaining } := by
    have hd : (s.list l).remaining.decrement = oneFewer (s.list l).remaining := by cases (s.list l).remaining <;> rfl
    rw [State.countCycle, hd]
  have hwindow : ((s.countCycle l).list l).window = (s.list l).window := by rw [hcount, list_setList_same]
  cases hstate : (s.list l).state with
  | draining =>
    cases last with
    | false => simp only [State.afterRetire, goesOn, hstate, Bool.false_eq_true, if_false, State.endDrain, finishList_eq]
    | true =>
      simp only [State.afterRetire, goesOn, hstate, if_true, State.endDrain, hwindow, finishList_eq]
      simp only [hcount, hstate]
  | _ => simp only [State.afterRetire, goesOn, hstate]

/-- A READY head retires. -/
theorem retireHead_eq (hc : (s.list l).config = some c) (hw : (s.list l).window = e :: w) (he : e.stage = .ready r) (admitted : Bool) :
    s.retireHead l admitted = goesOn (retired s l c e w r admitted) l (decide (e.step + 1 = c.steps.length)) := by
  have hready : (s.list l).readyHead = some (c, e, w, r) := by simp only [ListRec.readyHead, hc, hw, he]
  have hmon := monitor_eq s l e r
  have hchannel : (s.monitor l e r).channel e.channel = monitoredChannel (s.channel e.channel) r := by
    rw [hmon]
    exact (State.channel_setChannel s e.channel e.channel _).trans (if_pos rfl)
  have hlist : (s.monitor l e r).list l = s.list l := by rw [hmon]; rfl
  have hretire : s.retireHead l admitted =
      (if admitted then ((s.monitor l e r).setList l ((s.list l).afterHead e w)).appendRecord (recordOf s l c e r)
        else (s.monitor l e r).setList l ((s.list l).afterHead e w)).afterRetire l (decide (e.step + 1 = c.steps.length)) := by
    simp only [State.retireHead, hready, hchannel, hlist, buildRecord_eq]
    rfl
  rw [hretire, afterRetire_eq, hmon]
  cases admitted <;> rfl

/-- Settles O22: the attempt by the room and the policy, the retirement by `retireHead_eq`. -/
theorem retirementBuildsTheRecord : Obligations.RetirementBuildsTheRecord := by
  refine ⟨fun s l c e w r hc hw he => ?_, fun s l hnone => ?_⟩
  · have hready : (s.list l).readyHead = some (c, e, w, r) := by simp only [ListRec.readyHead, hc, hw, he]
    have hpolicy : (s.list l).policy = c.policy := by rw [ListRec.policy, hc]
    have hattempt : s.attemptRetire l =
        if s.reports.length < Config.reportPlaces then ({ s with blocked := s.blocked.erase l }.retireHead l true).choose
        else match c.policy with
          | .discard => (s.retireHead l false).choose
          | .hold => if l ∈ s.blocked then s else { s with blocked := s.blocked ++ [l] } := by
      simp only [State.attemptRetire, hready, hpolicy] <;> rfl
    refine ⟨fun hroom => ?_, fun hfull hp => ?_, fun hfull hp => ?_⟩
    · rw [if_pos (show s.reports.length < Config.reportPlaces from hroom), choose_eq,
        retireHead_eq (s := { s with blocked := s.blocked.erase l }) hc hw he] at hattempt
      exact congrArg Host.Outcome.next hattempt
    · rw [if_neg (show ¬ s.reports.length < Config.reportPlaces from Nat.not_lt_of_le hfull), hp] at hattempt
      dsimp only at hattempt
      rw [choose_eq, retireHead_eq hc hw he] at hattempt
      exact congrArg Host.Outcome.next hattempt
    · rw [if_neg (show ¬ s.reports.length < Config.reportPlaces from Nat.not_lt_of_le hfull), hp] at hattempt
      exact congrArg Host.Outcome.next hattempt
  · have hattempt : s.attemptRetire l = s := by rw [State.attemptRetire, hnone]
    exact congrArg Host.Outcome.next hattempt

/-! ### The end of a frame -/

section
variable {f : TxFrame}

theorem sendingKind_of_tx (h : s.tx = some f) {k : TxKind} (hk : f.kind = k) : s.sendingKind = some k := by
  rw [State.sendingKind, h, Option.map_some, hk]

theorem sendingKind_ne {k : TxKind} (h : ∀ f, s.tx = some f → f.kind ≠ k) : s.sendingKind ≠ some k := by
  intro hk
  obtain ⟨f, hf, hkind⟩ := Option.map_eq_some_iff.mp hk
  exact h f hf hkind

/-- Keeping what a function answers is the concatenation of what it answers. -/
theorem filterMap_eq_flatMap {α : Type} {g : α → Option α} {k : α → List α} (h : ∀ x, k x = (g x).toList) (xs : List α) :
    xs.filterMap g = xs.flatMap k := by
  rw [List.filterMap_eq_flatMap_toList]
  exact List.flatMap_congr (fun x _ => (h x).symm)

/-- Settles O48: each end by the kind of the frame. -/
theorem sentItemsLeaveTheirCollections : Obligations.SentItemsLeaveTheirCollections := by
  refine ⟨fun s f h hk => ?_, fun s f h hk => ?_, fun s f h hk => ?_, fun s => ⟨fun h => ?_, fun h => ?_, fun h => ?_⟩⟩
  · refine congrArg Host.Outcome.next ((if_pos (sendingKind_of_tx h hk)).trans ?_)
    rw [choose_eq]
  · have hkept : s.alarms.filterMap AlarmNotice.afterFrame = s.alarms.flatMap (fun n => match n.sending with
        | none => [n]
        | some k => if k.late = 0 then [] else [{ n with prior := k.carried, count := k.late, sending := none }]) := by
      refine filterMap_eq_flatMap (fun n => ?_) _
      unfold AlarmNotice.afterFrame
      cases n.sending with
      | none => rfl
      | some k => by_cases hl : k.late = 0 <;> simp [hl]
    refine congrArg Host.Outcome.next ((if_pos (sendingKind_of_tx h hk)).trans ?_)
    rw [choose_eq, hkept] <;> rfl
  · have hkept : s.notices.filterMap PartNotice.afterFrame = s.notices.flatMap (fun n => match n.late with
        | none => [n]
        | some k => if k = 0 then [] else [{ n with count := k, late := none }]) := by
      refine filterMap_eq_flatMap (fun n => ?_) _
      unfold PartNotice.afterFrame
      cases n.late with
      | none => rfl
      | some k => by_cases hl : k = 0 <;> simp [hl]
    refine congrArg Host.Outcome.next ((if_pos (sendingKind_of_tx h hk)).trans ?_)
    rw [choose_eq, hkept] <;> rfl
  · exact congrArg Host.Outcome.next (if_neg (sendingKind_ne h))
  · exact congrArg Host.Outcome.next (if_neg (sendingKind_ne h))
  · exact congrArg Host.Outcome.next (if_neg (sendingKind_ne h))

theorem handOut_of_none (h : s.blocked = []) (n : Nat) : s.handOut n = s := by
  cases n with
  | zero => rfl
  | succ n => rw [State.handOut, h]

/-- Settles O49: the end of the frame and each place of the hand-out. -/
theorem sentRecordsOpenPlaces : Obligations.SentRecordsOpenPlaces := by
  have row {s : State} {f : TxFrame} {n : Nat} (h : s.tx = some f) (hk : f.kind = .report n) :
      exec .reportFrameSent s = .next (chosen ((s.reportTaken n).handOut n)) := by
    refine congrArg Host.Outcome.next ((reportSent_eq (sendingKind_of_tx h hk)).trans ?_)
    rw [choose_eq]
  refine ⟨fun s f n h hk hnone => ?_, fun s f n h hk => row h hk, fun s u n l rest hb hu => ?_, fun s => rfl,
    fun s n hnone => handOut_of_none hnone n, fun s h => ?_⟩
  · rw [row h hk, handOut_of_none (s := s.reportTaken n) hnone]
    rfl
  · rw [State.handOut, hb, hu]
    rfl
  · exact congrArg Host.Outcome.next (reportSent_of_other (fun n => sendingKind_ne (fun f hf => h f n hf)))

end

end

end Sys2Proof.Machine
end

