-- ==== Sys2Proof/Proofs/TransmitRows.lean ====
section
/-! PROOF. The beginning of a frame: what is taken, that a choice stands, and what the frame holds (R151, R169, R170). -/

-- One proof after another, as in the tests: side by side they take more threads than memory allows.
set_option Elab.async false

namespace Sys2Proof.Machine

open Sys2Proof.Safety

variable {s t : State}

/-! ### Layouts of what is sent (R191 to R193) -/

/-- The flags byte has the bit of each field that is present. -/
theorem flags_toNat (r : Record) :
    r.flags.toNat = (if r.endOfCycle then 1 else 0) + (if r.runStart then 2 else 0) + (if r.value.isSome then 4 else 0) +
      (if r.smoothed.isSome then 8 else 0) + (if r.raw.isSome then 16 else 0) + (if r.skipped.isSome then 32 else 0) := by
  have bits : ∀ a b c d e f : Bool,
      (flagBit a 0 ||| flagBit b 1 ||| flagBit c 2 ||| flagBit d 3 ||| flagBit e 4 ||| flagBit f 5).toNat =
        (if a then 1 else 0) + (if b then 2 else 0) + (if c then 4 else 0) + (if d then 8 else 0) + (if e then 16 else 0) +
          (if f then 32 else 0) := by decide
  exact bits _ _ _ _ _ _

theorem record_bytes_eq (r : Record) :
    r.bytes = [byte r.list.val, byte r.step, byte r.channel.val, statusCode r.status, r.flags] ++ leBytes 2 r.seq.toNat ++
      leBytes 2 r.cycle.toNat ++ r.value.elim [] int32Bytes ++ r.smoothed.elim [] int32Bytes ++ r.raw.elim [] (leBytes 3) ++
      r.skipped.elim [] (fun n => [byte n]) := by
  rw [statusCode_eq, Record.bytes]
  cases r.value <;> cases r.smoothed <;> cases r.raw <;> cases r.skipped <;> rfl

theorem alarm_bytes_eq (n : AlarmNotice) :
    n.bytes = [byte n.channel.val, alarmCode n.prior, alarmCode n.newState, byte n.count, byte n.list.val] ++
      leBytes 2 n.cycle.toNat ++ n.value.elim [] int32Bytes := by
  rw [alarmCode_eq, alarmCode_eq, AlarmNotice.bytes]
  cases n.value <;> rfl

theorem notice_payload_eq (n : PartNotice) :
    n.payload = [(noticeCodes n.event).1, (noticeCodes n.event).2.1, byte n.count, (noticeCodes n.event).2.2] := by
  rw [PartNotice.payload]
  cases n.event with
  | coreOffline c why => cases why <;> rfl
  | listFinished l why => cases why <;> rfl
  | ready | linkError | commandOverrun | sessionExpired | linkReset => rfl

/-! ### The beginning of a frame -/

theorem exec_transmitFrameBegin_of_busy (h : ¬ FreeToChoose s) : exec .transmitFrameBegin s = .next s :=
  congrArg Host.Outcome.next (if_neg (fun hm => h (mayChoose_iff.mp hm)))

theorem exec_transmitFrameBegin_of_none (hnone : s.choice = none) (hfirst : firstAvailable s = none) :
    exec .transmitFrameBegin s = .next s := by
  refine congrArg Host.Outcome.next ?_
  split
  · rw [State.beginChosen, choose_eq_self (fun _ _ => hfirst), hnone]
  · rfl

/-- The frame that begins is the one of the choice, or of the first item where the choice is still to be made. -/
theorem exec_transmitFrameBegin (hfree : FreeToChoose s) {k : ItemKind} (h : BeginsNext s k) :
    exec .transmitFrameBegin s = .next (s.beginItem k) := by
  have hchoice : s.choose.choice = some k := by
    rcases h with hsome | ⟨hnone, hfirst⟩
    · rw [choose_of_some hsome, hsome]
    · rw [choose_eq]
      exact (if_pos ⟨hfree, hnone⟩).trans hfirst
  refine congrArg Host.Outcome.next ((if_pos (mayChoose_iff.mpr hfree)).trans ?_)
  rw [State.beginChosen, hchoice]

theorem beginItem_reply {r : Reply} {rest : List Reply} (h : s.replies = r :: rest) : s.beginItem .reply = s.beginReply r := by
  rw [State.beginItem, h]

theorem beginItem_notice {n : PartNotice} {rest : List PartNotice} (h : s.notices = n :: rest) :
    s.beginItem .notice = s.beginNotice n rest := by rw [State.beginItem, h]

/-! ### A choice made stands (R170) -/

/-- Only the beginning of the frame and a reset take a choice away. -/
theorem choice_kept {c : Instr} {k : ItemKind} (hk : s.choice = some k)
    (hc : c ≠ .transmitFrameBegin ∧ c ≠ .linkReset ∧ (∀ b, c ≠ .powerOnReset b ∧ c ≠ .partReset b)) :
    (s.after c).choice = some k := by
  obtain ⟨hbegin, hlink, hreset⟩ := hc
  by_cases honce : choosesOnce c = true
  · rcases after_choosesTo honce s with h | h
    · exact choice_choosesTo h hk
    · exact (h .choice (by simp [offerFields])).trans hk
  · cases c
    case frameReceived bytes => exact choice_takeBytes hk bytes
    case startByte =>
      show (if s.rx.state = .hunt then s.takeBytes [0x5A#8] else s).choice = some k
      split
      · exact choice_takeBytes hk _
      · exact hk
    case lengthOutOfRange len =>
      show (if s.rx.state = .length ∧ ¬ (2 ≤ len.toNat ∧ len.toNat ≤ 242) then s.takeBytes [len] else s).choice = some k
      split
      · exact choice_takeBytes hk _
      · exact hk
    case transmitFrameBegin => exact absurd rfl hbegin
    case linkReset => exact absurd rfl hlink
    case powerOnReset b => exact absurd rfl (hreset b).1
    case partReset b => exact absurd rfl (hreset b).2
    all_goals exact absurd rfl honce

/-! ### The notice of a link error goes out before a later reply -/

theorem notices_of_none_available (h : firstAvailable s = none) : s.replies = [] ∧ s.notices = [] := by
  unfold firstAvailable at h
  split_ifs at h with hr ha hn
  exact ⟨not_not.mp hr, not_not.mp hn⟩

/-- The state after the link error that the transmitter has chosen. -/
def State.errorChosen (s : State) : State :=
  { s with rx := s.rx.hunting, notices := [{ event := .linkError, count := 1, late := none }], choice := some .notice }

/-- An IDLE transmitter that has nothing to send takes the notice of a link error. -/
theorem linkError_of_none_available (hfree : FreeToChoose s) (hnone : s.choice = none) (hfirst : firstAvailable s = none) :
    exec .framingError s = .next s.errorChosen := by
  have hempty := notices_of_none_available hfirst
  have halarms : s.alarms = [] := by
    unfold firstAvailable at hfirst
    split_ifs at hfirst with hr ha
    exact not_not.mp ha
  refine congrArg Host.Outcome.next ((if_neg (by simp [hfree.2.1])).trans ?_)
  rw [State.linkError, choose_eq, State.raise]
  simp only [hempty.2, raiseIn]
  refine congrArg (fun o => ({ s with
    rx := s.rx.hunting, notices := [{ event := .linkError, count := 1, late := none }], choice := o } : State)) ?_
  refine (if_pos ⟨hfree, hnone⟩).trans ?_
  simp [firstAvailable, hempty.1, halarms]

/-- The reply of a command that follows leaves the choice, so the notice's frame begins. -/
theorem exec_begin_answered {f : Frame} {rest : List Frame} {o : OutcomeCode} (hfree : FreeToChoose s) (htaking : s.cmdUnit = .taking) :
    exec .transmitFrameBegin (answered s.errorChosen f rest o []) =
      .next ((answered s.errorChosen f rest o []).beginNotice { event := .linkError, count := 1, late := none } []) := by
  have hchoice : (answered s.errorChosen f rest o []).choice = some .notice := if_neg (fun h => nomatch h.2)
  have hfree2 : FreeToChoose (answered s.errorChosen f rest o []) :=
    ⟨hfree.1, hfree.2.1, fun hstop => nomatch htaking.symm.trans hstop⟩
  rw [exec_transmitFrameBegin hfree2 (.inl hchoice), beginItem_notice (rest := []) rfl]

/-- Settles O47: what begins a frame and what does not, that the choice stands, and each frame's contents. -/
theorem transmitterTakesTheFirstItem : Obligations.TransmitterTakesTheFirstItem := by
  refine ⟨fun s h => exec_transmitFrameBegin_of_busy (fun hfree => ?_), fun s hstop hno =>
      exec_transmitFrameBegin_of_busy (fun hfree => ?_), fun c s t k hk hc ht => ?_, fun s f rest o hfree hnone hfirst ht ho => ?_,
    fun r => ⟨r.flags, flags_toNat r, record_bytes_eq r⟩, alarm_bytes_eq, notice_payload_eq, fun s hfree => ⟨fun r rest hk hr => ?_,
      fun hk ha => ?_, fun n rest hk hn => ?_, fun hk hcredits hreports n hn => ?_, fun hnone hr ha hn hrep => ?_⟩⟩
  · rcases h with htx | hline
    · rw [hfree.1] at htx
      cases htx
    · exact Bool.false_ne_true (hfree.2.1.symm.trans hline)
  · obtain ⟨r, hr, hreset⟩ := hfree.2.2 hstop
    exact hno r hr hreset
  · rw [eq_after_of_exec ht]
    exact choice_kept hk hc
  · have hrow := linkError_of_none_available hfree hnone hfirst
    have hbegin := exec_begin_answered (f := f) (rest := rest) (o := o) hfree ht.2.1
    exact ⟨_, _, _, hrow, refused_of_common (rest := rest) ht ho, by simp [answered, chosen], hbegin, rfl⟩
  · rw [exec_transmitFrameBegin hfree hk, beginItem_reply hr, outcomeCode_eq]
    rfl
  · rw [exec_transmitFrameBegin hfree hk, State.beginItem, if_pos ha]
    rfl
  · rw [exec_transmitFrameBegin hfree hk, beginItem_notice hn]
    rfl
  · rw [exec_transmitFrameBegin hfree hk, State.beginItem, if_pos ⟨hcredits, hreports⟩]
    have hcount : s.reportCount = n := hn.symm
    have hlen : (s.reports.take n).length = n := by
      rw [List.length_take]
      omega
    rw [State.beginReport, hcount, reportPayload, hlen]
    rfl
  · refine exec_transmitFrameBegin_of_none hnone ?_
    have hoff : ¬ (0 < s.credits ∧ s.reports ≠ []) := fun ⟨h1, h2⟩ => hrep.elim (fun h => by omega) h2
    simp [firstAvailable, hr, ha, hn, hoff]

end Sys2Proof.Machine
end

