-- ==== Sys2Proof/Proofs/ReceiveRows.lean ====
section
/-! PROOF. The receiver: a byte reads back from its levels, a frame from its bytes, and each link error discards what is under
assembly (R158, R160 to R166, R187). -/

-- One proof after another, as in the tests: side by side they take more threads than memory allows.
set_option Elab.async false

namespace Sys2Proof.Machine

open Sys2Proof.Safety

variable {s : State}

/-! ### A byte on the line (R158) -/

/-- The low bits of a number, least significant first, spell it again. -/
theorem bitsValue_testBit (n x : Nat) : bitsValue ((List.range n).map x.testBit) = x % 2 ^ n := by
  induction n generalizing x with
  | zero => simp [bitsValue, Nat.mod_one]
  | succ n ih =>
    have hshift : (fun i => x.testBit i.succ) = (x / 2).testBit := funext (fun i => Nat.testBit_succ x i)
    rw [List.range_succ_eq_map, List.map_cons, List.map_map, Function.comp_def, hshift, bitsValue, ih, Nat.pow_succ',
      Nat.mod_mul]
    rcases Nat.mod_two_eq_zero_or_one x with h | h <;> simp [h]

theorem byteOfLevels_byteLevels (b : Byte) : byteOfLevels (byteLevels b) = some b := by
  have hbits : ((byteLevels b).drop 1).take 8 = (List.range 8).map b.toNat.testBit := rfl
  have hstop : (byteLevels b)[Config.bitsPerByte - 1]? = some true := rfl
  rw [byteOfLevels, if_pos hstop, hbits, bitsValue_testBit, Nat.mod_eq_of_lt b.isLt]
  simp

/-- The receiver reads a byte back from its levels. -/
theorem takeLevels_byteLevels (s : State) (b : Byte) : s.takeLevels (byteLevels b) = s.takeBytes [b] := by
  rw [State.takeLevels, byteOfLevels_byteLevels]

theorem takeLevels_of_stopLow {levels : List Bool} (h : levels[9]? = some false) (s : State) :
    s.takeLevels levels = if s.lineLow then s else s.linkError := by
  have hnone : byteOfLevels levels = none := if_neg (fun (ht : levels[9]? = some true) => nomatch h.symm.trans ht)
  rw [State.takeLevels, hnone]

theorem takeBytes_of_low (h : s.lineLow = true) (bs : List Byte) : s.takeBytes bs = s := if_pos h

theorem takeBytes_of_high (h : s.lineLow = false) (bs : List Byte) : s.takeBytes bs = bs.foldl State.takeByte s :=
  if_neg (by simp [h])

theorem takeBytes_cons (s : State) (b : Byte) (bs : List Byte) : s.takeBytes (b :: bs) = (s.takeBytes [b]).takeBytes bs := by
  by_cases hlow : s.lineLow = true
  · rw [takeBytes_of_low hlow, takeBytes_of_low hlow, takeBytes_of_low hlow]
  · have hhigh : s.lineLow = false := Bool.of_not_eq_true hlow
    have hkept : (s.takeByte b).lineLow = false := ((takeByte_frameTo s b) .lineLow rfl).trans hhigh
    rw [takeBytes_of_high hhigh, takeBytes_of_high hhigh, List.foldl_cons, List.foldl_cons, List.foldl_nil,
      takeBytes_of_high hkept]

/-- The levels of several bytes bring the bytes. -/
theorem foldl_takeLevels (s : State) (bs : List Byte) : (bs.map byteLevels).foldl State.takeLevels s = s.takeBytes bs := by
  induction bs generalizing s with
  | nil => exact (ite_self s).symm
  | cons b bs ih => rw [List.map_cons, List.foldl_cons, takeLevels_byteLevels, ih, ← takeBytes_cons]

/-! ### The transmit line -/

theorem transmitLevel_of_none (h : s.byteSending = none) (n : Nat) : s.transmitLevel n = true := by
  rw [State.transmitLevel, h]; rfl

theorem transmitLevel_of_some {b : Byte} (h : s.byteSending = some b) {n : Nat} {level : Bool}
    (hn : (byteLevels b)[n]? = some level) : s.transmitLevel n = level := by
  rw [State.transmitLevel, h]
  exact (congrArg (Option.getD · idleLevel) hn)

/-! ### A frame under assembly (R160) -/

/-- The start byte begins a frame. -/
def State.startTaken (s : State) : State :=
  { s with rx := { state := .length, len := 0, body := [], check := [], crc := 0xFFFF#16, expiry := some (s.now + 320000) } }

theorem exec_startByte (hstate : s.rx.state = .hunt) (hline : s.lineLow = false) :
    exec .startByte s = .next s.startTaken := by
  refine congrArg Host.Outcome.next ((if_pos hstate).trans ?_)
  rw [takeBytes_of_high hline, List.foldl_cons, List.foldl_nil, State.takeByte, hstate]
  rfl

/-- The bytes of the body, when they are as many as LEN says. -/
theorem foldl_takeBody {bs : List Byte} (hne : bs ≠ []) (hstate : s.rx.state = .body)
    (hlen : s.rx.body.length + bs.length = s.rx.len) :
    bs.foldl State.takeByte s = { s with
      rx := { s.rx with state := .check, body := s.rx.body ++ bs, crc := crcBytes s.rx.crc bs, expiry := s.rxExpiry } } := by
  induction bs generalizing s with
  | nil => exact absurd rfl hne
  | cons b bs ih =>
    have htake : s.takeByte b = s.takeBody b := by rw [State.takeByte, hstate]
    rw [List.foldl_cons, htake]
    cases bs with
    | nil =>
      have hfull : s.rx.body.length + 1 = s.rx.len := hlen
      rw [State.takeBody, if_pos hfull]
      rfl
    | cons c bs =>
      have hmore : s.rx.body.length + 1 ≠ s.rx.len := by simp only [List.length_cons] at hlen; omega
      rw [ih (by simp) (if_neg hmore) (by simp [State.takeBody] at hlen ⊢; omega)]
      simp [State.takeBody, State.rxExpiry, crcBytes]

/-- A frame under assembly of which one check byte is missing. -/
def State.assembled (s : State) (len : Byte) (body : List Byte) (crc : Num16) (lo : Byte) : State :=
  { s with rx := { state := .check, len := len.toNat, body := body, check := [lo], crc := crc, expiry := some (s.now + 320000) } }

/-- The bytes behind the start byte, up to the last, which has the frame judged. -/
theorem takeBytes_frame {len : Byte} {body : List Byte} {lo hi : Byte} (hline : s.lineLow = false) (hmin : 2 ≤ len.toNat)
    (hmax : len.toNat ≤ 242) (hlen : body.length = len.toNat) :
    s.startTaken.takeBytes (len :: body ++ [lo, hi]) = (s.assembled len body (crcBytes 0xFFFF#16 (len :: body)) lo).judge lo hi := by
  have hbody : body ≠ [] := List.ne_nil_of_length_pos (by omega)
  have hlength : s.startTaken.takeByte len = { s with rx := {
      state := .body, len := len.toNat, body := [], check := [], crc := crcByte 0xFFFF#16 len
      expiry := some (s.now + 320000) } } := if_pos ⟨hmin, hmax⟩
  have hhigh : s.startTaken.lineLow = false := hline
  rw [takeBytes_of_high hhigh, List.cons_append, List.foldl_cons, List.foldl_append, hlength,
    foldl_takeBody hbody rfl (by simpa using hlen)]
  rfl

/-! ### The judgement of a frame (R161) -/

theorem linkError_eq (s : State) : s.linkError = chosen { s with
    rx := { s.rx with state := .hunt, len := 0, body := [], check := [], expiry := none }
    notices := raiseIn .linkError s.notices } := choose_eq _

theorem leValue_pair (lo hi : Byte) : leValue [lo, hi] = lo.toNat + 256 * hi.toNat := by simp [leValue]

theorem judge_of_bad {lo hi : Byte} (h : lo.toNat + 256 * hi.toNat ≠ s.rx.crc.toNat ∨
      ∃ kind ∈ [0x80#8, 0x81#8, 0x82#8, 0x83#8], s.rx.body.head? = some kind) : s.judge lo hi = s.linkError := by
  unfold State.judge
  rw [leValue_pair]
  split_ifs with hcrc
  · rfl
  · obtain ⟨kind, hkind, hhead⟩ := h.resolve_left (not_not.mpr (not_not.mp hcrc))
    cases hb : s.rx.body with
    | nil => rfl
    | cons k body =>
      rw [hb, List.head?_cons, Option.some.injEq] at hhead
      cases body with
      | nil => rfl
      | cons tag payload => exact if_pos (hhead ▸ hkind)

/-- A good frame is placed in an empty slot, and with none it overruns (R164). -/
theorem judge_of_good {len lo hi kind tag : Byte} {payload : List Byte} {crc : Num16} (hcrc : leValue [lo, hi] = crc.toNat)
    (hkind : kind ∉ [0x80#8, 0x81#8, 0x82#8, 0x83#8]) {r : Receiver}
    (hr : r = { state := .hunt, len := 0, body := [], check := [], expiry := none, crc := crc }) :
    (s.assembled len (kind :: tag :: payload) crc lo).judge lo hi =
      if s.slots.length < 4 then { s with rx := r, slots := s.slots ++ [{ kind := kind, tag := tag, payload := payload }] }
      else chosen { s with rx := r, notices := raiseIn (.commandOverrun tag) s.notices } := by
  subst hr
  refine (if_neg (not_not.mpr hcrc)).trans ((if_neg hkind).trans ?_)
  rw [← choose_eq]
  rfl

theorem exec_lengthOutOfRange (hline : s.lineLow = false) (hstate : s.rx.state = .length) {len : Byte}
    (hlen : len.toNat < 2 ∨ 242 < len.toNat) : exec (.lengthOutOfRange len) s = .next s.linkError := by
  have hout : ¬ (2 ≤ len.toNat ∧ len.toNat ≤ 242) := by omega
  refine congrArg Host.Outcome.next ((if_pos ⟨hstate, hout⟩).trans ?_)
  rw [takeBytes_of_high hline, List.foldl_cons, List.foldl_nil, State.takeByte, hstate]
  exact if_neg hout

/-- Settles O45: each way to a link error, and the rows that are not due. -/
theorem linkErrorsDiscardTheFrame : Obligations.LinkErrorsDiscardTheFrame := by
  refine ⟨fun s len body lo hi crc hstate hline hmin hmax hlen hcrc hbad => ⟨s.startTaken, exec_startByte hstate hline, ?_⟩,
    fun s hstate hline => exec_startByte hstate hline, fun s u hu => ⟨fun hline => ?_, fun t ht => ?_, fun len hline hstate hlen => ?_⟩,
    fun s => ⟨fun h => ?_, fun hline => ?_, fun hnone => ?_, fun len bytes => ⟨fun h => ?_, fun hline => ?_⟩⟩⟩
  · subst hcrc
    refine congrArg Host.Outcome.next ((takeBytes_frame hline hmin hmax hlen).trans ?_)
    rw [judge_of_bad hbad, linkError_eq]
    rfl
  · rw [hu, ← linkError_eq]
    exact congrArg Host.Outcome.next (if_neg (by simp [hline]))
  · subst hu
    refine congrArg Host.Outcome.next ?_
    rw [State.expireFrame, ht]
    exact linkError_eq (s.advanceTo t)
  · rw [hu, ← linkError_eq]
    exact exec_lengthOutOfRange hline hstate hlen
  · refine congrArg Host.Outcome.next ?_
    split_ifs with hstate
    · exact takeBytes_of_low (h.resolve_left (not_not.mpr hstate)) _
    · rfl
  · exact congrArg Host.Outcome.next (if_pos hline)
  · refine congrArg Host.Outcome.next ?_
    rw [State.expireFrame, hnone]
  · refine congrArg Host.Outcome.next ?_
    split_ifs with hdue
    · exact takeBytes_of_low (h.resolve_right (fun hr => hr.elim (fun hn => hn hdue.1) hdue.2)) _
    · rfl
  · exact congrArg Host.Outcome.next (takeBytes_of_low hline bytes)

/-- The two check bytes spell the check. -/
theorem leValue_check (crc : Num16) : leValue [byte crc.toNat, byte (crc.toNat / 256)] = crc.toNat := by
  have hlt := crc.isLt
  rw [leValue_pair, byte_toNat, byte_toNat]
  omega

/-- What follows the start byte of a frame: LEN, body and the check over both. -/
theorem drop_frameBytes (kind tag : Byte) (payload : List Byte) :
    (frameBytes kind tag payload).drop 1 = byte (payload.length + 2) :: (kind :: tag :: payload) ++
      [byte (crcBytes 0xFFFF#16 (byte (payload.length + 2) :: kind :: tag :: payload)).toNat,
       byte ((crcBytes 0xFFFF#16 (byte (payload.length + 2) :: kind :: tag :: payload)).toNat / 256)] := by
  rw [frameBytes, List.cons_append, List.drop_succ_cons, List.drop_zero]
  rfl

/-- Settles O44: levels, check, transmit line, and the frame that is sent and taken again. -/
theorem framesReadBackAsSent : Obligations.FramesReadBackAsSent := by
  refine ⟨fun bs kind tag => ⟨(checkOf_eq bs).symm, ?_⟩, fun b => ⟨rfl, fun s => takeLevels_byteLevels s b⟩,
    fun levels s h => ?_, fun s bs => ?_, fun s n htx hcut => ?_, fun s b n level hb hn => ?_,
    fun s kind tag payload r hstate hline hlen hkind hr => ⟨s.startTaken, exec_startByte hstate hline, ?_⟩⟩
  · rw [checkOf_eq]
    rfl
  · exact congrArg Host.Outcome.next (takeLevels_of_stopLow h s).symm
  · exact congrArg Host.Outcome.next (foldl_takeLevels s bs).symm
  · refine transmitLevel_of_none ?_ n
    rw [State.byteSending, hcut, htx]
    rfl
  · refine transmitLevel_of_some ?_ hn
    rcases hb with ⟨hcut, f, htx, hbyte⟩ | hcut
    · rw [State.byteSending, hcut, htx]
      exact hbyte
    · rw [State.byteSending, hcut]
  · have hnum : (byte (payload.length + 2)).toNat = payload.length + 2 := by rw [byte_toNat]; omega
    rw [drop_frameBytes]
    refine congrArg Host.Outcome.next ((takeBytes_frame hline (by omega) (by omega) (by rw [hnum]; rfl)).trans ?_)
    exact judge_of_good (leValue_check _) hkind hr

end Sys2Proof.Machine
end

