-- ==== Sys2Proof/Proofs/Discards.lean ====
section
/-! PROOF. Cores reached one after another by an abort or a link reset: conversions cancelled, latches discarded, and the
requests that the cores gone offline leave without a core (R12, R15, R16, R82, R83). -/

-- One proof after another, as in the tests: side by side they take more threads than memory allows.
set_option Elab.async false

namespace Sys2Proof.Machine

open Sys2Proof.Safety

variable {s t u : State}

/-! ### Requests that are lost, and their completions -/

theorem mem_lostWith {cs : List CoreId} {r : Request} :
    r ∈ lostWith s cs ↔ r ∈ s.pool ∧ BothOffline s r.input ∧ ∃ c ∈ cs, serves c r.input = true := by
  rw [lostWith, List.mem_filter, decide_eq_true_eq]

theorem lostWith_nil (s : State) : lostWith s [] = [] := by simp [lostWith]

/-- A request is lost at the last of the cores that serves its input. -/
def lostAt (s : State) (cs : List CoreId) (c : CoreId) : List Request :=
  (lostWith s [c]).filter (fun r => decide (∀ d ∈ cs, serves d r.input = true → d ≤ c))

theorem lostInTurn_eq (s : State) (cs : List CoreId) : lostInTurn s cs = cs.flatMap (lostAt s cs) := rfl

theorem lostAt_eq (s : State) (cs : List CoreId) (c : CoreId) :
    lostAt s cs c = s.pool.filter (fun r => decide ((BothOffline s r.input ∧ serves c r.input = true) ∧
      ∀ d ∈ cs, serves d r.input = true → d ≤ c)) := by
  rw [lostAt, lostWith, List.filter_filter]
  refine List.filter_congr (fun r _ => ?_)
  rw [← Bool.decide_and, decide_eq_decide, and_comm]
  simp

theorem mem_lostInTurn {cs : List CoreId} {r : Request} : r ∈ lostInTurn s cs ↔ r ∈ lostWith s cs := by
  rw [lostInTurn_eq, List.mem_flatMap, mem_lostWith]
  constructor
  · rintro ⟨c, hc, hr⟩
    rw [lostAt_eq, List.mem_filter, decide_eq_true_eq] at hr
    exact ⟨hr.1, hr.2.1.1, c, hc, hr.2.1.2⟩
  · rintro ⟨hpool, hoff, hex⟩
    obtain ⟨c, hc, hmax⟩ := Finset.exists_max_image (cs.toFinset.filter (fun c => serves c r.input = true)) id
      (by obtain ⟨c, hc, hs⟩ := hex; exact ⟨c, Finset.mem_filter.mpr ⟨List.mem_toFinset.mpr hc, hs⟩⟩)
    obtain ⟨hmem, hserves⟩ := Finset.mem_filter.mp hc
    refine ⟨c, List.mem_toFinset.mp hmem, ?_⟩
    rw [lostAt_eq, List.mem_filter, decide_eq_true_eq]
    exact ⟨hpool, ⟨hoff, hserves⟩, fun d hd hs => hmax d (Finset.mem_filter.mpr ⟨List.mem_toFinset.mpr hd, hs⟩)⟩

/-- With the same pool, and the same of its inputs without a core, the same requests are lost. -/
theorem lostInTurn_congr (hpool : t.pool = s.pool) (hoff : ∀ i, BothOffline t i ↔ BothOffline s i) (cs : List CoreId) :
    lostInTurn t cs = lostInTurn s cs := by
  rw [lostInTurn_eq, lostInTurn_eq]
  refine List.flatMap_congr (fun c _ => ?_)
  simp only [lostAt_eq, hpool, hoff]

theorem bothOffline_congr (h : ∀ c, (t.core c).state.isOffline = (s.core c).state.isOffline) (i : InputId) :
    BothOffline t i ↔ BothOffline s i := by
  rw [← unreachable_iff, ← unreachable_iff, State.unreachable, State.unreachable, h, h]

/-- A reply to a pending SAMPLE does not depend on the entries of others. -/
theorem replyOf_filter_of {ds : List Deferred} {r : Request} {p : Deferred → Bool} (h : ∀ d, r.origin = .sample d.uid → p d = true) :
    replyOf (ds.filter p) r = replyOf ds r := by
  induction ds with
  | nil => rfl
  | cons d ds ih =>
    by_cases hd : p d = true
    · rw [List.filter_cons_of_pos hd]
      simp only [replyOf, List.findSome?_cons] at ih ⊢
      rw [ih]
    · have hne : r.origin ≠ .sample d.uid := fun ho => hd (h d ho)
      rw [List.filter_cons_of_neg hd, ih]
      simp only [replyOf, List.findSome?_cons]
      cases d.subject <;> simp [hne]

theorem ApartAsSamples_symm : Std.Symm ApartAsSamples := ⟨fun _ _ h u hq hr => h u hr hq⟩

/-- Completions that follow others: the state is that of both together. -/
theorem completedNoCore_append {L M : List Request} (h : ∀ r ∈ L, ∀ q ∈ M, ApartAsSamples r q) :
    completedNoCore (completedNoCore s L) M = completedNoCore s (L ++ M) := by
  have hpool : (s.pool.filter (fun r => decide (r ∉ L))).filter (fun r => decide (r ∉ M)) =
      s.pool.filter (fun r => decide (r ∉ L ++ M)) := by
    rw [List.filter_filter]
    refine List.filter_congr (fun r _ => ?_)
    rw [← Bool.decide_and, decide_eq_decide, List.mem_append]
    tauto
  have hentry : ∀ (l : ListId) (e : Entry), completedEntry M l (completedEntry L l e) = completedEntry (L ++ M) l e := by
    intro l e
    have hstep : (completedEntry L l e).step = e.step := by unfold completedEntry; split <;> rfl
    unfold completedEntry at hstep ⊢
    simp only [hstep, List.mem_append, or_and_right, exists_or]
    by_cases hM : ∃ r ∈ M, r.origin = .entry l e.step <;> by_cases hL : ∃ r ∈ L, r.origin = .entry l e.step <;> simp [hM, hL]
  have hdeferred : (s.deferred.filter (fun d => decide (∀ r ∈ L, r.origin ≠ .sample d.uid))).filter
      (fun d => decide (∀ r ∈ M, r.origin ≠ .sample d.uid)) =
      s.deferred.filter (fun d => decide (∀ r ∈ L ++ M, r.origin ≠ .sample d.uid)) := by
    rw [List.filter_filter]
    refine List.filter_congr (fun d _ => ?_)
    rw [← Bool.decide_and, decide_eq_decide]
    simp only [List.mem_append, or_imp, forall_and]
    exact and_comm
  have hreplies : noCoreReplies (completedNoCore s L) M = noCoreReplies s M := by
    rw [noCoreReplies_eq, noCoreReplies_eq]
    refine List.filterMap_congr (fun q hq => replyOf_filter_of (fun d hd => decide_eq_true (fun r hr hro => ?_)))
    exact h r hr q hq d.uid hro hd
  have hlists : (Vector.ofFn (fun l => { (completedNoCore s L).list l with
        window := ((completedNoCore s L).list l).window.map (completedEntry M l) })) =
      Vector.ofFn (fun l => { s.list l with window := (s.list l).window.map (completedEntry (L ++ M) l) }) := by
    ext1 i hi
    simp only [Vector.getElem_ofFn, State.list, completedNoCore, Vector.get_eq_getElem, List.map_map]
    congr 2
    funext e
    exact hentry _ e
  have hall : noCoreReplies s (L ++ M) = noCoreReplies s L ++ noCoreReplies s M := by
    simp only [noCoreReplies_eq, List.filterMap_append]
  unfold completedNoCore at hreplies hlists ⊢
  simp only [hpool, hdeferred, hreplies, hlists, hall, List.append_assoc]

/-- The SAMPLEs of what is left of the pool are still pending after the completions. -/
theorem SamplesPending_completed (h : SamplesPending s s.pool) {L : List Request} (hL : ∀ r ∈ L, r ∈ s.pool) :
    SamplesPending (completedNoCore s L) (completedNoCore s L).pool := by
  refine ⟨h.1.sublist List.filter_sublist, fun r hr u hu => ?_⟩
  obtain ⟨hpool, hnot⟩ := List.mem_filter.mp hr
  have hapart : ∀ q ∈ L, q.origin ≠ .sample u := by
    intro q hq hqu
    have hne : r ≠ q := fun he => of_decide_eq_true hnot (he ▸ hq)
    have := ApartAsSamples_symm
    exact h.1.forall hpool (hL q hq) hne u hu hqu
  have hreply : replyOf (completedNoCore s L).deferred r = replyOf s.deferred r :=
    replyOf_filter_of (fun d hd => decide_eq_true (fun q hq => by
      rw [hu, Origin.sample.injEq] at hd
      exact hd ▸ hapart q hq))
  rw [replyOf_sample _ hu, replyOf_sample _ hu] at hreply
  have hsame := congrArg Option.isSome hreply
  rw [Option.isSome_map, Option.isSome_map] at hsame
  rw [hsame]
  exact h.2 r hpool u hu

/-! ### Cores reached in ascending number -/

section
variable {conv p : Core → Bool}

/-- A core is reached: its conversion is cancelled, or its latch is discarded. -/
def State.discard (conv p : Core → Bool) (s : State) (c : CoreId) : State :=
  if conv (s.core c) then s.setCore c (conversionCancelled s.now (s.core c))
  else if p (s.core c) then s.leaveHold c
  else s

/-- What the discard makes of a core. -/
def Core.discarded (conv p : Core → Bool) (now : Nat) (k : Core) : Core :=
  if conv k then conversionCancelled now k else if p k then latchDiscarded k else k

/-- Of the cores reached, those that become IDLE. -/
def freedOf (p : Core → Bool) (s : State) (cs : List CoreId) : List CoreId :=
  cs.filter (fun c => p (s.core c) && !(s.core c).offlinePending)

/-- Of the cores reached, those that go OFFLINE. -/
def pendingOf (p : Core → Bool) (s : State) (cs : List CoreId) : List CoreId :=
  cs.filter (fun c => p (s.core c) && (s.core c).offlinePending)

/-- The state after the cores have been reached, but for the requests that are lost. -/
def State.discarded (conv p : Core → Bool) (s : State) (cs : List CoreId) : State :=
  { s with
    cores := Vector.ofFn (fun c => if c ∈ cs then (s.core c).discarded conv p s.now else s.core c)
    idleSince := idleSinceAfter s (freedOf p s cs)
    nextEvent := s.nextEvent + (freedOf p s cs).length
    holdOrder := s.holdOrder.filter (fun c => !(decide (c ∈ cs) && p (s.core c)))
    notices := offlineNotices (pendingOf p s cs) s.notices }

theorem discarded_core (s : State) (cs : List CoreId) (c : CoreId) :
    (s.discarded conv p cs).core c = if c ∈ cs then (s.core c).discarded conv p s.now else s.core c := by
  simp [State.core, State.discarded, Vector.get_eq_getElem]

theorem discarded_nil (s : State) : s.discarded conv p [] = s := by
  have hcores : Vector.ofFn s.core = s.cores := by ext1 i hi; simp [State.core, Vector.get_eq_getElem]
  have hidle : idleSinceAfter s [] = s.idleSince := by ext1 i hi; simp [idleSinceAfter, Vector.get_eq_getElem]
  simp [State.discarded, freedOf, pendingOf, offlineNotices, hcores, hidle]

/-- The cores after one more has been reached. -/
theorem discarded_cores_snoc {cs : List CoreId} {c : CoreId} :
    (s.discarded conv p (cs ++ [c])).cores = (s.discarded conv p cs).cores.set c ((s.core c).discarded conv p s.now) := by
  ext1 i hi
  simp only [State.discarded, Vector.getElem_ofFn, Vector.getElem_set, List.mem_append, List.mem_singleton]
  by_cases hic : c.val = i
  · have he : (⟨i, hi⟩ : CoreId) = c := Fin.ext hic.symm
    simp [hic, he]
  · have he : (⟨i, hi⟩ : CoreId) ≠ c := fun h => hic (congrArg Fin.val h).symm
    simp [hic, he]

theorem filter_erase_snoc {cs : List CoreId} {c : CoreId} (hp : p (s.core c) = true) (hnodup : s.holdOrder.Nodup) :
    s.holdOrder.filter (fun d => !(decide (d ∈ cs ++ [c]) && p (s.core d))) =
      (s.holdOrder.filter (fun d => !(decide (d ∈ cs) && p (s.core d)))).erase c := by
  rw [(hnodup.sublist List.filter_sublist).erase_eq_filter, List.filter_filter]
  refine List.filter_congr (fun d _ => ?_)
  by_cases hd : d = c
  · subst hd; simp [hp]
  · simp [hd]

theorem filter_same_snoc {cs : List CoreId} {c : CoreId} (hp : p (s.core c) = false) :
    s.holdOrder.filter (fun d => !(decide (d ∈ cs ++ [c]) && p (s.core d))) =
      s.holdOrder.filter (fun d => !(decide (d ∈ cs) && p (s.core d))) := by
  refine List.filter_congr (fun d _ => ?_)
  by_cases hd : d = c
  · subst hd; simp [hp]
  · simp [hd]

/-- One more core that is not in HOLD for the discard. -/
theorem discarded_snoc_of_other {cs : List CoreId} {c : CoreId} (hp : p (s.core c) = false) :
    s.discarded conv p (cs ++ [c]) = { s.discarded conv p cs with
      cores := (s.discarded conv p cs).cores.set c ((s.core c).discarded conv p s.now) } := by
  have hfreed : freedOf p s (cs ++ [c]) = freedOf p s cs := by simp [freedOf, hp]
  have hpending : pendingOf p s (cs ++ [c]) = pendingOf p s cs := by simp [pendingOf, hp]
  rw [← discarded_cores_snoc]
  simp only [State.discarded, hfreed, hpending, filter_same_snoc hp]

/-- One more core that becomes IDLE. -/
theorem discarded_snoc_of_freed {cs : List CoreId} {c : CoreId} (hc : c ∉ cs) (hp : p (s.core c) = true)
    (hpend : (s.core c).offlinePending = false) (hnodup : s.holdOrder.Nodup) :
    s.discarded conv p (cs ++ [c]) = { s.discarded conv p cs with
      cores := (s.discarded conv p cs).cores.set c ((s.core c).discarded conv p s.now)
      idleSince := (s.discarded conv p cs).idleSince.set c (s.discarded conv p cs).nextEvent
      nextEvent := (s.discarded conv p cs).nextEvent + 1
      holdOrder := (s.discarded conv p cs).holdOrder.erase c } := by
  have hfreed : freedOf p s (cs ++ [c]) = freedOf p s cs ++ [c] := by simp [freedOf, hp, hpend]
  have hpending : pendingOf p s (cs ++ [c]) = pendingOf p s cs := by simp [pendingOf, hp, hpend]
  have hnot : c ∉ freedOf p s cs := fun h => hc (List.mem_filter.mp h).1
  have hidle : idleSinceAfter s (freedOf p s cs ++ [c]) =
      (idleSinceAfter s (freedOf p s cs)).set c (s.nextEvent + (freedOf p s cs).length) := by
    ext1 i hi
    simp only [idleSinceAfter, Vector.getElem_ofFn, Vector.getElem_set, List.mem_append, List.mem_singleton]
    by_cases hic : c.val = i
    · have he : (⟨i, hi⟩ : CoreId) = c := Fin.ext hic.symm
      simp [hic, he, List.idxOf_append_of_notMem hnot]
    · have he : (⟨i, hi⟩ : CoreId) ≠ c := fun h => hic (congrArg Fin.val h).symm
      simp only [he, or_false, hic, if_false]
      split
      · rw [List.idxOf_append_of_mem ‹_›]
      · rfl
  rw [← discarded_cores_snoc]
  simp only [State.discarded, hfreed, hpending, hidle, filter_erase_snoc hp hnodup, List.length_append, List.length_singleton,
    Nat.add_assoc]

/-- One more core that goes OFFLINE. -/
theorem discarded_snoc_of_pending {cs : List CoreId} {c : CoreId} (hp : p (s.core c) = true)
    (hpend : (s.core c).offlinePending = true) (hnodup : s.holdOrder.Nodup) :
    s.discarded conv p (cs ++ [c]) = { s.discarded conv p cs with
      cores := (s.discarded conv p cs).cores.set c ((s.core c).discarded conv p s.now)
      notices := raiseIn (.coreOffline c .command) (s.discarded conv p cs).notices
      holdOrder := (s.discarded conv p cs).holdOrder.erase c } := by
  have hfreed : freedOf p s (cs ++ [c]) = freedOf p s cs := by simp [freedOf, hp, hpend]
  have hpending : pendingOf p s (cs ++ [c]) = pendingOf p s cs ++ [c] := by simp [pendingOf, hp, hpend]
  rw [← discarded_cores_snoc]
  simp only [State.discarded, hfreed, hpending, filter_erase_snoc hp hnodup, offlineNotices, List.foldl_append,
    List.foldl_cons, List.foldl_nil]

theorem latchDiscarded_of_free {k : Core} (h : k.offlinePending = false) :
    latchDiscarded k = { k with latch := none, state := .idle } := by
  cases k
  cases h
  rfl

theorem latchDiscarded_of_pending {k : Core} (h : k.offlinePending = true) :
    latchDiscarded k = { k with latch := none, state := .offline, offlinePending := false } := by
  rw [latchDiscarded, if_pos h]

theorem enterOffline_setCore (s : State) (c : CoreId) (k : Core) (order : List CoreId) (why : OfflineReason) :
    ({ s.setCore c k with holdOrder := order } : State).enterOffline c why =
      State.noCoreSweep c { s with
        cores := s.cores.set c { k with state := .offline, offlinePending := false }, holdOrder := order
        notices := raiseIn (.coreOffline c why) s.notices } := by
  have hcore : ({ s.setCore c k with holdOrder := order } : State).core c = k :=
    (State.core_setCore s c c k).trans (if_pos rfl)
  have hset : (s.setCore c k).setCore c { k with state := .offline, offlinePending := false } =
      s.setCore c { k with state := .offline, offlinePending := false } := State.setCore_setCore ..
  have hcores := congrArg State.cores hset
  rw [State.enterOffline, hcore]
  refine congrArg (State.noCoreSweep c) ?_
  exact congrArg (fun v => ({ s with
    cores := v, holdOrder := order, notices := raiseIn (.coreOffline c why) s.notices } : State)) hcores

theorem setCore_self (s : State) (c : CoreId) : s.setCore c (s.core c) = s := by
  rw [State.setCore, State.core, Vector.get_eq_getElem, Vector.set_getElem_self]

/-- What the fold asks of its predicates: a latch is discarded in HOLD, and a conversion is cancelled before. -/
structure Discards (conv p : Core → Bool) : Prop where
  hold : ∀ k : Core, p k = true → k.state = .hold
  online : ∀ k : Core, conv k = true → k.state.isOffline = false ∧ p k = false

theorem isOffline_discarded (h : Discards conv p) {now : Nat} {k : Core} (hk : p k = true → k.offlinePending = false) :
    (k.discarded conv p now).state.isOffline = k.state.isOffline := by
  unfold Core.discarded
  split_ifs with hconv hp
  · rw [(h.online k hconv).1]
    rfl
  · rw [h.hold k hp, latchDiscarded, hk hp]
    rfl
  · rfl

/-- A core that goes on without going OFFLINE leaves no request without a core. -/
theorem lostInTurn_set {c : CoreId} {k : Core} (hcores : t.cores = s.cores.set c k) (hpool : t.pool = s.pool)
    (hoff : k.state.isOffline = (s.core c).state.isOffline) (cs : List CoreId) : lostInTurn t cs = lostInTurn s cs := by
  refine lostInTurn_congr hpool (bothOffline_congr (fun d => ?_)) cs
  have hcore : t.core d = (s.setCore c k).core d := congrArg (Vector.get · d) hcores
  rw [hcore, State.core_setCore]
  split
  · rename_i hd
    subst hd
    exact hoff
  · rfl

/-- A request that a core in HOLD serves is not lost. -/
theorem not_bothOffline_of_hold {c : CoreId} {i : InputId} (hstate : (s.core c).state = .hold) (hs : serves c i = true) :
    ¬ BothOffline s i := fun h => by
  have := h c hs
  rw [hstate] at this
  simp at this

/-- A core in HOLD that goes OFFLINE after others: those lost before stay as they were, and it loses the rest. -/
theorem lostInTurn_snoc {cs : List CoreId} {c : CoreId} {k : Core} (hcores : t.cores = s.cores.set c k) (hpool : t.pool = s.pool)
    (hstate : (s.core c).state = .hold) (hlt : ∀ d ∈ cs, d < c) :
    lostInTurn t (cs ++ [c]) = lostInTurn s cs ++ lostWith (completedNoCore t (lostInTurn s cs)) [c] := by
  have hoff : ∀ i, serves c i = false → (BothOffline t i ↔ BothOffline s i) := by
    intro i hi
    refine forall_congr' (fun d => ?_)
    by_cases hd : d = c
    · subst hd; simp [hi]
    · have hcore : t.core d = (s.setCore c k).core d := congrArg (Vector.get · d) hcores
      rw [hcore, State.core_setCore, if_neg (fun h => hd h.symm)]
  have hmem : ∀ r, r ∈ lostInTurn s cs → serves c r.input = false := fun r hr =>
    Bool.of_not_eq_true (fun hs => not_bothOffline_of_hold hstate hs (mem_lostWith.mp (mem_lostInTurn.mp hr)).2.1)
  rw [lostInTurn_eq, lostInTurn_eq, List.flatMap_append, List.flatMap_singleton]
  congr 1
  · refine List.flatMap_congr (fun d hd => ?_)
    rw [lostAt_eq, lostAt_eq, hpool]
    refine List.filter_congr (fun r _ => ?_)
    rw [decide_eq_decide]
    simp only [List.mem_append, List.mem_singleton, or_imp, forall_and, forall_eq]
    constructor
    · rintro ⟨⟨hb, hs⟩, hall, hc⟩
      have hnot : serves c r.input = false :=
        Bool.of_not_eq_true (fun h => absurd (hc h) (not_le.mpr (hlt d hd)))
      exact ⟨⟨(hoff _ hnot).mp hb, hs⟩, hall⟩
    · rintro ⟨⟨hb, hs⟩, hall⟩
      have hnot : serves c r.input = false := Bool.of_not_eq_true (fun h => not_bothOffline_of_hold hstate h hb)
      exact ⟨⟨(hoff _ hnot).mpr hb, hs⟩, hall, fun h => absurd (h.symm.trans hnot) (by decide)⟩
  · rw [← lostInTurn_eq]
    have hY : lostWith (completedNoCore t (lostInTurn s cs)) [c] = (t.pool.filter (fun r => decide (r ∉ lostInTurn s cs))).filter
        (fun r => decide (BothOffline t r.input ∧ ∃ d ∈ [c], serves d r.input = true)) := rfl
    rw [hY, lostAt_eq, List.filter_filter]
    refine List.filter_congr (fun r _ => ?_)
    rw [← Bool.decide_and, decide_eq_decide]
    simp only [List.mem_singleton, exists_eq_left, List.mem_append]
    constructor
    · rintro ⟨⟨hb, hs⟩, -⟩
      exact ⟨⟨hb, hs⟩, fun hr => absurd ((hmem r hr).symm.trans hs) (by decide)⟩
    · rintro ⟨⟨hb, hs⟩, -⟩
      exact ⟨⟨hb, hs⟩, fun d hd _ => hd.elim (fun h => (hlt d h).le) (fun h => h.le)⟩

/-- The cores are reached one after another: each with its own part, and the requests that are lost on the way. -/
theorem foldl_discard (h : Discards conv p) {cs : List CoreId} (hsorted : cs.Pairwise (· < ·)) (hnodup : s.holdOrder.Nodup)
    (hsamples : pendingOf p s cs ≠ [] → SamplesPending s s.pool) :
    cs.foldl (State.discard conv p) s =
      completedNoCore (s.discarded conv p cs) (lostInTurn (s.discarded conv p cs) (pendingOf p s cs)) := by
  induction cs using List.reverseRecOn with
  | nil => exact (discarded_nil s).symm.trans (completedNoCore_nil _).symm
  | append_singleton cs c ih =>
    obtain ⟨hsort, -, hlt⟩ := List.pairwise_append.mp hsorted
    have hlt : ∀ d ∈ cs, d < c := fun d hd => hlt d hd c (by simp)
    have hc : c ∉ cs := fun hmem => lt_irrefl c (hlt c hmem)
    have hpendings : pendingOf p s (cs ++ [c]) = pendingOf p s cs ++ pendingOf p s [c] := List.filter_append ..
    rw [List.foldl_append, ih hsort (fun hne => hsamples (by simp [hpendings, hne]))]
    set X := s.discarded conv p cs with hX
    set L := lostInTurn X (pendingOf p s cs) with hL
    have hcore : (completedNoCore X L).core c = s.core c := by
      show X.core c = s.core c
      rw [hX, discarded_core, if_neg hc]
    show State.discard conv p (completedNoCore X L) c = _
    unfold State.discard
    rw [hcore]
    have hnow : (completedNoCore X L).now = s.now := rfl
    have honline : (p (s.core c) = true → (s.core c).offlinePending = false) →
        ((s.core c).discarded conv p s.now).state.isOffline = (X.core c).state.isOffline := fun hk =>
      (isOffline_discarded h hk).trans (congrArg (fun k : Core => k.state.isOffline) hcore.symm)
    by_cases hp : p (s.core c) = true
    · have hconv : ¬ conv (s.core c) = true := fun hcv => absurd (hp.symm.trans (h.online _ hcv).2) (by decide)
      rw [if_neg hconv, if_pos hp]
      have hmade : (s.core c).discarded conv p s.now = latchDiscarded (s.core c) := by
        rw [Core.discarded, if_neg hconv, if_pos hp]
      rcases leaveHold_cases (completedNoCore X L) c with ⟨hpend, heq⟩ | ⟨hpend, heq⟩ <;> rw [heq] <;> rw [hcore] at hpend
      · have hX' := discarded_snoc_of_pending (conv := conv) (cs := cs) hp hpend hnodup
        have hpending : pendingOf p s (cs ++ [c]) = pendingOf p s cs ++ [c] := by simp [pendingOf, hp, hpend]
        have hpool : SamplesPending X X.pool := hsamples (by simp [hpending])
        have hX'pool : (s.discarded conv p (cs ++ [c])).pool = X.pool := rfl
        have hlost : lostInTurn (s.discarded conv p (cs ++ [c])) (pendingOf p s cs ++ [c]) =
            L ++ lostWith (completedNoCore (s.discarded conv p (cs ++ [c])) L) [c] := by
          rw [hL]
          exact lostInTurn_snoc discarded_cores_snoc hX'pool ((congrArg Core.state hcore).trans (h.hold _ hp))
            (fun d hd => hlt d (List.mem_filter.mp hd).1)
        have hL' : ∀ r ∈ L, r ∈ s.pool := fun r hr => (mem_lostWith.mp (mem_lostInTurn.mp hr)).1
        have hapart : ∀ r ∈ L, ∀ q ∈ lostWith (completedNoCore (s.discarded conv p (cs ++ [c])) L) [c], ApartAsSamples r q := by
          intro r hr q hq
          obtain ⟨hqpool, hqL⟩ := List.mem_filter.mp (mem_lostWith.mp hq).1
          have hne : r ≠ q := fun he => of_decide_eq_true hqL (he ▸ hr)
          have := ApartAsSamples_symm
          exact hpool.1.forall (hL' r hr) hqpool hne
        rw [hpending, hlost, ← completedNoCore_append hapart,
          ← noCoreSweep_eq c (SamplesPending_completed (s := s.discarded conv p (cs ++ [c])) hpool hL'), hX', hmade, hcore,
          latchDiscarded_of_pending hpend, enterOffline_setCore]
        rfl
      · have hX' := discarded_snoc_of_freed (conv := conv) hc hp hpend hnodup
        have hpending : pendingOf p s (cs ++ [c]) = pendingOf p s cs := by simp [pendingOf, hp, hpend]
        have hlost : lostInTurn (s.discarded conv p (cs ++ [c])) (pendingOf p s cs) = L := by
          rw [hL]
          exact lostInTurn_set discarded_cores_snoc rfl (honline (fun _ => hpend)) _
        rw [hpending, hlost, hX', hmade, hcore, latchDiscarded_of_free hpend]
        rfl
    · have hfalse : p (s.core c) = false := Bool.of_not_eq_true hp
      have hX' := discarded_snoc_of_other (conv := conv) (cs := cs) hfalse
      have hpending : pendingOf p s (cs ++ [c]) = pendingOf p s cs := by simp [pendingOf, hfalse]
      have hlost : lostInTurn (s.discarded conv p (cs ++ [c])) (pendingOf p s cs) = L := by
        rw [hL]
        exact lostInTurn_set discarded_cores_snoc rfl (honline (fun ht => absurd ht hp)) _
      rw [if_neg hp, hpending, hlost, hX', Core.discarded]
      split
      · rfl
      · have hself : X = X.setCore c (s.core c) := by rw [← hcore]; exact (setCore_self X c).symm
        exact congrArg (completedNoCore · L) hself

end

end Sys2Proof.Machine
end

