-- ==== Sys2Proof/Proofs/BreakRows.lean ====
section
/-! PROOF. The link reset and the abort of a list with work: the state after each is the one that Safety.lean spells (R15, R16,
R69, R87, R167, R168). -/

-- One proof after another, as in the tests: side by side they take more threads than memory allows.
set_option Elab.async false

namespace Sys2Proof.Machine

open Sys2Proof.Safety

variable {s t u : State}

/-! ### The link reset reaches the cores -/

theorem dropSampleLatch_eq : State.dropSampleLatch = State.discard (fun _ => false) holdsSample := by
  funext s c
  simp [State.dropSampleLatch, State.discard, holdsSample]

theorem discards_samples : Discards (fun _ => false) holdsSample :=
  ⟨fun _ hk => of_decide_eq_true (Bool.and_eq_true_iff.mp hk).1, fun _ hk => nomatch hk⟩

theorem finRange_sorted (n : Nat) : (List.finRange n).Pairwise (· < ·) := List.pairwise_lt_finRange n

/-- Only list requests are left in the pool. -/
theorem not_sample_of_linkCleared {r : Request} (hr : r ∈ s.linkCleared.pool) (n : Nat) : r.origin ≠ .sample n := by
  intro ho
  have hkept := (List.mem_filter.mp hr).2
  rw [ho] at hkept
  cases hkept

theorem samplesPending_linkCleared (s : State) : SamplesPending s.linkCleared s.linkCleared.pool := by
  refine ⟨List.pairwise_iff_forall_sublist.mpr (fun {r q} hsub n hn => ?_),
    fun r hr n hn => absurd hn (not_sample_of_linkCleared hr n)⟩
  exact absurd hn (not_sample_of_linkCleared (hsub.subset List.mem_cons_self) n)

/-- Completions depend on what completes, and on the order of the replies. -/
theorem completedNoCore_congr {L M : List Request} (hmem : ∀ r, r ∈ L ↔ r ∈ M) (hreplies : noCoreReplies s L = noCoreReplies s M) :
    completedNoCore s L = completedNoCore s M := by
  have hentry : ∀ l, completedEntry L l = completedEntry M l := by
    intro l
    funext e
    simp only [completedEntry, hmem]
  simp only [completedNoCore, hmem, hreplies, hentry]

theorem noCoreReplies_of_no_deferred (h : s.deferred = []) (L : List Request) : noCoreReplies s L = [] := by
  rw [noCoreReplies_eq, h]
  exact List.filterMap_eq_nil_iff.mpr (fun r _ => rfl)

theorem abandonSession_completedNoCore (s : State) (L : List Request) :
    (completedNoCore s L).abandonSession = completedNoCore s.abandonSession L := by
  have hsession : (completedNoCore s L).session = s.session := rfl
  unfold State.abandonSession
  rw [hsession]
  cases s.session <;> rfl

theorem abandonSession_eq (s : State) : s.abandonSession =
    { s with session := none, banks := s.session.elim s.banks (fun k => s.banks.set k.bank Bank.freeBank) } := by
  unfold State.abandonSession
  cases hs : s.session with
  | none => exact congrArg (fun o => ({ s with session := o } : State)) hs
  | some k => rfl

/-- What the link reset leaves but for the requests that are lost. -/
theorem linkEmptied_eq (s : State) :
    ((s.linkCleared.discarded (fun _ => false) holdsSample (List.finRange 4)).abandonSession).raise .linkReset = linkEmptied s := by
  have hcores : Vector.ofFn (fun c => if c ∈ List.finRange 4 then (s.core c).discarded
      (fun _ => false) holdsSample s.now else s.core c) =
      s.cores.map (fun k => if holdsSample k then latchDiscarded k else k) := by
    ext1 i hi
    simp [State.core, Vector.get_eq_getElem, Core.discarded]
    rfl
  have horder : s.holdOrder.filter (fun c => !(decide (c ∈ List.finRange 4) && holdsSample (s.core c))) =
      s.holdOrder.filter (fun c => !holdsSample (s.core c)) := by
    simp
  have hbyte : s.byteSending = (linkEmptied s).cutByte := by
    unfold State.byteSending linkEmptied
    cases s.cutByte <;> cases s.tx <;> rfl
  have hsession : (s.linkCleared.discarded (fun _ => false) holdsSample (List.finRange 4)).session = s.session := rfl
  have hrest : ({ linkEmptied s with cutByte := (linkEmptied s).cutByte } : State) = linkEmptied s := rfl
  rw [← hrest, ← hbyte]
  unfold linkEmptied
  rw [← hcores, ← horder, abandonSession_eq, hsession]
  cases s.session <;> rfl

theorem resetLink_closed (hline : s.lineLow = false) (h : HoldSound s) : s.resetLink =
    completedNoCore (linkEmptied s) (lostWith (linkEmptied s) (pendingAmong s holdsSample)) := by
  have hfold := foldl_discard (s := s.linkCleared) discards_samples (finRange_sorted 4) h.2.2 (fun _ => samplesPending_linkCleared s)
  rw [resetLink_eq hline, State.latchesDropped, dropSampleLatch_eq, hfold, abandonSession_completedNoCore]
  have hlost : lostInTurn (s.linkCleared.discarded (fun _ => false) holdsSample (List.finRange 4))
      (pendingOf holdsSample s.linkCleared (List.finRange 4)) = lostInTurn (linkEmptied s) (pendingAmong s holdsSample) := by
    rw [← linkEmptied_eq]
    refine (lostInTurn_congr ?_ (bothOffline_congr (fun c => ?_)) _).symm
    · exact (raise_frameTo _ _) .pool rfl |>.trans ((abandonSession_frameTo _) .pool rfl)
    · exact congrArg (fun v : Vector Core 4 => (v.get c).state.isOffline)
        (((raise_frameTo _ _) .cores rfl).trans ((abandonSession_frameTo _) .cores rfl))
  refine Eq.trans ?_ (completedNoCore_congr (fun r => mem_lostInTurn)
    (by rw [noCoreReplies_of_no_deferred rfl, noCoreReplies_of_no_deferred rfl]))
  rw [hlost, ← linkEmptied_eq]
  rfl

/-! ### The transmit line over the break (R168) -/

/-- With no entry pending, no reply is added while the cores are reached. -/
theorem deliver_of_no_deferred (hd : s.deferred = []) (hr : s.replies = []) (o : Origin) (r : Result) :
    (s.deliver o r).deferred = [] ∧ (s.deliver o r).replies = [] := by
  cases o with
  | entry l k => exact ⟨hd, hr⟩
  | sample u =>
    have hnone : s.findSample u = none := by rw [State.findSample, hd]; rfl
    have hsame : s.deliver (.sample u) r = s := by rw [State.deliver, State.completeSample, hnone]
    rw [hsame]
    exact ⟨hd, hr⟩

theorem foldl_of_no_deferred {α : Type} {g : State → α → State}
    (hg : ∀ s a, s.deferred = [] ∧ s.replies = [] → (g s a).deferred = [] ∧ (g s a).replies = []) {s : State}
    (h : s.deferred = [] ∧ s.replies = []) (xs : List α) : (xs.foldl g s).deferred = [] ∧ (xs.foldl g s).replies = [] := by
  induction xs generalizing s with
  | nil => exact h
  | cons x xs ih => exact ih (hg s x h)

theorem noCoreSweep_of_no_deferred (c : CoreId) (h : s.deferred = [] ∧ s.replies = []) :
    (s.noCoreSweep c).deferred = [] ∧ (s.noCoreSweep c).replies = [] :=
  foldl_of_no_deferred (fun _ r ht => deliver_of_no_deferred ht.1 ht.2 r.origin noCoreResult)
    (s := { s with pool := s.pool.filter (fun r => !s.lostRequest c r) }) h _

theorem dropSampleLatch_of_no_deferred (s : State) (c : CoreId) (h : s.deferred = [] ∧ s.replies = []) :
    (s.dropSampleLatch c).deferred = [] ∧ (s.dropSampleLatch c).replies = [] := by
  unfold State.dropSampleLatch
  split
  · rcases leaveHold_cases s c with ⟨-, heq⟩ | ⟨-, heq⟩ <;> rw [heq]
    · exact noCoreSweep_of_no_deferred c h
    · exact h
  · exact h

theorem resetLink_replies (hline : s.lineLow = false) : s.resetLink.replies = [] := by
  rw [resetLink_eq hline]
  exact ((raise_frameTo _ _) .replies rfl).trans (((abandonSession_frameTo _) .replies rfl).trans
    (foldl_of_no_deferred dropSampleLatch_of_no_deferred (s := s.linkCleared) ⟨rfl, rfl⟩ _).2)

/-- What a link reset has to do with the transmitter. -/
theorem resetLink_frameTo_cleared (hline : s.lineLow = false) : s.linkCleared.FrameTo [.cores, .notices, .pool, .lists, .deferred,
    .replies, .idleSince, .holdOrder, .nextEvent, .banks, .session] s.resetLink := by
  rw [resetLink_eq hline]
  exact FrameTo_trans (FrameTo_trans (foldl_frameTo (fun t c => FrameTo_mono (dropSampleLatch_frameTo t c) rfl) _)
    (FrameTo_mono (abandonSession_frameTo _) rfl)) (FrameTo_mono (raise_frameTo _ _) rfl)

theorem transmitLevel_congr (h : t.byteSending = s.byteSending) (n : Nat) : t.transmitLevel n = s.transmitLevel n := by
  rw [State.transmitLevel, State.transmitLevel, h]

/-- The frame that has begun follows the byte that is being sent: the byte goes on to its end, then the frame's first byte is
on the line. -/
def FollowsByte (s x : State) : Prop :=
  x.tx.isSome = true ∧ (∀ n, x.transmitLevel n = s.transmitLevel n) ∧
    ∃ v, step { x with pending := [] } = .next v ∧ v.tx = x.tx ∧
      ∀ n level, (byteLevels 0x5A)[n]? = some level → v.transmitLevel n = level

/-- A frame that begins while the last byte of a cut frame is sent. -/
theorem followsByte_beginFrame {b : Byte} (hcut : t.cutByte = some b) (hsame : t.byteSending = s.byteSending) (kind : TxKind)
    (k tag : Byte) (payload : List Byte) : FollowsByte s (t.beginFrame kind (frameBytes k tag payload)) := by
  have hbyte : t.byteSending = some b := by rw [State.byteSending, hcut]
  have hsome : t.cutByte.isSome = true := by rw [hcut]; rfl
  exact ⟨rfl, transmitLevel_congr ((State.byteSending_beginFrame kind _ hcut).trans (hbyte.symm.trans hsame)),
    { t.beginFrame kind (frameBytes k tag payload) with cutByte := none, pending := [] },
    congrArg Host.Outcome.next (if_pos hsome), rfl, fun n level hn => transmitLevel_of_some rfl hn⟩

theorem alarms_resetLink (hline : s.lineLow = false) : s.resetLink.alarms = [] ↔ s.alarms = [] := by
  have h : s.resetLink.alarms = s.alarms.map (fun n => { n with sending := none }) := resetLink_frameTo_cleared hline .alarms rfl
  rw [h, List.map_eq_nil_iff]

theorem notices_raise (s : State) (e : PartEvent) : (s.raise e).notices ≠ [] := by
  obtain ⟨n, hn, -⟩ := exists_mem_raiseIn e s.notices
  exact List.ne_nil_of_mem hn

theorem notices_resetLink (hline : s.lineLow = false) : s.resetLink.notices ≠ [] := by
  rw [resetLink_eq hline]
  exact notices_raise _ _

/-- The item that the transmitter chooses when the line returns high. -/
theorem choice_lineReturnsHigh (hstop : s.cmdUnit ≠ .stopped) (hline : s.lineLow = false) :
    FreeToChoose (chosen { s.resetLink with lineLow := false }) ∧
      (chosen { s.resetLink with lineLow := false }).choice = some (if s.alarms = [] then .notice else .alarm) := by
  have hf := resetLink_frameTo_cleared hline
  have hunit : s.resetLink.cmdUnit = s.cmdUnit := hf .cmdUnit rfl
  have hfree : FreeToChoose { s.resetLink with lineLow := false } :=
    ⟨hf .tx rfl, rfl, fun h => absurd (hunit.symm.trans h) hstop⟩
  have hchoice : ({ s.resetLink with lineLow := false } : State).choice = none := hf .choice rfl
  refine ⟨hfree, (if_pos ⟨hfree, hchoice⟩).trans ?_⟩
  have hreplies : ({ s.resetLink with lineLow := false } : State).replies = [] := resetLink_replies hline
  have halarms : ({ s.resetLink with lineLow := false } : State).alarms = [] ↔ s.alarms = [] := alarms_resetLink hline
  have hnotices : ({ s.resetLink with lineLow := false } : State).notices ≠ [] := notices_resetLink hline
  rw [firstAvailable, if_neg (not_not.mpr hreplies)]
  by_cases ha : s.alarms = []
  · rw [if_neg (not_not.mpr (halarms.mpr ha)), if_pos hnotices, if_pos ha]
  · rw [if_pos (fun h => ha (halarms.mp h)), if_neg ha]

/-- With the line high again a frame is chosen and begins behind the byte that is being sent. -/
theorem lineReturnsHigh_begins {b : Byte} (hstop : s.cmdUnit ≠ .stopped) (hline : s.lineLow = false)
    (hcut : s.resetLink.cutByte = some b) (hsame : ∀ t : State, t.cutByte = some b → t.byteSending = s.byteSending) :
    ∃ x, exec .transmitFrameBegin (chosen { s.resetLink with lineLow := false }) = .next x ∧ FollowsByte s x := by
  obtain ⟨hfree, hchoice⟩ := choice_lineReturnsHigh hstop hline
  by_cases ha : s.alarms = []
  · rw [if_pos ha] at hchoice
    obtain ⟨n, rest, hn⟩ := List.exists_cons_of_ne_nil (notices_resetLink hline)
    have hnW : (chosen { s.resetLink with lineLow := false }).notices = n :: rest := hn
    exact ⟨_, (exec_transmitFrameBegin hfree (.inl hchoice)).trans (congrArg Host.Outcome.next (beginItem_notice hnW)),
      followsByte_beginFrame (t := { chosen { s.resetLink with lineLow := false } with
        notices := { n with late := some 0 } :: rest }) hcut (hsame _ hcut) .notice kindNotice 0 n.payload⟩
  · rw [if_neg ha] at hchoice
    have halarms : (chosen { s.resetLink with lineLow := false }).alarms ≠ [] := fun h => ha ((alarms_resetLink hline).mp h)
    exact ⟨_, (exec_transmitFrameBegin hfree (.inl hchoice)).trans (congrArg Host.Outcome.next (if_pos halarms)),
      followsByte_beginFrame (t := { chosen { s.resetLink with lineLow := false } with alarms := _ }) hcut (hsame _ hcut) .alarm
        kindAlarm 0 _⟩

/-- Settles O46: the level of the line, the byte that ends, and the state after the reset. -/
theorem linkResetEmptiesTheLink : Obligations.LinkResetEmptiesTheLink := by
  refine ⟨fun s hlow => congrArg Host.Outcome.next (if_pos hlow), fun s => congrArg Host.Outcome.next (choose_eq _),
    fun s f hline htx hpos => ⟨s.resetLink, rfl, ?_⟩, fun s hline hhold => ⟨congrArg Host.Outcome.next (resetLink_closed hline hhold),
      fun hno => ?_⟩⟩
  · obtain ⟨b, hb⟩ : ∃ b, s.byteSending = some b := by
      unfold State.byteSending
      rw [htx]
      cases s.cutByte with
      | none => exact ⟨f.bytes[f.position], List.getElem?_eq_getElem hpos⟩
      | some b => exact ⟨b, rfl⟩
    have hf := resetLink_frameTo_cleared hline
    have hcut : s.resetLink.cutByte = some b := (hf .cutByte rfl).trans hb
    have hnone : s.resetLink.tx = none := hf .tx rfl
    have hsame : ∀ t : State, t.cutByte = some b → t.byteSending = s.byteSending := fun t ht => by
      rw [hb, State.byteSending, ht]
    refine ⟨hnone, transmitLevel_congr (hsame _ hcut), ?_, fun hstop => ?_⟩
    · have hsome : s.resetLink.cutByte.isSome = true := by rw [hcut]; rfl
      have hquiet : ({ s.resetLink with pending := [], cutByte := none } : State).byteSending = none := by
        show s.resetLink.tx.bind _ = none
        rw [hnone]
        rfl
      exact ⟨_, congrArg Host.Outcome.next (if_pos hsome), rfl, transmitLevel_of_none hquiet⟩
    · obtain ⟨x, hbegin, hsome, hlevel, v, hstep, htx, hnext⟩ := lineReturnsHigh_begins hstop hline hcut hsame
      exact ⟨_, x, v, congrArg Host.Outcome.next (choose_eq _), (choice_lineReturnsHigh hstop hline).2, hbegin, hsome, hlevel,
        hstep, htx, hnext⟩
  · have hnone : pendingAmong s holdsSample = [] := by
      simp only [pendingAmong, List.filter_eq_nil_iff, Bool.and_eq_true, not_and, Bool.not_eq_true]
      exact fun c _ hc => hno c hc
    refine congrArg Host.Outcome.next ((resetLink_closed hline hhold).trans ?_)
    rw [hnone, lostWith_nil, completedNoCore_nil]

/-! ### The abort of a list with work (R69) -/

section
variable {l : ListId} {n : Nat}

theorem abortCore_eq (l : ListId) : State.abortCore l = State.discard (fun k => k.convertsFor l) (fun k => k.latchesFor l) := by
  funext s c
  unfold State.abortCore State.discard conversionCancelled
  by_cases hd : (s.core c).state = .discharge <;> simp [hd]

theorem discards_list (l : ListId) : Discards (fun k => k.convertsFor l) (fun k => k.latchesFor l) := by
  refine ⟨fun k hk => of_decide_eq_true (Bool.and_eq_true_iff.mp hk).1, fun k hk => ?_⟩
  have hstate := (Bool.and_eq_true_iff.mp hk).1
  unfold Core.latchesFor
  cases hs : k.state <;> simp [hs, CoreState.isConverting, CoreState.isOffline] at hstate ⊢

/-- The pool after the withdrawal of the list's requests. -/
def State.withdrawn (l : ListId) (s : State) : State := { s with pool := s.pool.filter (fun r => !r.origin.ofList l) }

theorem samplesPending_withdrawn (h : SamplesHaveWork s) (l : ListId) :
    SamplesPending (s.withdrawn l) (s.withdrawn l).pool :=
  SamplesPending_sublist (s := s.withdrawn l) (samplesPending_pool h : SamplesPending s s.pool) List.filter_sublist

/-- The state after the cores have been reached, but for the requests that are lost. -/
def State.coresAborted (l : ListId) (s : State) : State :=
  (s.withdrawn l).discarded (fun k => k.convertsFor l) (fun k => k.latchesFor l) (List.finRange 4)

/-- The list of an abort: its window is empty, its timer stopped, and what its work leaves behind is counted. -/
def ListRec.aborted (n : Nat) (r : ListRec) : ListRec :=
  { r with
    window := [], timer := none, startPending := false, skipped := 0, outstanding := n
    state := if n = 0 then .idle else .aborting }

/-- The rest of an abort, after the cores. -/
def State.abortRest (l : ListId) (n : Nat) (s : State) : State :=
  { s with
    evalQueue := s.evalQueue.filter (fun e => !e.origin.ofList l)
    engine := s.engine.map (Evaluation.voidFor l)
    blocked := s.blocked.erase l
    lists := s.lists.set l ((s.list l).aborted n)
    notices := if n = 0 then raiseIn (.listFinished l .aborted) s.notices else s.notices }

/-- The rest of an abort in the steps that the machine takes. -/
theorem abortRest_eq (s : State) (l : ListId) (n : Nat) : s.abortRest l n =
    (let s3 := { s with
      evalQueue := s.evalQueue.filter (fun e => !e.origin.ofList l)
      engine := s.engine.map (Evaluation.voidFor l)
      blocked := s.blocked.erase l }
    let s4 := s3.setList l { s3.list l with
      window := [], timer := none, startPending := false, skipped := 0, outstanding := n }
    if n = 0 then s4.finishList l .aborted else s4.setList l { s4.list l with state := .aborting }) := by
  have hset : ∀ (t : State) (a : ListRec) (g : ListRec → ListRec),
      (t.setList l a).setList l (g ((t.setList l a).list l)) = t.setList l (g a) := by
    intro t a g
    rw [State.list_setList, if_pos rfl, State.setList_setList]
  unfold State.abortRest ListRec.aborted
  dsimp only
  by_cases hn : n = 0
  · rw [if_pos hn, if_pos hn, if_pos hn, finishList_eq, Safety.finished]
    rw [hset _ _ (fun r => { r with state := .idle, timer := none, startPending := false, skipped := 0 })]
    rfl
  · rw [if_neg hn, if_neg hn, if_neg hn, hset _ _ (fun r => { r with state := .aborting })]
    rfl

theorem abortWork_eq (s : State) (l : ListId) :
    s.abortWork l = ((List.finRange 4).foldl (State.abortCore l) (s.withdrawn l)).abortRest l (s.abortCount l) :=
  (abortRest_eq _ l _).symm

theorem aborted_eq (s : State) (l : ListId) (n : Nat) : Safety.aborted s l n = (s.coresAborted l).abortRest l n := by
  have hcores : (s.coresAborted l).cores = s.cores.map (fun k =>
      if k.convertsFor l then conversionCancelled s.now k else if k.latchesFor l then latchDiscarded k else k) := by
    unfold State.coresAborted State.discarded
    ext1 i hi
    simp [State.withdrawn, State.core, Vector.get_eq_getElem, Core.discarded]
    rfl
  have horder : (s.coresAborted l).holdOrder = s.holdOrder.filter (fun c => !(s.core c).latchesFor l) := by
    show s.holdOrder.filter (fun c => !(decide (c ∈ List.finRange 4) && (s.core c).latchesFor l)) = _
    simp
  unfold Safety.aborted
  rw [← hcores, ← horder]
  rfl

/-- The completions do not reach the list of the abort, whose window is empty. -/
theorem lists_aborted (t : State) (L : List Request) (l : ListId) (n : Nat) :
    (completedNoCore t L).lists.set l (((completedNoCore t L).list l).aborted n) =
      (completedNoCore { t with lists := t.lists.set l ((t.list l).aborted n) } L).lists := by
  ext1 i hi
  simp only [completedNoCore, Vector.getElem_ofFn, Vector.getElem_set, State.list, Vector.get_eq_getElem]
  by_cases hil : l.val = i
  · simp [hil, ListRec.aborted]
  · simp [hil]

/-- The abort of a list that has work. -/
theorem abortWork_closed (hold : HoldSound s) (hn : n = s.abortCount l)
    (hsamples : pendingAmong s (fun k => k.latchesFor l) ≠ [] → SamplesHaveWork s) : s.abortWork l =
      completedNoCore (Safety.aborted s l n) (lostInTurn (Safety.aborted s l n) (pendingAmong s (fun k => k.latchesFor l))) := by
  have hfold := foldl_discard (s := s.withdrawn l) (discards_list l) (finRange_sorted 4) hold.2.2
    (fun hne => samplesPending_withdrawn (hsamples hne) l)
  have hlost : lostInTurn (s.coresAborted l) (pendingAmong s (fun k => k.latchesFor l)) =
      lostInTurn (Safety.aborted s l n) (pendingAmong s (fun k => k.latchesFor l)) := by
    rw [aborted_eq]
    exact lostInTurn_congr rfl (fun _ => Iff.rfl) _
  set L := lostInTurn (Safety.aborted s l n) (pendingAmong s (fun k => k.latchesFor l)) with hL
  have hcores : (List.finRange 4).foldl (State.abortCore l) (s.withdrawn l) = completedNoCore (s.coresAborted l) L := by
    rw [abortCore_eq, hfold, ← hlost]
    rfl
  rw [abortWork_eq, hcores, ← hn, aborted_eq]
  exact congrArg (fun v => ({ (completedNoCore (s.coresAborted l) L).abortRest l n with lists := v } : State))
    (lists_aborted (s.coresAborted l) L l n)

/-- Settles O20: by the cores that are offline-pending. -/
theorem abortDealsWithEveryEntry : Obligations.AbortDealsWithEveryEntry := by
  intro s f rest l n h hp hstate hold hn
  have hcount : n = s.abortCount l := by
    rw [hn, State.abortCount, State.evaluatesFor]
    cases s.engine.any (fun e => e.origin.ofList l) <;> rfl
  have hne : (s.list l).state ≠ .empty := by rcases hstate with hs | hs <;> rw [hs] <;> decide
  have habort : s.abortList l = s.abortWork l := by rcases hstate with hs | hs <;> rw [State.abortList, hs]
  have hown : stopListAbortOwn f s = .done .ok [] (s.abortWork l) := by
    rw [stopListAbortOwn, withFields_stopFields hp (le_refl 1), listOf_subject hp]
    exact (if_neg hne).trans (congrArg (Answer.done .ok []) habort)
  have hmine : isAbortFrame f = true := by
    rw [isAbortFrame, byteAt_mode hp, show ofKind kindStopList f = true from decide_eq_true h.2.1]
    rfl
  have answer := answers_stopList (i := .stopListAbort) (p := (byte l.val, 1)) rfl h hp hmine hown
  have hclosed := abortWork_closed hold hcount
  refine ⟨fun hno => ?_, fun hsamples => ?_⟩
  · have hnone : pendingAmong s (fun k => k.latchesFor l) = [] := by
      simp only [pendingAmong, List.filter_eq_nil_iff, Bool.and_eq_true, not_and, Bool.not_eq_true]
      exact fun c _ hc => hno c hc
    have hplain : s.abortWork l = Safety.aborted s l n := by
      refine (hclosed (fun hne => absurd hnone hne)).trans ?_
      rw [hnone]
      exact completedNoCore_nil _
    rw [hplain] at answer
    exact answer.done rfl
  · rw [hclosed (fun _ => hsamples)] at answer
    exact answer.done rfl

end

end Sys2Proof.Machine
end

