-- ==== Sys2Proof/Proofs/ListMoves.lean ====
section
/-! PROOF. What a row can do to the record of a list that it does not define anew: stages and counts of outstanding work, issue,
triggers, retirement, and the starts and stops of a list (03). -/

-- One proof after another, as in the tests: side by side they take more threads than memory allows.
set_option Elab.async false

namespace Sys2Proof.Machine

open Sys2Proof.Safety

/-! ### Records -/

/-- What an entry is issued with. -/
def Entry.place (e : Entry) : Nat × ChannelId × Num16 := (e.step, e.channel, e.cycle)

/-- The records agree but for the stages of the entries. -/
def ListRec.SameShape (r r' : ListRec) : Prop :=
  ∃ w, r' = { r with window := w } ∧ w.map Entry.place = r.window.map Entry.place

/-- One more step is issued. -/
def ListRec.issued (ch : ChannelId) (r : ListRec) : ListRec :=
  { r with window := r.window ++ [{ step := r.cursor, channel := ch, cycle := r.cycle, stage := .waiting }], cursor := r.cursor + 1 }

/-- Steps are issued, as many as may be, and their entries go on. -/
inductive ListRec.Issues : ListRec → ListRec → Prop where
  | refl (r : ListRec) : ListRec.Issues r r
  | shape {r t u : ListRec} : r.Issues t → t.SameShape u → r.Issues u
  | issue {r t : ListRec} {c : ListConfig} {ch : ChannelId} : r.Issues t → t.config = some c → t.state = .running →
      t.window.length < c.concurrency → c.steps[t.cursor]? = some ch → r.Issues (t.issued ch)

/-- The sequencer has issued what it can: with a step left and room for it, the window is not empty. -/
def ListRec.IssuesAll (r r' : ListRec) : Prop :=
  r.Issues r' ∧ ∀ c, r.config = some c → r.state = .running → 0 < c.concurrency → r.cursor < c.steps.length → r'.window ≠ []

/-- A cycle starts. -/
def ListRec.cycleStarted (r : ListRec) : ListRec := { r with cycle := r.cycle + 1, cursor := 0, state := .running }

/-- A list enters IDLE. -/
def ListRec.finished (r : ListRec) : ListRec := { r with state := .idle, timer := none, startPending := false, skipped := 0 }

/-- One cycle fewer remains. -/
def ListRec.counted (r : ListRec) : ListRec := { r with remaining := r.remaining.decrement }

/-- What the end of a cycle in RUNNING can make of a list. -/
inductive ListRec.CycleEnds : ListRec → ListRec → Prop where
  | finish (r : ListRec) : ListRec.CycleEnds r r.finished
  | next {r r' : ListRec} : r.cycleStarted.IssuesAll r' → r.CycleEnds r'
  | pending {r r' : ListRec} : ({ r with startPending := false } : ListRec).cycleStarted.IssuesAll r' → r.CycleEnds r'
  | armed {r : ListRec} : r.startPending = false → r.CycleEnds { r with state := .armed }

/-- What the rows can do to the record of a list that they do not define anew; `b` says whether the outstanding count may
change. -/
inductive ListRec.Moves (b : Bool) : ListRec → ListRec → Prop where
  | shape {r r' : ListRec} : r.SameShape r' → r.Moves b r'
  | trans {r t u : ListRec} : r.Moves b t → t.Moves b u → r.Moves b u
  | timer {r : ListRec} (k : PeriodTimer) : r.timer.isSome = true → r.Moves b { r with timer := some k }
  | trigger {r r' : ListRec} : r.state = .armed → r.cycleStarted.IssuesAll r' → r.Moves b r'
  | triggerRunning {r : ListRec} : r.state = .running → r.Moves b (triggeredRunning r)
  | retire {r r' : ListRec} {c : ListConfig} {e : Entry} {rest : List Entry} {res : Result} :
      r.readyHead = some (c, e, rest, res) → r.state = .running → e.step + 1 ≠ c.steps.length →
      (r.afterHead e rest).IssuesAll r' → r.Moves b r'
  | retireLast {r r' : ListRec} {c : ListConfig} {e : Entry} {rest : List Entry} {res : Result} :
      r.readyHead = some (c, e, rest, res) → r.state = .running → e.step + 1 = c.steps.length →
      (r.afterHead e rest).counted.CycleEnds r' → r.Moves b r'
  | retireDraining {r t : ListRec} {c : ListConfig} {e : Entry} {rest : List Entry} {res : Result} :
      r.readyHead = some (c, e, rest, res) → r.state = .draining → t = r.afterHead e rest ∨ t = (r.afterHead e rest).counted →
      r.Moves b (if t.window = [] then t.finished else t)
  | retireOther {r : ListRec} {c : ListConfig} {e : Entry} {rest : List Entry} {res : Result} :
      r.readyHead = some (c, e, rest, res) → r.state ≠ .running → r.state ≠ .draining → r.Moves b (r.afterHead e rest)
  | finish {r : ListRec} : r.state = .armed ∨ r.state = .aborting ∧ r.outstanding = 0 → r.Moves b r.finished
  | drain {r : ListRec} : r.state = .running → r.Moves b { r with state := .draining, timer := none, startPending := false }
  | count {r : ListRec} (n : Nat) : b = true → r.Moves b { r with outstanding := n }
  | abort {r : ListRec} (n : Nat) : b = true → r.state = .running ∨ r.state = .draining → r.Moves b (r.aborted n)
  | startArmed {r : ListRec} {c : ListConfig} : r.config = some c → r.state = .idle → (∀ p, c.trigger ≠ .periodic p) →
      r.Moves b { r.started c with state := .armed }
  | startCycle {r r' : ListRec} {c : ListConfig} : r.config = some c → r.state = .idle → c.trigger = .continuous →
      (r.started c).cycleStarted.IssuesAll r' → r.Moves b r'
  | startPeriodic {r r' : ListRec} {c : ListConfig} {p : Nat} (k : PeriodTimer) : r.config = some c → r.state = .idle →
      c.trigger = .periodic p → ({ r.started c with timer := some k } : ListRec).cycleStarted.IssuesAll r' → r.Moves b r'

section
variable {b : Bool} {r t u r' : ListRec}

theorem SameShape_refl (r : ListRec) : r.SameShape r := ⟨r.window, rfl, rfl⟩

theorem SameShape_trans (h : r.SameShape t) (h2 : t.SameShape u) : r.SameShape u := by
  obtain ⟨w, rfl, hw⟩ := h
  obtain ⟨v, rfl, hv⟩ := h2
  exact ⟨v, rfl, hv.trans hw⟩

theorem Moves_refl (b : Bool) (r : ListRec) : r.Moves b r := .shape (SameShape_refl r)

/-- Issue leaves all but window and cursor. -/
theorem eq_of_issues (h : r.Issues r') : ∃ w k, r' = { r with window := w, cursor := k } := by
  induction h with
  | refl => exact ⟨_, _, rfl⟩
  | shape _ hs ih =>
    obtain ⟨w, k, rfl⟩ := ih
    obtain ⟨v, rfl, -⟩ := hs
    exact ⟨_, _, rfl⟩
  | issue _ _ _ _ _ ih =>
    obtain ⟨w, k, rfl⟩ := ih
    exact ⟨_, _, rfl⟩

theorem eq_of_cycleEnds (h : r.CycleEnds r') : ∃ w k st cy ti sp sk,
    r' = { r with window := w, cursor := k, state := st, cycle := cy, timer := ti, startPending := sp, skipped := sk } ∧
      (st = .idle ∨ st = .armed ∨ st = .running) := by
  cases h with
  | finish => exact ⟨_, _, _, _, _, _, _, rfl, .inl rfl⟩
  | next h =>
    obtain ⟨w, k, rfl⟩ := eq_of_issues h.1
    exact ⟨_, _, _, _, _, _, _, rfl, .inr (.inr rfl)⟩
  | pending h =>
    obtain ⟨w, k, rfl⟩ := eq_of_issues h.1
    exact ⟨_, _, _, _, _, _, _, rfl, .inr (.inr rfl)⟩
  | armed h => exact ⟨_, _, _, _, _, _, _, rfl, .inr (.inl rfl)⟩

/-! ### A move leaves what defines the list -/

/-- The records have the same configuration, and neither or both are EMPTY. -/
def ListRec.SameDefinition (r r' : ListRec) : Prop := r'.config = r.config ∧ (r'.state = .empty ↔ r.state = .empty)

theorem sameDefinition_of_not_empty (hc : r'.config = r.config) (h : r.state ≠ .empty) (h2 : r'.state ≠ .empty) : r.SameDefinition r' :=
  ⟨hc, iff_of_false h2 h⟩

theorem sameDefinition_of_moves (h : r.Moves b r') : r.SameDefinition r' := by
  have started {r t r' : ListRec} (h : t.cycleStarted.IssuesAll r') (hc : t.config = r.config) (hne : r.state ≠ .empty) :
      r.SameDefinition r' := by
    obtain ⟨w, k, rfl⟩ := eq_of_issues h.1
    exact sameDefinition_of_not_empty hc hne nofun
  induction h with
  | shape hs =>
    obtain ⟨w, rfl, -⟩ := hs
    exact ⟨rfl, Iff.rfl⟩
  | trans _ _ ih1 ih2 => exact ⟨ih2.1.trans ih1.1, ih2.2.trans ih1.2⟩
  | timer k _ => exact ⟨rfl, Iff.rfl⟩
  | trigger hst h => exact started h rfl (by rw [hst]; nofun)
  | triggerRunning hst => 
    unfold triggeredRunning
    split <;> exact ⟨rfl, Iff.rfl⟩
  | retire _ _ _ h =>
    obtain ⟨w, k, rfl⟩ := eq_of_issues h.1
    exact ⟨rfl, Iff.rfl⟩
  | retireLast _ hst _ h =>
    obtain ⟨w, k, st, cy, ti, sp, sk, rfl, hne⟩ := eq_of_cycleEnds h
    exact sameDefinition_of_not_empty rfl (by rw [hst]; nofun) (by rcases hne with h | h | h <;> rw [h] <;> nofun)
  | retireDraining _ hst ht =>
    have hne : ∀ t : ListRec, t.state = .draining → (if t.window = [] then t.finished else t).state ≠ .empty := by
      intro t ht
      split
      · exact nofun
      · rw [ht]; nofun
    rcases ht with rfl | rfl
    · refine sameDefinition_of_not_empty ?_ (by rw [hst]; nofun) (hne _ hst)
      split <;> rfl
    · refine sameDefinition_of_not_empty ?_ (by rw [hst]; nofun) (hne _ hst)
      split <;> rfl
  | retireOther _ _ _ => exact ⟨rfl, Iff.rfl⟩
  | finish hst => exact sameDefinition_of_not_empty rfl (by rcases hst with h | ⟨h, -⟩ <;> rw [h] <;> nofun) nofun
  | drain hst => exact sameDefinition_of_not_empty rfl (by rw [hst]; nofun) nofun
  | count n _ => exact ⟨rfl, Iff.rfl⟩
  | abort n _ hst =>
    refine sameDefinition_of_not_empty rfl (by rcases hst with h | h <;> rw [h] <;> nofun) ?_
    unfold ListRec.aborted
    split <;> nofun
  | startArmed _ hst _ => exact sameDefinition_of_not_empty rfl (by rw [hst]; nofun) nofun
  | startCycle _ hst _ h => exact started h rfl (by rw [hst]; nofun)
  | startPeriodic _ _ hst _ h => exact started h rfl (by rw [hst]; nofun)

/-! ### A move keeps the window sound (R51, R53, R59) -/

section
variable {c : ListConfig}

/-- The window is the run of steps issued last, and the cursor stands behind it. -/
def RunSound (c : ListConfig) (r : ListRec) : Prop :=
  r.window.length ≤ c.concurrency ∧ r.window.length ≤ r.cursor ∧ r.cursor ≤ c.steps.length ∧
    r.window.map Entry.step = List.range' (r.cursor - r.window.length) r.window.length ∧
    ∀ e ∈ r.window, c.steps[e.step]? = some e.channel ∧ e.cycle = r.cycle

/-- The ranges of a configuration that has been accepted. -/
def RangesSound (c : ListConfig) : Prop := (1 ≤ c.concurrency ∧ c.concurrency ≤ 4) ∧ (1 ≤ c.steps.length ∧ c.steps.length ≤ 32)

theorem listSound_of_some (hc : r.config = some c) : ListSound r ↔
    r.state ≠ .empty ∧ RangesSound c ∧ (r.window ≠ [] ↔ r.state = .running ∨ r.state = .draining) ∧ RunSound c r := by
  unfold ListSound
  rw [hc]
  unfold RangesSound RunSound
  tauto

theorem listSound_of_none (hc : r.config = none) : ListSound r ↔ r.state = .empty ∧ r.window = [] := by
  unfold ListSound
  rw [hc]

/-- A record that is not EMPTY and sound has a configuration. -/
theorem config_of_listSound (h : ListSound r) (hne : r.state ≠ .empty) : ∃ c, r.config = some c := by
  cases hc : r.config with
  | some c => exact ⟨c, rfl⟩
  | none => exact absurd ((listSound_of_none hc).mp h).1 hne

theorem runSound_nil (hw : r.window = []) (hcursor : r.cursor ≤ c.steps.length) : RunSound c r := by
  unfold RunSound
  rw [hw]
  exact ⟨Nat.zero_le _, Nat.zero_le _, hcursor, rfl, nofun⟩

theorem runSound_shape (h : RunSound c r) (hs : r.SameShape r') : RunSound c r' := by
  obtain ⟨w, rfl, hw⟩ := hs
  obtain ⟨h1, h2, h3, h4, h5⟩ := h
  have hlen : w.length = r.window.length := by simpa using congrArg List.length hw
  have hsteps : w.map Entry.step = r.window.map Entry.step := by
    simpa only [List.map_map, Function.comp_def, Entry.place] using congrArg (List.map Prod.fst) hw
  refine ⟨by rw [hlen]; exact h1, by rw [hlen]; exact h2, h3, by rw [hlen, hsteps]; exact h4, fun e he => ?_⟩
  obtain ⟨d, hd, heq⟩ := List.mem_map.mp (hw ▸ List.mem_map_of_mem he : e.place ∈ r.window.map Entry.place)
  simp only [Entry.place, Prod.mk.injEq] at heq
  obtain ⟨hstep, hch, hcycle⟩ := heq
  rw [← hstep, ← hch, ← hcycle]
  exact h5 d hd

theorem runSound_issued {ch : ChannelId} (h : RunSound c r) (hroom : r.window.length < c.concurrency)
    (hch : c.steps[r.cursor]? = some ch) : RunSound c (r.issued ch) := by
  obtain ⟨h1, h2, h3, h4, h5⟩ := h
  have hcursor : r.cursor < c.steps.length := (List.getElem?_eq_some_iff.mp hch).1
  have hlen : (r.issued ch).window.length = r.window.length + 1 := List.length_append
  have hnext : (r.issued ch).cursor = r.cursor + 1 := rfl
  refine ⟨by omega, by omega, by omega, ?_, fun e he => ?_⟩
  · have hstart : r.cursor + 1 - (r.window.length + 1) = r.cursor - r.window.length := by omega
    have hend : r.cursor - r.window.length + r.window.length = r.cursor := by omega
    rw [hlen, hnext, hstart, List.range'_concat, ← h4]
    simp only [ListRec.issued, List.map_append, List.map_cons, List.map_nil, Nat.one_mul, hend]
  · rcases List.mem_append.mp he with he | he
    · exact h5 e he
    · rw [List.mem_singleton.mp he]
      exact ⟨hch, rfl⟩

theorem runSound_tail {e : Entry} {rest : List Entry} (h : RunSound c r) (hw : r.window = e :: rest) :
    RunSound c { r with window := rest } ∧ e.step + rest.length + 1 = r.cursor := by
  obtain ⟨h1, h2, h3, h4, h5⟩ := h
  rw [hw, List.length_cons] at h1 h2
  rw [hw, List.length_cons, List.map_cons, List.range'_succ, List.cons.injEq] at h4
  have hstart : r.cursor - (rest.length + 1) + 1 = r.cursor - rest.length := by omega
  refine ⟨⟨by show rest.length ≤ _; omega, by show rest.length ≤ r.cursor; omega, h3, by rw [← hstart]; exact h4.2, fun d hd => ?_⟩,
    by rw [h4.1]; show r.cursor - (rest.length + 1) + rest.length + 1 = r.cursor; omega⟩
  exact h5 d (hw ▸ List.mem_cons_of_mem _ hd)

theorem runSound_issues (h : r.Issues r') (hc : r.config = some c) (hs : RunSound c r) : RunSound c r' := by
  induction h with
  | refl => exact hs
  | shape _ hsh ih => exact runSound_shape ih hsh
  | issue hi hcfg _ hroom hch ih =>
    obtain ⟨w, k, rfl⟩ := eq_of_issues hi
    cases hc.symm.trans hcfg
    exact runSound_issued ih hroom hch

theorem window_ne_nil_of_issues (h : r.Issues r') (hw : r.window ≠ []) : r'.window ≠ [] := by
  induction h with
  | refl => exact hw
  | shape _ hs ih =>
    obtain ⟨w, rfl, hv⟩ := hs
    exact fun (hnil : w = []) => ih (by rw [hnil] at hv; exact List.map_eq_nil_iff.mp hv.symm)
  | issue => exact List.append_ne_nil_of_right_ne_nil _ (List.cons_ne_nil _ _)

/-- A RUNNING list whose steps have been issued has a window, and it is sound. -/
theorem listSound_of_issuesAll (h : r.IssuesAll r') (hc : r.config = some c) (hst : r.state = .running) (hranges : RangesSound c)
    (hs : RunSound c r) (hleft : r.window ≠ [] ∨ r.cursor < c.steps.length) : ListSound r' := by
  have hne : r'.window ≠ [] := hleft.elim (window_ne_nil_of_issues h.1) (fun hlt => h.2 c hc hst hranges.1.1 hlt)
  have hrun := runSound_issues h.1 hc hs
  obtain ⟨w, k, heq⟩ := eq_of_issues h.1
  have hst' : r'.state = .running := by rw [heq]; exact hst
  exact (listSound_of_some (by rw [heq]; exact hc)).mpr ⟨by rw [hst']; nofun, hranges, iff_of_true hne (.inl hst'), hrun⟩

/-- A cycle that starts on an empty window. -/
theorem listSound_of_cycleStarted (h : r.cycleStarted.IssuesAll r') (hc : r.config = some c) (hranges : RangesSound c)
    (hw : r.window = []) : ListSound r' :=
  listSound_of_issuesAll h hc rfl hranges (runSound_nil hw (Nat.zero_le _)) (.inr hranges.2.1)

/-- A record that rests on an empty window. -/
theorem listSound_of_empty_window (hc : r.config = some c) (hranges : RangesSound c) (hw : r.window = [])
    (hcursor : r.cursor ≤ c.steps.length) (hst : r.state = .idle ∨ r.state = .armed ∨ r.state = .aborting) : ListSound r := by
  refine (listSound_of_some hc).mpr ⟨?_, hranges, iff_of_false (fun h => h hw) ?_, runSound_nil hw hcursor⟩ <;>
    rcases hst with h | h | h <;> rw [h] <;> simp

theorem listSound_of_cycleEnds (h : r.CycleEnds r') (hc : r.config = some c) (hranges : RangesSound c) (hw : r.window = [])
    (hcursor : r.cursor ≤ c.steps.length) : ListSound r' := by
  cases h with
  | finish => exact listSound_of_empty_window (r := r.finished) hc hranges hw hcursor (.inl rfl)
  | next h => exact listSound_of_cycleStarted h hc hranges hw
  | pending h => exact listSound_of_cycleStarted (r := { r with startPending := false }) h hc hranges hw
  | armed => exact listSound_of_empty_window (r := { r with state := .armed }) hc hranges hw hcursor (.inr (.inl rfl))

/-- A draining list goes on while its window holds entries. -/
theorem listSound_of_endDrain (hc : r.config = some c) (hst : r.state = .draining) (hranges : RangesSound c) (hrun : RunSound c r) :
    ListSound (if r.window = [] then r.finished else r) := by
  split
  · rename_i hnil
    exact listSound_of_empty_window (r := r.finished) hc hranges hnil hrun.2.2.1 (.inl rfl)
  · rename_i hnil
    exact (listSound_of_some hc).mpr ⟨by rw [hst]; nofun, hranges, iff_of_true hnil (.inr hst), hrun⟩

/-- What is known of a sound list outside EMPTY. -/
theorem listSound_cases (h : ListSound r) (hne : r.state ≠ .empty) : ∃ c, r.config = some c ∧ RangesSound c ∧
    (r.window ≠ [] ↔ r.state = .running ∨ r.state = .draining) ∧ RunSound c r := by
  obtain ⟨c, hc⟩ := config_of_listSound h hne
  obtain ⟨-, hranges, hwin, hrun⟩ := (listSound_of_some hc).mp h
  exact ⟨c, hc, hranges, hwin, hrun⟩

theorem readyHead_eq_some {e : Entry} {rest : List Entry} {res : Result} (h : r.readyHead = some (c, e, rest, res)) :
    r.config = some c ∧ r.window = e :: rest ∧ e.stage = .ready res := by
  unfold ListRec.readyHead at h
  split at h
  · rename_i hcfg hw
    split at h
    · rename_i hst
      cases h
      exact ⟨hcfg, hw, hst⟩
    · cases h
  · cases h

theorem listSound_of_shape (hsh : r.SameShape r') (hs : ListSound r) : ListSound r' := by
  obtain ⟨w, rfl, hw⟩ := id hsh
  have hnil : w = [] ↔ r.window = [] := by
    rw [← List.map_eq_nil_iff (f := Entry.place) (l := w), hw, List.map_eq_nil_iff]
  obtain hc | ⟨c, hc⟩ := Option.eq_none_or_eq_some r.config
  · obtain ⟨hst, hwin⟩ := (listSound_of_none hc).mp hs
    exact (listSound_of_none (r := { r with window := w }) hc).mpr ⟨hst, hnil.mpr hwin⟩
  · obtain ⟨h1, h2, h3, h4⟩ := (listSound_of_some hc).mp hs
    exact (listSound_of_some (r := { r with window := w }) hc).mpr
      ⟨h1, h2, (not_congr hnil).trans h3, runSound_shape h4 hsh⟩

theorem listSound_of_moves (h : r.Moves b r') (hs : ListSound r) : ListSound r' := by
  have empty {r : ListRec} (hwin : r.window ≠ [] ↔ r.state = .running ∨ r.state = .draining)
      (h : r.state = .idle ∨ r.state = .armed ∨ r.state = .aborting) : r.window = [] :=
    not_not.mp (fun hne => by rcases h with h | h | h <;> simp [h] at hwin <;> exact hne hwin)
  induction h with
  | shape hsh => exact listSound_of_shape hsh hs
  | trans _ _ ih1 ih2 => exact ih2 (ih1 hs)
  | timer k _ => exact hs
  | trigger hst h =>
    obtain ⟨c, hc, hranges, hwin, -⟩ := listSound_cases hs (by rw [hst]; nofun)
    exact listSound_of_cycleStarted h hc hranges (empty hwin (.inr (.inl hst)))
  | triggerRunning hst =>
    unfold triggeredRunning
    split <;> exact hs
  | retire hhead hst hlast h =>
    obtain ⟨hc, hw, -⟩ := readyHead_eq_some hhead
    obtain ⟨-, hranges, -, hrun⟩ := (listSound_of_some hc).mp hs
    obtain ⟨hrest, hcursor⟩ := runSound_tail hrun hw
    refine listSound_of_issuesAll h hc hst hranges hrest ?_
    have hle := hrun.2.2.1
    rename_i rest _
    cases rest with
    | nil => exact .inr (lt_of_le_of_ne hle (fun heq => hlast (hcursor.trans heq)))
    | cons d ds => exact .inl (List.cons_ne_nil d ds)
  | retireLast hhead hst hlast h =>
    obtain ⟨hc, hw, -⟩ := readyHead_eq_some hhead
    obtain ⟨-, hranges, -, hrun⟩ := (listSound_of_some hc).mp hs
    obtain ⟨-, hcursor⟩ := runSound_tail hrun hw
    have hle := hrun.2.2.1
    rename_i rest _
    have hnil : rest.length = 0 := by omega
    exact listSound_of_cycleEnds h hc hranges (List.eq_nil_of_length_eq_zero hnil) hle
  | retireDraining hhead hst ht =>
    obtain ⟨hc, hw, -⟩ := readyHead_eq_some hhead
    obtain ⟨hne, hranges, -, hrun⟩ := (listSound_of_some hc).mp hs
    obtain ⟨hrest, -⟩ := runSound_tail hrun hw
    rcases ht with rfl | rfl <;> exact listSound_of_endDrain hc hst hranges hrest
  | retireOther hhead hst hst2 =>
    obtain ⟨hc, hw, -⟩ := readyHead_eq_some hhead
    obtain ⟨-, -, hwin, -⟩ := (listSound_of_some hc).mp hs
    exact absurd (hwin.mp (by rw [hw]; exact List.cons_ne_nil _ _)) (not_or.mpr ⟨hst, hst2⟩)
  | finish hst =>
    have hst : ListRec.state _ = .armed ∨ ListRec.state _ = .aborting := hst.imp_right And.left
    obtain ⟨c, hc, hranges, hwin, hrun⟩ := listSound_cases hs (by rcases hst with h | h <;> rw [h] <;> nofun)
    have hnil := empty hwin (.inr hst)
    exact listSound_of_empty_window (r := ListRec.finished _) hc hranges hnil hrun.2.2.1 (.inl rfl)
  | drain hst =>
    obtain ⟨c, hc, hranges, hwin, hrun⟩ := listSound_cases hs (by rw [hst]; nofun)
    rename_i r
    exact (listSound_of_some (r := { r with state := .draining, timer := none, startPending := false }) hc).mpr
      ⟨nofun, hranges, iff_of_true (hwin.mpr (.inl hst)) (.inr rfl), hrun⟩
  | count n _ => exact hs
  | abort n _ hst =>
    obtain ⟨c, hc, hranges, -, hrun⟩ := listSound_cases hs (by rcases hst with h | h <;> rw [h] <;> nofun)
    refine listSound_of_empty_window (r := ListRec.aborted n _) hc hranges rfl hrun.2.2.1 ?_
    unfold ListRec.aborted
    split <;> simp
  | startArmed hc hst _ =>
    obtain ⟨-, hranges, hwin, hrun⟩ := (listSound_of_some hc).mp hs
    have hnil := empty hwin (.inl hst)
    exact listSound_of_empty_window (r := { ListRec.started _ _ with state := .armed }) hc hranges hnil hrun.2.2.1 (.inr (.inl rfl))
  | startCycle hc hst _ h =>
    obtain ⟨-, hranges, hwin, -⟩ := (listSound_of_some hc).mp hs
    have hnil := empty hwin (.inl hst)
    exact listSound_of_cycleStarted h hc hranges hnil
  | startPeriodic k hc hst _ h =>
    obtain ⟨-, hranges, hwin, -⟩ := (listSound_of_some hc).mp hs
    have hnil := empty hwin (.inl hst)
    exact listSound_of_cycleStarted h hc hranges hnil

end

/-! ### A move keeps triggers and timers sound (R51, R54, R55, R58) -/

/-- The list's trigger is PERIODIC. -/
def ListRec.IsPeriodic (r : ListRec) : Prop := ∃ c p, r.config = some c ∧ c.trigger = .periodic p

theorem triggerSound_of_issues (h : r.Issues r') (hs : TriggerSound r) : TriggerSound r' := by
  obtain ⟨w, k, rfl⟩ := eq_of_issues h
  exact hs

/-- A list in ARMED or RUNNING goes on in one of these. -/
theorem triggerSound_of_active (h : TriggerSound r) (hst : r.state = .armed ∨ r.state = .running)
    (hst' : r'.state = .armed ∧ r'.startPending = false ∨ r'.state = .running) (hc : r'.config = r.config)
    (ht : r'.timer = r.timer) (hk : r'.skipped ≤ 255) : TriggerSound r' := by
  obtain ⟨h1, -, -, -, h5⟩ := h
  have hactive : r'.state = .armed ∨ r'.state = .running := hst'.imp_left And.left
  have hper : r'.IsPeriodic ↔ r.IsPeriodic := by unfold ListRec.IsPeriodic; rw [hc]
  refine ⟨?_, fun hp => ?_, fun he => ?_, hk, ?_⟩
  · rw [ht]
    exact h1.trans (and_congr hper.symm (iff_of_true hst hactive))
  · rcases hst' with ⟨-, hnot⟩ | hrun
    · exact absurd (hnot.symm.trans hp) (by decide)
    · exact hrun
  · rcases hactive with h | h <;> rw [h] at he <;> simp at he
  · rw [hc, ← h5]
    refine iff_of_false ?_ ?_
    · rcases hactive with h | h <;> rw [h] <;> nofun
    · rcases hst with h | h <;> rw [h] <;> nofun

/-- A list that rests: no timer runs and no start is pending. -/
theorem triggerSound_of_rest (h : TriggerSound r) (hne : r.state ≠ .empty) (hc : r'.config = r.config) (ht : r'.timer = none)
    (hp : r'.startPending = false) (hst : r'.state = .idle ∧ r'.skipped = 0 ∨ r'.state = .draining ∨ r'.state = .aborting)
    (hk : r'.skipped ≤ 255) : TriggerSound r' := by
  obtain ⟨-, -, -, -, h5⟩ := h
  refine ⟨?_, fun h => absurd (hp.symm.trans h) (by decide), fun he => ?_, hk, ?_⟩
  · rw [ht]
    refine iff_of_false (by simp) (fun hn => ?_)
    rcases hst with ⟨h, -⟩ | h | h <;> simp [h] at hn
  · rcases hst with ⟨-, h⟩ | h | h
    · exact h
    · simp [h] at he
    · simp [h] at he
  · rw [hc, ← h5]
    refine iff_of_false ?_ hne
    rcases hst with ⟨h, -⟩ | h | h <;> simp [h]

theorem triggerSound_finished (h : TriggerSound r) (hne : r.state ≠ .empty) : TriggerSound r.finished :=
  triggerSound_of_rest (r' := r.finished) h hne rfl rfl rfl (.inl ⟨rfl, rfl⟩) (Nat.zero_le _)

/-- A cycle that starts in ARMED or RUNNING. -/
theorem triggerSound_of_cycleStarted (h : r.cycleStarted.IssuesAll r') (hs : TriggerSound r)
    (hst : r.state = .armed ∨ r.state = .running) :
    TriggerSound r' :=
  triggerSound_of_issues h.1 (triggerSound_of_active (r' := r.cycleStarted) hs hst (.inr rfl) rfl rfl hs.2.2.2.1)

theorem triggerSound_afterHead (hs : TriggerSound r) (e : Entry) (rest : List Entry) : TriggerSound (r.afterHead e rest) := by
  obtain ⟨h1, h2, h3, h4, h5⟩ := hs
  refine ⟨h1, h2, fun he => ?_, ?_, h5⟩ <;> unfold ListRec.afterHead <;> dsimp only <;> split
  · rfl
  · exact h3 he
  · exact Nat.zero_le _
  · exact h4

theorem triggerSound_of_cycleEnds (h : r.CycleEnds r') (hs : TriggerSound r) (hst : r.state = .running) : TriggerSound r' := by
  cases h with
  | finish => exact triggerSound_finished hs (by rw [hst]; nofun)
  | next h => exact triggerSound_of_cycleStarted h hs (.inr hst)
  | pending h =>
    have hcleared : TriggerSound { r with startPending := false } :=
      triggerSound_of_active (r' := { r with startPending := false }) hs (.inr hst) (.inr hst) rfl rfl hs.2.2.2.1
    exact triggerSound_of_cycleStarted h hcleared (.inr hst)
  | armed hp => exact triggerSound_of_active (r' := { r with state := .armed }) hs (.inr hst) (.inl ⟨rfl, hp⟩) rfl rfl hs.2.2.2.1

/-- START_LIST of a list whose trigger is not PERIODIC. -/
theorem triggerSound_startArmed {c : ListConfig} (hs : TriggerSound r) (hc : r.config = some c) (hst : r.state = .idle)
    (hnot : ∀ p, c.trigger ≠ .periodic p) : TriggerSound { r.started c with state := .armed } := by
  obtain ⟨h1, -, -, -, h5⟩ := hs
  have hnone : r.timer.isSome ≠ true := fun h => by
    have := (h1.mp h).2
    simp [hst] at this
  refine ⟨iff_of_false hnone (fun h => ?_), nofun, fun _ => rfl, Nat.zero_le _, iff_of_false nofun ?_⟩
  · obtain ⟨c', p, hc', hp⟩ := h.1
    cases hc.symm.trans hc'
    exact hnot p hp
  · exact fun h => nomatch hc.symm.trans h

/-- START_LIST of a PERIODIC list starts its timer. -/
theorem triggerSound_startPeriodic {c : ListConfig} {p : Nat} {k : PeriodTimer} (hc : r.config = some c)
    (hp : c.trigger = .periodic p) :
    TriggerSound { r.started c with timer := some k, state := .armed } :=
  ⟨iff_of_true rfl ⟨⟨c, p, hc, hp⟩, .inl rfl⟩, nofun, fun _ => rfl, Nat.zero_le _,
    iff_of_false nofun (fun h => nomatch hc.symm.trans h)⟩

theorem triggerSound_of_moves (h : r.Moves b r') (hs : TriggerSound r) : TriggerSound r' := by
  induction h with
  | shape hsh =>
    obtain ⟨w, rfl, -⟩ := hsh
    exact hs
  | trans _ _ ih1 ih2 => exact ih2 (ih1 hs)
  | timer k hk =>
    obtain ⟨h1, h2⟩ := hs
    exact ⟨(iff_of_true rfl hk).trans h1, h2⟩
  | trigger hst h => exact triggerSound_of_cycleStarted h hs (.inl hst)
  | triggerRunning hst =>
    unfold triggeredRunning
    split
    · exact triggerSound_of_active hs (.inr hst) (.inr hst) rfl rfl (Nat.min_le_left _ _)
    · exact triggerSound_of_active hs (.inr hst) (.inr hst) rfl rfl hs.2.2.2.1
  | retire _ _ _ h => exact triggerSound_of_issues h.1 (triggerSound_afterHead hs _ _)
  | retireLast _ hst _ h =>
    rename_i e rest _ _ _
    exact triggerSound_of_cycleEnds h (triggerSound_afterHead hs e rest) hst
  | retireDraining _ hst ht =>
    have hleft : ∀ t : ListRec, t.state = .draining → TriggerSound t → TriggerSound (if t.window = [] then t.finished else t) := by
      intro t ht hts
      split
      · exact triggerSound_finished hts (by rw [ht]; nofun)
      · exact hts
    rename_i e rest _ _
    rcases ht with rfl | rfl <;> exact hleft _ hst (triggerSound_afterHead hs e rest)
  | retireOther _ _ _ => exact triggerSound_afterHead hs _ _
  | finish hst => exact triggerSound_finished hs (by rcases hst with h | ⟨h, -⟩ <;> rw [h] <;> nofun)
  | drain hst =>
    rename_i r
    exact triggerSound_of_rest (r' := { r with state := .draining, timer := none, startPending := false }) hs (by rw [hst]; nofun)
      rfl rfl rfl (.inr (.inl rfl)) hs.2.2.2.1
  | count n _ => exact hs
  | abort n hb hst =>
    rename_i r
    refine triggerSound_of_rest (r' := r.aborted n) hs (by rcases hst with h | h <;> rw [h] <;> nofun) rfl rfl rfl ?_ (Nat.zero_le _)
    unfold ListRec.aborted
    split
    · exact .inl ⟨rfl, rfl⟩
    · exact .inr (.inr rfl)
  | startArmed hc hst hnot => exact triggerSound_startArmed hs hc hst hnot
  | startCycle hc hst ht h =>
    rename_i r r' c
    have harmed := triggerSound_startArmed hs hc hst (by rw [ht]; nofun)
    exact triggerSound_of_cycleStarted (r := { r.started c with state := .armed }) h harmed (.inl rfl)
  | startPeriodic k hc hst ht h =>
    rename_i r r' c p
    exact triggerSound_of_cycleStarted (r := { r.started c with timer := some k, state := .armed }) h
      (triggerSound_startPeriodic hc ht) (.inl rfl)

/-! ### A move that leaves the outstanding count (R69 to R71) -/

/-- Only an ABORTING list has outstanding work. -/
def ListRec.CountSound (r : ListRec) : Prop := r.state ≠ .aborting → r.outstanding = 0

theorem outstanding_of_issues (h : r.Issues r') : r'.outstanding = r.outstanding ∧ r'.state = r.state := by
  obtain ⟨w, k, rfl⟩ := eq_of_issues h
  exact ⟨rfl, rfl⟩

/-- The count stays, and with it that only an ABORTING list has one. -/
theorem outstanding_of_moves (h : r.Moves false r') (hs : r.CountSound) : r'.outstanding = r.outstanding ∧ r'.CountSound := by
  have zero {r r' : ListRec} (hs : r.CountSound) (hst : r.state ≠ .aborting) (h : r'.outstanding = r.outstanding) :
      r'.outstanding = r.outstanding ∧ r'.CountSound := ⟨h, fun _ => h.trans (hs hst)⟩
  induction h with
  | shape hsh =>
    obtain ⟨w, rfl, -⟩ := hsh
    exact ⟨rfl, hs⟩
  | trans _ _ ih1 ih2 =>
    obtain ⟨h1, hs1⟩ := ih1 hs
    obtain ⟨h2, hs2⟩ := ih2 hs1
    exact ⟨h2.trans h1, hs2⟩
  | timer k _ => exact ⟨rfl, hs⟩
  | trigger hst h => exact zero hs (by rw [hst]; nofun) (outstanding_of_issues h.1).1
  | triggerRunning hst =>
    refine zero hs (by rw [hst]; nofun) ?_
    unfold triggeredRunning
    split <;> rfl
  | retire _ hst _ h => exact zero hs (by rw [hst]; nofun) (outstanding_of_issues h.1).1
  | retireLast _ hst _ h =>
    obtain ⟨w, k, st, cy, ti, sp, sk, rfl, -⟩ := eq_of_cycleEnds h
    exact zero hs (by rw [hst]; nofun) rfl
  | retireDraining _ hst ht =>
    refine zero hs (by rw [hst]; nofun) ?_
    rcases ht with rfl | rfl <;> split <;> rfl
  | retireOther _ _ _ => exact ⟨rfl, hs⟩
  | finish hst =>
    refine ⟨rfl, fun _ => ?_⟩
    rcases hst with h | ⟨-, h⟩
    · exact hs (by rw [h]; nofun)
    · exact h
  | drain hst => exact zero hs (by rw [hst]; nofun) rfl
  | count n hb => cases hb
  | abort n hb _ => cases hb
  | startArmed _ hst _ => exact zero hs (by rw [hst]; nofun) (hs (by rw [hst]; nofun)).symm
  | startCycle _ hst _ h =>
    have hzero := hs (by rw [hst]; nofun)
    exact zero hs (by rw [hst]; nofun) ((outstanding_of_issues h.1).1.trans hzero.symm)
  | startPeriodic _ _ hst _ h =>
    have hzero := hs (by rw [hst]; nofun)
    exact zero hs (by rw [hst]; nofun) ((outstanding_of_issues h.1).1.trans hzero.symm)

end

end Sys2Proof.Machine
end

