-- ==== Sys2Proof/Proofs/ListsKept.lean ====
section
/-! PROOF. What each row does to the lists that it does not define anew, and that every row keeps windows and triggers sound. -/

-- One proof after another, as in the tests: side by side they take more threads than memory allows.
set_option Elab.async false

namespace Sys2Proof.Machine

open Sys2Proof.Safety

/-! ### Stages and outstanding counts -/

/-- Every list keeps its record but for stages and outstanding count. -/
def State.ShapesTo (s t : State) : Prop := ∀ l, (s.list l).SameShape (t.list l)

section
variable {s t u : State}

theorem ShapesTo_refl (s : State) : s.ShapesTo s := fun _ => SameShape_refl _

theorem ShapesTo_trans (h : s.ShapesTo t) (h2 : t.ShapesTo u) : s.ShapesTo u := fun l => SameShape_trans (h l) (h2 l)

theorem list_of_frame {fs : List Field} (hf : s.FrameTo fs t) (hd : (!fs.contains .lists) = true := by rfl) (l : ListId) :
    t.list l = s.list l :=
  congrArg (Vector.get · l) (hf .lists (by simpa using hd))

theorem shapesTo_of_frame {fs : List Field} (hf : s.FrameTo fs t) (hd : (!fs.contains .lists) = true := by rfl) : s.ShapesTo t :=
  fun l => by rw [list_of_frame hf hd]; exact SameShape_refl _

theorem foldl_shapesTo {α : Type} {g : State → α → State} (hg : ∀ (s : State) (a : α), s.ShapesTo (g s a)) (xs : List α) (s : State) :
    s.ShapesTo (xs.foldl g s) := by
  induction xs generalizing s with
  | nil => exact ShapesTo_refl s
  | cons x xs ih => exact ShapesTo_trans (hg s x) (ih (g s x))

theorem shapesTo_setList {l : ListId} {r : ListRec} (h : (s.list l).SameShape r) : s.ShapesTo (s.setList l r) := by
  intro m
  by_cases hm : m = l
  · subst hm
    rw [list_setList_same]
    exact h
  · rw [list_setList_of_ne s hm]
    exact SameShape_refl _

theorem places_setStage (k : Nat) (st : Stage) (w : List Entry) : (setStage k st w).map Entry.place = w.map Entry.place := by
  rw [setStage, List.map_map]
  refine List.map_congr_left (fun e _ => ?_)
  show Entry.place (if e.step = k then { e with stage := st } else e) = e.place
  split <;> rfl

variable (s)

theorem setOriginStage_shapesTo (o : Origin) (st : Stage) : s.ShapesTo (s.setOriginStage o st) := by
  cases o with
  | sample u => exact ShapesTo_refl s
  | entry l k => exact shapesTo_setList ⟨_, rfl, places_setStage k st _⟩

theorem deliver_shapesTo (o : Origin) (r : Result) : s.ShapesTo (s.deliver o r) := by
  cases o with
  | entry l k => exact setOriginStage_shapesTo s _ _
  | sample u => exact shapesTo_of_frame (completeSample_frameTo s u r)

theorem noCoreSweep_shapesTo (c : CoreId) : s.ShapesTo (s.noCoreSweep c) :=
  ShapesTo_trans (t := { s with pool := s.pool.filter (fun r => !s.lostRequest c r) })
    (shapesTo_of_frame (frameTo_of_patch (fs := [.pool]) rfl)) (foldl_shapesTo (fun t r => deliver_shapesTo t _ _) _ _)

theorem enterOffline_shapesTo (c : CoreId) (why : OfflineReason) : s.ShapesTo (s.enterOffline c why) :=
  ShapesTo_trans (t := (s.setCore c { s.core c with state := .offline, offlinePending := false }).raise (.coreOffline c why))
    (shapesTo_of_frame (frameTo_of_patch (fs := [.cores, .notices]) rfl)) (noCoreSweep_shapesTo _ c)

theorem settleCore_shapesTo (c : CoreId) : s.ShapesTo (s.settleCore c) := by
  rcases settleCore_cases s c with ⟨-, h⟩ | ⟨-, -, h⟩ | ⟨-, -, h⟩ <;> rw [h]
  · exact enterOffline_shapesTo s c _
  · exact enterOffline_shapesTo s c _
  · exact shapesTo_of_frame (frameTo_of_patch (fs := [.cores, .idleSince]) rfl)

theorem leaveHold_shapesTo (c : CoreId) : s.ShapesTo (s.leaveHold c) := by
  rcases leaveHold_cases s c with ⟨-, h⟩ | ⟨-, h⟩ <;> rw [h]
  · exact ShapesTo_trans (t := { s.setCore c { s.core c with latch := none } with holdOrder := s.holdOrder.erase c })
      (shapesTo_of_frame (frameTo_of_patch (fs := [.cores, .holdOrder]) rfl)) (enterOffline_shapesTo _ c _)
  · exact shapesTo_of_frame (frameTo_of_patch (fs := [.cores, .holdOrder, .idleSince, .nextEvent]) rfl)

theorem joinQueue_shapesTo (e : RatioEntry) : s.ShapesTo (s.joinQueue e) :=
  ShapesTo_trans (t := { s with evalQueue := s.evalQueue ++ [e] }) (shapesTo_of_frame (frameTo_of_patch (fs := [.evalQueue]) rfl))
    (setOriginStage_shapesTo _ _ _)

theorem abortCore_shapesTo (l : ListId) (c : CoreId) : s.ShapesTo (s.abortCore l c) := by
  unfold State.abortCore
  dsimp only
  split
  · split <;> exact shapesTo_of_frame (frameTo_of_patch (fs := [.cores]) rfl)
  · split
    · exact leaveHold_shapesTo s c
    · exact ShapesTo_refl s

theorem resetLink_shapesTo : s.ShapesTo s.resetLink := by
  have hdrop : ∀ (t : State) (c : CoreId), t.ShapesTo (t.dropSampleLatch c) := by
    intro t c
    unfold State.dropSampleLatch
    split
    · exact leaveHold_shapesTo t c
    · exact ShapesTo_refl t
  cases hl : s.lineLow with
  | true => rw [resetLink_of_low hl]; exact ShapesTo_refl s
  | false =>
    rw [resetLink_eq hl]
    exact ShapesTo_trans (ShapesTo_trans (ShapesTo_trans (t := s.linkCleared) (fun l => SameShape_refl _) (foldl_shapesTo hdrop _ _))
      (shapesTo_of_frame (abandonSession_frameTo _))) (shapesTo_of_frame (raise_frameTo _ _))

theorem choose_shapesTo : s.ShapesTo s.choose := shapesTo_of_frame (choose_frameTo s)

theorem serveHold_shapesTo : s.ShapesTo s.serveHold := by
  unfold State.serveHold
  split
  · exact ShapesTo_refl s
  · split
    · exact ShapesTo_refl s
    · split
      · exact ShapesTo_trans (ShapesTo_trans (joinQueue_shapesTo s _) (leaveHold_shapesTo _ _)) (choose_shapesTo _)
      · exact ShapesTo_refl s

theorem grantNext_shapesTo : s.ShapesTo s.grantNext := by
  rcases grantNext_cases s with h | ⟨r, c, cfg, -, -, -, -, h⟩ <;> rw [h]
  · exact ShapesTo_refl s
  · exact ShapesTo_trans (shapesTo_of_frame (frameTo_of_patch (fs := [.pool, .inputs, .cores]) rfl)) (setOriginStage_shapesTo _ _ _)

end

/-! ### Moves of the sequencers -/

/-- Every list makes moves, or none; `b` says whether outstanding counts may change. -/
def State.MovesTo (s : State) (b : Bool) (t : State) : Prop := ∀ l, (s.list l).Moves b (t.list l)

section
variable {b : Bool} {s t u : State}

theorem MovesTo_refl (s : State) : s.MovesTo b s := fun _ => Moves_refl b _

theorem MovesTo_trans (h : s.MovesTo b t) (h2 : t.MovesTo b u) : s.MovesTo b u := fun l => .trans (h l) (h2 l)

theorem movesTo_of_shapesTo (h : s.ShapesTo t) : s.MovesTo b t := fun l => .shape (h l)

theorem movesTo_of_frame {fs : List Field} (hf : s.FrameTo fs t) (hd : (!fs.contains .lists) = true := by rfl) : s.MovesTo b t :=
  movesTo_of_shapesTo (shapesTo_of_frame hf hd)

/-- One list moves, and the others stay. -/
theorem movesTo_of_one {l : ListId} (hself : (s.list l).Moves b (t.list l)) (hother : ∀ m, m ≠ l → t.list m = s.list m) :
    s.MovesTo b t := by
  intro m
  by_cases hm : m = l
  · subst hm
    exact hself
  · rw [hother m hm]
    exact Moves_refl b _

theorem movesTo_setList {l : ListId} {r : ListRec} (h : (s.list l).Moves b r) : s.MovesTo b (s.setList l r) :=
  movesTo_of_one (by rw [list_setList_same]; exact h) (fun _ hm => list_setList_of_ne s hm r)

theorem outstandingDone_movesTo (s : State) (o : Origin) : s.MovesTo true (s.outstandingDone o) := by
  cases o with
  | sample u => exact MovesTo_refl s
  | entry l k => exact movesTo_setList (.count _ rfl)

theorem handOff_shapesTo {c : CoreId} {k : Core} {p : Params} (hk : k.cancelled = false) : s.ShapesTo (s.handOff c k p) := by
  rw [State.handOff, hk, if_neg (by decide)]
  split
  · exact settleCore_shapesTo s c
  · split
    · exact settleCore_shapesTo s c
    · exact ShapesTo_trans (deliver_shapesTo s _ _) (settleCore_shapesTo _ c)
    · dsimp only
      split
      · exact ShapesTo_trans (joinQueue_shapesTo s _) (settleCore_shapesTo _ c)
      · exact shapesTo_of_frame (frameTo_of_patch (fs := [.cores, .holdOrder]) rfl)

theorem handOff_movesTo (s : State) (c : CoreId) (k : Core) (p : Params) : s.MovesTo true (s.handOff c k p) := by
  cases hk : k.cancelled with
  | true =>
    rw [State.handOff, if_pos hk]
    exact MovesTo_trans (outstandingDone_movesTo s _) (movesTo_of_shapesTo (settleCore_shapesTo _ c))
  | false => exact movesTo_of_shapesTo (handOff_shapesTo hk)

theorem endDischarge_movesTo (s : State) (c : CoreId) : s.MovesTo true (s.endDischarge c) := by
  unfold State.endDischarge
  dsimp only
  split
  · rename_i p _ _
    have hrelease : s.MovesTo true ((s.advanceTo ((s.core c).phaseStart + Config.dischargeTicks)).releaseCore c p) :=
      MovesTo_trans (t := s.advanceTo _) (movesTo_of_frame (frameTo_of_patch (fs := [.now]) rfl))
        (movesTo_of_frame (releaseCore_frameTo _ c p))
    exact MovesTo_trans (MovesTo_trans (MovesTo_trans hrelease (handOff_movesTo _ c (s.core c) p))
      (movesTo_of_frame (frameTo_of_patch (t := State.newGrantEvent _) (fs := [.nextEvent]) rfl))) (movesTo_of_frame (choose_frameTo _))
  · exact MovesTo_refl s

theorem completeEvaluation_movesTo (s : State) : s.MovesTo true s.completeEvaluation := by
  unfold State.completeEvaluation
  split
  · exact MovesTo_refl s
  · rename_i e _
    have hhand : s.MovesTo true (s.handResult e (s.evaluationResult e)) := by
      unfold State.handResult
      split
      · exact outstandingDone_movesTo s _
      · exact movesTo_of_shapesTo (deliver_shapesTo s _ _)
    refine MovesTo_trans (MovesTo_trans hhand ?_) (movesTo_of_frame (choose_frameTo _))
    unfold State.releaseBank
    split <;> exact movesTo_of_frame (frameTo_of_patch (fs := [.banks, .engine]) rfl)

theorem foldl_movesTo {α : Type} {g : State → α → State} (hg : ∀ (s : State) (a : α), s.MovesTo b (g s a)) (xs : List α) (s : State) :
    s.MovesTo b (xs.foldl g s) := by
  induction xs generalizing s with
  | nil => exact MovesTo_refl s
  | cons x xs ih => exact MovesTo_trans (hg s x) (ih (g s x))

/-- A request that arrives leaves at most a stage of its own list. -/
theorem arrive_shapesTo (s : State) (o : Origin) (ch : ChannelId) (i : InputId) (p : Priority) : s.ShapesTo (s.arrive o ch i p) := by
  cases h : s.unreachable i with
  | false => rw [arrive_of_reachable h]; exact shapesTo_of_frame (frameTo_of_patch (fs := [.pool, .nextEvent]) rfl)
  | true =>
    rw [arrive_of_unreachable h]
    exact ShapesTo_trans (t := s.newGrantEvent) (shapesTo_of_frame (frameTo_of_patch (fs := [.nextEvent]) rfl)) (deliver_shapesTo _ _ _)

theorem issueStep_sameShape (s : State) (l : ListId) (c : ListConfig) (ch : ChannelId) :
    ((s.list l).issued ch).SameShape ((s.issueStep l c ch).list l) := by
  have hset : ((s.setList l ((s.list l).issued ch)).list l) = (s.list l).issued ch := list_setList_same _ _ _
  unfold State.issueStep
  split
  · exact hset ▸ SameShape_refl _
  · exact hset ▸ arrive_shapesTo (s.setList l ((s.list l).issued ch)) _ _ _ _ l

theorem issue_issues (n : Nat) (s : State) (l : ListId) : (s.list l).Issues ((s.issue n l).list l) := by
  have key : ∀ (n : Nat) (r : ListRec) (s : State), r.Issues (s.list l) → r.Issues ((s.issue n l).list l) := by
    intro n r
    induction n with
    | zero => exact fun s h => h
    | succ n ih =>
      intro s h
      simp only [State.issue]
      split
      · exact h
      · rename_i c hc
        split
        · rename_i hroom
          split
          · exact h
          · rename_i ch hch
            exact ih _ (.shape (.issue h hc hroom.1 hroom.2 hch) (issueStep_sameShape s l c ch))
        · exact h
  exact key n _ s (.refl _)

/-- The sequencer issues all it can (R60). -/
theorem issueSteps_issuesAll (s : State) (l : ListId) : (s.list l).IssuesAll ((s.issueSteps l).list l) := by
  refine ⟨issue_issues _ s l, fun c hc hst hroom hleft => ?_⟩
  by_cases hw : (s.list l).window = []
  · obtain ⟨ch, hch⟩ : ∃ ch, c.steps[(s.list l).cursor]? = some ch := ⟨_, List.getElem?_eq_getElem hleft⟩
    have hdue : (s.list l).state = .running ∧ (s.list l).window.length < c.concurrency := ⟨hst, by rw [hw]; exact hroom⟩
    have hissued : ((s.issueStep l c ch).list l).window ≠ [] :=
      window_ne_nil_of_issues (.shape (.refl _) (issueStep_sameShape s l c ch))
        (List.append_ne_nil_of_right_ne_nil _ (List.cons_ne_nil _ _))
    have hfirst : s.issueSteps l = (s.issueStep l c ch).issue 3 l := by
      show s.issue 4 l = _
      rw [State.issue, hc]
      dsimp only
      rw [if_pos hdue, hch]
    rw [hfirst]
    exact window_ne_nil_of_issues (issue_issues _ _ l) hissued
  · exact window_ne_nil_of_issues (issue_issues _ s l) hw

theorem startCycle_issuesAll (s : State) (l : ListId) : (s.list l).cycleStarted.IssuesAll ((s.startCycle l).list l) := by
  have h := issueSteps_issuesAll (s.setList l (s.list l).cycleStarted) l
  rw [list_setList_same] at h
  exact h

theorem trigger_movesTo (s : State) (l : ListId) : s.MovesTo b (s.trigger l) := by
  refine movesTo_of_one ?_ (fun m hm => trigger_other s hm)
  rw [trigger_cases]
  split
  · rename_i hst
    exact .trigger hst (startCycle_issuesAll s l)
  · rename_i hst
    rw [list_setList_same]
    exact .triggerRunning hst
  · exact Moves_refl b _

theorem triggerChained_movesTo (s : State) (l : ListId) : s.MovesTo b (s.triggerChained l) := by
  refine foldl_movesTo (fun t m => ?_) _ s
  split
  · exact trigger_movesTo t m
  · exact MovesTo_refl t

theorem finishList_list (s : State) (l : ListId) (why : FinishReason) : (s.finishList l why).list l = (s.list l).finished :=
  list_setList_same s l _

theorem finishList_other (s : State) {l m : ListId} (hm : m ≠ l) (why : FinishReason) : (s.finishList l why).list m = s.list m :=
  list_setList_of_ne s hm _

theorem endCycle_cycleEnds (s : State) (l : ListId) : (s.list l).counted.CycleEnds ((s.endCycle l).list l) := by
  have hcounted : (s.countCycle l).list l = (s.list l).counted := list_setList_same s l _
  unfold State.endCycle
  dsimp only
  split
  · rw [finishList_list, hcounted]
    exact .finish _
  · split
    · have h := startCycle_issuesAll (s.countCycle l) l
      rw [hcounted] at h
      exact .next h
    · split
      · have h := startCycle_issuesAll ((s.countCycle l).setList l { (s.countCycle l).list l with startPending := false }) l
        rw [list_setList_same] at h
        rw [← hcounted]
        exact .pending h
      · rename_i hpending
        rw [list_setList_same, hcounted]
        rw [hcounted] at hpending
        exact .armed (Bool.of_not_eq_true hpending)

theorem endCycle_other (s : State) {l m : ListId} (hm : m ≠ l) : (s.endCycle l).list m = s.list m := by
  have hcounted : (s.countCycle l).list m = s.list m := list_setList_of_ne s hm _
  unfold State.endCycle
  dsimp only
  split
  · exact (finishList_other _ hm _).trans hcounted
  · split
    · exact (startCycle_other _ hm).trans hcounted
    · split
      · exact (startCycle_other _ hm).trans ((list_setList_of_ne _ hm _).trans hcounted)
      · exact (list_setList_of_ne _ hm _).trans hcounted

theorem endDrain_list (s : State) (l : ListId) :
    (s.endDrain l).list l = if (s.list l).window = [] then (s.list l).finished else s.list l := by
  unfold State.endDrain
  split
  · exact finishList_list s l _
  · rfl

theorem endDrain_other (s : State) {l m : ListId} (hm : m ≠ l) : (s.endDrain l).list m = s.list m := by
  unfold State.endDrain
  split
  · exact finishList_other s hm _
  · rfl

/-! ### Retirement and the hand-out of places -/

theorem monitor_list (s : State) (l m : ListId) (e : Entry) (r : Result) : (s.monitor l e r).list m = s.list m := by
  unfold State.monitor
  dsimp only
  split
  · rfl
  · split <;> rfl

/-- What follows a retirement, in the list itself: the head has left, and the list goes on by its state. -/
theorem afterRetire_moves {s : State} {l : ListId} {r : ListRec} {c : ListConfig} {e : Entry} {rest : List Entry} {res : Result}
    (hhead : r.readyHead = some (c, e, rest, res)) (hlist : s.list l = r.afterHead e rest) :
    r.Moves b ((s.afterRetire l (decide (e.step + 1 = c.steps.length))).list l) := by
  have hstate : (s.list l).state = r.state := by rw [hlist]; rfl
  unfold State.afterRetire
  split
  · rename_i hst
    rw [hstate] at hst
    split
    · rename_i hlast
      have hends := endCycle_cycleEnds s l
      rw [hlist] at hends
      exact .trans (.retireLast hhead hst (of_decide_eq_true hlast) hends) (triggerChained_movesTo _ l l)
    · rename_i hlast
      have hall := issueSteps_issuesAll s l
      rw [hlist] at hall
      exact .retire hhead hst (fun heq => hlast (decide_eq_true heq)) hall
  · rename_i hst
    rw [hstate] at hst
    split
    · have hcounted : (s.countCycle l).list l = (r.afterHead e rest).counted := by
        rw [← hlist]
        exact list_setList_same s l _
      refine .trans ?_ (triggerChained_movesTo _ l l)
      rw [endDrain_list, hcounted]
      exact .retireDraining hhead hst (.inr rfl)
    · rw [endDrain_list, hlist]
      exact .retireDraining hhead hst (.inl rfl)
  · rename_i hrun hdrain
    rw [hlist]
    rw [hstate] at hrun hdrain
    exact .retireOther hhead hrun hdrain

theorem afterRetire_moves_other {s : State} {l m : ListId} (hm : m ≠ l) (last : Bool) :
    (s.list m).Moves b ((s.afterRetire l last).list m) := by
  unfold State.afterRetire
  split
  · split
    · have h := triggerChained_movesTo (b := b) (s.endCycle l) l m
      rwa [endCycle_other s hm] at h
    · rw [issueSteps_other s hm]
      exact Moves_refl b _
  · split
    · have hcounted : (s.countCycle l).list m = s.list m := list_setList_of_ne s hm _
      have h := triggerChained_movesTo (b := b) ((s.countCycle l).endDrain l) l m
      rwa [endDrain_other _ hm, hcounted] at h
    · rw [endDrain_other s hm]
      exact Moves_refl b _
  · exact Moves_refl b _

theorem retireHead_movesTo (s : State) (l : ListId) (admitted : Bool) : s.MovesTo b (s.retireHead l admitted) := by
  unfold State.retireHead
  split
  · exact MovesTo_refl s
  · rename_i c e rest res hhead
    dsimp only
    have hmark : ∀ (t : State) (record : Record) (m : ListId), (if admitted then t.appendRecord record else t).list m = t.list m := by
      intro t record m
      split <;> rfl
    intro m
    by_cases hm : m = l
    · subst hm
      refine afterRetire_moves hhead ?_
      rw [hmark, list_setList_same, monitor_list]
    · have h := afterRetire_moves_other (b := b) (s := if admitted then ((s.monitor l e res).setList l
          (((s.monitor l e res).list l).afterHead e rest)).appendRecord
            (buildRecord l c (s.list l) (s.runMark l) ((s.monitor l e res).channel e.channel) e res)
        else (s.monitor l e res).setList l (((s.monitor l e res).list l).afterHead e rest)) hm
          (decide (e.step + 1 = c.steps.length))
      rw [hmark, list_setList_of_ne _ hm, monitor_list] at h
      exact h

theorem handOut_movesTo (n : Nat) (s : State) : s.MovesTo b (s.handOut n) := by
  induction n generalizing s with
  | zero => exact MovesTo_refl s
  | succ n ih =>
    unfold State.handOut
    split
    · exact MovesTo_refl s
    · rename_i l rest _
      refine MovesTo_trans (MovesTo_trans (MovesTo_trans (t := { s with blocked := rest })
        (movesTo_of_frame (frameTo_of_patch (fs := [.blocked]) rfl)) (retireHead_movesTo _ l true)) ?_) (ih _)
      unfold State.rejoin
      split
      · exact movesTo_of_frame (frameTo_of_patch (fs := [.blocked]) rfl)
      · exact MovesTo_refl _

theorem attemptRetire_movesTo (s : State) (l : ListId) : s.MovesTo b (s.attemptRetire l) := by
  have hchoose : ∀ t : State, t.MovesTo b t.choose := fun t => movesTo_of_frame (choose_frameTo t)
  unfold State.attemptRetire
  split
  · exact MovesTo_refl s
  · split
    · exact MovesTo_trans (MovesTo_trans (t := { s with blocked := s.blocked.erase l })
        (movesTo_of_frame (frameTo_of_patch (fs := [.blocked]) rfl)) (retireHead_movesTo _ l true)) (hchoose _)
    · split
      · exact MovesTo_trans (retireHead_movesTo s l false) (hchoose _)
      · split
        · exact MovesTo_refl s
        · exact movesTo_of_frame (frameTo_of_patch (fs := [.blocked]) rfl)

theorem reportSent_movesTo (s : State) : s.MovesTo b s.reportSent := by
  unfold State.reportSent
  split
  · exact MovesTo_trans (MovesTo_trans (movesTo_of_frame (frameTo_of_patch (fs := [.tx, .cutByte, .reports, .credits]) rfl))
      (handOut_movesTo _ _)) (movesTo_of_frame (choose_frameTo _))
  · exact MovesTo_refl s

/-! ### Starts and stops -/

theorem startList_movesTo {s : State} {l : ListId} {c : ListConfig} (hc : (s.list l).config = some c) (hst : (s.list l).state = .idle) :
    s.MovesTo b (s.startList l c) := by
  have hstarted : ((s.setList l ((s.list l).started c)).setRunMark l true).list l = (s.list l).started c := list_setList_same s l _
  have hother : ∀ m, m ≠ l → ((s.setList l ((s.list l).started c)).setRunMark l true).list m = s.list m := fun m hm =>
    list_setList_of_ne s hm _
  have harmed : (∀ p, c.trigger ≠ .periodic p) → s.MovesTo b (((s.setList l ((s.list l).started c)).setRunMark l true).setList l
      { ((s.setList l ((s.list l).started c)).setRunMark l true).list l with state := .armed }) := by
    intro hnot
    refine movesTo_of_one ?_ (fun m hm => (list_setList_of_ne _ hm _).trans (hother m hm))
    rw [list_setList_same, hstarted]
    exact .startArmed hc hst hnot
  unfold State.startList
  dsimp only
  split
  · rename_i htrigger
    refine movesTo_of_one ?_ (fun m hm => (startCycle_other _ hm).trans (hother m hm))
    have h := startCycle_issuesAll ((s.setList l ((s.list l).started c)).setRunMark l true) l
    rw [hstarted] at h
    exact .startCycle hc hst htrigger h
  · rename_i p htrigger
    refine movesTo_of_one ?_ (fun m hm => (startCycle_other _ hm).trans ((list_setList_of_ne _ hm _).trans (hother m hm)))
    have h := startCycle_issuesAll (((s.setList l ((s.list l).started c)).setRunMark l true).setList l
      { (s.list l).started c with timer := some { anchor := s.now, next := s.now + p * Config.ticksPerMs } }) l
    rw [list_setList_same] at h
    rw [hstarted]
    exact .startPeriodic _ hc hst htrigger h
  · rename_i htrigger
    exact harmed (by rw [htrigger]; nofun)
  · rename_i htrigger
    exact harmed (by rw [htrigger]; nofun)

theorem finishList_movesTo {s : State} {l : ListId} (h : (s.list l).state = .armed ∨ (s.list l).state = .aborting ∧
    (s.list l).outstanding = 0) (why : FinishReason) :
    s.MovesTo b (s.finishList l why) :=
  movesTo_of_one (by rw [finishList_list]; exact .finish h) (fun _ hm => finishList_other s hm why)

theorem drainList_movesTo (s : State) (l : ListId) : s.MovesTo b (s.drainList l) := by
  unfold State.drainList
  split
  · rename_i hst
    exact finishList_movesTo (.inl hst) _
  · rename_i hst
    exact movesTo_setList (.drain hst)
  · exact MovesTo_refl s

theorem abortWork_movesTo {s : State} {l : ListId} (hst : (s.list l).state = .running ∨ (s.list l).state = .draining) :
    s.MovesTo true (s.abortWork l) := by
  rw [abortWork_eq]
  have hcores : s.ShapesTo ((List.finRange 4).foldl (State.abortCore l) (s.withdrawn l)) :=
    ShapesTo_trans (t := s.withdrawn l) (fun m => SameShape_refl _) (foldl_shapesTo (fun t c => abortCore_shapesTo t l c) _ _)
  generalize (List.finRange 4).foldl (State.abortCore l) (s.withdrawn l) = t at hcores ⊢
  refine MovesTo_trans (movesTo_of_shapesTo hcores) ?_
  have hstate : (t.list l).state = (s.list l).state := by
    obtain ⟨w, heq, -⟩ := hcores l
    rw [heq]
  have hset : ∀ m, (t.abortRest l (s.abortCount l)).list m = (t.setList l ((t.list l).aborted (s.abortCount l))).list m := fun _ => rfl
  intro m
  rw [hset]
  exact movesTo_setList (.abort _ rfl (by rw [hstate]; exact hst)) m

theorem abortList_movesTo (s : State) (l : ListId) : s.MovesTo true (s.abortList l) := by
  unfold State.abortList
  split
  · rename_i hst
    exact finishList_movesTo (.inl hst) _
  · rename_i hst
    exact abortWork_movesTo (.inl hst)
  · rename_i hst
    exact abortWork_movesTo (.inr hst)
  · exact MovesTo_refl s

theorem expirePeriod_movesTo (s : State) (l : ListId) : s.MovesTo b (s.expirePeriod l) := by
  unfold State.expirePeriod
  split
  · rename_i k c hk hc
    have htimer : (s.list l).timer.isSome = true := by rw [hk]; rfl
    exact MovesTo_trans (MovesTo_trans (t := s.advanceTo k.next) (fun m => Moves_refl b _) (movesTo_setList (.timer _ htimer)))
      (trigger_movesTo _ l)
  · exact MovesTo_refl s

/-! ### The rows -/

/-- The rows that define a list anew, or undefine it. -/
def definesLists : Instr → Bool
  | .powerOnReset _ | .partReset _ | .setList | .clearList => true
  | _ => false

theorem runCommand_movesTo {s : State} {mine : Frame → Bool} {allowed : List Byte → Bool} {own : Frame → State → Answer}
    (hown : ∀ f t, (own f s).state? = some t → s.MovesTo b t) : s.MovesTo b (s.runCommand mine allowed own) :=
  runCommand_keeps (P := fun t => s.MovesTo b t) (fun _ _ _ _ h => h) (MovesTo_refl s) hown

/-- The rows that may change what a list has outstanding. -/
def changesCounts : Instr → Bool
  | .dischargeEnd _ | .evaluationComplete | .stopListAbort => true
  | _ => false

/-- Every other row makes moves of the lists. -/
theorem after_movesTo {c : Instr} (h : definesLists c = false) (hb : changesCounts c = true → b = true) (s : State) :
    s.MovesTo b (s.after c) := by
  cases c
  case startList =>
    refine runCommand_movesTo (fun f t ht => ?_)
    obtain ⟨l, c, hc, hst, rfl⟩ := startListOwn_state ht
    exact startList_movesTo hc hst
  case stopListDrain =>
    refine runCommand_movesTo (fun f t ht => ?_)
    obtain ⟨l, -, rfl⟩ := stopListDrainOwn_state ht
    exact drainList_movesTo s l
  case stopListAbort =>
    refine runCommand_movesTo (fun f t ht => ?_)
    obtain ⟨l, -, rfl⟩ := stopListAbortOwn_state ht
    exact hb rfl ▸ abortList_movesTo s l
  case triggerList =>
    refine runCommand_movesTo (fun f t ht => ?_)
    obtain ⟨l, c, -, rfl⟩ := triggerListOwn_state ht
    exact trigger_movesTo s l
  case takeCoreOffline =>
    refine runCommand_movesTo (fun f t ht => ?_)
    rcases takeCoreOfflineOwn_state ht with rfl | ⟨c, ⟨-, rfl⟩ | rfl⟩
    · exact MovesTo_refl _
    · exact movesTo_of_shapesTo (enterOffline_shapesTo s c _)
    · exact movesTo_of_frame (frameTo_of_patch (fs := [.cores]) rfl)
  case linkReset => exact movesTo_of_shapesTo (resetLink_shapesTo s)
  case grant => exact movesTo_of_shapesTo (grantNext_shapesTo s)
  case dischargeEnd core => exact hb rfl ▸ endDischarge_movesTo s core
  case holdServed => exact movesTo_of_shapesTo (serveHold_shapesTo s)
  case evaluationComplete => exact hb rfl ▸ completeEvaluation_movesTo s
  case periodExpiry list => exact expirePeriod_movesTo s list
  case retire list => exact attemptRetire_movesTo s list
  case reportFrameSent => exact reportSent_movesTo s
  case abortComplete list =>
    show s.MovesTo b (s.completeAbort list)
    unfold State.completeAbort
    split
    · rename_i hst
      exact MovesTo_trans (finishList_movesTo (.inr hst) _) (movesTo_of_frame (choose_frameTo _))
    · exact MovesTo_refl s
  case powerOnReset | partReset | setList | clearList => cases h
  all_goals exact movesTo_of_frame (after_frameTo _ s)

/-! ### Windows and triggers -/

/-- A property of single lists that moves keep is kept by every step, if the definition of a list gives it. -/
theorem keptByStep_of_moves {P : ListRec → Prop} (hmoves : ∀ r r', r.Moves true r' → P r → P r')
    (hconfigured : ∀ c, RangesSound c → P (ListRec.configured c)) (hempty : P ListRec.emptyList) :
    KeptByStep (fun s => ∀ l, P (s.list l)) := by
  have hset : ∀ (s : State) (l : ListId) (r : ListRec), (∀ m, P (s.list m)) → P r → ∀ m, P ((s.setList l r).list m) := by
    intro s l r hs hr m
    rw [State.list_setList]
    split
    · exact hr
    · exact hs m
  have hreset : ∀ (s : State) (b : BitVec 2) (m : ListId), P ((s.powerOn b).list m) := by
    intro s b m
    have : (s.powerOn b).list m = ListRec.emptyList := by simp [State.powerOn, State.list, State.reset]
    rw [this]
    exact hempty
  refine kept_of_rows (fun s q hs => hs) (fun s hs => ?_) (fun c s hs => ?_)
  · unfold State.idle
    split <;> exact hs
  · by_cases hd : definesLists c = false
    · exact fun l => hmoves _ _ (after_movesTo hd (fun _ => rfl) s l) (hs l)
    · cases c
      case powerOnReset b => exact hreset s b
      case partReset b =>
        show ∀ l, P ((if s.resetDue then s.powerOn b else s).list l)
        split
        · exact hreset s b
        · exact hs
      case setList =>
        refine runCommand_keeps (P := fun t => ∀ l, P (t.list l)) (fun _ _ _ _ h => h) hs (fun f t ht => ?_)
        obtain ⟨l, c, -, hconc, hsteps, -, -, rfl⟩ := setListOwn_state ht
        exact hset s l _ hs (hconfigured c ⟨hconc, hsteps⟩)
      case clearList =>
        refine runCommand_keeps (P := fun t => ∀ l, P (t.list l)) (fun _ _ _ _ h => h) hs (fun f t ht => ?_)
        rcases clearListOwn_state ht with rfl | ⟨l, -, -, rfl⟩
        · exact hs
        · exact hset s l _ hs hempty
      all_goals exact absurd rfl hd

/-- Settles O53, by the moves of single lists. -/
theorem listsStaySound : Obligations.ListsStaySound := by
  refine ⟨keptByStep_of_moves (fun _ _ h => listSound_of_moves h) (fun c hc => ?_) ?_,
    keptByStep_of_moves (fun _ _ h => triggerSound_of_moves h) (fun c _ => ?_) ?_⟩
  · exact listSound_of_empty_window (r := ListRec.configured c) rfl hc rfl (Nat.zero_le _) (.inl rfl)
  · exact ⟨rfl, rfl⟩
  · exact ⟨iff_of_false nofun (fun h => by simp [ListRec.configured] at h), nofun, fun _ => rfl, Nat.zero_le _,
      iff_of_false nofun nofun⟩
  · exact ⟨iff_of_false nofun (fun h => by simp [ListRec.emptyList] at h), nofun, fun _ => rfl, Nat.zero_le _, iff_of_true rfl rfl⟩

end

end Sys2Proof.Machine
end

