-- ==== Sys2Proof/Proofs/DefinitionsKept.lean ====
section
/-! PROOF. The definitions of channels and lists: steps name DEFINED channels and the sources form no loop (R38, R47). -/

-- One proof after another, as in the tests: side by side they take more threads than memory allows.
set_option Elab.async false

namespace Sys2Proof.Machine

open Sys2Proof.Safety

section
variable {s t u : State}

/-! ### Rows that leave the definitions -/

/-- The channels keep their configurations. -/
def State.ChannelsKept (s t : State) : Prop := ∀ ch, (t.channel ch).config = (s.channel ch).config

theorem channelsKept_of_frame {fs : List Field} (hf : s.FrameTo fs t) (hd : (!fs.contains .channels) = true := by rfl) :
    s.ChannelsKept t :=
  fun ch => congrArg (fun v : Vector Channel 32 => (v.get ch).config) (hf .channels (by simpa using hd))

theorem ChannelsKept_trans (h : s.ChannelsKept t) (h2 : t.ChannelsKept u) : s.ChannelsKept u := fun ch => (h2 ch).trans (h ch)

theorem ChannelsKept_refl (s : State) : s.ChannelsKept s := fun _ => rfl

/-- The monitor writes runtime fields of a channel only (R121). -/
theorem monitor_channelsKept (s : State) (l : ListId) (e : Entry) (r : Result) : s.ChannelsKept (s.monitor l e r) := by
  unfold State.monitor
  dsimp only
  split
  · exact ChannelsKept_refl s
  · rename_i cfg hcfg
    have hset : s.ChannelsKept (s.setChannel e.channel ((s.channel e.channel).afterResult cfg r)) := by
      intro ch
      rw [State.channel_setChannel]
      split
      · rename_i hch
        subst hch
        unfold Channel.afterResult
        split <;> rfl
      · rfl
    split
    · exact hset
    · exact hset

theorem afterRetire_channelsKept (s : State) (l : ListId) (last : Bool) : s.ChannelsKept (s.afterRetire l last) := by
  obtain ⟨_, _, _, _, h⟩ := afterRetire_advancesTo s l last
  rw [h]
  exact fun _ => rfl

theorem retireHead_channelsKept (s : State) (l : ListId) (admitted : Bool) : s.ChannelsKept (s.retireHead l admitted) := by
  unfold State.retireHead
  split
  · exact ChannelsKept_refl s
  · rename_i e _ res _
    dsimp only
    refine ChannelsKept_trans (monitor_channelsKept s l e res) ?_
    split
    · exact ChannelsKept_trans (t := State.appendRecord _ (State.setList _ _ _)) (fun _ => rfl) (afterRetire_channelsKept _ l _)
    · exact ChannelsKept_trans (t := State.setList _ _ _) (fun _ => rfl) (afterRetire_channelsKept _ l _)

theorem handOut_channelsKept (n : Nat) (s : State) : s.ChannelsKept (s.handOut n) := by
  induction n generalizing s with
  | zero => exact ChannelsKept_refl s
  | succ n ih =>
    unfold State.handOut
    split
    · exact ChannelsKept_refl s
    · rename_i l rest _
      refine ChannelsKept_trans (ChannelsKept_trans (retireHead_channelsKept { s with blocked := rest } l true) ?_) (ih _)
      unfold State.rejoin
      split
      · exact fun _ => rfl
      · exact ChannelsKept_refl _

/-- The rows that define a channel anew, or undefine it. -/
def definesChannels : Instr → Bool
  | .powerOnReset _ | .partReset _ | .setChannel | .clearChannel => true
  | _ => false

theorem after_channelsKept {c : Instr} (h : definesChannels c = false) (s : State) : s.ChannelsKept (s.after c) := by
  cases c
  case retire list =>
    show s.ChannelsKept (s.attemptRetire list)
    unfold State.attemptRetire
    split
    · exact ChannelsKept_refl s
    · split
      · exact retireHead_channelsKept { s with blocked := s.blocked.erase list } list true
      · split
        · exact retireHead_channelsKept s list false
        · split
          · exact ChannelsKept_refl s
          · exact fun _ => rfl
  case reportFrameSent =>
    show s.ChannelsKept s.reportSent
    unfold State.reportSent
    split
    · exact handOut_channelsKept _ { s with tx := none, cutByte := none, reports := s.reports.drop _, credits := s.credits - _ }
    · exact ChannelsKept_refl s
  case powerOnReset | partReset | setChannel | clearChannel => cases h
  all_goals exact channelsKept_of_frame (after_frameTo _ s)

end

/-! ### Sources -/

section
variable {s t : State} {l m : ListId}

theorem Reaches_trans {a b c : ListId} (h : Reaches s b c) (h2 : Reaches s a b) : Reaches s a c := by
  induction h with
  | here => exact h2
  | next x y he _ ih => exact .next x y he ih

/-- Where every source is one in the other state too, so is every walk. -/
theorem Reaches_mono (h : ∀ a b, (t.list a).chainedTo b = true → (s.list a).chainedTo b = true) {x y : ListId} (hr : Reaches t x y) :
    Reaches s x y := by
  induction hr with
  | here => exact .here
  | next a b he _ ih => exact .next a b (h a b he) ih

theorem chainedTo_of_config (h : (t.list l).config = (s.list l).config) (m : ListId) :
    (t.list l).chainedTo m = (s.list l).chainedTo m := by
  unfold ListRec.chainedTo
  rw [h]

/-- A walk in the state in which `l` has got a new source: it is one of the old state, or it comes to `l` and goes on from there. -/
theorem Reaches_redefined {src : ListId} (hother : ∀ a b, a ≠ l → (t.list a).chainedTo b = true → (s.list a).chainedTo b = true)
    (hself : ∀ b, (t.list l).chainedTo b = true → b = src) {x y : ListId} (h : Reaches t x y) :
    Reaches s x y ∨ (Reaches s l y ∧ Reaches t x src) := by
  induction h with
  | here => exact .inl .here
  | next a b he hr ih =>
    by_cases ha : a = l
    · subst ha
      exact .inr ⟨.here, hself b he ▸ hr⟩
    · rcases ih with h | ⟨h, h2⟩
      · exact .inl (.next a b (hother a b ha he) h)
      · exact .inr ⟨.next a b (hother a b ha he) h, h2⟩

/-- A source from which the list is not reached closes no loop. -/
theorem no_loop_redefined {src : ListId} (hother : ∀ a b, a ≠ l → (t.list a).chainedTo b = true → (s.list a).chainedTo b = true)
    (hself : ∀ b, (t.list l).chainedTo b = true → b = src) (hsrc : ¬ Reaches s l src)
    (hs : ∀ a b, (s.list a).chainedTo b = true → ¬ Reaches s a b) {a b : ListId} (he : (t.list a).chainedTo b = true) :
    ¬ Reaches t a b := by
  have hback : ∀ x, Reaches t x src → Reaches s x src := fun x hx =>
    (Reaches_redefined hother hself hx).resolve_right (fun h => hsrc h.1)
  intro hr
  by_cases ha : a = l
  · subst ha
    exact hsrc (hback a (hself b he ▸ hr))
  · have hedge := hother a b ha he
    rcases Reaches_redefined hother hself hr with h | ⟨h, h2⟩
    · exact hs a b hedge h
    · exact hsrc (Reaches_trans (hback a h2) (.next a b hedge h))

/-! ### The rows keep the definitions sound -/

/-- Steps and sources are sound. -/
def DefinitionsSound (s : State) : Prop := StepsDefined s ∧ SourcesSound s

theorem steps_of_config {r r' : ListRec} (h : r'.config = r.config) : r'.steps = r.steps := by
  unfold ListRec.steps
  rw [h]

theorem StepsDefined_of_same (hl : ∀ l, (t.list l).config = (s.list l).config) (hc : s.ChannelsKept t) (h : StepsDefined s) :
    StepsDefined t := by
  intro l ch hch
  rw [hc]
  exact h l ch (by rwa [← steps_of_config (hl l)])

theorem StepsDefined_setList {r : ListRec} (hr : ∀ ch ∈ r.steps, (s.channel ch).config.isSome = true) (h : StepsDefined s) :
    StepsDefined (s.setList l r) := by
  intro m ch hch
  rw [State.list_setList] at hch
  split at hch
  · exact hr ch hch
  · exact h m ch hch

theorem DefinitionsSound_of_same (hl : ∀ l, (s.list l).SameDefinition (t.list l)) (hc : s.ChannelsKept t) (h : DefinitionsSound s) :
    DefinitionsSound t := by
  obtain ⟨hsteps, hempty, hsources⟩ := h
  have hchained : ∀ a b, (t.list a).chainedTo b = (s.list a).chainedTo b := fun a b => chainedTo_of_config (hl a).1 b
  refine ⟨StepsDefined_of_same (fun l => (hl l).1) hc hsteps, fun l => (hl l).2.trans ((hempty l).trans (by rw [(hl l).1])),
    fun a b he => ?_⟩
  · rw [hchained] at he
    obtain ⟨hdefined, hloop⟩ := hsources a b he
    refine ⟨by rwa [(hl b).1], fun hr => hloop (Reaches_mono (fun x y h => by rwa [← hchained]) hr)⟩

theorem StepsDefined_setChannel {ch : ChannelId} {k : Channel} (hkept : k.config.isSome = true ∨ s.useCount ch = 0)
    (h : StepsDefined s) :
    StepsDefined (s.setChannel ch k) := by
  intro l x hx
  rw [State.channel_setChannel]
  split
  · rename_i hch
    subst hch
    rcases hkept with hk | huse
    · exact hk
    · have hmem : ch ∈ (s.list l).steps := hx
      have hzero : ((List.finRange 8).map (fun m => (s.list m).steps.count ch)).sum = 0 := by
        unfold State.useCount at huse
        omega
      have hnone := List.sum_eq_zero_iff.mp hzero _ (List.mem_map_of_mem (List.mem_finRange l))
      exact absurd hmem (List.count_eq_zero.mp hnone)
  · exact h l x hx

theorem DefinitionsSound_setChannel {ch : ChannelId} {k : Channel} (hkept : k.config.isSome = true ∨ s.useCount ch = 0)
    (h : DefinitionsSound s) : DefinitionsSound (s.setChannel ch k) :=
  ⟨StepsDefined_setChannel hkept h.1, h.2.1, fun a b he =>
    ⟨(h.2.2 a b he).1, fun hr => (h.2.2 a b he).2 (Reaches_mono (s := s) (t := s.setChannel ch k) (fun _ _ hx => hx) hr)⟩⟩

theorem list_of_chainRefusal_none {c : ListConfig} {src : ListId} (h : s.chainRefusal l c.trigger = none)
    (hsrc : c.trigger = .chained src) :
    ¬ Reaches s l src ∧ (s.list src).state ≠ .empty := by
  rw [hsrc, State.chainRefusal] at h
  split_ifs at h with hloop hempty
  exact ⟨fun hr => hloop (chainReaches_iff.mpr hr), hempty⟩

theorem DefinitionsSound_configured {c : ListConfig} (hsteps : ∀ ch ∈ c.steps, (s.channel ch).config.isSome = true)
    (hchain : s.chainRefusal l c.trigger = none) (h : DefinitionsSound s) :
    DefinitionsSound (s.setList l (ListRec.configured c)) := by
  obtain ⟨hs, hempty, hsources⟩ := h
  have hself : (s.setList l (ListRec.configured c)).list l = ListRec.configured c := list_setList_same s l _
  have hother : ∀ m, m ≠ l → (s.setList l (ListRec.configured c)).list m = s.list m := fun m hm => list_setList_of_ne s hm _
  have hdefined : ∀ m, (s.list m).config.isSome = true → ((s.setList l (ListRec.configured c)).list m).config.isSome = true := by
    intro m hm
    by_cases hml : m = l
    · rw [hml, hself]; rfl
    · rw [hother m hml]; exact hm
  have hedge : ∀ b, ((s.setList l (ListRec.configured c)).list l).chainedTo b = true → c.trigger = .chained b := by
    intro b hb
    rw [hself] at hb
    exact of_decide_eq_true hb
  refine ⟨StepsDefined_setList hsteps hs, fun m => ?_, fun a b he => ?_⟩
  · by_cases hml : m = l
    · rw [hml, hself]
      exact iff_of_false nofun nofun
    · rw [hother m hml]
      exact hempty m
  · have hkept : ∀ x y, x ≠ l → ((s.setList l (ListRec.configured c)).list x).chainedTo y = true → (s.list x).chainedTo y = true :=
      fun x y hx he => by rwa [hother x hx] at he
    by_cases ha : a = l
    · subst ha
      have hsrc := hedge b he
      obtain ⟨hwalk, hstate⟩ := list_of_chainRefusal_none hchain hsrc
      have hsome : (s.list b).config.isSome = true := by
        rw [Option.isSome_iff_ne_none]
        exact fun hnone => hstate ((hempty b).mpr hnone)
      exact ⟨hdefined b hsome, no_loop_redefined hkept (fun y hy => Trigger.chained.inj ((hedge y hy).symm.trans hsrc)) hwalk
        (fun x y hx => (hsources x y hx).2) he⟩
    · refine ⟨hdefined b (hsources a b (hkept a b ha he)).1, ?_⟩
      by_cases hsrc : ∃ src, c.trigger = .chained src
      · obtain ⟨src, hsrc⟩ := hsrc
        exact no_loop_redefined hkept (fun y hy => Trigger.chained.inj ((hedge y hy).symm.trans hsrc))
          (list_of_chainRefusal_none hchain hsrc).1 (fun x y hx => (hsources x y hx).2) he
      · refine fun hr => (hsources a b (hkept a b ha he)).2 (Reaches_mono (fun x y hxy => ?_) hr)
        by_cases hx : x = l
        · subst hx
          exact absurd ⟨y, hedge y hxy⟩ hsrc
        · exact hkept x y hx hxy

theorem DefinitionsSound_cleared (hnot : ∀ m, (s.list m).chainedTo l = false) (h : DefinitionsSound s) :
    DefinitionsSound (s.setList l ListRec.emptyList) := by
  obtain ⟨hs, hempty, hsources⟩ := h
  have hself : (s.setList l ListRec.emptyList).list l = ListRec.emptyList := list_setList_same s l _
  have hother : ∀ m, m ≠ l → (s.setList l ListRec.emptyList).list m = s.list m := fun m hm => list_setList_of_ne s hm _
  have hedge : ∀ a b, ((s.setList l ListRec.emptyList).list a).chainedTo b = true → (s.list a).chainedTo b = true := by
    intro a b he
    by_cases ha : a = l
    · rw [ha, hself] at he
      cases he
    · rwa [hother a ha] at he
  refine ⟨StepsDefined_setList nofun hs, fun m => ?_, fun a b he => ?_⟩
  · by_cases hml : m = l
    · rw [hml, hself]
      exact iff_of_true rfl rfl
    · rw [hother m hml]
      exact hempty m
  · have hb : b ≠ l := fun hbl => absurd (hedge a b he) (by rw [hbl, hnot a]; nofun)
    obtain ⟨hdefined, hloop⟩ := hsources a b (hedge a b he)
    exact ⟨by rw [hother b hb]; exact hdefined, fun hr => hloop (Reaches_mono hedge hr)⟩

theorem StepsDefined_powerOn (s : State) (b : BitVec 2) : StepsDefined (s.powerOn b) := by
  intro l ch hch
  rw [show (s.powerOn b).list l = ListRec.emptyList from reset_list l] at hch
  cases hch

theorem DefinitionsSound_powerOn (s : State) (b : BitVec 2) : DefinitionsSound (s.powerOn b) := by
  have hlist : ∀ l, (s.powerOn b).list l = ListRec.emptyList := reset_list
  refine ⟨StepsDefined_powerOn s b, fun l => ?_, fun a m he => ?_⟩
  · rw [hlist]
    exact iff_of_true rfl rfl
  · rw [hlist] at he
    cases he

/-- A property of the definitions is kept by every step, if the commands that define lists and channels keep it. -/
theorem keptByStep_of_definitions {P : State → Prop}
    (hsame : ∀ s t : State, (∀ l, (s.list l).SameDefinition (t.list l)) → s.ChannelsKept t → P s → P t)
    (hreset : ∀ (s : State) (b : BitVec 2), P (s.powerOn b))
    (hconfigured : ∀ (s : State) (l : ListId) (c : ListConfig), (∀ ch ∈ c.steps, (s.channel ch).config.isSome = true) →
      s.chainRefusal l c.trigger = none → P s → P (s.setList l (ListRec.configured c)))
    (hcleared : ∀ (s : State) (l : ListId), (∀ m, (s.list m).chainedTo l = false) → P s → P (s.setList l ListRec.emptyList))
    (hchannel : ∀ (s : State) (ch : ChannelId) (k : Channel), k.config.isSome = true ∨ s.useCount ch = 0 → P s → P
      (s.setChannel ch k)) :
    KeptByStep P := by
  have hcongr : ∀ {s t : State}, t.lists = s.lists → t.channels = s.channels → P s → P t := fun hl hc =>
    hsame _ _ (fun l => by rw [State.list, State.list, hl]; exact ⟨rfl, Iff.rfl⟩) (fun ch => by rw [State.channel, State.channel, hc])
  refine kept_of_rows (fun s q => hcongr rfl rfl) (fun s => ?_) (fun c s h => ?_)
  · unfold State.idle
    split <;> exact hcongr rfl rfl
  · have hrun : ∀ {mine : Frame → Bool} {allowed : List Byte → Bool} {own : Frame → State → Answer},
        (∀ f t, (own f s).state? = some t → P t) → P (s.runCommand mine allowed own) :=
      fun hown => runCommand_keeps (P := P) (fun _ _ _ _ => hcongr rfl rfl) h hown
    by_cases hd : definesLists c = false ∧ definesChannels c = false
    · exact hsame _ _ (fun l => sameDefinition_of_moves (after_movesTo hd.1 (fun _ => rfl) s l)) (after_channelsKept hd.2 s) h
    · cases c
      case powerOnReset b => exact hreset s b
      case partReset b =>
        show P (if s.resetDue then s.powerOn b else s)
        split
        · exact hreset s b
        · exact h
      case setList =>
        refine hrun (fun f t ht => ?_)
        obtain ⟨l, c, -, -, -, hsteps, hchain, rfl⟩ := setListOwn_state ht
        exact hcongr (s := s.setList l (ListRec.configured c)) rfl rfl (hconfigured s l c hsteps hchain h)
      case clearList =>
        refine hrun (fun f t ht => ?_)
        rcases clearListOwn_state ht with rfl | ⟨l, -, hnot, rfl⟩
        · exact h
        · exact hcongr (s := s.setList l ListRec.emptyList) rfl rfl (hcleared s l hnot h)
      case setChannel =>
        refine hrun (fun f t ht => ?_)
        obtain ⟨ch, c, -, rfl⟩ := setChannelOwn_state ht
        exact hchannel s ch _ (.inl rfl) h
      case clearChannel =>
        refine hrun (fun f t ht => ?_)
        rcases clearChannelOwn_state ht with rfl | ⟨ch, huse, rfl⟩
        · exact h
        · exact hchannel s ch _ (.inr huse) h
      all_goals exact absurd ⟨rfl, rfl⟩ hd

theorem stepsDefined_kept : KeptByStep StepsDefined :=
  keptByStep_of_definitions (fun _ _ hl hc => StepsDefined_of_same (fun l => (hl l).1) hc) StepsDefined_powerOn
    (fun _ _ _ hsteps _ => StepsDefined_setList hsteps) (fun _ _ _ => StepsDefined_setList nofun) (fun _ _ _ => StepsDefined_setChannel)

/-- Settles O57. -/
theorem definitionsStaySound : Obligations.DefinitionsStaySound :=
  keptByStep_of_definitions (fun _ _ => DefinitionsSound_of_same) DefinitionsSound_powerOn
    (fun _ _ _ => DefinitionsSound_configured) (fun _ _ => DefinitionsSound_cleared) (fun _ _ _ => DefinitionsSound_setChannel)

end

end Sys2Proof.Machine
end

