-- ==== Sys2Proof/Proofs/OutstandingKept.lean ====
section
/-! PROOF. The outstanding count of every list is its cancelled and void work (R69 to R71). -/

-- One proof after another, as in the tests: side by side they take more threads than memory allows.
set_option Elab.async false

namespace Sys2Proof.Machine

open Sys2Proof.Safety

section
variable {s t u : State} {c : CoreId} {k k' : Core} {l : ListId}

/-! ### Cores that keep their cancelled work -/

/-- A conversion before DISCHARGE carries no cancelled mark (R5, R15). -/
def Core.CancelSound (k : Core) : Prop := k.cancelled = true → k.state.isConverting = true → k.state = .discharge

/-- The core has the cancelled work that it had. -/
structure Core.KeepsCancelled (k k' : Core) : Prop where
  sound : k'.CancelSound
  work : ∀ l, cancelledFor k' l = cancelledFor k l

/-- A core that converts for nobody has no cancelled work. -/
theorem cancelledFor_of_not_discharge (h : k.state ≠ .discharge) (l : ListId) : cancelledFor k l = false := by
  rw [cancelledFor, decide_eq_false h]; rfl

theorem cancelSound_of_not_converting (h : k.state.isConverting = false) : k.CancelSound := fun _ hc => by
  rw [h] at hc; cases hc

theorem keepsCancelled_of_not_converting (h : k.state.isConverting = false) (h' : k'.state.isConverting = false) :
    k.KeepsCancelled k' := by
  have hne : ∀ x : Core, x.state.isConverting = false → x.state ≠ .discharge := fun x hx hd => by rw [hd] at hx; cases hx
  exact ⟨cancelSound_of_not_converting h', fun l => by
    rw [cancelledFor_of_not_discharge (hne k h), cancelledFor_of_not_discharge (hne k' h')]⟩

theorem keepsCancelled_of_same (hst : k'.state = k.state) (hc : k'.cancelled = k.cancelled) (hp : k'.params = k.params)
    (h : k.CancelSound) : k.KeepsCancelled k' :=
  ⟨fun h1 h2 => by rw [hst]; exact h (hc ▸ h1) (hst ▸ h2), fun l => by rw [cancelledFor, cancelledFor, hst, hc, hp]⟩

theorem keepsCancelled_of_movesOn (hm : k.MovesOn k') (h : k.CancelSound) : k.KeepsCancelled k' := by
  have hnot : k.cancelled = false := Bool.of_not_eq_true (fun hc => hm.early (h hc hm.before))
  have hnot' : k'.cancelled = false := hm.cancelled_eq.trans hnot
  exact ⟨fun hc => absurd (hnot'.symm.trans hc) (by decide), fun l => by simp [cancelledFor, hnot, hnot']⟩

/-- Every core keeps its cancelled work, where none is cancelled before DISCHARGE. -/
def State.KeepsCancelled (s t : State) : Prop := (∀ d, (s.core d).CancelSound) → ∀ d, (s.core d).KeepsCancelled (t.core d)

theorem KeepsCancelled_trans (h : s.KeepsCancelled t) (h2 : t.KeepsCancelled u) : s.KeepsCancelled u := fun hs d =>
  have ht := h2 (fun e => (h hs e).sound) d
  ⟨ht.sound, fun l => (ht.work l).trans ((h hs d).work l)⟩

theorem keepsCancelled_of_cores (h : ∀ d, t.core d = s.core d) : s.KeepsCancelled t := fun hs d => by
  rw [h]
  exact keepsCancelled_of_same rfl rfl rfl (hs d)

theorem KeepsCancelled_refl (s : State) : s.KeepsCancelled s := keepsCancelled_of_cores (fun _ => rfl)

theorem keepsCancelled_of_frame {fs : List Field} (hf : s.FrameTo fs t) (hd : (!fs.contains .cores) = true := by rfl) :
    s.KeepsCancelled t :=
  keepsCancelled_of_cores (fun d => core_congr (hf .cores (by simpa using hd)) d)

theorem keepsCancelled_of_coreSet (hset : s.CoreSet c k' t) (h : (s.core c).CancelSound → (s.core c).KeepsCancelled k') :
    s.KeepsCancelled t := by
  intro hs d
  rw [hset d]
  split
  · rename_i hd
    subst hd
    exact h (hs c)
  · exact keepsCancelled_of_same rfl rfl rfl (hs d)

theorem foldl_keepsCancelled {α : Type} {g : State → α → State} {Q : State → Prop}
    (hg : ∀ (s : State) (a : α), Q s → s.KeepsCancelled (g s a))
    (hq : ∀ (s : State) (a : α), Q s → Q (g s a)) (xs : List α) {s : State} (h : Q s) : s.KeepsCancelled (xs.foldl g s) := by
  induction xs generalizing s with
  | nil => exact KeepsCancelled_refl s
  | cons x xs ih => exact KeepsCancelled_trans (hg s x h) (ih (hq s x h))

theorem leaveHold_keepsCancelled (h : (s.core c).state = .hold) : s.KeepsCancelled (s.leaveHold c) := by
  obtain ⟨⟨k', hrest, hset⟩, -⟩ := leaveHold_core s c
  exact keepsCancelled_of_coreSet hset (fun _ => keepsCancelled_of_not_converting (by rw [h]; rfl) (RestsAs_notConverting hrest))

theorem phaseTo_keepsCancelled (h : s.PhaseTo c t) : s.KeepsCancelled t := by
  rcases h with rfl | ⟨n, k', rfl, hmoves⟩
  · exact KeepsCancelled_refl t
  · exact keepsCancelled_of_coreSet (CoreSet_of_eq rfl (coreSet_setCore _ c k')) (keepsCancelled_of_movesOn hmoves)

theorem checksTo_keepsCancelled (h : s.ChecksTo c t) : s.KeepsCancelled t := by
  rcases h with rfl | ⟨k', hk, hset⟩
  · exact KeepsCancelled_refl t
  · refine keepsCancelled_of_coreSet hset (fun _ => keepsCancelled_of_not_converting (isCheck_spec hk.before).2 ?_)
    rcases hk.after with hcheck | hidle | hoff
    · exact (isCheck_spec hcheck).2
    · rw [hidle]; rfl
    · rw [hoff]; rfl

theorem grantNext_keepsCancelled (s : State) : s.KeepsCancelled s.grantNext := by
  rcases grantNext_cases s with h | ⟨r, c, cfg, -, -, hidle, -, h⟩ <;> rw [h]
  · exact KeepsCancelled_refl s
  · have hset : s.CoreSet c ((s.core c).granted (paramsFor r cfg) s.now)
        (((({ s with pool := s.pool.erase r } : State).setInput r.input (.claimed c)).setCore c
          ((s.core c).granted (paramsFor r cfg) s.now)).setOriginStage r.origin .converting) :=
      CoreSet_congr (coreSet_setCore s c _) (setOriginStage_frameTo _ _ _ .cores rfl)
    refine keepsCancelled_of_coreSet hset (fun _ => ⟨nofun, fun l => ?_⟩)
    have hbefore : (s.core c).state ≠ .discharge := by rw [hidle]; nofun
    have hafter : ((s.core c).granted (paramsFor r cfg) s.now).state ≠ .discharge := nofun
    rw [cancelledFor_of_not_discharge hbefore, cancelledFor_of_not_discharge hafter]

theorem serveHold_keepsCancelled (h : HoldSound s) : s.KeepsCancelled s.serveHold := by
  unfold State.serveHold
  split
  · exact KeepsCancelled_refl s
  · rename_i c rest horder
    split
    · exact KeepsCancelled_refl s
    · rename_i e _
      split
      · have hjoin : (s.joinQueue e).cores = s.cores := joinQueue_frameTo s e .cores rfl
        have hhold : ((s.joinQueue e).core c).state = .hold := by
          rw [core_congr hjoin]
          exact (h.2.1 c).mp (by rw [horder]; exact List.mem_cons_self)
        exact KeepsCancelled_trans (KeepsCancelled_trans (keepsCancelled_of_cores (core_congr hjoin)) (leaveHold_keepsCancelled hhold))
          (keepsCancelled_of_frame (choose_frameTo _))
      · exact KeepsCancelled_refl s

theorem dropSampleLatch_keepsCancelled (s : State) (c : CoreId) : s.KeepsCancelled (s.dropSampleLatch c) := by
  unfold State.dropSampleLatch
  split
  · rename_i h
    exact leaveHold_keepsCancelled h.1
  · exact KeepsCancelled_refl s

theorem resetLink_keepsCancelled (s : State) : s.KeepsCancelled s.resetLink := by
  cases hl : s.lineLow with
  | true => rw [resetLink_of_low hl]; exact KeepsCancelled_refl s
  | false =>
    rw [resetLink_eq hl]
    exact KeepsCancelled_trans (KeepsCancelled_trans (KeepsCancelled_trans (t := s.linkCleared) (keepsCancelled_of_cores (fun _ => rfl))
      (foldl_keepsCancelled (Q := fun _ => True) (fun t c _ => dropSampleLatch_keepsCancelled t c) (fun _ _ _ => trivial) _ trivial))
      (keepsCancelled_of_frame (abandonSession_frameTo _))) (keepsCancelled_of_frame (raise_frameTo _ _))

theorem runCommand_keepsCancelled {mine : Frame → Bool} {allowed : List Byte → Bool} {own : Frame → State → Answer}
    (hown : ∀ f t, (own f s).state? = some t → s.KeepsCancelled t) : s.KeepsCancelled (s.runCommand mine allowed own) :=
  runCommand_keeps (P := fun t => s.KeepsCancelled t) (fun _ _ _ _ h => h) (KeepsCancelled_refl s) hown

/-- The rows that a list's cancelled and void work is affected by. -/
def touchesWork : Instr → Bool
  | .powerOnReset _ | .partReset _ | .dischargeEnd _ | .evaluationComplete | .stopListAbort => true
  | _ => false

theorem after_keepsCancelled {c : Instr} (hc : touchesWork c = false) (h : HoldSound s) : s.KeepsCancelled (s.after c) := by
  cases c
  case takeCoreOffline =>
    refine runCommand_keepsCancelled (fun f t ht => ?_)
    rcases takeCoreOfflineOwn_state ht with rfl | ⟨c, ⟨hidle, rfl⟩ | rfl⟩
    · exact KeepsCancelled_refl _
    · exact keepsCancelled_of_coreSet (enterOffline_core s c _) (fun _ => keepsCancelled_of_not_converting (by rw [hidle]; rfl) rfl)
    · exact keepsCancelled_of_coreSet (coreSet_setCore s c _) (keepsCancelled_of_same rfl rfl rfl)
  case restoreCore =>
    refine runCommand_keepsCancelled (fun f t ht => ?_)
    obtain ⟨c, hoff, -, -, rfl⟩ := restoreCoreOwn_state ht
    have hset : s.CoreSet c { (s.core c).enter .checkA s.now with checkPassed := none }
        ((s.defer f.tag (.restore c)).setCore c { (s.core c).enter .checkA s.now with checkPassed := none }) :=
      CoreSet_of_eq rfl (coreSet_setCore _ c _)
    exact keepsCancelled_of_coreSet hset (fun _ => keepsCancelled_of_not_converting (by rw [hoff]; rfl) rfl)
  case linkReset => exact resetLink_keepsCancelled s
  case grant => exact grantNext_keepsCancelled s
  case settleEnd core => exact phaseTo_keepsCancelled (endSettle_phaseTo s core)
  case refPhaseComplete core count => exact phaseTo_keepsCancelled (completeRef_phaseTo s core count)
  case refPhaseTimeout core => exact phaseTo_keepsCancelled (timeoutRef_phaseTo s core)
  case sensePhaseComplete core count => exact phaseTo_keepsCancelled (completeSense_phaseTo s core count)
  case sensePosComplete core count => exact phaseTo_keepsCancelled (completeForward_phaseTo s core count)
  case senseNegComplete core count => exact phaseTo_keepsCancelled (completeReverse_phaseTo s core count)
  case senseTimeout core => exact phaseTo_keepsCancelled (timeoutSense_phaseTo s core)
  case checkPeriodsComplete core count => exact checksTo_keepsCancelled (passCheck_checksTo s core count)
  case checkLimitExpiry core => exact checksTo_keepsCancelled (failCheck_checksTo s core)
  case checkDischargeEnd core => exact checksTo_keepsCancelled (endCheckDischarge_checksTo s core)
  case holdServed => exact serveHold_keepsCancelled h
  case powerOnReset | partReset | dischargeEnd | evaluationComplete | stopListAbort => cases hc
  all_goals exact keepsCancelled_of_frame (after_frameTo _ s)

/-! ### Counts that stay -/

theorem cancelledWork_congr (hcores : ∀ d, cancelledFor (t.core d) l = cancelledFor (s.core d) l) (hvoid : voidFor t l = voidFor s l) :
    cancelledWork t l = cancelledWork s l := by
  unfold cancelledWork
  rw [hvoid]
  simp only [hcores]

theorem countSound_of_exact (h : OutstandingExact s) (l : ListId) : (s.list l).CountSound := fun hst =>
  (h.1 l).1.trans ((h.1 l).2 hst)

/-- Where work and counts stay, the counts stay exact. -/
theorem OutstandingExact_of_kept (hcores : s.KeepsCancelled t) (hvoid : ∀ l, voidFor t l = voidFor s l)
    (hlists : ∀ l, (s.list l).CountSound → (t.list l).outstanding = (s.list l).outstanding ∧ (t.list l).CountSound)
    (h : OutstandingExact s) : OutstandingExact t := by
  have hkept := hcores h.2
  refine ⟨fun l => ?_, fun d => (hkept d).sound⟩
  obtain ⟨hcount, hsound⟩ := hlists l (countSound_of_exact h l)
  have hwork : cancelledWork t l = cancelledWork s l := cancelledWork_congr (fun d => (hkept d).work l) (hvoid l)
  have hexact : (t.list l).outstanding = cancelledWork t l := by rw [hcount, hwork]; exact (h.1 l).1
  exact ⟨hexact, fun hst => hexact.symm.trans (hsound hst)⟩

theorem voidFor_of_engine (h : t.engine = s.engine) (l : ListId) : voidFor t l = voidFor s l := by
  rw [voidFor, voidFor, h]

theorem voidFor_startEvaluation (s : State) (l : ListId) : voidFor s.startEvaluation l = voidFor s l := by
  rcases startEvaluation_cases s with h | ⟨e, rest, x, hengine, -, -, hvoid, -, h⟩ <;> rw [h]
  unfold voidFor
  rw [hengine]
  simp [hvoid]

/-- Only a completion ends void work: an evaluation that starts is not void. -/
theorem voidFor_after {c : Instr} (hc : touchesWork c = false) (l : ListId) : voidFor (s.after c) l = voidFor s l := by
  by_cases hstart : c = .evaluationStart
  · subst hstart
    exact voidFor_startEvaluation s l
  · refine voidFor_of_engine ?_ l
    cases c
    case evaluationStart => exact absurd rfl hstart
    case powerOnReset | partReset | dischargeEnd | evaluationComplete | stopListAbort => cases hc
    all_goals exact after_frameTo _ s .engine rfl

/-! ### Work that ends -/

/-- Cancelled or void work of the marked lists has ended, and their counts with it (R70). -/
theorem OutstandingExact_of_ended {done : ListId → Bool} (hcores : ∀ d, (t.core d).CancelSound)
    (hwork : ∀ l, cancelledWork t l + (done l).toNat = cancelledWork s l)
    (hlists : ∀ l, (t.list l).state = (s.list l).state ∧ (t.list l).outstanding = (s.list l).outstanding - (done l).toNat)
    (h : OutstandingExact s) : OutstandingExact t := by
  refine ⟨fun l => ?_, hcores⟩
  obtain ⟨hstate, hcount⟩ := hlists l
  obtain ⟨hexact, hzero⟩ := h.1 l
  have := hwork l
  exact ⟨by omega, fun hst => by have := hzero (hstate ▸ hst); omega⟩

theorem countP_of_one {f g : CoreId → Bool} (hone : ∀ d, d ≠ c → g d = f d) :
    (List.finRange 4).countP g + (f c).toNat = (List.finRange 4).countP f + (g c).toNat := by
  have hperm := List.perm_cons_erase (List.mem_finRange c)
  have hrest : ((List.finRange 4).erase c).countP g = ((List.finRange 4).erase c).countP f :=
    List.countP_congr (fun d hd => by rw [hone d (((List.nodup_finRange 4).mem_erase_iff.mp hd).1)])
  have hcons : ∀ b : Bool, (if b = true then 1 else 0) = b.toNat := fun b => by cases b <;> rfl
  rw [hperm.countP_eq g, hperm.countP_eq f, List.countP_cons, List.countP_cons, hrest, hcons, hcons]
  omega

theorem outstandingDone_list (s : State) (o : Origin) (l : ListId) : (s.outstandingDone o).list l =
    { s.list l with outstanding := (s.list l).outstanding - (o.ofList l).toNat } := by
  cases o with
  | sample u => rfl
  | entry m k =>
    show (s.setList m { s.list m with outstanding := (s.list m).outstanding - 1 }).list l = _
    rw [State.list_setList]
    by_cases hml : m = l
    · subst hml
      rw [if_pos rfl, Origin.ofList, decide_eq_true rfl]
      rfl
    · rw [if_neg hml, Origin.ofList, decide_eq_false hml]
      rfl

theorem state_of_shapesTo (h : s.ShapesTo t) (l : ListId) :
    (t.list l).state = (s.list l).state ∧ (t.list l).outstanding = (s.list l).outstanding := by
  obtain ⟨w, hw, -⟩ := h l
  rw [hw]
  exact ⟨rfl, rfl⟩

/-- The hand-off of a core counts off the cancelled conversion, and nothing else (R11, R70). -/
theorem handOff_counts (s : State) (k : Core) (p : Params) (l : ListId) :
    ((s.handOff c k p).list l).state = (s.list l).state ∧
      ((s.handOff c k p).list l).outstanding = (s.list l).outstanding - (k.cancelled && p.origin.ofList l).toNat := by
  have hshapes (hk : k.cancelled = false) (h : s.ShapesTo (s.handOff c k p)) :
      ((s.handOff c k p).list l).state = (s.list l).state ∧
        ((s.handOff c k p).list l).outstanding = (s.list l).outstanding - (k.cancelled && p.origin.ofList l).toNat := by
    rw [hk]
    exact state_of_shapesTo h l
  by_cases hk : k.cancelled = true
  · have hoff : s.handOff c k p = (s.outstandingDone p.origin).settleCore c := by rw [State.handOff, if_pos hk]
    obtain ⟨hstate, hcount⟩ := state_of_shapesTo (settleCore_shapesTo (s.outstandingDone p.origin) c) l
    rw [hoff, hstate, hcount, outstandingDone_list, hk]
    exact ⟨rfl, rfl⟩
  · have hk := Bool.of_not_eq_true hk
    exact hshapes hk (handOff_shapesTo hk)

theorem handOff_not_converting (s : State) (k : Core) (p : Params) :
    ∃ k', k'.state.isConverting = false ∧ s.CoreSet c k' (s.handOff c k p) := by
  rcases handOff_core s c k p with ⟨k', hrest, hset, -⟩ | ⟨r, -, -, -, h⟩
  · exact ⟨k', RestsAs_notConverting hrest, hset⟩
  · rw [h]
    exact ⟨_, rfl, CoreSet_congr (coreSet_setCore s c _) rfl⟩

theorem OutstandingExact_endDischarge (c : CoreId) (h : OutstandingExact s) : OutstandingExact (s.endDischarge c) := by
  rcases endDischarge_cases s c with heq | ⟨p, hstate, hparams, heq⟩
  · rwa [heq]
  · rw [heq]
    set u := (s.released c p).handOff c (s.core c) p with hu
    have hf := released_frameTo s c p
    have hend : u.FrameTo [.nextEvent, .choice] u.newGrantEvent.choose :=
      FrameTo_trans (t := u.newGrantEvent) (FrameTo_mono (fs := [.nextEvent]) (frameTo_of_patch rfl) rfl)
        (FrameTo_mono (choose_frameTo _) rfl)
    obtain ⟨k', hk', hset⟩ := handOff_not_converting (c := c) (s.released c p) (s.core c) p
    have hset : s.CoreSet c k' u.newGrantEvent.choose :=
      CoreSet_congr (CoreSet_trans (released_core s c p) hset) (hend .cores rfl)
    have hbefore : ∀ l, cancelledFor (s.core c) l = ((s.core c).cancelled && p.origin.ofList l) := fun l => by
      rw [cancelledFor, hstate, hparams]; rfl
    have hafter : ∀ l, cancelledFor k' l = false := fun l =>
      cancelledFor_of_not_discharge (fun hd => by rw [hd] at hk'; cases hk') l
    have hvoid : ∀ l, voidFor u.newGrantEvent.choose l = voidFor s l := voidFor_of_engine
      ((hend .engine rfl).trans ((handOff_frameTo _ c _ p .engine rfl).trans (hf .engine rfl)))
    refine OutstandingExact_of_ended (done := fun l => (s.core c).cancelled && p.origin.ofList l) (fun d => ?_) (fun l => ?_)
      (fun l => ?_) h
    · rw [hset d]
      split
      · exact cancelSound_of_not_converting hk'
      · exact h.2 d
    · have hcount := countP_of_one (f := fun d => cancelledFor (s.core d) l)
        (g := fun d => cancelledFor (u.newGrantEvent.choose.core d) l) (c := c)
        (fun d hd => by rw [hset d, if_neg (fun hc => hd hc.symm)])
      simp only [CoreSet_same hset, hbefore, hafter, Bool.toNat_false] at hcount
      unfold cancelledWork
      rw [hvoid]
      omega
    · rw [list_of_frame hend rfl, hu]
      have := handOff_counts (c := c) (s.released c p) (s.core c) p l
      rwa [list_of_frame hf rfl l] at this

theorem OutstandingExact_completeEvaluation (h : OutstandingExact s) : OutstandingExact s.completeEvaluation := by
  obtain hengine | ⟨e, hengine⟩ := Option.eq_none_or_eq_some s.engine
  · rwa [State.completeEvaluation, hengine]
  · set u := s.handResult e (s.evaluationResult e) with hu
    have heq : s.completeEvaluation = ({ u.releaseBank e.bank with engine := none } : State).choose := by
      rw [State.completeEvaluation, hengine]
    have hhand : u.cores = s.cores := handResult_frameTo s e _ .cores rfl
    have hend : u.FrameTo [.banks, .engine, .choice] s.completeEvaluation := by
      rw [heq]
      exact FrameTo_trans (t := { u.releaseBank e.bank with engine := none })
        (FrameTo_trans (t := u.releaseBank e.bank) (FrameTo_mono (fs := [.banks]) (by cases e.bank <;> exact frameTo_of_patch rfl) rfl)
          (FrameTo_mono (fs := [.engine]) (frameTo_of_patch rfl) rfl))
        (FrameTo_mono (choose_frameTo _) rfl)
    have hcore : ∀ d, s.completeEvaluation.core d = s.core d := core_congr ((hend .cores rfl).trans hhand)
    have hbefore : ∀ l, voidFor s l = (e.void && e.origin.ofList l) := fun l => by rw [voidFor, hengine]; rfl
    have hafter : ∀ l, voidFor s.completeEvaluation l = false := fun l => by
      rw [voidFor, heq, choose_frameTo _ .engine rfl]; rfl
    refine OutstandingExact_of_ended (done := fun l => e.void && e.origin.ofList l) (fun d => hcore d ▸ h.2 d) (fun l => ?_)
      (fun l => ?_) h
    · unfold cancelledWork
      rw [hbefore, hafter]
      simp only [hcore]
      cases e.void && e.origin.ofList l <;> rfl
    · rw [list_of_frame hend rfl, hu, State.handResult]
      cases hv : e.void with
      | true => rw [if_pos rfl, outstandingDone_list]; exact ⟨rfl, rfl⟩
      | false => exact state_of_shapesTo (deliver_shapesTo s _ _) l

/-! ### Aborts -/

/-- What an abort of the list makes of a core (R15). -/
inductive Core.AbortedFor (l : ListId) (k k' : Core) : Prop where
  | cancels (hconv : k.convertsFor l = true) (hstate : k'.state = .discharge) (hcancelled : k'.cancelled = true)
      (hparams : k'.params = k.params)
  | discards (hlatch : k.latchesFor l = true) (hrest : { k with latch := none }.RestsAs k')
  | stays (hconv : k.convertsFor l = false) (hlatch : k.latchesFor l = false) (heq : k' = k)

theorem abortCore_core (s : State) (l : ListId) (c : CoreId) :
    ∃ k', (s.core c).AbortedFor l k' ∧ s.CoreSet c k' (s.abortCore l c) := by
  unfold State.abortCore
  dsimp only
  split
  · rename_i hconv
    split
    · rename_i hd
      exact ⟨{ s.core c with cancelled := true }, .cancels hconv hd rfl rfl, coreSet_setCore s c _⟩
    · exact ⟨{ s.core c with cancelled := true, state := .discharge, phaseStart := s.now }, .cancels hconv rfl rfl rfl,
        coreSet_setCore s c _⟩
  · rename_i hconv
    split
    · rename_i hlatch
      obtain ⟨⟨k', hrest, hset⟩, -⟩ := leaveHold_core s c
      exact ⟨k', .discards hlatch hrest, hset⟩
    · rename_i hlatch
      exact ⟨s.core c, .stays (Bool.of_not_eq_true hconv) (Bool.of_not_eq_true hlatch) rfl, fun d => by split <;> simp [*]⟩

/-- The abort reaches each core once. -/
theorem abortCores_core (l : ListId) {cs : List CoreId} (hnodup : cs.Nodup) (s : State) (d : CoreId) :
    if d ∈ cs then (s.core d).AbortedFor l ((cs.foldl (State.abortCore l) s).core d)
    else (cs.foldl (State.abortCore l) s).core d = s.core d := by
  induction cs generalizing s with
  | nil => rfl
  | cons c cs ih =>
    obtain ⟨hnot, hnodup⟩ := List.nodup_cons.mp hnodup
    obtain ⟨k', hk', hset⟩ := abortCore_core s l c
    have hrest := ih hnodup (s.abortCore l c)
    rw [List.foldl_cons]
    by_cases hdc : c = d
    · subst hdc
      rw [if_neg hnot, CoreSet_same hset] at hrest
      rw [if_pos List.mem_cons_self, hrest]
      exact hk'
    · rw [hset d, if_neg hdc] at hrest
      have hmem : d ∈ c :: cs ↔ d ∈ cs := by simp [Ne.symm hdc]
      simpa only [hmem] using hrest

theorem abortWork_core (s : State) (l : ListId) (d : CoreId) : (s.core d).AbortedFor l ((s.abortWork l).core d) := by
  have h := abortCores_core l (List.nodup_finRange 4) (s.withdrawn l) d
  rw [if_pos (List.mem_finRange d)] at h
  rw [abortWork_eq]
  exact h

theorem ofList_unique {o : Origin} {l m : ListId} (hl : o.ofList l = true) (hm : o.ofList m = true) : l = m := by
  cases o with
  | sample => cases hl
  | entry n k => exact (of_decide_eq_true hl).symm.trans (of_decide_eq_true hm)

theorem cancelledFor_iff : cancelledFor k l = true ↔
    k.state = .discharge ∧ k.cancelled = true ∧ k.params.any (fun p => p.origin.ofList l) = true := by
  simp [cancelledFor, and_assoc]

theorem convertsFor_iff : k.convertsFor l = true ↔ k.state.isConverting = true ∧ k.params.any (fun p => p.origin.ofList l) = true := by
  simp [Core.convertsFor]

/-- An abort cancels all that converts for its list, and nothing of others. -/
theorem cancelledFor_aborted {m : ListId} (h : k.AbortedFor l k') :
    cancelledFor k' m = if m = l then k.convertsFor l else cancelledFor k m := by
  cases h with
  | cancels hconv hstate hcancelled hparams =>
    have hany := (convertsFor_iff.mp hconv).2
    split
    · rename_i hm
      rw [hconv, cancelledFor_iff, hparams, hm]
      exact ⟨hstate, hcancelled, hany⟩
    · rename_i hm
      have hnot : k.params.any (fun p => p.origin.ofList m) = false := by
        rw [Option.any_eq_true] at hany
        obtain ⟨p, hp, hl⟩ := hany
        rw [hp]
        exact Bool.of_not_eq_true (fun ho => hm (ofList_unique ho hl))
      rw [cancelledFor, cancelledFor, hparams, hnot, Bool.and_false, Bool.and_false]
  | discards hlatch hrest =>
    have hhold : k.state = .hold := of_decide_eq_true (Bool.and_eq_true_iff.mp hlatch).1
    have hrest := RestsAs_notConverting hrest
    rw [cancelledFor_of_not_discharge (fun hd => by rw [hd] at hrest; cases hrest),
      cancelledFor_of_not_discharge (by rw [hhold]; exact nofun), Core.convertsFor, hhold]
    split <;> rfl
  | stays hconv hlatch heq =>
    rw [heq]
    split
    · rename_i hm
      rw [hm, hconv]
      refine Bool.of_not_eq_true (fun hc => ?_)
      obtain ⟨hd, -, hany⟩ := cancelledFor_iff.mp hc
      exact absurd (hconv.symm.trans (convertsFor_iff.mpr ⟨by rw [hd]; rfl, hany⟩)) (by decide)
    · rfl

theorem voidFor_abortWork (s : State) (l m : ListId) :
    voidFor (s.abortWork l) m = if m = l then s.evaluatesFor l else voidFor s m := by
  have hfold : ((List.finRange 4).foldl (State.abortCore l) (s.withdrawn l)).engine = s.engine :=
    foldl_frameTo (s := s.withdrawn l) (fun t c => abortCore_frameTo t l c) _ .engine rfl
  have hengine : (s.abortWork l).engine = s.engine.map (Evaluation.voidFor l) := by
    rw [abortWork_eq, ← hfold]
    rfl
  unfold voidFor State.evaluatesFor
  rw [hengine]
  obtain hnone | ⟨e, he⟩ := Option.eq_none_or_eq_some s.engine
  · rw [hnone]
    split <;> rfl
  · rw [he]
    show ((e.voidFor l).void && (e.voidFor l).origin.ofList m) = if m = l then e.origin.ofList l else (e.void && e.origin.ofList m)
    unfold Evaluation.voidFor
    split_ifs with ho hm hm
    · rw [hm]
      rfl
    · have hnot : e.origin.ofList m = false := Bool.of_not_eq_true (fun hom => hm (ofList_unique hom ho))
      exact (congrArg (true && ·) hnot).trans ((congrArg (e.void && ·) hnot).trans (Bool.and_false _)).symm
    · rw [hm, Bool.of_not_eq_true ho, Bool.and_false]
    · rfl

theorem abortWork_list (s : State) (l : ListId) : ∃ r, (s.abortWork l).list l = ListRec.aborted (s.abortCount l) r := by
  rw [abortWork_eq]
  exact ⟨_, list_setList_same _ l _⟩

theorem abortWork_other (s : State) {l m : ListId} (hm : m ≠ l) :
    ((s.abortWork l).list m).state = (s.list m).state ∧ ((s.abortWork l).list m).outstanding = (s.list m).outstanding := by
  have hcores : s.ShapesTo ((List.finRange 4).foldl (State.abortCore l) (s.withdrawn l)) :=
    ShapesTo_trans (t := s.withdrawn l) (fun m => SameShape_refl _) (foldl_shapesTo (fun t c => abortCore_shapesTo t l c) _ _)
  have hlist : (s.abortWork l).list m = ((List.finRange 4).foldl (State.abortCore l) (s.withdrawn l)).list m := by
    rw [abortWork_eq]
    exact list_setList_of_ne _ hm _
  rw [hlist]
  exact state_of_shapesTo hcores m

theorem OutstandingExact_abortWork (l : ListId) (h : OutstandingExact s) : OutstandingExact (s.abortWork l) := by
  have hcancelled : ∀ d m, cancelledFor ((s.abortWork l).core d) m = if m = l then (s.core d).convertsFor l else cancelledFor
      (s.core d) m :=
    fun d m => cancelledFor_aborted (abortWork_core s l d)
  refine ⟨fun m => ?_, fun d => ?_⟩
  · unfold cancelledWork
    simp only [hcancelled, voidFor_abortWork]
    by_cases hm : m = l
    · obtain ⟨r, hr⟩ := abortWork_list s l
      subst hm
      rw [hr]
      simp only [if_true]
      refine ⟨rfl, fun hst => ?_⟩
      by_contra hne
      exact hst (if_neg hne)
    · obtain ⟨hstate, hcount⟩ := abortWork_other s hm
      rw [hstate, hcount]
      simp only [if_neg hm]
      exact h.1 m
  · cases abortWork_core s l d with
    | cancels _ hstate _ _ => exact fun _ _ => hstate
    | discards _ hrest => exact cancelSound_of_not_converting (RestsAs_notConverting hrest)
    | stays _ _ heq => rw [heq]; exact h.2 d

/-! ### The other rows -/

/-- A list that is not ABORTING is replaced by one that has nothing outstanding. -/
theorem OutstandingExact_setList {r : ListRec} (hst : (s.list l).state ≠ .aborting) (hr : r.outstanding = 0)
    (h : OutstandingExact s) : OutstandingExact (s.setList l r) := by
  refine OutstandingExact_of_kept (s := s) (t := s.setList l r) (keepsCancelled_of_cores (fun _ => rfl)) (fun _ => rfl)
      (fun m hm => ?_) h
  rw [State.list_setList]
  split
  · rename_i hlm
    subst hlm
    exact ⟨hr.trans (hm hst).symm, fun _ => hr⟩
  · exact ⟨rfl, hm⟩

theorem OutstandingExact_congr (hcores : t.cores = s.cores) (hengine : t.engine = s.engine) (hlists : t.lists = s.lists)
    (h : OutstandingExact s) : OutstandingExact t := by
  have hlist : ∀ l, t.list l = s.list l := fun l => by rw [State.list, State.list, hlists]
  exact OutstandingExact_of_kept (keepsCancelled_of_cores (core_congr hcores)) (fun l => voidFor_of_engine hengine l)
    (fun l hl => by rw [hlist]; exact ⟨rfl, hl⟩) h

theorem OutstandingExact_runCommand {mine : Frame → Bool} {allowed : List Byte → Bool} {own : Frame → State → Answer}
    (h : OutstandingExact s) (hown : ∀ f t, (own f s).state? = some t → OutstandingExact t) :
    OutstandingExact (s.runCommand mine allowed own) :=
  runCommand_keeps (P := OutstandingExact) (fun _ _ _ _ h => OutstandingExact_congr rfl rfl rfl h) h hown

theorem OutstandingExact_moves (hcores : s.KeepsCancelled t) (hvoid : ∀ l, voidFor t l = voidFor s l) (hlists : s.MovesTo false t)
    (h : OutstandingExact s) : OutstandingExact t :=
  OutstandingExact_of_kept hcores hvoid (fun l hl => outstanding_of_moves (hlists l) hl) h

theorem OutstandingExact_abortList (l : ListId) (h : OutstandingExact s) : OutstandingExact (s.abortList l) := by
  unfold State.abortList
  split
  · rename_i hst
    exact OutstandingExact_moves (s := s) (keepsCancelled_of_cores (fun _ => rfl)) (fun _ => rfl) (finishList_movesTo (.inl hst) _) h
  · exact OutstandingExact_abortWork l h
  · exact OutstandingExact_abortWork l h
  · exact h

theorem OutstandingExact_powerOn (s : State) (b : BitVec 2) : OutstandingExact (s.powerOn b) :=
  OutstandingExact_congr (s := State.reset) rfl rfl rfl outstandingExact_reset

theorem OutstandingExact_after (c : Instr) (hold : HoldSound s) (h : OutstandingExact s) : OutstandingExact (s.after c) := by
  by_cases hc : touchesWork c = false ∧ definesLists c = false
  · exact OutstandingExact_moves (after_keepsCancelled hc.1 hold) (voidFor_after hc.1)
      (after_movesTo hc.2 (fun hch => by cases c <;> cases hch <;> exact absurd hc.1 nofun) s) h
  · cases c
    case powerOnReset b => exact OutstandingExact_powerOn s b
    case partReset b =>
      show OutstandingExact (if s.resetDue then s.powerOn b else s)
      split
      · exact OutstandingExact_powerOn s b
      · exact h
    case setList =>
      refine OutstandingExact_runCommand h (fun f t ht => ?_)
      obtain ⟨l, c, hstate, -, -, -, -, rfl⟩ := setListOwn_state ht
      have hst : (s.list l).state ≠ .aborting := by rcases hstate with he | he <;> rw [he] <;> nofun
      exact OutstandingExact_congr (s := s.setList l (ListRec.configured c)) rfl rfl rfl (OutstandingExact_setList hst rfl h)
    case clearList =>
      refine OutstandingExact_runCommand h (fun f t ht => ?_)
      rcases clearListOwn_state ht with rfl | ⟨l, hstate, -, rfl⟩
      · exact h
      · have hst : (s.list l).state ≠ .aborting := by rw [hstate]; nofun
        exact OutstandingExact_congr (s := s.setList l ListRec.emptyList) rfl rfl rfl (OutstandingExact_setList hst rfl h)
    case stopListAbort =>
      refine OutstandingExact_runCommand h (fun f t ht => ?_)
      obtain ⟨l, -, rfl⟩ := stopListAbortOwn_state ht
      exact OutstandingExact_abortList l h
    case dischargeEnd core => exact OutstandingExact_endDischarge core h
    case evaluationComplete => exact OutstandingExact_completeEvaluation h
    all_goals exact absurd ⟨rfl, rfl⟩ hc

/-- Settles O58: counts and work end together. -/
theorem outstandingStaysExact : Obligations.OutstandingStaysExact := by
  intro s t hold h hstep
  refine kept_of_rows (Q := fun u => HoldSound u ∧ OutstandingExact u) (P := OutstandingExact) (fun s q hs => hs)
    (fun s hs => ?_) (fun c s hs => OutstandingExact_after c hs.1 hs.2) s t ⟨hold, h⟩ hstep
  unfold State.idle
  split <;> exact hs.2

end

end Sys2Proof.Machine
end

