-- ==== Sys2Proof/Proofs/WorkAccounts.lean ====
section
/-! PROOF. Live work, and how windows and deferred table account for it: each operation's effect on both, said once. -/

-- One proof after another, as in the tests: side by side they take more threads than memory allows.
set_option Elab.async false

namespace Sys2Proof.Machine

open Sys2Proof.Safety

section
variable {s t u : State} {c : CoreId} {k k' : Core} {l : ListId} {W V X : List (Origin × Stage)} {o : Origin} {st st' : Stage}
  {w : List Entry}

/-! ### The live work of one list and of the SAMPLEs -/

/-- The work of a list: the steps that it is for, with its stages. -/
def listWork (l : ListId) (W : List (Origin × Stage)) : List (Nat × Stage) :=
  W.filterMap (fun x => match x.1 with
    | .entry m n => if m = l then some (n, x.2) else none
    | .sample _ => none)

/-- The work of the SAMPLEs, each by its `uid`. -/
def sampleWork (W : List (Origin × Stage)) : List Nat :=
  W.filterMap (fun x => match x.1 with
    | .entry _ _ => none
    | .sample u => some u)

/-- The window entries that are not READY. -/
def openEntries (w : List Entry) : List (Nat × Stage) := (w.map (fun e => (e.step, e.stage))).filter (fun x => !isReady x.2)

theorem listWork_append (l : ListId) (W V : List (Origin × Stage)) : listWork l (W ++ V) = listWork l W ++ listWork l V :=
  List.filterMap_append

theorem sampleWork_append (W V : List (Origin × Stage)) : sampleWork (W ++ V) = sampleWork W ++ sampleWork V :=
  List.filterMap_append

theorem listWork_entry_same (l : ListId) (n : Nat) (st : Stage) (W : List (Origin × Stage)) :
    listWork l ((.entry l n, st) :: W) = (n, st) :: listWork l W := List.filterMap_cons_some (if_pos rfl)

theorem listWork_entry_other {m : ListId} (h : m ≠ l) (n : Nat) (st : Stage) (W : List (Origin × Stage)) :
    listWork l ((.entry m n, st) :: W) = listWork l W := List.filterMap_cons_none (if_neg h)

theorem listWork_sample (l : ListId) (u : Nat) (st : Stage) (W : List (Origin × Stage)) :
    listWork l ((.sample u, st) :: W) = listWork l W := List.filterMap_cons_none rfl

theorem sampleWork_sample (u : Nat) (st : Stage) (W : List (Origin × Stage)) :
    sampleWork ((.sample u, st) :: W) = u :: sampleWork W := List.filterMap_cons_some rfl

theorem sampleWork_entry (l : ListId) (n : Nat) (st : Stage) (W : List (Origin × Stage)) :
    sampleWork ((.entry l n, st) :: W) = sampleWork W := List.filterMap_cons_none rfl

theorem mem_sampleWork {u : Nat} : u ∈ sampleWork W ↔ .sample u ∈ W.map Prod.fst := by
  induction W with
  | nil => exact iff_of_false nofun nofun
  | cons x W ih =>
    obtain ⟨o, st⟩ := x
    cases o with
    | entry m n => rw [sampleWork_entry, ih]; simp
    | sample v => rw [sampleWork_sample, List.mem_cons, ih]; simp

theorem count_sampleWork (u : Nat) (W : List (Origin × Stage)) : (sampleWork W).count u = (W.map Prod.fst).count (.sample u) := by
  induction W with
  | nil => rfl
  | cons x W ih =>
    obtain ⟨o, st⟩ := x
    cases o with
    | entry m n => simp [sampleWork_entry, ih]
    | sample v => simp [sampleWork_sample, List.count_cons, ih]

theorem count_listWork (l : ListId) (n : Nat) (st : Stage) (W : List (Origin × Stage)) :
    (listWork l W).count (n, st) = W.count (.entry l n, st) := by
  induction W with
  | nil => rfl
  | cons x W ih =>
    obtain ⟨o, st2⟩ := x
    cases o with
    | sample v => rw [listWork_sample, ih, List.count_cons_of_ne (by simp)]
    | entry m n2 =>
      by_cases hm : m = l
      · subst hm
        simp [listWork_entry_same, List.count_cons, ih]
      · rw [listWork_entry_other hm, ih, List.count_cons_of_ne (by simp [hm])]

/-! ### Windows -/

theorem openEntries_cons (e : Entry) (w : List Entry) :
    openEntries (e :: w) = if isReady e.stage then openEntries w else (e.step, e.stage) :: openEntries w := by
  unfold openEntries
  rw [List.map_cons, List.filter_cons]
  cases isReady e.stage <;> rfl

theorem openEntries_append (w v : List Entry) : openEntries (w ++ v) = openEntries w ++ openEntries v := by
  rw [openEntries, List.map_append, List.filter_append]
  rfl

theorem step_of_mem_openEntries {n : Nat} (h : (n, st) ∈ openEntries w) : n ∈ w.map Entry.step := by
  obtain ⟨e, he, heq⟩ := List.mem_map.mp (List.mem_filter.mp h).1
  exact List.mem_map.mpr ⟨e, he, congrArg Prod.fst heq⟩

theorem count_openEntries (n : Nat) (hst : isReady st = false) (w : List Entry) :
    (openEntries w).count (n, st) = (w.map (fun e => (e.step, e.stage))).count (n, st) :=
  List.count_filter (by rw [hst]; rfl)

theorem setStage_of_not_mem {n : Nat} (h : n ∉ w.map Entry.step) (st : Stage) : setStage n st w = w := by
  refine (List.map_congr_left (fun e he => if_neg (fun heq => h ?_))).trans (List.map_id w)
  exact List.mem_map.mpr ⟨e, he, heq⟩

/-- The one entry of a step takes another stage. -/
theorem openEntries_setStage {n : Nat} (hnodup : (w.map Entry.step).Nodup) (hmem : (n, st) ∈ openEntries w) (st' : Stage) :
    (openEntries (setStage n st' w)).Perm ((if isReady st' then [] else [(n, st')]) ++ (openEntries w).erase (n, st)) := by
  induction w with
  | nil => cases hmem
  | cons e w ih =>
    rw [List.map_cons, List.nodup_cons] at hnodup
    have hset : setStage n st' (e :: w) = (if e.step = n then { e with stage := st' } else e) :: setStage n st' w := rfl
    by_cases hn : e.step = n
    · have hnot : n ∉ w.map Entry.step := hn ▸ hnodup.1
      have hrest : (openEntries (e :: w)).erase (n, st) = openEntries w := by
        rw [openEntries_cons] at hmem ⊢
        split at hmem
        · exact absurd (step_of_mem_openEntries hmem) hnot
        · rename_i hready
          rcases List.mem_cons.mp hmem with heq | hin
          · rw [if_neg hready, ← heq, List.erase_cons_head]
          · exact absurd (step_of_mem_openEntries hin) hnot
      rw [hrest, hset, if_pos hn, setStage_of_not_mem hnot, openEntries_cons, hn]
      split <;> exact List.Perm.refl _
    · have hin : (n, st) ∈ openEntries w := by
        rw [openEntries_cons] at hmem
        split at hmem
        · exact hmem
        · exact (List.mem_cons.mp hmem).resolve_left (fun heq => hn (congrArg Prod.fst heq).symm)
      rw [hset, if_neg hn, openEntries_cons, openEntries_cons]
      split
      · exact ih hnodup.2 hin
      · rw [List.erase_cons_tail (by simpa using fun heq => absurd heq hn)]
        exact ((ih hnodup.2 hin).cons _).trans List.perm_middle.symm

/-! ### Accounts -/

/-- The window's steps are distinct, and below the cursor. -/
def ListRec.StepsFresh (r : ListRec) : Prop := (r.window.map Entry.step).Nodup ∧ ∀ e ∈ r.window, e.step < r.cursor

/-- Windows and deferred table account for exactly this work: each open window entry has its own, and each pending SAMPLE; a SAMPLE
has no two, and its `uid` is an old one. -/
structure Accounts (W : List (Origin × Stage)) (s : State) : Prop where
  entries : ∀ l, (listWork l W).Perm (openEntries (s.list l).window)
  fresh : ∀ l, (s.list l).StepsFresh
  once : (sampleWork W).Nodup
  old : ∀ u ∈ sampleWork W, u < s.nextUid
  uids : (s.deferred.map Deferred.uid).Nodup
  oldUids : ∀ d ∈ s.deferred, d.uid < s.nextUid
  pending : ∀ d ∈ s.deferred, ∀ ch, d.subject = .sample ch → d.uid ∈ sampleWork W

theorem Accounts_perm (h : Accounts W s) (hp : W.Perm V) : Accounts V s where
  entries l := (hp.filterMap _).symm.trans (h.entries l)
  fresh := h.fresh
  once := (hp.filterMap _).nodup_iff.mp h.once
  old u hu := h.old u ((hp.filterMap _).mem_iff.mpr hu)
  uids := h.uids
  oldUids := h.oldUids
  pending d hd ch hch := (hp.filterMap _).mem_iff.mp (h.pending d hd ch hch)

theorem Accounts_congr (h : Accounts W s) (hl : ∀ l, (t.list l).window = (s.list l).window ∧ (t.list l).cursor = (s.list l).cursor)
    (hd : t.deferred = s.deferred) (hu : t.nextUid = s.nextUid) : Accounts W t where
  entries l := by rw [(hl l).1]; exact h.entries l
  fresh l := by rw [ListRec.StepsFresh, (hl l).1, (hl l).2]; exact h.fresh l
  once := h.once
  old := by rw [hu]; exact h.old
  uids := by rw [hd]; exact h.uids
  oldUids := by rw [hd, hu]; exact h.oldUids
  pending := by rw [hd]; exact h.pending

/-- The work of one list changes together with its window. -/
theorem Accounts_setList (h : Accounts W s) {r : ListRec} (hfresh : r.StepsFresh) (hsample : sampleWork V = sampleWork W)
    (hself : (listWork l V).Perm (openEntries r.window)) (hother : ∀ m, m ≠ l → listWork m V = listWork m W) :
    Accounts V (s.setList l r) where
  entries m := by
    rw [State.list_setList]
    split
    · rename_i hm; subst hm; exact hself
    · rename_i hm; rw [hother m (fun he => hm he.symm)]; exact h.entries m
  fresh m := by
    rw [State.list_setList]
    split
    · exact hfresh
    · exact h.fresh m
  once := by rw [hsample]; exact h.once
  old := by rw [hsample]; exact h.old
  uids := h.uids
  oldUids := h.oldUids
  pending := by rw [hsample]; exact h.pending

theorem stepsFresh_setStage {r : ListRec} (n : Nat) (st : Stage) (h : r.StepsFresh) :
    ({ r with window := setStage n st r.window } : ListRec).StepsFresh := by
  have hstep : ∀ e : Entry, (if e.step = n then { e with stage := st } else e).step = e.step := fun e => by split <;> rfl
  refine ⟨?_, fun e he => ?_⟩
  · rw [setStage, List.map_map, show Entry.step ∘ (fun e : Entry => if e.step = n then { e with stage := st } else e) = Entry.step from
      funext hstep]
    exact h.1
  · obtain ⟨e', he', rfl⟩ := List.mem_map.mp he
    rw [hstep]
    exact h.2 e' he'

/-- The stage of a piece of work and of its window entry change together. -/
theorem Accounts_setOriginStage (h : Accounts ((o, st) :: W) s) (hst : isReady st' = false) :
    Accounts ((o, st') :: W) (s.setOriginStage o st') := by
  cases o with
  | sample u =>
    show Accounts ((.sample u, st') :: W) s
    exact { h with
      entries := fun l => by simpa only [listWork_sample] using h.entries l
      once := by simpa only [sampleWork_sample] using h.once
      old := by simpa only [sampleWork_sample] using h.old
      pending := by simpa only [sampleWork_sample] using h.pending }
  | entry l n =>
    have hentries := h.entries l
    rw [listWork_entry_same] at hentries
    have hset := openEntries_setStage (h.fresh l).1 (hentries.mem_iff.mp List.mem_cons_self) st'
    rw [hst, if_neg (by decide)] at hset
    refine Accounts_setList h (stepsFresh_setStage n st' (h.fresh l)) (by rw [sampleWork_entry, sampleWork_entry]) ?_
      (fun m hm => by rw [listWork_entry_other (fun he => hm he.symm), listWork_entry_other (fun he => hm he.symm)])
    rw [listWork_entry_same]
    exact ((List.cons_perm_iff_perm_erase.mp hentries).2.cons _).trans hset.symm

theorem Accounts_drop {n : Nat} (h : Accounts ((.sample n, st) :: W) s)
    (hgone : ∀ d ∈ s.deferred, ∀ ch, d.subject = .sample ch → d.uid ≠ n) : Accounts W s where
  entries l := by simpa only [listWork_sample] using h.entries l
  fresh := h.fresh
  once := by have := h.once; rw [sampleWork_sample] at this; exact (List.nodup_cons.mp this).2
  old u hu := h.old u (by rw [sampleWork_sample]; exact List.mem_cons_of_mem _ hu)
  uids := h.uids
  oldUids := h.oldUids
  pending d hd ch hch := by
    have := h.pending d hd ch hch
    rw [sampleWork_sample] at this
    exact (List.mem_cons.mp this).resolve_left (hgone d hd ch hch)

/-- The table of deferred replies loses entries. -/
theorem Accounts_sublist (h : Accounts W s) (hd : t.deferred.Sublist s.deferred) (hl : ∀ l, t.list l = s.list l)
    (hu : t.nextUid = s.nextUid) :
    Accounts W t where
  entries l := by rw [hl]; exact h.entries l
  fresh l := by rw [hl]; exact h.fresh l
  once := h.once
  old := by rw [hu]; exact h.old
  uids := h.uids.sublist (hd.map _)
  oldUids d hd' := by rw [hu]; exact h.oldUids d (hd.subset hd')
  pending d hd' := h.pending d (hd.subset hd')

theorem findSample_isSome {n : Nat} : (s.findSample n).isSome = true ↔ ∃ d ∈ s.deferred, d.uid = n ∧ ∃ ch, d.subject = .sample ch := by
  rw [State.findSample, List.findSome?_isSome_iff]
  refine exists_congr (fun d => and_congr_right (fun _ => ?_))
  split
  · rename_i ch hch
    by_cases hn : d.uid = n <;> simp [hn, hch]
  · rename_i c hc
    simp [hc]

/-- A piece of work that is done: its result reaches its origin (R61, R86). -/
theorem Accounts_deliver (h : Accounts ((o, st) :: W) s) (r : Result) : Accounts W (s.deliver o r) := by
  cases o with
  | entry l n =>
    have hentries := h.entries l
    rw [listWork_entry_same] at hentries
    have hset := openEntries_setStage (h.fresh l).1 (hentries.mem_iff.mp List.mem_cons_self) (.ready r)
    refine Accounts_setList h (stepsFresh_setStage n _ (h.fresh l)) (by rw [sampleWork_entry]) ?_
      (fun m hm => by rw [listWork_entry_other (fun he => hm he.symm)])
    exact (List.cons_perm_iff_perm_erase.mp hentries).2.trans hset.symm
  | sample n =>
    show Accounts W (s.completeSample n r)
    unfold State.completeSample
    split
    · rename_i hnone
      refine Accounts_drop h (fun d hd ch hch hn => ?_)
      have := findSample_isSome.mpr ⟨d, hd, hn, ch, hch⟩
      rw [hnone] at this
      cases this
    · have hless := Accounts_sublist h (t := { s with deferred := s.deferred.filter (fun x => decide (x.uid ≠ n)) }) List.filter_sublist
        (fun _ => rfl) rfl
      exact Accounts_congr (Accounts_drop hless (fun d hd ch _ => of_decide_eq_true (List.mem_filter.mp hd).2))
          (fun _ => ⟨rfl, rfl⟩) rfl rfl

/-! ### The places of live work -/

/-- The work of the pool. -/
def poolWork (rs : List Request) : List (Origin × Stage) := rs.map (fun r => (r.origin, .waiting))

/-- The work of a core: its conversion, or its latch. -/
def coreWork (k : Core) : List (Origin × Stage) :=
  ((convertingFor k).map (fun o => (o, Stage.converting))).toList ++ ((latchedFor k).map (fun o => (o, Stage.converting))).toList

/-- The work of the evaluation queue. -/
def queueWork (es : List RatioEntry) : List (Origin × Stage) := es.map (fun e => (e.origin, .evaluating))

/-- The work of the engine. -/
def engineWork (e : Option Evaluation) : List (Origin × Stage) :=
  (match e with
    | none => []
    | some x => if x.void then [] else [x.origin]).map (fun o => (o, .evaluating))

/-- The work of all cores but one. -/
def State.otherWork (c : CoreId) (s : State) : List (Origin × Stage) :=
  ((List.finRange 4).erase c).flatMap (fun d => coreWork (s.core d))

theorem otherWork_congr (h : ∀ d, d ≠ c → t.core d = s.core d) : t.otherWork c = s.otherWork c :=
  List.flatMap_congr (fun d hd => by rw [h d ((List.nodup_finRange 4).mem_erase_iff.mp hd).1])

/-- Live work by its places, with one core apart from the others. -/
theorem liveWork_perm (c : CoreId) (s : State) : (liveWork s).Perm
    (poolWork s.pool ++ (coreWork (s.core c) ++ (s.otherWork c ++ (queueWork s.evalQueue ++ engineWork s.engine)))) := by
  have hcores : ((List.finRange 4).filterMap (fun c => (convertingFor (s.core c)).map (fun o => (o, Stage.converting))) ++
      (List.finRange 4).filterMap (fun c => (latchedFor (s.core c)).map (fun o => (o, Stage.converting)))).Perm
      (coreWork (s.core c) ++ s.otherWork c) := by
    rw [List.filterMap_eq_flatMap_toList, List.filterMap_eq_flatMap_toList]
    exact (List.flatMap_append_perm _ _ _).trans ((List.perm_cons_erase (List.mem_finRange c)).flatMap_right _)
  have hengine : (evaluatingFor s).map (fun o => (o, Stage.evaluating)) = engineWork s.engine := rfl
  unfold liveWork
  rw [hengine, List.append_assoc, List.append_assoc, List.append_assoc, ← List.append_assoc (List.filterMap _ _)]
  exact ((hcores.append_right _).trans (by rw [List.append_assoc]; exact List.Perm.refl _)).append_left _

theorem liveWork_congr (hp : t.pool = s.pool) (hc : t.cores = s.cores) (hq : t.evalQueue = s.evalQueue) (he : t.engine = s.engine) :
    liveWork t = liveWork s := by
  have hcore := core_congr hc
  unfold liveWork evaluatingFor
  simp only [hp, hq, he, hcore]

end

end Sys2Proof.Machine
end

