-- ==== Sys2Proof/Proofs/WorkMoves.lean ====
section
/-! PROOF. Live work that moves between its places: what cores, pool, queue and engine hand on is accounted for (R61, R71, R73, R101). -/

-- One proof after another, as in the tests: side by side they take more threads than memory allows.
set_option Elab.async false

namespace Sys2Proof.Machine

open Sys2Proof.Safety

section
variable {s t u : State} {c : CoreId} {k k' : Core} {l : ListId} {W V X Y : List (Origin × Stage)} {o : Origin} {st st' : Stage}

/-! ### The work of a core -/

theorem coreWork_of_rest (hc : k.state.isConverting = false) (hh : k.state ≠ .hold) : coreWork k = [] := by
  rw [coreWork, convertingFor, latchedFor, if_neg (fun h => absurd (hc.symm.trans h.1) (by decide)), if_neg hh]
  rfl

theorem coreWork_of_cancelled (hh : k.state ≠ .hold) (hc : k.cancelled = true) : coreWork k = [] := by
  rw [coreWork, convertingFor, latchedFor, if_neg (fun h => absurd (hc.symm.trans h.2) (by decide)), if_neg hh]
  rfl

theorem coreWork_of_conversion {p : Params} (hc : k.state.isConverting = true) (hn : k.cancelled = false) (hp : k.params = some p) :
    coreWork k = [(p.origin, .converting)] := by
  rw [coreWork, convertingFor, latchedFor, if_pos ⟨hc, hn⟩, if_neg (isConverting_ne_hold hc), hp]
  rfl

theorem coreWork_of_no_latch (hc : k.state.isConverting = false) (hl : k.latch = none) : coreWork k = [] := by
  rw [coreWork, convertingFor, latchedFor, if_neg (fun h => absurd (hc.symm.trans h.1) (by decide)), hl]
  split <;> rfl

theorem coreWork_of_latch {e : RatioEntry} (hh : k.state = .hold) (hl : k.latch = some e) : coreWork k = [(e.origin, .converting)] := by
  rw [coreWork, convertingFor, latchedFor, if_neg (by rw [hh]; nofun), if_pos hh, hl]
  rfl

theorem coreWork_of_movesOn (h : k.MovesOn k') : coreWork k' = coreWork k := by
  rw [coreWork, coreWork, convertingFor, convertingFor, latchedFor, latchedFor, if_neg (isConverting_ne_hold h.before),
    if_neg (isConverting_ne_hold h.after), h.before, h.after, h.params_eq, h.cancelled_eq]

/-! ### Work in hand -/

/-- The work in hand is accounted for together with the live work; the SAMPLEs that the pool has requests of are pending. -/
structure Balanced (X : List (Origin × Stage)) (s : State) : Prop where
  accounts : Accounts (X ++ liveWork s) s
  asked : ∀ r ∈ s.pool, ∀ n, r.origin = .sample n → (s.findSample n).isSome = true

theorem not_ready_of_live (h : (o, st) ∈ liveWork s) : isReady st = false := by
  simp only [liveWork, List.mem_append, List.mem_map, List.mem_filterMap, Option.map_eq_some_iff] at h
  obtain (((⟨_, -, h⟩ | ⟨_, -, _, -, h⟩) | ⟨_, -, _, -, h⟩) | ⟨_, -, h⟩) | ⟨_, -, h⟩ := h <;> cases h <;> rfl

theorem entries_iff_perm (s : State) : EntriesHaveWork s ↔ ∀ l, (listWork l (liveWork s)).Perm (openEntries (s.list l).window) := by
  unfold EntriesHaveWork
  refine forall_congr' (fun l => ⟨fun h => List.perm_iff_count.mpr (fun x => ?_), fun h n st hst => ?_⟩)
  · obtain ⟨n, st⟩ := x
    rw [count_listWork]
    cases hst : isReady st with
    | false => rw [count_openEntries n hst]; exact h n st hst
    | true =>
      have hlive : (Origin.entry l n, st) ∉ liveWork s := fun hm => absurd ((not_ready_of_live hm).symm.trans hst) (by decide)
      have hopen : (n, st) ∉ openEntries (s.list l).window := fun hm => by
        have := (List.mem_filter.mp hm).2
        rw [hst] at this
        cases this
      rw [List.count_eq_zero.mpr hlive, List.count_eq_zero.mpr hopen]
  · rw [← count_listWork, ← count_openEntries n hst]
    exact h.count_eq _

/-- The run of steps of a sound list is distinct and below the cursor (R59). -/
theorem stepsFresh_of_sound {r : ListRec} (h : ListSound r) : r.StepsFresh := by
  obtain hc | ⟨cfg, hc⟩ := Option.eq_none_or_eq_some r.config
  · rw [ListRec.StepsFresh, ((listSound_of_none hc).mp h).2]
    exact ⟨List.nodup_nil, nofun⟩
  · obtain ⟨-, -, -, -, hcursor, -, hsteps, -⟩ := (listSound_of_some hc).mp h
    refine ⟨by rw [hsteps]; exact List.nodup_range', fun e he => ?_⟩
    have hmem : e.step ∈ r.window.map Entry.step := List.mem_map_of_mem he
    rw [hsteps, List.mem_range'_1] at hmem
    omega

theorem balanced_of_work (hw : WindowsOrdered s) (he : EntriesHaveWork s) (hs : SamplesHaveWork s) : Balanced [] s := by
  obtain ⟨huids, hold, honce, hlive, hpending, hasked⟩ := hs
  refine ⟨⟨(entries_iff_perm s).mp he, fun l => stepsFresh_of_sound (hw l), ?_, fun n hn => hlive n (mem_sampleWork.mp hn), huids, hold,
    fun d hd ch hch => mem_sampleWork.mpr (hpending d hd ch hch)⟩, hasked⟩
  exact List.nodup_iff_count_le_one.mpr (fun n => (count_sampleWork n _).trans_le (honce n))

theorem work_of_balanced (h : Balanced [] s) : EntriesHaveWork s ∧ SamplesHaveWork s := by
  obtain ⟨hacc, hasked⟩ := h
  refine ⟨(entries_iff_perm s).mpr hacc.entries, hacc.uids, hacc.oldUids, fun n => ?_, fun n hn => hacc.old n (mem_sampleWork.mpr hn),
    fun d hd ch hch => mem_sampleWork.mp (hacc.pending d hd ch hch), hasked⟩
  rw [← count_sampleWork]
  exact List.nodup_iff_count_le_one.mp hacc.once n

theorem findSample_congr (h : t.deferred = s.deferred) (n : Nat) : t.findSample n = s.findSample n := by
  rw [State.findSample, State.findSample, h]

/-- Work that only moves stays accounted for. -/
theorem Balanced_move (h : Balanced X s) (hW : (X ++ liveWork s).Perm (Y ++ liveWork t))
    (hl : ∀ l, (t.list l).window = (s.list l).window ∧ (t.list l).cursor = (s.list l).cursor) (hd : t.deferred = s.deferred)
    (hu : t.nextUid = s.nextUid) (hp : ∀ r ∈ t.pool, r ∈ s.pool) : Balanced Y t :=
  ⟨Accounts_congr (Accounts_perm h.accounts hW) hl hd hu, fun r hr n hn => by rw [findSample_congr hd]; exact h.asked r (hp r hr) n hn⟩

theorem mem_liveWork_of_pool {r : Request} (h : r ∈ s.pool) : (r.origin, .waiting) ∈ liveWork s := by
  simp only [liveWork, List.mem_append, List.mem_map]
  exact .inl (.inl (.inl (.inl ⟨r, h, rfl⟩)))

theorem Balanced_deliver (h : Balanced ((o, st) :: X) s) (r : Result) : Balanced X (s.deliver o r) := by
  have hf := deliver_frameTo s o r
  have hlive : liveWork (s.deliver o r) = liveWork s :=
    liveWork_congr (hf .pool rfl) (hf .cores rfl) (hf .evalQueue rfl) (hf .engine rfl)
  refine ⟨by rw [hlive]; exact Accounts_deliver h.accounts r, fun q hq n hn => ?_⟩
  replace hq : q ∈ s.pool := by rwa [show (s.deliver o r).pool = s.pool from hf .pool rfl] at hq
  cases o with
  | entry m n' => exact (congrArg Option.isSome (findSample_congr rfl n)).trans (h.asked q hq n hn)
  | sample v =>
    have hne : n ≠ v := by
      rintro rfl
      have hnodup := h.accounts.once
      rw [List.cons_append, sampleWork_sample] at hnodup
      refine (List.nodup_cons.mp hnodup).1 (mem_sampleWork.mpr ?_)
      rw [List.map_append]
      exact List.mem_append_right _ (List.mem_map.mpr ⟨_, mem_liveWork_of_pool hq, hn⟩)
    rw [State.deliver, findSample_completed s r hne]
    exact h.asked q hq n hn

/-- A result with no origin is dropped (R11, R101). -/
theorem Balanced_drop {n : Nat} (h : Balanced ((.sample n, st) :: X) s) (hgone : s.findSample n = none) : Balanced X s := by
  refine ⟨Accounts_drop h.accounts (fun d hd ch hch hn => ?_), h.asked⟩
  have := findSample_isSome.mpr ⟨d, hd, hn, ch, hch⟩
  rw [hgone] at this
  cases this

/-! ### Frames and places -/

/-- What live work and its accounts are made of. -/
def workFields : List Field := [.pool, .cores, .evalQueue, .engine, .lists, .deferred, .nextUid]

theorem Balanced_frame {fs : List Field} (hf : s.FrameTo fs t) (h : Balanced X s)
    (hd : (workFields.all (fun f => !fs.contains f)) = true := by rfl) : Balanced X t := by
  have hnot : ∀ f ∈ workFields, fs.contains f = false := fun f hf => by simpa using List.all_eq_true.mp hd f hf
  have hl : t.lists = s.lists := hf .lists (hnot _ (by decide))
  have hlive : liveWork t = liveWork s := liveWork_congr (hf .pool (hnot _ (by decide))) (hf .cores (hnot _ (by decide)))
    (hf .evalQueue (hnot _ (by decide))) (hf .engine (hnot _ (by decide)))
  have hpool : t.pool = s.pool := hf .pool (hnot _ (by decide))
  refine Balanced_move h (by rw [hlive]) (fun l => ?_) (hf .deferred (hnot _ (by decide))) (hf .nextUid (hnot _ (by decide)))
    (fun r hr => by rwa [hpool] at hr)
  rw [State.list, State.list, hl]
  exact ⟨rfl, rfl⟩

/-- The places of one core's work, of the pool, the queue and the engine. -/
def State.places (c : CoreId) (s : State) : List (Origin × Stage) :=
  poolWork s.pool ++ (coreWork (s.core c) ++ (queueWork s.evalQueue ++ engineWork s.engine))

theorem liveWork_move (c : CoreId) (hother : ∀ d, d ≠ c → t.core d = s.core d) (hp : (X ++ s.places c).Perm (Y ++ t.places c)) :
    (X ++ liveWork s).Perm (Y ++ liveWork t) := by
  refine List.perm_iff_count.mpr (fun a => ?_)
  have hs := (liveWork_perm c s).count_eq a
  have ht := (liveWork_perm c t).count_eq a
  have hp := hp.count_eq a
  rw [otherWork_congr hother] at ht
  simp only [State.places, List.count_append] at hs ht hp ⊢
  omega

theorem places_perm_left (h : (X ++ V).Perm (Y ++ W)) (L R : List (Origin × Stage)) :
    (X ++ (L ++ (V ++ R))).Perm (Y ++ (L ++ (W ++ R))) := by
  refine List.perm_iff_count.mpr (fun a => ?_)
  have := h.count_eq a
  simp only [List.count_append] at this ⊢
  omega

/-- The work of one core moves. -/
theorem Balanced_coreSet {fs : List Field} (hset : s.CoreSet c k' t) (hf : s.FrameTo fs t) (h : Balanced X s)
    (hk : (X ++ coreWork (s.core c)).Perm (Y ++ coreWork k'))
    (hd : ((workFields.erase .cores).all (fun f => !fs.contains f)) = true := by rfl) : Balanced Y t := by
  have hsame : ∀ f ∈ workFields.erase .cores, Field.Same s t f := fun f hf' => hf f (by simpa using List.all_eq_true.mp hd f hf')
  have hpool : t.pool = s.pool := hsame .pool (by decide)
  have hqueue : t.evalQueue = s.evalQueue := hsame .evalQueue (by decide)
  have hengine : t.engine = s.engine := hsame .engine (by decide)
  have hl : t.lists = s.lists := hsame .lists (by decide)
  refine Balanced_move h (liveWork_move c (fun d hd => by rw [hset d, if_neg (fun hc => hd hc.symm)]) ?_) (fun l => ?_)
    (hsame .deferred (by decide)) (hsame .nextUid (by decide)) (fun r hr => by rwa [hpool] at hr)
  · rw [State.places, State.places, hpool, hqueue, hengine, CoreSet_same hset]
    exact places_perm_left hk _ _
  · rw [State.list, State.list, hl]
    exact ⟨rfl, rfl⟩

/-- A core whose work stays as it is. -/
theorem Balanced_sameWork {fs : List Field} (hset : s.CoreSet c k' t) (hf : s.FrameTo fs t) (h : Balanced X s)
    (hk : coreWork k' = coreWork (s.core c)) (hd : ((workFields.erase .cores).all (fun f => !fs.contains f)) = true := by rfl) :
    Balanced X t := Balanced_coreSet hset hf h (by rw [hk]) hd

/-! ### Requests that no core can serve -/

theorem Balanced_deliverAll {rs : List Request} (r : Result) (h : Balanced (poolWork rs ++ X) s) :
    Balanced X (rs.foldl (fun t q => t.deliver q.origin r) s) := by
  induction rs generalizing s with
  | nil => exact h
  | cons q rs ih => exact ih (Balanced_deliver h r)

theorem Balanced_withdraw {p : Request → Bool} (h : Balanced X s) :
    Balanced (poolWork (s.pool.filter p) ++ X) { s with pool := s.pool.filter (fun r => !p r) } := by
  have hpool : (poolWork s.pool).Perm (poolWork (s.pool.filter p) ++ poolWork (s.pool.filter (fun r => !p r))) := by
    rw [poolWork, poolWork, poolWork, ← List.map_append]
    exact (List.filter_append_perm p s.pool).symm.map _
  refine Balanced_move h (liveWork_move 0 (fun _ _ => rfl) ?_) (fun _ => ⟨rfl, rfl⟩) rfl rfl (fun r hr => List.mem_of_mem_filter hr)
  refine List.perm_iff_count.mpr (fun a => ?_)
  have := hpool.count_eq a
  simp only [State.places, State.core, List.count_append] at this ⊢
  omega

theorem Balanced_noCoreSweep (c : CoreId) (h : Balanced X s) : Balanced X (s.noCoreSweep c) :=
  Balanced_deliverAll _ (Balanced_withdraw h)

/-! ### Cores that come to rest -/

theorem Balanced_enterOffline (why : OfflineReason) (hk : coreWork (s.core c) = []) (h : Balanced X s) :
    Balanced X (s.enterOffline c why) := by
  unfold State.enterOffline
  refine Balanced_noCoreSweep c (Balanced_sameWork (fs := [.cores, .notices])
    (CoreSet_congr (coreSet_setCore s c { s.core c with state := .offline, offlinePending := false }) rfl) (frameTo_of_patch rfl) h ?_)
  rw [hk]
  exact coreWork_of_rest rfl nofun

theorem Balanced_enterIdle (hk : coreWork (s.core c) = []) (h : Balanced X s) : Balanced X (s.enterIdle c) := by
  refine Balanced_sameWork (fs := [.cores, .idleSince]) (CoreSet_congr (coreSet_setCore s c { s.core c with state := .idle }) rfl)
    (frameTo_of_patch rfl) h ?_
  rw [hk]
  exact coreWork_of_rest rfl nofun

theorem Balanced_settleCore (hk : coreWork (s.core c) = []) (h : Balanced X s) : Balanced X (s.settleCore c) := by
  unfold State.settleCore
  split
  · exact Balanced_enterOffline _ hk h
  · split
    · exact Balanced_enterOffline _ hk h
    · exact Balanced_enterIdle hk h

/-- The core without its latch, out of the HOLD order. -/
def State.unlatched (c : CoreId) (s : State) : State :=
  { s.setCore c { s.core c with latch := none } with holdOrder := s.holdOrder.erase c }

theorem unlatched_core (s : State) (c : CoreId) : s.CoreSet c { s.core c with latch := none } (s.unlatched c) :=
  CoreSet_congr (coreSet_setCore s c _) rfl

/-- The latch of a core in HOLD comes in hand. -/
theorem Balanced_unlatched (hc : (s.core c).state = .hold) (h : Balanced X s) :
    Balanced (coreWork (s.core c) ++ X) (s.unlatched c) := by
  refine Balanced_coreSet (fs := [.cores, .holdOrder]) (unlatched_core s c) (frameTo_of_patch rfl) h ?_
  rw [coreWork_of_no_latch (k := { s.core c with latch := none }) (by show (s.core c).state.isConverting = false; rw [hc]; rfl) rfl,
    List.append_nil]
  exact List.perm_append_comm

theorem Balanced_leaveHold (hc : (s.core c).state = .hold) (h : Balanced X (s.unlatched c)) : Balanced X (s.leaveHold c) := by
  have hk : coreWork ((s.unlatched c).core c) = [] := by
    rw [CoreSet_same (unlatched_core s c)]
    exact coreWork_of_no_latch (by show (s.core c).state.isConverting = false; rw [hc]; rfl) rfl
  show Balanced X (if ((s.unlatched c).core c).offlinePending then (s.unlatched c).enterOffline c .command
    else ((s.unlatched c).enterIdle c).newGrantEvent)
  split
  · exact Balanced_enterOffline _ hk h
  · exact Balanced_frame (fs := [.nextEvent]) (frameTo_of_patch rfl) (Balanced_enterIdle hk h)

/-! ### Conversions -/

theorem Balanced_joinQueue {e : RatioEntry} (h : Balanced ((e.origin, .converting) :: X) s) : Balanced X (s.joinQueue e) := by
  have hacc : Accounts ((e.origin, .converting) :: (X ++ liveWork s)) { s with evalQueue := s.evalQueue ++ [e] } :=
    Accounts_congr h.accounts (fun _ => ⟨rfl, rfl⟩) rfl rfl
  have hf : State.FrameTo [.lists] { s with evalQueue := s.evalQueue ++ [e] } (s.joinQueue e) := setOriginStage_frameTo _ _ _
  refine ⟨Accounts_perm (Accounts_setOriginStage (st' := .evaluating) hacc rfl) ?_, fun r hr n hn => ?_⟩
  · refine liveWork_move (X := (e.origin, .evaluating) :: X) 0 (fun d _ => core_congr (hf .cores rfl) d) ?_
    have hqueue : (s.joinQueue e).evalQueue = s.evalQueue ++ [e] := hf .evalQueue rfl
    have hpool : (s.joinQueue e).pool = s.pool := hf .pool rfl
    have hengine : (s.joinQueue e).engine = s.engine := hf .engine rfl
    have hcore : (s.joinQueue e).core 0 = s.core 0 := core_congr (hf .cores rfl) 0
    refine List.perm_iff_count.mpr (fun a => ?_)
    simp only [State.places, hqueue, hpool, hengine, hcore, queueWork, List.map_append, List.count_append, List.cons_append,
        List.count_cons,
      List.map_cons, List.map_nil, List.count_nil]
    omega
  · have hpool : (s.joinQueue e).pool = s.pool := hf .pool rfl
    rw [hpool] at hr
    rw [findSample_congr (hf .deferred rfl)]
    exact h.asked r hr n hn

/-- The end of DISCHARGE hands the conversion on (R11). -/
theorem Balanced_handOff {p : Params} (hcore : coreWork (s.core c) = []) (houtcome : k.cancelled = false → k.meas.outcome.isSome = true)
    (h : Balanced (if k.cancelled then X else (p.origin, .converting) :: X) s) : Balanced X (s.handOff c k p) := by
  unfold State.handOff
  split
  · rename_i hcancelled
    rw [if_pos hcancelled] at h
    have hf := outstandingDone_frameTo s p.origin
    refine Balanced_settleCore (by rw [core_congr (hf .cores rfl)]; exact hcore) ?_
    refine Balanced_move h (by rw [liveWork_congr (hf .pool rfl) (hf .cores rfl) (hf .evalQueue rfl) (hf .engine rfl)])
      (fun l => by rw [outstandingDone_list]; exact ⟨rfl, rfl⟩) (hf .deferred rfl) (hf .nextUid rfl)
      (fun r hr => by rwa [show (s.outstandingDone p.origin).pool = s.pool from hf .pool rfl] at hr)
  · rename_i hcancelled
    rw [if_neg hcancelled] at h
    split
    · rename_i hgone
      refine Balanced_settleCore hcore ?_
      generalize p.origin = o at h hgone
      cases o with
      | entry l n => cases hgone
      | sample n => exact Balanced_drop h (by simpa [State.originExists] using hgone)
    · split
      · rename_i hnone
        have := houtcome (Bool.of_not_eq_true hcancelled)
        rw [hnone] at this
        cases this
      · rename_i st r _
        have hf := deliver_frameTo s p.origin { status := st, ratio := r, value := none }
        exact Balanced_settleCore (by rw [core_congr (hf .cores rfl)]; exact hcore) (Balanced_deliver h _)
      · rename_i r _
        dsimp only
        split
        · have hf := joinQueue_frameTo s { origin := p.origin, channel := p.channel, ratio := r }
          exact Balanced_settleCore (by rw [core_congr (hf .cores rfl)]; exact hcore) (Balanced_joinQueue h)
        · let e : RatioEntry := { origin := p.origin, channel := p.channel, ratio := r }
          refine Balanced_coreSet (fs := [.cores, .holdOrder]) (k' := { s.core c with state := .hold, latch := some e })
            (CoreSet_congr (coreSet_setCore s c _) rfl) (frameTo_of_patch rfl) h ?_
          rw [hcore, coreWork_of_latch rfl rfl, List.append_nil]
          exact (List.perm_append_singleton _ _).symm

end

end Sys2Proof.Machine
end

