-- ==== Sys2Proof/Proofs/WorkRows.lean ====
section
/-! PROOF. The rows of cores, engine, aborts and link resets keep live work accounted for (R15, R16, R61, R69, R101). -/

-- One proof after another, as in the tests: side by side they take more threads than memory allows.
set_option Elab.async false

namespace Sys2Proof.Machine

open Sys2Proof.Safety

section
variable {s t u : State} {c : CoreId} {k k' : Core} {l : ListId} {W V X Y Z : List (Origin × Stage)} {o : Origin} {st st' : Stage}

/-! ### Conversions -/

theorem coreWork_of_no_params (hh : k.state ≠ .hold) (hp : k.params = none) : coreWork k = [] := by
  rw [coreWork, convertingFor, latchedFor, if_neg hh, hp]
  split <;> rfl

theorem Balanced_phaseTo (hp : s.PhaseTo c t) (h : Balanced X s) : Balanced X t := by
  rcases hp with rfl | ⟨n, k', rfl, hm⟩
  · exact h
  · exact Balanced_sameWork (s := s) (fs := [.now, .cores]) (CoreSet_of_eq rfl (coreSet_setCore (s.advanceTo n) c k'))
      (frameTo_of_patch rfl) h
      (coreWork_of_movesOn hm)

theorem Balanced_endDischarge (c : CoreId) (hcores : CoresSound s) (h : Balanced [] s) : Balanced [] (s.endDischarge c) := by
  rcases endDischarge_cases s c with heq | ⟨p, hstate, hparams, heq⟩ <;> rw [heq]
  · exact h
  · have hconv : (s.core c).state.isConverting = true := by rw [hstate]; rfl
    have hafter : coreWork ((s.released c p).core c) = [] := by
      rw [CoreSet_same (released_core s c p)]
      exact coreWork_of_no_params (isConverting_ne_hold hconv) rfl
    have hrelease : Balanced (if (s.core c).cancelled then [] else [(p.origin, .converting)]) (s.released c p) := by
      refine Balanced_coreSet (released_core s c p) (released_frameTo s c p) h ?_
      rw [CoreSet_same (released_core s c p)] at hafter
      rw [hafter, List.append_nil]
      cases hn : (s.core c).cancelled with
      | true => rw [coreWork_of_cancelled (isConverting_ne_hold hconv) hn]; exact List.Perm.refl _
      | false => rw [coreWork_of_conversion hconv hn hparams]; exact List.Perm.refl _
    exact Balanced_frame (choose_frameTo _) (Balanced_frame (fs := [.nextEvent]) (frameTo_of_patch rfl)
      (Balanced_handOff hafter ((hcores c).2 hstate) hrelease))

theorem joinQueue_unlatched (s : State) (c : CoreId) (e : RatioEntry) : (s.joinQueue e).unlatched c = (s.unlatched c).joinQueue e := by
  unfold State.joinQueue
  cases e.origin <;> rfl

theorem Balanced_serveHold (hold : HoldSound s) (h : Balanced [] s) : Balanced [] s.serveHold := by
  unfold State.serveHold
  split
  · exact h
  · rename_i c rest horder
    have hhold : (s.core c).state = .hold := (hold.2.1 c).mp (by rw [horder]; exact List.mem_cons_self)
    split
    · exact h
    · rename_i e hlatch
      split
      · refine Balanced_frame (choose_frameTo _) (Balanced_leaveHold ?_ ?_)
        · rw [core_congr (joinQueue_frameTo s e .cores rfl)]
          exact hhold
        · have hunlatched := Balanced_unlatched hhold h
          rw [coreWork_of_latch hhold hlatch] at hunlatched
          rw [joinQueue_unlatched]
          exact Balanced_joinQueue hunlatched
      · exact h

theorem Balanced_grantNext (h : Balanced [] s) : Balanced [] s.grantNext := by
  rcases grantNext_cases s with heq | ⟨r, c, cfg, hmem, -, hidle, -, heq⟩
  · rwa [heq]
  · set V := poolWork (s.pool.erase r) ++ (s.otherWork c ++ (queueWork s.evalQueue ++ engineWork s.engine)) with hV
    set u := (({ s with pool := s.pool.erase r } : State).setInput r.input (.claimed c)).setCore c
      ((s.core c).granted (paramsFor r cfg) s.now) with hu
    have hset : s.CoreSet c ((s.core c).granted (paramsFor r cfg) s.now) u := coreSet_setCore s c _
    have hf : u.FrameTo [.lists] s.grantNext := heq ▸ setOriginStage_frameTo u _ _
    have hbefore : (liveWork s).Perm ((r.origin, .waiting) :: V) := by
      refine (liveWork_perm c s).trans ?_
      rw [coreWork_of_rest (by rw [hidle]; rfl) (by rw [hidle]; nofun)]
      exact ((List.perm_cons_erase hmem).map _).append_right _
    have hafter : (liveWork s.grantNext).Perm ((r.origin, .converting) :: V) := by
      refine (liveWork_perm c _).trans ?_
      have hcore : ∀ d, s.grantNext.core d = u.core d := core_congr (hf .cores rfl)
      rw [otherWork_congr (s := s) (fun d hd => (hcore d).trans ((hset d).trans (if_neg (fun hc => hd hc.symm)))), hcore,
          CoreSet_same hset,
        coreWork_of_conversion (p := paramsFor r cfg) rfl rfl rfl, show s.grantNext.pool = s.pool.erase r from hf .pool rfl,
        show s.grantNext.evalQueue = s.evalQueue from hf .evalQueue rfl, show s.grantNext.engine = s.engine from hf .engine rfl]
      exact List.perm_middle
    have hacc : Accounts ((r.origin, .waiting) :: V) u := Accounts_congr (Accounts_perm h.accounts hbefore)
        (fun _ => ⟨rfl, rfl⟩) rfl rfl
    refine ⟨Accounts_perm (heq ▸ Accounts_setOriginStage hacc rfl) hafter.symm, fun q hq n hn => ?_⟩
    rw [show s.grantNext.pool = s.pool.erase r from hf .pool rfl] at hq
    rw [findSample_congr (t := s.grantNext) (s := s) (hf .deferred rfl)]
    exact h.asked q (List.mem_of_mem_erase hq) n hn

/-! ### The engine -/

theorem Balanced_startEvaluation (h : Balanced [] s) : Balanced [] s.startEvaluation := by
  rcases startEvaluation_cases s with heq | ⟨e, rest, x, hengine, hqueue, horigin, hvoid, -, heq⟩ <;> rw [heq]
  · exact h
  · have hhold : s.FrameTo [.banks] (s.holdBank x.bank) := by cases x.bank <;> exact frameTo_of_patch rfl
    set t : State := { s.holdBank x.bank with evalQueue := rest, engine := some x } with ht
    have hf : s.FrameTo [.banks, .evalQueue, .engine] t :=
      FrameTo_trans (t := s.holdBank x.bank) (FrameTo_mono hhold rfl) (FrameTo_mono (fs := [.evalQueue, .engine])
        (frameTo_of_patch rfl) rfl)
    refine Balanced_move h (liveWork_move 0 (fun d _ => core_congr (hf .cores rfl) d) ?_) (fun l => ?_) (hf .deferred rfl)
        (hf .nextUid rfl)
      (fun r hr => by rwa [show t.pool = s.pool from hf .pool rfl] at hr)
    · rw [State.places, State.places, core_congr (hf .cores rfl), show t.pool = s.pool from hf .pool rfl, hqueue, hengine,
        show t.evalQueue = rest from rfl, show t.engine = some x from rfl]
      have hwork : engineWork (some x) = [(e.origin, .evaluating)] := by simp [engineWork, hvoid, horigin]
      have hswap : (queueWork (e :: rest) ++ engineWork none).Perm (queueWork rest ++ [(e.origin, .evaluating)]) := by
        show ((e.origin, Stage.evaluating) :: queueWork rest ++ []).Perm _
        rw [List.append_nil]
        exact (List.perm_append_singleton _ _).symm
      rw [hwork]
      exact ((hswap.append_left _).append_left _)
    · rw [list_of_frame hf rfl]
      exact ⟨rfl, rfl⟩

theorem deliver_engine (s : State) (x : Option Evaluation) (o : Origin) (r : Result) :
    ({ s with engine := x } : State).deliver o r = { s.deliver o r with engine := x } := by
  cases o with
  | entry m n => rfl
  | sample n =>
    show ({ s with engine := x } : State).completeSample n r = { s.completeSample n r with engine := x }
    unfold State.completeSample
    rw [show ({ s with engine := x } : State).findSample n = s.findSample n from rfl]
    cases s.findSample n <;> rfl

theorem Balanced_outstandingDone (o : Origin) (h : Balanced X s) : Balanced X (s.outstandingDone o) := by
  have hf := outstandingDone_frameTo s o
  refine Balanced_move h (by rw [liveWork_congr (hf .pool rfl) (hf .cores rfl) (hf .evalQueue rfl) (hf .engine rfl)])
    (fun l => by rw [outstandingDone_list]; exact ⟨rfl, rfl⟩) (hf .deferred rfl) (hf .nextUid rfl)
    (fun r hr => by rwa [show (s.outstandingDone o).pool = s.pool from hf .pool rfl] at hr)

theorem Balanced_completeEvaluation (h : Balanced [] s) : Balanced [] s.completeEvaluation := by
  obtain hengine | ⟨e, hengine⟩ := Option.eq_none_or_eq_some s.engine
  · rwa [State.completeEvaluation, hengine]
  · set r := s.evaluationResult e
    have heq : s.completeEvaluation = ({ (s.handResult e r).releaseBank e.bank with engine := none } : State).choose := by
      rw [State.completeEvaluation, hengine]
    have hfree : Balanced (engineWork (some e)) { s with engine := none } := by
      refine Balanced_move h (liveWork_move 0 (fun _ _ => rfl) ?_) (fun _ => ⟨rfl, rfl⟩) rfl rfl (fun _ hr => hr)
      refine List.perm_iff_count.mpr (fun a => ?_)
      simp only [State.places, State.core, hengine, List.count_append, List.count_nil, engineWork, List.map_nil]
      omega
    have hdone : Balanced [] { s.handResult e r with engine := none } := by
      unfold State.handResult
      split
      · rename_i hvoid
        have hnil : engineWork (some e) = [] := by simp [engineWork, hvoid]
        rw [hnil] at hfree
        have hcomm : ({ s.outstandingDone e.origin with engine := none } : State) =
            ({ s with engine := none } : State).outstandingDone e.origin := by
          cases e.origin <;> rfl
        rw [hcomm]
        exact Balanced_outstandingDone _ hfree
      · rename_i hvoid
        have hone : engineWork (some e) = [(e.origin, .evaluating)] := by simp [engineWork, hvoid]
        rw [hone] at hfree
        rw [← deliver_engine]
        exact Balanced_deliver hfree r
    rw [heq]
    refine Balanced_frame (choose_frameTo _) (Balanced_frame (fs := [.banks]) ?_ hdone)
    cases e.bank <;> exact frameTo_of_patch rfl

/-! ### Offline and checks -/

theorem Balanced_answered {d : Deferred} (hd : d ∈ s.deferred) (hsub : d.subject = .restore c) (h : Balanced X s) :
    Balanced X { s with deferred := s.deferred.filter (fun x => decide (x.uid ≠ d.uid)) } := by
  refine ⟨Accounts_sublist h.accounts List.filter_sublist (fun _ => rfl) rfl, fun r hr n hn => ?_⟩
  obtain ⟨x, hx, hxn, ch, hch⟩ := findSample_isSome.mp (h.asked r hr n hn)
  refine findSample_isSome.mpr ⟨x, List.mem_filter.mpr ⟨hx, decide_eq_true (fun he => ?_)⟩, hxn, ch, hch⟩
  have hxd : x = d := List.inj_on_of_nodup_map h.accounts.uids hx hd he
  rw [hxd, hsub] at hch
  cases hch

theorem Balanced_answerRestore (failed : Option Reference) (h : Balanced X s) : Balanced X (s.answerRestore c failed) := by
  unfold State.answerRestore
  split
  · exact h
  · rename_i d hd
    have hmem := List.mem_of_find?_eq_some hd
    have hsub : d.subject = .restore c := of_decide_eq_true (List.find?_some
        (p := fun x : Deferred => decide (x.subject = .restore c)) hd)
    exact Balanced_frame (fs := [.replies]) (frameTo_of_patch rfl) (Balanced_answered hmem hsub h)

theorem coreWork_of_check (h : k.state.isCheck = true) : coreWork k = [] := coreWork_of_rest (isCheck_spec h).2 (isCheck_spec h).1

/-- A core without work takes a state without work. -/
theorem Balanced_setCore (hk : coreWork (s.core c) = []) (hk' : coreWork k' = []) (h : Balanced X s) : Balanced X (s.setCore c k') :=
  Balanced_sameWork (fs := [.cores]) (coreSet_setCore s c k') (frameTo_of_patch rfl) h (by rw [hk, hk'])

theorem Balanced_readyIfDone (h : Balanced X s) : Balanced X s.readyIfDone := by
  unfold State.readyIfDone
  split
  · exact h
  · exact Balanced_frame (s := s) (fs := [.notices, .cmdUnit]) (frameTo_of_patch rfl) h

theorem Balanced_endPair (failed : Option Reference) (hcheck : (s.core c).state.isCheck = true) (h : Balanced X s) :
    Balanced X (s.endPair c failed) := by
  have hk := coreWork_of_check hcheck
  have hidle : ∀ k' : Core, k'.state = (s.core c).state → Balanced X ((s.setCore c k').enterIdle c) := fun k' hst => by
    have hk' : coreWork k' = [] := coreWork_of_check (by rw [hst]; exact hcheck)
    exact Balanced_enterIdle (by rw [State.core_setCore, if_pos rfl]; exact hk') (Balanced_setCore hk hk' h)
  have hoff : ∀ k' : Core, k'.state = .offline → Balanced X (s.setCore c k') := fun k' hst =>
    Balanced_setCore hk (coreWork_of_rest (by rw [hst]; rfl) (by rw [hst]; nofun)) h
  unfold State.endPair
  refine Balanced_frame (choose_frameTo _) ?_
  split
  · unfold State.endStartupPair
    dsimp only
    split
    · exact Balanced_readyIfDone (Balanced_frame (fs := [.nextEvent]) (frameTo_of_patch rfl) (hidle _ rfl))
    · exact Balanced_readyIfDone (Balanced_frame (raise_frameTo _ _) (hoff _ rfl))
  · unfold State.endRestorePair
    dsimp only
    split
    · exact Balanced_frame (fs := [.nextEvent]) (frameTo_of_patch rfl) (Balanced_answerRestore _ (hidle _ rfl))
    · exact Balanced_answerRestore _ (hoff _ rfl)

theorem Balanced_endCheckDischarge (c : CoreId) (h : Balanced X s) : Balanced X (s.endCheckDischarge c) := by
  have hclock : ∀ n, Balanced X (s.advanceTo n) := fun n => Balanced_frame (fs := [.now]) (frameTo_of_patch rfl) h
  unfold State.endCheckDischarge
  dsimp only
  split
  · rename_i hs _
    exact Balanced_setCore (s := s.advanceTo _) (coreWork_of_check (k := s.core c) (by rw [hs]; rfl)) (coreWork_of_check rfl) (hclock _)
  · rename_i hs _
    exact Balanced_endPair _ (show (s.core c).state.isCheck = true by rw [hs]; rfl) (hclock _)
  · rename_i hs _
    exact Balanced_endPair _ (show (s.core c).state.isCheck = true by rw [hs]; rfl) (hclock _)
  · rename_i hs _
    exact Balanced_endPair _ (show (s.core c).state.isCheck = true by rw [hs]; rfl) (hclock _)
  · exact h

theorem Balanced_endCheckCount (passed : Bool) (n : Nat) (hcheck : (s.core c).checking = true) (h : Balanced X s) :
    Balanced X (s.endCheckCount c passed n) :=
  Balanced_setCore (s := s.advanceTo n) (coreWork_of_check (k := s.core c) (checking_isCheck hcheck))
    (coreWork_of_check (k := { s.core c with checkPassed := some passed, phaseStart := (s.advanceTo n).now })
      (show (s.core c).state.isCheck = true from checking_isCheck hcheck))
    (Balanced_frame (fs := [.now]) (frameTo_of_patch rfl) h)

/-! ### New work -/

/-- A request arrives, with its work in hand: it waits in the pool or completes at once (R75, R82). -/
theorem Balanced_arrive {ch : ChannelId} {i : InputId} {p : Priority} (hasked : ∀ n, o = .sample n → (s.findSample n).isSome = true)
    (h : Balanced ((o, .waiting) :: X) s) : Balanced X (s.arrive o ch i p) := by
  have hevent : Balanced ((o, .waiting) :: X) s.newGrantEvent := Balanced_frame (fs := [.nextEvent]) (frameTo_of_patch rfl) h
  unfold State.arrive
  dsimp only
  split
  · exact Balanced_deliver hevent _
  · set r : Request := { origin := o, channel := ch, input := i, priority := p, age := s.nextEvent }
    set t : State := { s.newGrantEvent with pool := s.newGrantEvent.pool ++ [r] }
    have hperm : ((o, Stage.waiting) :: X ++ liveWork s).Perm (X ++ liveWork t) := by
      refine liveWork_move (X := (o, .waiting) :: X) 0 (fun _ _ => rfl) (List.perm_iff_count.mpr (fun a => ?_))
      have hpool : poolWork t.pool = poolWork s.pool ++ [(o, .waiting)] := List.map_append
      simp only [State.places, hpool, List.count_append, List.cons_append, List.count_cons, List.count_nil]
      rw [show t.core 0 = s.core 0 from rfl, show t.evalQueue = s.evalQueue from rfl, show t.engine = s.engine from rfl]
      omega
    refine ⟨Accounts_congr (Accounts_perm h.accounts hperm) (fun _ => ⟨rfl, rfl⟩) rfl rfl, fun q hq n hn => ?_⟩
    rcases List.mem_append.mp hq with hq | hq
    · exact h.asked q hq n hn
    · obtain rfl := List.mem_singleton.mp hq
      exact hasked n hn

theorem findSample_isSome_defer (s : State) (tag : Byte) (subject : DeferredSubject) {n : Nat} (h : (s.findSample n).isSome = true) :
    ((s.defer tag subject).findSample n).isSome = true := by
  obtain ⟨d, hd, hrest⟩ := findSample_isSome.mp h
  exact findSample_isSome.mpr ⟨d, List.mem_append_left _ hd, hrest⟩

/-- An entry is created in the deferred table; that of a SAMPLE brings its work in hand (R85, R182). -/
theorem Accounts_defer (tag : Byte) {subject : DeferredSubject} (h : Accounts W s)
    (hV : sampleWork V = sampleWork W ∧ (∀ ch, subject ≠ .sample ch) ∨ sampleWork V = s.nextUid :: sampleWork W)
    (hlist : ∀ l, listWork l V = listWork l W) : Accounts V (s.defer tag subject) := by
  have hdeferred : (s.defer tag subject).deferred = s.deferred ++ [{ uid := s.nextUid, tag := tag, subject := subject }] := rfl
  have huid : (s.defer tag subject).nextUid = s.nextUid + 1 := rfl
  have hsub : ∀ n ∈ sampleWork W, n ∈ sampleWork V := fun n hn => by
    rcases hV with ⟨he, -⟩ | he <;> rw [he]
    · exact hn
    · exact List.mem_cons_of_mem _ hn
  refine ⟨fun l => (hlist l).symm ▸ h.entries l, h.fresh, ?_, fun n hn => ?_, ?_, fun d hd => ?_, fun d hd ch hch => ?_⟩
  · rcases hV with ⟨he, -⟩ | he <;> rw [he]
    · exact h.once
    · exact List.nodup_cons.mpr ⟨fun hm => absurd (h.old _ hm) (lt_irrefl _), h.once⟩
  · rw [huid]
    rcases hV with ⟨he, -⟩ | he <;> rw [he] at hn
    · exact (h.old n hn).trans (Nat.lt_succ_self _)
    · rcases List.mem_cons.mp hn with rfl | hn
      · exact Nat.lt_succ_self _
      · exact (h.old n hn).trans (Nat.lt_succ_self _)
  · rw [hdeferred, List.map_append]
    refine List.nodup_append.mpr ⟨h.uids, List.nodup_singleton _, fun a ha b hb => ?_⟩
    obtain ⟨d, hd, rfl⟩ := List.mem_map.mp ha
    obtain rfl := List.mem_singleton.mp hb
    exact (h.oldUids d hd).ne
  · rw [huid]
    rcases List.mem_append.mp hd with hd | hd
    · exact (h.oldUids d hd).trans (Nat.lt_succ_self _)
    · obtain rfl := List.mem_singleton.mp hd
      exact Nat.lt_succ_self _
  · rcases List.mem_append.mp hd with hd | hd
    · exact hsub _ (h.pending d hd ch hch)
    · obtain rfl := List.mem_singleton.mp hd
      rcases hV with ⟨-, hnot⟩ | he
      · exact absurd hch (hnot ch)
      · rw [he]
        exact List.mem_cons_self

theorem Balanced_defer_restore (tag : Byte) (c : CoreId) (h : Balanced X s) : Balanced X (s.defer tag (.restore c)) :=
  ⟨Accounts_defer tag h.accounts (.inl ⟨rfl, nofun⟩) (fun _ => rfl), fun r hr n hn => findSample_isSome_defer s tag _
    (h.asked r hr n hn)⟩

theorem Balanced_defer_sample (tag : Byte) (ch : ChannelId) (h : Balanced X s) :
    Balanced ((.sample s.nextUid, .waiting) :: X) (s.defer tag (.sample ch)) :=
  ⟨Accounts_defer tag h.accounts (.inr (sampleWork_sample _ _ _)) (fun l => listWork_sample l _ _ _),
    fun r hr n hn => findSample_isSome_defer s tag _ (h.asked r hr n hn)⟩

theorem Balanced_sample {f : Frame} (ht : (sampleOwn f s).state? = some t) (h : Balanced [] s) : Balanced [] t := by
  obtain ⟨ch, cfg, -, -, -, rfl⟩ := sampleOwn_state ht
  refine Balanced_arrive (fun n hn => ?_) (Balanced_defer_sample f.tag ch h)
  cases hn
  exact findSample_isSome.mpr ⟨{ uid := s.nextUid, tag := f.tag, subject := .sample ch },
      List.mem_append_right _ List.mem_cons_self, rfl, ch, rfl⟩

/-! ### Link resets -/

/-- With an empty table no result of a SAMPLE is wanted. -/
theorem Balanced_dropSamples (hempty : s.deferred = []) (hZ : ∀ x ∈ Z, x.1.isSample = true) (h : Balanced (Z ++ X) s) :
    Balanced X s := by
  induction Z with
  | nil => exact h
  | cons x Z ih =>
    obtain ⟨o, st⟩ := x
    cases o with
    | entry m n => cases hZ _ List.mem_cons_self
    | sample n =>
      exact ih (fun x hx => hZ x (List.mem_cons_of_mem _ hx)) (Balanced_drop h (by rw [State.findSample, hempty]; rfl))

theorem Balanced_dropSampleLatch (c : CoreId) (hempty : s.deferred = []) (h : Balanced [] s) : Balanced [] (s.dropSampleLatch c) := by
  unfold State.dropSampleLatch
  split
  · rename_i hsample
    obtain ⟨hhold, hlatch⟩ := hsample
    obtain ⟨e, he, hsample⟩ := (Option.any_eq_true _ _).mp hlatch
    have hhand := Balanced_unlatched hhold h
    rw [coreWork_of_latch hhold he] at hhand
    refine Balanced_leaveHold hhold (Balanced_dropSamples (Z := [(e.origin, .converting)]) hempty (fun x hx => ?_) hhand)
    obtain rfl := List.mem_singleton.mp hx
    exact hsample
  · exact h

theorem Balanced_linkCleared (h : Balanced [] s) : Balanced [] s.linkCleared := by
  have hpool : s.linkCleared.pool = s.pool.filter (fun r => !r.origin.isSample) := rfl
  have hwithdrawn := Balanced_withdraw (p := fun r => r.origin.isSample) h
  have hcleared : Balanced (poolWork (s.pool.filter (fun r => r.origin.isSample)) ++ []) s.linkCleared := by
    refine ⟨Accounts_sublist hwithdrawn.accounts (List.nil_sublist _) (fun _ => rfl) rfl, fun r hr n hn => ?_⟩
    rw [hpool] at hr
    have := (List.mem_filter.mp hr).2
    rw [hn] at this
    cases this
  refine Balanced_dropSamples rfl (fun x hx => ?_) hcleared
  obtain ⟨r, hr, rfl⟩ := List.mem_map.mp hx
  exact (List.mem_filter.mp hr).2

theorem Balanced_latchesDropped (cs : List CoreId) (hempty : s.deferred = [] ∧ s.replies = []) (h : Balanced [] s) :
    Balanced [] (cs.foldl State.dropSampleLatch s) := by
  induction cs generalizing s with
  | nil => exact h
  | cons c cs ih => exact ih (dropSampleLatch_of_no_deferred s c hempty) (Balanced_dropSampleLatch c hempty.1 h)

theorem Balanced_resetLink (h : Balanced [] s) : Balanced [] s.resetLink := by
  cases hl : s.lineLow with
  | true => rwa [resetLink_of_low hl]
  | false =>
    rw [resetLink_eq hl]
    exact Balanced_frame (raise_frameTo _ _) (Balanced_frame (abandonSession_frameTo _)
      (Balanced_latchesDropped (s := s.linkCleared) _ ⟨rfl, rfl⟩ (Balanced_linkCleared h)))

/-! ### Aborts -/

theorem mem_liveWork {x : Origin × Stage} : x ∈ liveWork s ↔
    x ∈ poolWork s.pool ∨ (∃ c, x ∈ coreWork (s.core c)) ∨ x ∈ queueWork s.evalQueue ∨ x ∈ engineWork s.engine := by
  have hcore : ∀ c, x ∈ coreWork (s.core c) ↔ (convertingFor (s.core c)).map (fun o => (o, Stage.converting)) = some x ∨
      (latchedFor (s.core c)).map (fun o => (o, Stage.converting)) = some x := fun c => by
    rw [coreWork, List.mem_append, Option.mem_toList, Option.mem_toList]
  simp only [liveWork, List.mem_append, List.mem_filterMap, List.mem_finRange, true_and, hcore, exists_or]
  show (((x ∈ poolWork s.pool ∨ _) ∨ _) ∨ x ∈ queueWork s.evalQueue) ∨ x ∈ engineWork s.engine ↔ _
  simp only [or_assoc]

/-- The work of a core belongs to the origin of its conversion or of its latch. -/
theorem mem_coreWork {x : Origin × Stage} (h : x ∈ coreWork k) :
    (k.state.isConverting = true ∧ k.params.any (fun p => decide (p.origin = x.1)) = true) ∨
      (k.state = .hold ∧ k.latch.any (fun e => decide (e.origin = x.1)) = true) := by
  rw [coreWork, List.mem_append, Option.mem_toList, Option.mem_toList, convertingFor, latchedFor] at h
  rcases h with h | h
  · split at h
    · rename_i hc
      simp only [Option.map_map, Option.map_eq_some_iff] at h
      obtain ⟨p, hp, rfl⟩ := h
      exact .inl ⟨hc.1, by simp [hp]⟩
    · cases h
  · split at h
    · rename_i hh
      simp only [Option.map_map, Option.map_eq_some_iff] at h
      obtain ⟨e, he, rfl⟩ := h
      exact .inr ⟨hh, by simp [he]⟩
    · cases h

theorem any_ofList_of_any {α : Type} {f : α → Origin} {a : Option α} {o : Origin}
    (ho : a.any (fun x => decide (f x = o)) = true) (l : ListId) :
    a.any (fun x => (f x).ofList l) = o.ofList l := by
  obtain ⟨x, rfl, hx⟩ := (Option.any_eq_true _ _).mp ho
  rw [← of_decide_eq_true hx]
  rfl

theorem ofList_of_convertsFor {x : Origin × Stage} (hc : k.convertsFor l = true) (hx : x ∈ coreWork k) : x.1.ofList l = true := by
  obtain ⟨hconv, hany⟩ := convertsFor_iff.mp hc
  rcases mem_coreWork hx with ⟨-, ho⟩ | ⟨hh, -⟩
  · exact (any_ofList_of_any (f := Params.origin) ho l).symm.trans hany
  · rw [hh] at hconv; cases hconv

theorem latchesFor_iff : k.latchesFor l = true ↔ k.state = .hold ∧ k.latch.any (fun e => e.origin.ofList l) = true := by
  simp [Core.latchesFor]

theorem ofList_of_latchesFor {x : Origin × Stage} (hl : k.latchesFor l = true) (hx : x ∈ coreWork k) : x.1.ofList l = true := by
  obtain ⟨hh, hany⟩ := latchesFor_iff.mp hl
  rcases mem_coreWork hx with ⟨hconv, -⟩ | ⟨-, ho⟩
  · rw [hh] at hconv; cases hconv
  · exact (any_ofList_of_any (f := RatioEntry.origin) ho l).symm.trans hany

/-- No work of the list is left in a core that the abort has reached. -/
theorem not_ofList_of_aborted {x : Origin × Stage} (h : k.AbortedFor l k') (hx : x ∈ coreWork k') : x.1.ofList l = false := by
  cases h with
  | cancels _ hstate hcancelled _ =>
    rw [coreWork_of_cancelled (by rw [hstate]; nofun) hcancelled] at hx
    cases hx
  | discards _ hrest =>
    rw [coreWork_of_rest (RestsAs_notConverting hrest) (RestsAs_notHold hrest)] at hx
    cases hx
  | stays hconv hlatch heq =>
    subst heq
    refine Bool.of_not_eq_true (fun ho => ?_)
    rcases mem_coreWork hx with ⟨hc, hany⟩ | ⟨hh, hany⟩
    · exact absurd (hconv.symm.trans (convertsFor_iff.mpr ⟨hc, (any_ofList_of_any (f := Params.origin) hany l).trans ho⟩)) (by decide)
    · exact absurd (hlatch.symm.trans (latchesFor_iff.mpr ⟨hh, (any_ofList_of_any (f := RatioEntry.origin) hany l).trans ho⟩))
        (by decide)

/-- The abort takes the list's work at a core in hand. -/
theorem Balanced_abortCore (l : ListId) (c : CoreId) (h : Balanced X s) :
    ∃ Z, (∀ x ∈ Z, x.1.ofList l = true) ∧ Balanced (Z ++ X) (s.abortCore l c) := by
  have hcancel : ∀ k' : Core, (s.core c).convertsFor l = true → k'.state = .discharge → k'.cancelled = true →
      Balanced (coreWork (s.core c) ++ X) (s.setCore c k') := fun k' _ hst hk' => by
    refine Balanced_coreSet (fs := [.cores]) (coreSet_setCore s c k') (frameTo_of_patch rfl) h ?_
    rw [coreWork_of_cancelled (by rw [hst]; nofun) hk', List.append_nil]
    exact List.perm_append_comm
  unfold State.abortCore
  dsimp only
  split
  · rename_i hconv
    refine ⟨_, fun x hx => ofList_of_convertsFor hconv hx, ?_⟩
    split
    · rename_i hd
      exact hcancel _ hconv hd rfl
    · exact hcancel _ hconv rfl rfl
  · split
    · rename_i hlatch
      have hhold := (latchesFor_iff.mp hlatch).1
      exact ⟨_, fun x hx => ofList_of_latchesFor hlatch hx, Balanced_leaveHold hhold (Balanced_unlatched hhold h)⟩
    · exact ⟨[], nofun, h⟩

theorem Balanced_abortCores (l : ListId) (cs : List CoreId) (h : Balanced X s) :
    ∃ Z, (∀ x ∈ Z, x.1.ofList l = true) ∧ Balanced (Z ++ X) (cs.foldl (State.abortCore l) s) := by
  induction cs generalizing s X with
  | nil => exact ⟨[], nofun, h⟩
  | cons c cs ih =>
    obtain ⟨Z1, hZ1, h1⟩ := Balanced_abortCore l c h
    obtain ⟨Z2, hZ2, h2⟩ := ih h1
    refine ⟨Z2 ++ Z1, fun x hx => (List.mem_append.mp hx).elim (hZ2 x) (hZ1 x), ?_⟩
    rwa [List.append_assoc]

theorem noCoreSweep_pool (s : State) (c : CoreId) : (s.noCoreSweep c).pool = s.pool.filter (fun r => !s.lostRequest c r) :=
  foldl_frameTo (s := { s with pool := s.pool.filter (fun r => !s.lostRequest c r) })
    (fun t (r : Request) => deliver_frameTo t r.origin noCoreResult) _
    .pool rfl

theorem abortCore_pool {r : Request} (h : r ∈ (s.abortCore l c).pool) : r ∈ s.pool := by
  unfold State.abortCore at h
  dsimp only at h
  split at h
  · split at h <;> exact h
  · split at h
    · rcases leaveHold_cases s c with ⟨-, heq⟩ | ⟨-, heq⟩ <;> rw [heq] at h
      · unfold State.enterOffline at h
        rw [noCoreSweep_pool] at h
        exact List.mem_of_mem_filter h
      · exact h
    · exact h

theorem abortCores_pool {cs : List CoreId} {r : Request} (h : r ∈ (cs.foldl (State.abortCore l) s).pool) : r ∈ s.pool := by
  induction cs generalizing s with
  | nil => exact h
  | cons c cs ih => exact abortCore_pool (ih h)

theorem sampleWork_of_list (hZ : ∀ x ∈ Z, x.1.ofList l = true) : sampleWork Z = [] := by
  refine List.filterMap_eq_nil_iff.mpr (fun x hx => ?_)
  split
  · rfl
  · rename_i hn
    have := hZ x hx
    rw [hn] at this
    cases this

theorem listWork_of_other {m : ListId} (hm : m ≠ l) (hZ : ∀ x ∈ Z, x.1.ofList l = true) : listWork m Z = [] := by
  refine List.filterMap_eq_nil_iff.mpr (fun x hx => ?_)
  split
  · rename_i n hn
    have := hZ x hx
    rw [hn] at this
    exact if_neg (fun he => hm (he.symm.trans (of_decide_eq_true this)))
  · rfl

theorem listWork_of_none (hV : ∀ x ∈ V, x.1.ofList l = false) : listWork l V = [] := by
  refine List.filterMap_eq_nil_iff.mpr (fun x hx => ?_)
  split
  · rename_i n hn
    have := hV x hx
    rw [hn] at this
    exact if_neg (of_decide_eq_false this)
  · rfl

theorem engineWork_voidFor (l : ListId) (e : Option Evaluation) :
    engineWork (e.map (Evaluation.voidFor l)) = (engineWork e).filter (fun x => !x.1.ofList l) := by
  cases e with
  | none => rfl
  | some x =>
    unfold Evaluation.voidFor engineWork
    cases ho : x.origin.ofList l <;> cases hv : x.void <;> simp [ho, hv]

theorem queueWork_filter (l : ListId) (es : List RatioEntry) :
    queueWork (es.filter (fun e => !e.origin.ofList l)) = (queueWork es).filter (fun x => !x.1.ofList l) := by
  rw [queueWork, queueWork, List.filter_map]
  rfl

/-- The live work after the rest of an abort is what is not of the list. -/
theorem liveWork_abortRest (n : Nat) (hcores : ∀ d, ∀ x ∈ coreWork (t.core d), x.1.ofList l = false)
    (hpool : ∀ r ∈ t.pool, r.origin.ofList l = false) :
    (liveWork (t.abortRest l n)).Perm ((liveWork t).filter (fun x => !x.1.ofList l)) := by
  have hself : ∀ V : List (Origin × Stage), (∀ x ∈ V, x.1.ofList l = false) → V.filter (fun x => !x.1.ofList l) = V := fun V hV =>
    List.filter_eq_self.mpr (fun x hx => by rw [hV x hx]; rfl)
  refine (liveWork_perm 0 _).trans (List.Perm.trans ?_ ((liveWork_perm 0 t).filter _).symm)
  rw [List.filter_append, List.filter_append, List.filter_append, List.filter_append, hself (poolWork t.pool) ?_, hself _ (hcores 0),
    hself (t.otherWork 0) ?_, ← queueWork_filter, ← engineWork_voidFor]
  · exact List.Perm.refl _
  · intro x hx
    obtain ⟨d, -, hd⟩ := List.mem_flatMap.mp hx
    exact hcores d x hd
  · intro x hx
    obtain ⟨r, hr, rfl⟩ := List.mem_map.mp hx
    exact hpool r hr

theorem Balanced_abortRest (n : Nat) (hZ : ∀ x ∈ Z, x.1.ofList l = true)
    (hcores : ∀ d, ∀ x ∈ coreWork (t.core d), x.1.ofList l = false) (hpool : ∀ r ∈ t.pool, r.origin.ofList l = false)
    (h : Balanced Z t) : Balanced [] (t.abortRest l n) := by
  have hlive := liveWork_abortRest n hcores hpool
  set Y := Z ++ (liveWork t).filter (fun x => x.1.ofList l) with hY
  have hall : ∀ x ∈ Y, x.1.ofList l = true := fun x hx =>
    (List.mem_append.mp hx).elim (hZ x) (fun hx => (List.mem_filter.mp hx).2)
  have hperm : (Z ++ liveWork t).Perm (Y ++ liveWork (t.abortRest l n)) := by
    rw [hY, List.append_assoc]
    exact ((List.filter_append_perm (fun x => x.1.ofList l) (liveWork t)).symm.trans (hlive.symm.append_left _)).append_left _
  have hnone : ∀ x ∈ liveWork (t.abortRest l n), x.1.ofList l = false := fun x hx => by
    simpa using (List.mem_filter.mp (hlive.mem_iff.mp hx)).2
  have hset : Accounts (liveWork (t.abortRest l n)) (t.setList l ((t.list l).aborted n)) := by
    refine Accounts_setList (Accounts_perm h.accounts hperm) ⟨List.nodup_nil, nofun⟩ ?_ ?_ (fun m hm => ?_)
    · rw [sampleWork_append, sampleWork_of_list hall, List.nil_append]
    · rw [listWork_of_none hnone]
      exact List.Perm.refl _
    · rw [listWork_append, listWork_of_other hm hall, List.nil_append]
  exact ⟨Accounts_congr hset (fun _ => ⟨rfl, rfl⟩) rfl rfl, h.asked⟩

theorem Balanced_abortWork (l : ListId) (h : Balanced [] s) : Balanced [] (s.abortWork l) := by
  rw [abortWork_eq]
  have hwithdrawn : Balanced (poolWork (s.pool.filter (fun r => r.origin.ofList l)) ++ []) (s.withdrawn l) := Balanced_withdraw h
  obtain ⟨Z, hZ, hfold⟩ := Balanced_abortCores l (List.finRange 4) hwithdrawn
  refine Balanced_abortRest _ (fun x hx => ?_) (fun d x hx => ?_) (fun r hr => ?_) hfold
  · rcases List.mem_append.mp hx with hx | hx
    · exact hZ x hx
    · rw [List.append_nil] at hx
      obtain ⟨r, hr, rfl⟩ := List.mem_map.mp hx
      exact (List.mem_filter.mp hr).2
  · have hcore := abortCores_core l (List.nodup_finRange 4) (s.withdrawn l) d
    rw [if_pos (List.mem_finRange d)] at hcore
    exact not_ofList_of_aborted hcore hx
  · simpa using (List.mem_filter.mp (abortCores_pool hr)).2

end

end Sys2Proof.Machine
end

