-- ==== Sys2Proof/Proofs/WorkIssued.lean ====
section
/-! PROOF. The sequencers keep live work accounted for: what they issue has its work, and only READY entries leave (R60, R63). -/

-- One proof after another, as in the tests: side by side they take more threads than memory allows.
set_option Elab.async false

namespace Sys2Proof.Machine

open Sys2Proof.Safety

section
variable {s t u : State} {l m : ListId} {r : ListRec} {X : List (Origin × Stage)} {cfg : ListConfig}

/-! ### Lists that keep their open entries -/

theorem Balanced_setList (hopen : (openEntries (s.list l).window).Perm (openEntries r.window)) (hfresh : r.StepsFresh)
    (h : Balanced X s) :
    Balanced X (s.setList l r) :=
  ⟨Accounts_setList h.accounts hfresh rfl ((h.accounts.entries l).trans hopen) (fun _ _ => rfl), h.asked⟩

theorem Balanced_sameWindow (hw : r.window = (s.list l).window) (hcursor : r.cursor = (s.list l).cursor) (h : Balanced X s) :
    Balanced X (s.setList l r) :=
  Balanced_setList (by rw [hw]) (by rw [ListRec.StepsFresh, hw, hcursor]; exact h.accounts.fresh l) h

theorem Balanced_finishList (why : FinishReason) (h : Balanced X s) : Balanced X (s.finishList l why) :=
  Balanced_frame (raise_frameTo _ _) (Balanced_sameWindow (r := (s.list l).finished) rfl rfl h)

theorem stepsFresh_tail {e : Entry} {rest : List Entry} (h : r.StepsFresh) (hw : r.window = e :: rest) :
    ({ r with window := rest } : ListRec).StepsFresh := by
  obtain ⟨hnodup, hbelow⟩ := h
  rw [hw] at hnodup hbelow
  exact ⟨(List.nodup_cons.mp hnodup).2, fun d hd => hbelow d (List.mem_cons_of_mem _ hd)⟩

/-! ### Issue -/

theorem Balanced_issueStep {ch : ChannelId} (hdefined : (s.channel ch).config.isSome = true) (h : Balanced X s) :
    Balanced X (s.issueStep l cfg ch) := by
  obtain ⟨k, hk⟩ := Option.isSome_iff_exists.mp hdefined
  have hacc := h.accounts
  obtain ⟨hnodup, hbelow⟩ := hacc.fresh l
  have hfresh : ((s.list l).issued ch).StepsFresh := by
    refine ⟨?_, fun e he => ?_⟩
    · show (((s.list l).window ++ [_]).map Entry.step).Nodup
      rw [List.map_append]
      refine List.nodup_append.mpr ⟨hnodup, List.nodup_singleton _, fun a ha b hb => ?_⟩
      obtain ⟨e, he, rfl⟩ := List.mem_map.mp ha
      obtain rfl := List.mem_singleton.mp hb
      exact (hbelow e he).ne
    · rcases List.mem_append.mp he with he | he
      · exact (hbelow e he).trans (Nat.lt_succ_self _)
      · obtain rfl := List.mem_singleton.mp he
        exact Nat.lt_succ_self _
  have hissued : Balanced ((.entry l (s.list l).cursor, .waiting) :: X) (s.setList l ((s.list l).issued ch)) := by
    refine ⟨Accounts_setList hacc hfresh (sampleWork_entry _ _ _ _) ?_ (fun m hm => listWork_entry_other
        (fun he => hm he.symm) _ _ _), h.asked⟩
    refine (listWork_entry_same l (s.list l).cursor .waiting _ ▸ ((hacc.entries l).cons _).trans ?_)
    show List.Perm _ (openEntries ((s.list l).window ++ [_]))
    rw [openEntries_append]
    exact (List.perm_append_singleton _ _).symm
  unfold State.issueStep
  dsimp only
  rw [hk]
  exact Balanced_arrive nofun hissued

/-- A list whose steps all name DEFINED channels (R38). -/
def State.StepsReady (l : ListId) (s : State) : Prop := ∀ ch ∈ (s.list l).steps, (s.channel ch).config.isSome = true

theorem stepsReady_congr (h : s.StepsReady l) (hl : (t.list l).config = (s.list l).config) (hc : s.ChannelsKept t) : t.StepsReady l :=
  fun ch hch => by
    rw [hc]
    exact h ch (by rwa [← steps_of_config hl])

theorem channelsKept_of_issuesTo (h : s.IssuesTo t) : s.ChannelsKept t := by
  obtain ⟨_, _, _, rfl⟩ := h
  exact fun _ => rfl

theorem channelsKept_of_advancesTo (h : s.AdvancesTo t) : s.ChannelsKept t := by
  obtain ⟨_, _, _, _, rfl⟩ := h
  exact fun _ => rfl

theorem Balanced_issue (n : Nat) (hsteps : s.StepsReady l) (h : Balanced X s) : Balanced X (s.issue n l) := by
  induction n generalizing s with
  | zero => exact h
  | succ n ih =>
    simp only [State.issue]
    split
    · exact h
    · rename_i cfg hc
      split
      · split
        · exact h
        · rename_i ch hch
          have hmem : ch ∈ (s.list l).steps := by
            rw [ListRec.steps, hc]
            exact List.mem_of_getElem? hch
          refine ih (stepsReady_congr hsteps ?_ (channelsKept_of_issuesTo (issueStep_issuesTo s l cfg ch)))
            (Balanced_issueStep (hsteps ch hmem) h)
          obtain ⟨w, hw, -⟩ := issueStep_sameShape s l cfg ch
          rw [hw]
          rfl
      · exact h

theorem Balanced_startCycle (hw : (s.list l).window = []) (hsteps : s.StepsReady l) (h : Balanced X s) :
    Balanced X (s.startCycle l) := by
  refine Balanced_issue _ (stepsReady_congr (t := s.setList l (s.list l).cycleStarted) hsteps ?_ (fun _ => rfl))
    (Balanced_setList (r := (s.list l).cycleStarted) (List.Perm.refl _) ?_ h)
  · rw [list_setList_same]
    rfl
  · rw [ListRec.StepsFresh, show (s.list l).cycleStarted.window = (s.list l).window from rfl, hw]
    exact ⟨List.nodup_nil, nofun⟩

/-! ### Triggers -/

/-- Windows and steps of every list are sound. -/
def PlansSound (s : State) : Prop := WindowsOrdered s ∧ StepsDefined s

theorem plansSound_of_moves (hm : s.MovesTo true t) (hc : s.ChannelsKept t) (h : PlansSound s) : PlansSound t :=
  ⟨fun l => listSound_of_moves (hm l) (h.1 l), StepsDefined_of_same (fun l => (sameDefinition_of_moves (hm l)).1) hc h.2⟩

/-- A list outside RUNNING and DRAINING has an empty window (R59). -/
theorem window_nil_of_state (h : ListSound r) (hrun : r.state ≠ .running) (hdrain : r.state ≠ .draining) : r.window = [] := by
  obtain hc | ⟨cfg, hc⟩ := Option.eq_none_or_eq_some r.config
  · exact ((listSound_of_none hc).mp h).2
  · obtain ⟨-, -, hwin, -⟩ := (listSound_of_some hc).mp h
    by_contra hne
    exact (hwin.mp hne).elim hrun hdrain

theorem Balanced_trigger (hplans : PlansSound s) (h : Balanced X s) : Balanced X (s.trigger l) := by
  rw [trigger_cases]
  split
  · rename_i hst
    exact Balanced_startCycle (window_nil_of_state (hplans.1 l) (by rw [hst]; nofun) (by rw [hst]; nofun)) (hplans.2 l) h
  · unfold triggeredRunning
    split <;> exact Balanced_sameWindow rfl rfl h
  · exact h

theorem Balanced_triggerChained (hplans : PlansSound s) (h : Balanced X s) : Balanced X (s.triggerChained l) := by
  unfold State.triggerChained
  generalize List.finRange 8 = ms
  induction ms generalizing s with
  | nil => exact h
  | cons m ms ih =>
    rw [List.foldl_cons]
    split
    · exact ih (plansSound_of_moves (trigger_movesTo s m) (channelsKept_of_issuesTo (trigger_issuesTo s m)) hplans)
        (Balanced_trigger hplans h)
    · exact ih hplans h

/-! ### Cycle ends and retirements -/

theorem Balanced_countCycle (h : Balanced X s) : Balanced X (s.countCycle l) := Balanced_sameWindow rfl rfl h

theorem Balanced_endCycle (hw : (s.list l).window = []) (hsteps : s.StepsReady l) (h : Balanced X s) : Balanced X (s.endCycle l) := by
  have hlist : (s.countCycle l).list l = (s.list l).counted := list_setList_same s l _
  have hcount : Balanced X (s.countCycle l) := Balanced_countCycle h
  have hready : (s.countCycle l).StepsReady l := stepsReady_congr hsteps (by rw [hlist]; rfl) (fun _ => rfl)
  unfold State.endCycle
  dsimp only
  split
  · exact Balanced_finishList _ hcount
  · split
    · exact Balanced_startCycle (by rw [hlist]; exact hw) hready hcount
    · split
      · refine Balanced_startCycle ?_ (stepsReady_congr hready ?_ (fun _ => rfl)) (Balanced_sameWindow rfl rfl hcount)
        · rw [list_setList_same, hlist]
          exact hw
        · rw [list_setList_same]
      · exact Balanced_sameWindow rfl rfl hcount

theorem Balanced_endDrain (h : Balanced X s) : Balanced X (s.endDrain l) := by
  unfold State.endDrain
  split
  · exact Balanced_finishList _ h
  · exact h

/-- The last step of a cycle is the last entry of its window (R59). -/
theorem rest_nil_of_last {e : Entry} {rest : List Entry} {res : Result} (h : ListSound r)
    (hhead : r.readyHead = some (cfg, e, rest, res))
    (hlast : e.step + 1 = cfg.steps.length) : rest = [] := by
  obtain ⟨hc, hw, -⟩ := readyHead_eq_some hhead
  obtain ⟨-, -, -, hrun⟩ := (listSound_of_some hc).mp h
  obtain ⟨-, hcursor⟩ := runSound_tail hrun hw
  have hle := hrun.2.2.1
  exact List.eq_nil_of_length_eq_zero (by omega)

/-- What follows a retirement, in a state `u` in which the head has left the list and nothing else has changed in the lists. -/
theorem Balanced_afterRetire {e : Entry} {rest : List Entry} {res : Result} (hplans : PlansSound s)
    (hhead : (s.list l).readyHead = some (cfg, e, rest, res)) (hself : u.list l = (s.list l).afterHead e rest)
    (hother : ∀ m, m ≠ l → u.list m = s.list m) (hchannels : s.ChannelsKept u) (h : Balanced X u) :
    Balanced X (u.afterRetire l (decide (e.step + 1 = cfg.steps.length))) := by
  have hready : u.StepsReady l := stepsReady_congr (hplans.2 l) (by rw [hself]; rfl) hchannels
  have hstate : (u.list l).state = (s.list l).state := by rw [hself]; rfl
  have hchained : ∀ {v : State}, (s.list l).Moves true (v.list l) → (∀ m, m ≠ l → v.list m = u.list m) → u.ChannelsKept v →
      Balanced X v → Balanced X (v.triggerChained l) := fun hm hv hc hb =>
    Balanced_triggerChained (plansSound_of_moves (movesTo_of_one hm (fun m hml => (hv m hml).trans (hother m hml)))
      (ChannelsKept_trans hchannels hc) hplans) hb
  unfold State.afterRetire
  split
  · rename_i hst
    rw [hstate] at hst
    split
    · rename_i hlast
      have hlast := of_decide_eq_true hlast
      have hends := endCycle_cycleEnds u l
      rw [hself] at hends
      refine hchained (.retireLast hhead hst hlast hends) (fun m hm => endCycle_other u hm)
        (channelsKept_of_advancesTo (endCycle_advancesTo u l)) (Balanced_endCycle ?_ hready h)
      rw [hself]
      exact rest_nil_of_last (hplans.1 l) hhead hlast
    · exact Balanced_issue _ hready h
  · rename_i hst
    rw [hstate] at hst
    split
    · have hcounted : (u.countCycle l).list l = ((s.list l).afterHead e rest).counted := by
        rw [← hself]
        exact list_setList_same u l _
      refine hchained (v := (u.countCycle l).endDrain l) ?_ (fun m hm => (endDrain_other _ hm).trans (list_setList_of_ne u hm _))
        (ChannelsKept_trans (t := u.countCycle l) (fun _ => rfl) (channelsKept_of_advancesTo (endDrain_advancesTo _ l)))
        (Balanced_endDrain (Balanced_countCycle h))
      rw [endDrain_list, hcounted]
      exact .retireDraining hhead hst (.inr rfl)
    · exact Balanced_endDrain h
  · exact h

theorem Balanced_monitor {e : Entry} {res : Result} (h : Balanced X s) : Balanced X (s.monitor l e res) := by
  unfold State.monitor
  dsimp only
  split
  · exact h
  · split <;> exact Balanced_frame (s := s) (fs := [.channels, .alarms]) (frameTo_of_patch rfl) h

theorem Balanced_retireHead (admitted : Bool) (hplans : PlansSound s) (h : Balanced X s) : Balanced X (s.retireHead l admitted) := by
  unfold State.retireHead
  split
  · exact h
  · rename_i c e rest res hhead
    dsimp only
    obtain ⟨hc, hw, hstage⟩ := readyHead_eq_some hhead
    set v := (s.monitor l e res).setList l (((s.monitor l e res).list l).afterHead e rest) with hv
    have hmonitor : Balanced X (s.monitor l e res) := Balanced_monitor h
    have hlist : ∀ m, (s.monitor l e res).list m = s.list m := fun m => monitor_list s l m e res
    have hleft : Balanced X v := by
      refine Balanced_setList ?_ ?_ hmonitor
      · rw [hlist, hw, openEntries_cons, hstage]
        exact List.Perm.refl _
      · rw [hlist]
        exact stepsFresh_tail (h.accounts.fresh l) hw
    have hall : ∀ w : State, w.lists = v.lists → w.channels = v.channels → Balanced X w →
        Balanced X (w.afterRetire l (decide (e.step + 1 = c.steps.length))) := by
      intro w hlists hchannels hw
      have hwl : ∀ m, w.list m = v.list m := fun m => by rw [State.list, State.list, hlists]
      refine Balanced_afterRetire hplans hhead ?_ (fun m hm => ?_) (ChannelsKept_trans (monitor_channelsKept s l e res)
          (fun ch => ?_)) hw
      · rw [hwl, hv, list_setList_same, hlist]
      · rw [hwl, hv, list_setList_of_ne _ hm, hlist]
      · rw [State.channel, hchannels]
        rfl
    split
    · exact hall _ rfl rfl (Balanced_frame (s := v) (fs := [.reports, .runStart]) (frameTo_of_patch rfl) hleft)
    · exact hall _ rfl rfl hleft

theorem Balanced_handOut (n : Nat) (hplans : PlansSound s) (h : Balanced X s) : Balanced X (s.handOut n) := by
  induction n generalizing s with
  | zero => exact h
  | succ n ih =>
    unfold State.handOut
    split
    · exact h
    · rename_i l rest _
      have hretired : Balanced X (({ s with blocked := rest } : State).retireHead l true) :=
        Balanced_retireHead (s := { s with blocked := rest }) true hplans
          (Balanced_frame (s := s) (fs := [.blocked]) (frameTo_of_patch rfl) h)
      have hplans2 : PlansSound (({ s with blocked := rest } : State).retireHead l true) :=
        plansSound_of_moves (retireHead_movesTo _ l true) (retireHead_channelsKept _ l true) hplans
      unfold State.rejoin
      split
      · exact ih (plansSound_of_moves (movesTo_of_frame (frameTo_of_patch (fs := [.blocked]) rfl)) (fun _ => rfl) hplans2)
          (Balanced_frame (fs := [.blocked]) (frameTo_of_patch rfl) hretired)
      · exact ih hplans2 hretired

theorem Balanced_attemptRetire (l : ListId) (hplans : PlansSound s) (h : Balanced X s) : Balanced X (s.attemptRetire l) := by
  unfold State.attemptRetire
  split
  · exact h
  · split
    · exact Balanced_frame (choose_frameTo _) (Balanced_retireHead (s := { s with blocked := s.blocked.erase l }) true hplans
        (Balanced_frame (s := s) (fs := [.blocked]) (frameTo_of_patch rfl) h))
    · split
      · exact Balanced_frame (choose_frameTo _) (Balanced_retireHead false hplans h)
      · split
        · exact h
        · exact Balanced_frame (fs := [.blocked]) (frameTo_of_patch rfl) h

theorem Balanced_reportSent (hplans : PlansSound s) (h : Balanced X s) : Balanced X s.reportSent := by
  unfold State.reportSent
  split
  · rename_i n _
    exact Balanced_frame (choose_frameTo _)
      (Balanced_handOut n (s := { s with tx := none, cutByte := none, reports := s.reports.drop n, credits := s.credits - n }) hplans
        (Balanced_frame (s := s) (fs := [.tx, .cutByte, .reports, .credits]) (frameTo_of_patch rfl) h))
  · exact h

/-! ### Starts -/

theorem Balanced_startList (hplans : PlansSound s) (hst : (s.list l).state = .idle) (h : Balanced X s) :
    Balanced X (s.startList l cfg) := by
  have hw := window_nil_of_state (hplans.1 l) (by rw [hst]; nofun) (by rw [hst]; nofun)
  set v := (s.setList l ((s.list l).started cfg)).setRunMark l true with hv
  have hlist : v.list l = (s.list l).started cfg := list_setList_same s l _
  have hstarted : Balanced X v := Balanced_frame (fs := [.runStart]) (frameTo_of_patch rfl)
    (Balanced_sameWindow (r := (s.list l).started cfg) rfl rfl h)
  have hready : v.StepsReady l := stepsReady_congr (s := s) (hplans.2 l) (by rw [hlist]; rfl) (fun _ => rfl)
  unfold State.startList
  dsimp only
  split
  · exact Balanced_startCycle (by rw [hlist]; exact hw) hready hstarted
  · refine Balanced_startCycle ?_ (stepsReady_congr hready ?_ (fun _ => rfl)) (Balanced_sameWindow rfl rfl hstarted)
    · rw [list_setList_same, hlist]
      exact hw
    · rw [list_setList_same]
  · exact Balanced_sameWindow rfl rfl hstarted
  · exact Balanced_sameWindow rfl rfl hstarted

theorem Balanced_expirePeriod (l : ListId) (hplans : PlansSound s) (h : Balanced X s) : Balanced X (s.expirePeriod l) := by
  unfold State.expirePeriod
  split
  · rename_i k c hk hc
    have htimer : (s.list l).timer.isSome = true := by rw [hk]; rfl
    refine Balanced_trigger (plansSound_of_moves (s := s) (MovesTo_trans (t := s.advanceTo k.next) (fun m => Moves_refl _ _)
      (movesTo_setList (.timer _ htimer))) (fun _ => rfl) hplans) ?_
    exact Balanced_sameWindow (s := s.advanceTo k.next) rfl rfl (Balanced_frame (s := s) (fs := [.now]) (frameTo_of_patch rfl) h)
  · exact h

end

end Sys2Proof.Machine
end

