-- ==== Sys2Proof/Proofs/WorkKept.lean ====
section
/-! PROOF. Every step keeps the live work accounted for, and what each core needs for its conversion (R3, R9, R59, R61, R73). -/

-- One proof after another, as in the tests: side by side they take more threads than memory allows.
set_option Elab.async false

namespace Sys2Proof.Machine

open Sys2Proof.Safety

section
variable {s t u : State} {c : CoreId} {k k' : Core} {l : ListId} {X : List (Origin × Stage)}

/-! ### What each core needs for its conversion -/

/-- A core from SELECT to DISCHARGE has its parameters, and in DISCHARGE its outcome unless it is cancelled (R3, R9). -/
def Core.ConversionSound (k : Core) : Prop :=
  (k.state.isConverting = true → k.params.isSome = true) ∧
    (k.state = .discharge → k.cancelled = false → k.meas.outcome.isSome = true)

theorem conversionSound_of_not_converting (h : k.state.isConverting = false) : k.ConversionSound :=
  ⟨fun hc => absurd (h.symm.trans hc) (by decide), fun hd => by rw [hd] at h; cases h⟩

theorem CoresSound_coreSet (hset : s.CoreSet c k' t) (hk : k'.ConversionSound) (h : CoresSound s) : CoresSound t := by
  intro d
  rw [hset d]
  split
  · exact hk
  · exact h d

theorem CoresSound_rest (hset : s.CoreSet c k' t) (hk : k'.state.isConverting = false) (h : CoresSound s) : CoresSound t :=
  CoresSound_coreSet hset (conversionSound_of_not_converting hk) h

theorem CoresSound_congr (hc : t.cores = s.cores) (h : CoresSound s) : CoresSound t := fun d => by
  rw [core_congr hc]
  exact h d

theorem CoresSound_phaseTo (hp : s.PhaseTo c t) (h : CoresSound s) : CoresSound t := by
  rcases hp with rfl | ⟨n, k', rfl, hm⟩
  · exact h
  · exact CoresSound_coreSet (CoreSet_of_eq rfl (coreSet_setCore (s.advanceTo n) c k'))
      ⟨fun _ => by rw [hm.params_eq]; exact hm.params, fun hd _ => hm.outcome hd⟩ h

theorem CoresSound_checksTo (hp : s.ChecksTo c t) (h : CoresSound s) : CoresSound t := by
  rcases hp with rfl | ⟨k', hk, hset⟩
  · exact h
  · refine CoresSound_rest hset ?_ h
    rcases hk.after with hcheck | hidle | hoff
    · exact (isCheck_spec hcheck).2
    · rw [hidle]; rfl
    · rw [hoff]; rfl

theorem CoresSound_leaveHold (c : CoreId) (h : CoresSound s) : CoresSound (s.leaveHold c) := by
  obtain ⟨⟨k', hrest, hset⟩, -⟩ := leaveHold_core s c
  exact CoresSound_rest hset (RestsAs_notConverting hrest) h

theorem CoresSound_grantNext (h : CoresSound s) : CoresSound s.grantNext := by
  rcases grantNext_cases s with heq | ⟨r, c, cfg, -, -, -, -, heq⟩ <;> rw [heq]
  · exact h
  · exact CoresSound_coreSet (CoreSet_congr (coreSet_setCore s c ((s.core c).granted (paramsFor r cfg) s.now))
      (setOriginStage_frameTo _ _ _ .cores rfl)) ⟨fun _ => rfl, nofun⟩ h

theorem CoresSound_endDischarge (c : CoreId) (h : CoresSound s) : CoresSound (s.endDischarge c) := by
  rcases endDischarge_cases s c with heq | ⟨p, -, -, heq⟩ <;> rw [heq]
  · exact h
  · obtain ⟨k', hk', hset⟩ := handOff_not_converting (c := c) (s.released c p) (s.core c) p
    exact CoresSound_rest (CoreSet_congr (CoreSet_trans (released_core s c p) hset) rfl) hk' h

theorem CoresSound_serveHold (h : CoresSound s) : CoresSound s.serveHold := by
  unfold State.serveHold
  split
  · exact h
  · split
    · exact h
    · split
      · exact CoresSound_congr rfl (CoresSound_leaveHold _ (CoresSound_congr (joinQueue_frameTo s _ .cores rfl) h))
      · exact h

theorem CoresSound_resetLink (h : CoresSound s) : CoresSound s.resetLink := by
  have hdrop : ∀ (cs : List CoreId) (t : State), CoresSound t → CoresSound (cs.foldl State.dropSampleLatch t) := by
    intro cs
    induction cs with
    | nil => exact fun _ ht => ht
    | cons c cs ih =>
      refine fun t ht => ih _ ?_
      unfold State.dropSampleLatch
      split
      · exact CoresSound_leaveHold c ht
      · exact ht
  cases hl : s.lineLow with
  | true => rwa [resetLink_of_low hl]
  | false =>
    rw [resetLink_eq hl]
    have hdropped : CoresSound s.latchesDropped := hdrop (List.finRange 4) s.linkCleared h
    exact CoresSound_congr (raise_frameTo _ _ .cores rfl) (CoresSound_congr
        (abandonSession_frameTo s.latchesDropped .cores rfl) hdropped)

theorem conversionSound_of_aborted (h : k.AbortedFor l k') (hk : k.ConversionSound) : k'.ConversionSound := by
  cases h with
  | cancels hconv hstate hcancelled hparams =>
    exact ⟨fun _ => by rw [hparams]; exact hk.1 (convertsFor_iff.mp hconv).1,
      fun _ hn => absurd (hcancelled.symm.trans hn) (by decide)⟩
  | discards _ hrest => exact conversionSound_of_not_converting (RestsAs_notConverting hrest)
  | stays _ _ heq => exact heq ▸ hk

theorem CoresSound_abortList (l : ListId) (h : CoresSound s) : CoresSound (s.abortList l) := by
  have hwork : CoresSound (s.abortWork l) := fun d => conversionSound_of_aborted (abortWork_core s l d) (h d)
  unfold State.abortList
  split
  · exact CoresSound_congr rfl h
  · exact hwork
  · exact hwork
  · exact h

theorem CoresSound_runCommand {mine : Frame → Bool} {allowed : List Byte → Bool} {own : Frame → State → Answer} (h : CoresSound s)
    (hown : ∀ f t, (own f s).state? = some t → CoresSound t) : CoresSound (s.runCommand mine allowed own) :=
  runCommand_keeps (P := CoresSound) (fun _ _ _ _ h => h) h hown

theorem CoresSound_after (c : Instr) (h : CoresSound s) : CoresSound (s.after c) := by
  have hreset : ∀ b, CoresSound (s.powerOn b) := fun b => workSound_reset.2.2.2.1
  cases c
  case powerOnReset b => exact hreset b
  case partReset b =>
    show CoresSound (if s.resetDue then s.powerOn b else s)
    split
    · exact hreset b
    · exact h
  case takeCoreOffline =>
    refine CoresSound_runCommand h (fun f t ht => ?_)
    rcases takeCoreOfflineOwn_state ht with rfl | ⟨c, ⟨-, rfl⟩ | rfl⟩
    · exact h
    · exact CoresSound_rest (enterOffline_core s c _) rfl h
    · exact CoresSound_coreSet (coreSet_setCore s c _) (h c) h
  case restoreCore =>
    refine CoresSound_runCommand h (fun f t ht => ?_)
    obtain ⟨c, -, -, -, rfl⟩ := restoreCoreOwn_state ht
    have hset : s.CoreSet c { (s.core c).enter .checkA s.now with checkPassed := none }
        ((s.defer f.tag (.restore c)).setCore c { (s.core c).enter .checkA s.now with checkPassed := none }) :=
      CoreSet_of_eq rfl (coreSet_setCore _ c _)
    exact CoresSound_rest hset rfl h
  case stopListAbort =>
    refine CoresSound_runCommand h (fun f t ht => ?_)
    obtain ⟨l, -, rfl⟩ := stopListAbortOwn_state ht
    exact CoresSound_abortList l h
  case linkReset => exact CoresSound_resetLink h
  case grant => exact CoresSound_grantNext h
  case settleEnd core => exact CoresSound_phaseTo (endSettle_phaseTo s core) h
  case refPhaseComplete core count => exact CoresSound_phaseTo (completeRef_phaseTo s core count) h
  case refPhaseTimeout core => exact CoresSound_phaseTo (timeoutRef_phaseTo s core) h
  case sensePhaseComplete core count => exact CoresSound_phaseTo (completeSense_phaseTo s core count) h
  case sensePosComplete core count => exact CoresSound_phaseTo (completeForward_phaseTo s core count) h
  case senseNegComplete core count => exact CoresSound_phaseTo (completeReverse_phaseTo s core count) h
  case senseTimeout core => exact CoresSound_phaseTo (timeoutSense_phaseTo s core) h
  case checkPeriodsComplete core count => exact CoresSound_checksTo (passCheck_checksTo s core count) h
  case checkLimitExpiry core => exact CoresSound_checksTo (failCheck_checksTo s core) h
  case checkDischargeEnd core => exact CoresSound_checksTo (endCheckDischarge_checksTo s core) h
  case dischargeEnd core => exact CoresSound_endDischarge core h
  case holdServed => exact CoresSound_serveHold h
  all_goals exact CoresSound_congr (after_frameTo _ s .cores rfl) h

/-! ### The rows -/

theorem Balanced_runCommand {mine : Frame → Bool} {allowed : List Byte → Bool} {own : Frame → State → Answer} (h : Balanced [] s)
    (hown : ∀ f t, (own f s).state? = some t → Balanced [] t) : Balanced [] (s.runCommand mine allowed own) :=
  runCommand_keeps (P := Balanced [])
    (fun t _ _ _ h => Balanced_frame (s := t) (fs := [.replies, .slots, .choice]) (frameTo_of_patch rfl) h) h hown

theorem balanced_reset : Balanced [] State.reset :=
  balanced_of_work workSound_reset.1 workSound_reset.2.2.2.2.1 workSound_reset.2.2.2.2.2

theorem Balanced_powerOn (s : State) (b : BitVec 2) : Balanced [] (s.powerOn b) :=
  Balanced_frame (s := State.reset) (fs := [.bitRate, .pending]) (frameTo_of_patch rfl) balanced_reset

/-- A list without a window is defined anew. -/
theorem Balanced_defined {r : ListRec} (hw : (s.list l).window = []) (hr : r.window = []) (h : Balanced X s) :
    Balanced X ((s.setList l r).setRunMark l false) := by
  refine Balanced_frame (s := s.setList l r) (fs := [.runStart]) (frameTo_of_patch rfl) (Balanced_setList (by rw [hw, hr]) ?_ h)
  rw [ListRec.StepsFresh, hr]
  exact ⟨List.nodup_nil, nofun⟩

theorem Balanced_abortList (l : ListId) (h : Balanced [] s) : Balanced [] (s.abortList l) := by
  unfold State.abortList
  split
  · exact Balanced_finishList _ h
  · exact Balanced_abortWork l h
  · exact Balanced_abortWork l h
  · exact h

theorem Balanced_drainList (l : ListId) (h : Balanced [] s) : Balanced [] (s.drainList l) := by
  unfold State.drainList
  split
  · exact Balanced_finishList _ h
  · exact Balanced_sameWindow rfl rfl h
  · exact h

theorem Balanced_passCheck (c : CoreId) (n : PeriodCount) (h : Balanced [] s) : Balanced [] (s.passCheck c n) := by
  unfold State.passCheck
  split
  · rename_i hc
    exact Balanced_endCheckCount _ _ (Bool.and_eq_true_iff.mp hc).1 h
  · exact h

theorem Balanced_failCheck (c : CoreId) (h : Balanced [] s) : Balanced [] (s.failCheck c) := by
  unfold State.failCheck
  split
  · rename_i hc
    exact Balanced_endCheckCount _ _ hc h
  · exact h

theorem balanced_of_workSound (h : WorkSound s) : Balanced [] s := by
  obtain ⟨hwindows, -, -, -, hentries, hsamples⟩ := h
  exact balanced_of_work hwindows hentries hsamples

/-- Every row moves work from place to place, and windows and deferred table with it. -/
theorem Balanced_after (c : Instr) (hwork : WorkSound s) : Balanced [] (s.after c) := by
  have h := balanced_of_workSound hwork
  obtain ⟨hwindows, hsteps, hold, hcores, -, -⟩ := hwork
  have hplans : PlansSound s := ⟨hwindows, hsteps⟩
  cases c
  case powerOnReset b => exact Balanced_powerOn s b
  case partReset b =>
    show Balanced [] (if s.resetDue then s.powerOn b else s)
    split
    · exact Balanced_powerOn s b
    · exact h
  case sample => exact Balanced_runCommand h (fun f t ht => Balanced_sample ht h)
  case setList =>
    refine Balanced_runCommand h (fun f t ht => ?_)
    obtain ⟨l, c, hst, -, -, -, -, rfl⟩ := setListOwn_state ht
    refine Balanced_defined (window_nil_of_state (hwindows l) ?_ ?_) rfl h <;> rcases hst with hst | hst <;> rw [hst] <;> nofun
  case clearList =>
    refine Balanced_runCommand h (fun f t ht => ?_)
    rcases clearListOwn_state ht with rfl | ⟨l, hst, -, rfl⟩
    · exact h
    · refine Balanced_defined (window_nil_of_state (hwindows l) ?_ ?_) rfl h <;> rw [hst] <;> nofun
  case startList =>
    refine Balanced_runCommand h (fun f t ht => ?_)
    obtain ⟨l, c, -, hst, rfl⟩ := startListOwn_state ht
    exact Balanced_startList hplans hst h
  case stopListDrain =>
    refine Balanced_runCommand h (fun f t ht => ?_)
    obtain ⟨l, -, rfl⟩ := stopListDrainOwn_state ht
    exact Balanced_drainList l h
  case stopListAbort =>
    refine Balanced_runCommand h (fun f t ht => ?_)
    obtain ⟨l, -, rfl⟩ := stopListAbortOwn_state ht
    exact Balanced_abortList l h
  case triggerList =>
    refine Balanced_runCommand h (fun f t ht => ?_)
    obtain ⟨l, c, -, rfl⟩ := triggerListOwn_state ht
    exact Balanced_trigger hplans h
  case takeCoreOffline =>
    refine Balanced_runCommand h (fun f t ht => ?_)
    rcases takeCoreOfflineOwn_state ht with rfl | ⟨c, ⟨hidle, rfl⟩ | rfl⟩
    · exact h
    · exact Balanced_enterOffline _ (coreWork_of_rest (by rw [hidle]; rfl) (by rw [hidle]; nofun)) h
    · exact Balanced_sameWork (fs := [.cores]) (coreSet_setCore s c _) (frameTo_of_patch rfl) h rfl
  case restoreCore =>
    refine Balanced_runCommand h (fun f t ht => ?_)
    obtain ⟨c, hoff, -, -, rfl⟩ := restoreCoreOwn_state ht
    exact Balanced_setCore (coreWork_of_rest (k := s.core c) (by rw [hoff]; rfl) (by rw [hoff]; nofun)) (coreWork_of_check rfl)
      (Balanced_defer_restore f.tag c h)
  case linkReset => exact Balanced_resetLink h
  case grant => exact Balanced_grantNext h
  case settleEnd core => exact Balanced_phaseTo (endSettle_phaseTo s core) h
  case refPhaseComplete core count => exact Balanced_phaseTo (completeRef_phaseTo s core count) h
  case refPhaseTimeout core => exact Balanced_phaseTo (timeoutRef_phaseTo s core) h
  case sensePhaseComplete core count => exact Balanced_phaseTo (completeSense_phaseTo s core count) h
  case sensePosComplete core count => exact Balanced_phaseTo (completeForward_phaseTo s core count) h
  case senseNegComplete core count => exact Balanced_phaseTo (completeReverse_phaseTo s core count) h
  case senseTimeout core => exact Balanced_phaseTo (timeoutSense_phaseTo s core) h
  case checkPeriodsComplete core count => exact Balanced_passCheck core count h
  case checkLimitExpiry core => exact Balanced_failCheck core h
  case checkDischargeEnd core => exact Balanced_endCheckDischarge core h
  case dischargeEnd core => exact Balanced_endDischarge core hcores h
  case holdServed => exact Balanced_serveHold hold h
  case evaluationStart => exact Balanced_startEvaluation h
  case evaluationComplete => exact Balanced_completeEvaluation h
  case periodExpiry list => exact Balanced_expirePeriod list hplans h
  case retire list => exact Balanced_attemptRetire list hplans h
  case reportFrameSent => exact Balanced_reportSent hplans h
  case abortComplete list =>
    show Balanced [] (s.completeAbort list)
    unfold State.completeAbort
    split
    · exact Balanced_frame (choose_frameTo _) (Balanced_finishList _ h)
    · exact h
  all_goals exact Balanced_frame (after_frameTo _ s) h

/-- No work is lost or doubled in a step. -/
theorem workSound_kept : KeptByStep WorkSound := by
  intro s t h hstep
  have hpending : ∀ (s : State) q, WorkSound s → WorkSound { s with pending := q } := fun s q hs => hs
  have hidle : ∀ s : State, CoresSound s → Balanced [] s → CoresSound s.idle ∧ Balanced [] s.idle := fun s hc hb => by
    unfold State.idle
    split
    · exact ⟨hc, Balanced_frame (s := s) (fs := [.cutByte]) (frameTo_of_patch rfl) hb⟩
    · exact ⟨hc, Balanced_frame (s := s) (fs := [.tx]) (frameTo_of_patch rfl) hb⟩
  obtain ⟨hcores, hbalanced⟩ := kept_of_rows (P := fun u => CoresSound u ∧ Balanced [] u) hpending
    (fun s hs => hidle s hs.2.2.2.1 (balanced_of_workSound hs)) (fun c s hs => ⟨CoresSound_after c hs.2.2.2.1, Balanced_after c hs⟩)
    s t h hstep
  obtain ⟨hentries, hsamples⟩ := work_of_balanced hbalanced
  exact ⟨listsStaySound.1 s t h.1 hstep, stepsDefined_kept s t h.2.1 hstep, (coresAndClaimsStayInAgreement s t h.2.2.1 hstep).1, hcores,
    hentries, hsamples⟩

end

end Sys2Proof.Machine
end

