-- ==== Sys2Proof/Proofs/PoolKept.lean ====
section
/-! PROOF. The pool stays in order of arrival: what arrives stands last, and what leaves leaves the order of the others (R73, R74). -/

-- One proof after another, as in the tests: side by side they take more threads than memory allows.
set_option Elab.async false

namespace Sys2Proof.Machine

open Sys2Proof.Safety

section
variable {s t u : State} {c : CoreId} {l : ListId}

/-! ### Rows that take requests out of the pool -/

/-- Requests have at most left the pool, and no grant event has been taken back. -/
def State.PoolLess (s t : State) : Prop := t.pool.Sublist s.pool ∧ s.nextEvent ≤ t.nextEvent

theorem PoolLess_refl (s : State) : s.PoolLess s := ⟨List.Sublist.refl _, le_rfl⟩

theorem PoolLess_trans (h : s.PoolLess t) (h2 : t.PoolLess u) : s.PoolLess u := ⟨h2.1.trans h.1, h.2.trans h2.2⟩

theorem poolLess_of_frame {fs : List Field} (hf : s.FrameTo fs t) (hp : (!fs.contains .pool) = true := by rfl)
    (hn : (!fs.contains .nextEvent) = true := by rfl) : s.PoolLess t := by
  have hpool : t.pool = s.pool := hf .pool (by simpa using hp)
  have hevent : t.nextEvent = s.nextEvent := hf .nextEvent (by simpa using hn)
  exact ⟨by rw [hpool], hevent.ge⟩

theorem newGrantEvent_poolLess (s : State) : s.PoolLess s.newGrantEvent := ⟨List.Sublist.refl _, Nat.le_succ _⟩

theorem foldl_poolLess {α : Type} {g : State → α → State} (hg : ∀ (s : State) (a : α), s.PoolLess (g s a)) (xs : List α) (s : State) :
    s.PoolLess (xs.foldl g s) := by
  induction xs generalizing s with
  | nil => exact PoolLess_refl s
  | cons x xs ih => exact PoolLess_trans (hg s x) (ih _)

theorem noCoreSweep_poolLess (s : State) (c : CoreId) : s.PoolLess (s.noCoreSweep c) :=
  PoolLess_trans (t := { s with pool := s.pool.filter (fun r => !s.lostRequest c r) }) ⟨List.filter_sublist, le_rfl⟩
    (foldl_poolLess (fun t (r : Request) => poolLess_of_frame (deliver_frameTo t r.origin noCoreResult)) _ _)

theorem enterOffline_poolLess (s : State) (c : CoreId) (why : OfflineReason) : s.PoolLess (s.enterOffline c why) :=
  noCoreSweep_poolLess _ c

theorem settleCore_poolLess (s : State) (c : CoreId) : s.PoolLess (s.settleCore c) := by
  unfold State.settleCore
  split
  · exact enterOffline_poolLess s c _
  · split
    · exact enterOffline_poolLess s c _
    · exact PoolLess_refl s

theorem leaveHold_poolLess (s : State) (c : CoreId) : s.PoolLess (s.leaveHold c) := by
  unfold State.leaveHold
  dsimp only
  split
  · exact enterOffline_poolLess _ c _
  · exact newGrantEvent_poolLess s

theorem abortCore_poolLess (s : State) (l : ListId) (c : CoreId) : s.PoolLess (s.abortCore l c) := by
  unfold State.abortCore
  dsimp only
  split
  · split <;> exact PoolLess_refl s
  · split
    · exact leaveHold_poolLess s c
    · exact PoolLess_refl s

theorem abortList_poolLess (s : State) (l : ListId) : s.PoolLess (s.abortList l) := by
  have hwork : s.PoolLess (s.abortWork l) := by
    rw [abortWork_eq]
    exact PoolLess_trans (t := s.withdrawn l) ⟨List.filter_sublist, le_rfl⟩
      (foldl_poolLess (fun t c => abortCore_poolLess t l c) (List.finRange 4) (s.withdrawn l))
  unfold State.abortList
  split
  · exact PoolLess_refl s
  · exact hwork
  · exact hwork
  · exact PoolLess_refl s

theorem resetLink_poolLess (s : State) : s.PoolLess s.resetLink := by
  cases hl : s.lineLow with
  | true => rw [resetLink_of_low hl]; exact PoolLess_refl s
  | false =>
    have hdrop : ∀ (t : State) (c : CoreId), t.PoolLess (t.dropSampleLatch c) := fun t c => by
      unfold State.dropSampleLatch
      split
      · exact leaveHold_poolLess t c
      · exact PoolLess_refl t
    have hcleared : s.PoolLess s.linkCleared := ⟨List.filter_sublist, le_rfl⟩
    have hdropped : s.linkCleared.PoolLess s.latchesDropped := foldl_poolLess hdrop (List.finRange 4) s.linkCleared
    rw [resetLink_eq hl]
    exact PoolLess_trans (PoolLess_trans (PoolLess_trans hcleared hdropped) (poolLess_of_frame (abandonSession_frameTo _)))
      (poolLess_of_frame (raise_frameTo _ _))

theorem handOff_poolLess (s : State) (c : CoreId) (k : Core) (p : Params) : s.PoolLess (s.handOff c k p) := by
  have hsettle : ∀ {t : State}, s.PoolLess t → s.PoolLess (t.settleCore c) := fun h => PoolLess_trans h (settleCore_poolLess _ c)
  unfold State.handOff
  split
  · exact hsettle (poolLess_of_frame (outstandingDone_frameTo s _))
  · split
    · exact hsettle (PoolLess_refl s)
    · split
      · exact hsettle (PoolLess_refl s)
      · exact hsettle (poolLess_of_frame (deliver_frameTo s _ _))
      · dsimp only
        split
        · exact hsettle (poolLess_of_frame (joinQueue_frameTo s _))
        · exact PoolLess_refl s

theorem endDischarge_poolLess (s : State) (c : CoreId) : s.PoolLess (s.endDischarge c) := by
  rcases endDischarge_cases s c with heq | ⟨p, -, -, heq⟩ <;> rw [heq]
  · exact PoolLess_refl s
  · exact PoolLess_trans (PoolLess_trans (PoolLess_trans (poolLess_of_frame (released_frameTo s c p)) (handOff_poolLess _ c _ p))
      (newGrantEvent_poolLess _)) (poolLess_of_frame (choose_frameTo _))

theorem serveHold_poolLess (s : State) : s.PoolLess s.serveHold := by
  unfold State.serveHold
  split
  · exact PoolLess_refl s
  · split
    · exact PoolLess_refl s
    · split
      · exact PoolLess_trans (poolLess_of_frame (joinQueue_frameTo s _)) (leaveHold_poolLess _ _)
      · exact PoolLess_refl s

theorem grantNext_poolLess (s : State) : s.PoolLess s.grantNext := by
  rcases grantNext_cases s with heq | ⟨r, c, cfg, -, -, -, -, heq⟩ <;> rw [heq]
  · exact PoolLess_refl s
  · exact PoolLess_trans (t := (({ s with pool := s.pool.erase r } : State).setInput r.input (.claimed c)).setCore c
      ((s.core c).granted (paramsFor r cfg) s.now)) ⟨List.erase_sublist, le_rfl⟩ (poolLess_of_frame (setOriginStage_frameTo _ _ _))

theorem answerRestore_poolLess (s : State) (c : CoreId) (failed : Option Reference) : s.PoolLess (s.answerRestore c failed) := by
  unfold State.answerRestore
  split <;> exact PoolLess_refl s

theorem endPair_poolLess (s : State) (c : CoreId) (failed : Option Reference) : s.PoolLess (s.endPair c failed) := by
  have hready : ∀ t : State, t.PoolLess t.readyIfDone := fun t => by
    unfold State.readyIfDone
    split <;> exact PoolLess_refl t
  unfold State.endPair
  refine PoolLess_trans ?_ (poolLess_of_frame (choose_frameTo _))
  split
  · unfold State.endStartupPair
    dsimp only
    split
    · exact PoolLess_trans (t := State.newGrantEvent _) (newGrantEvent_poolLess s) (hready _)
    · exact hready _
  · unfold State.endRestorePair
    dsimp only
    split
    · exact PoolLess_trans (answerRestore_poolLess (State.enterIdle c (s.setCore c _)) c none) (newGrantEvent_poolLess _)
    · exact answerRestore_poolLess (s.setCore c _) c _

theorem endCheckDischarge_poolLess (s : State) (c : CoreId) : s.PoolLess (s.endCheckDischarge c) := by
  unfold State.endCheckDischarge
  dsimp only
  split
  · exact PoolLess_refl s
  · exact endPair_poolLess (s.advanceTo _) c _
  · exact endPair_poolLess (s.advanceTo _) c _
  · exact endPair_poolLess (s.advanceTo _) c _
  · exact PoolLess_refl s

/-! ### Rows that put requests into the pool -/

theorem PoolInOrder_less (hp : s.PoolLess t) (h : PoolInOrder s) : PoolInOrder t :=
  ⟨h.1.sublist hp.1, fun r hr => (h.2 r (hp.1.subset hr)).trans_le hp.2⟩

theorem PoolInOrder_frame {fs : List Field} (hf : s.FrameTo fs t) (h : PoolInOrder s) (hp : (!fs.contains .pool) = true := by rfl)
    (hn : (!fs.contains .nextEvent) = true := by rfl) : PoolInOrder t := PoolInOrder_less (poolLess_of_frame hf hp hn) h

/-- A request that arrives stands last, and its age is that of its own event (R73, R75). -/
theorem PoolInOrder_arrive (o : Origin) (ch : ChannelId) (i : InputId) (p : Priority) (h : PoolInOrder s) :
    PoolInOrder (s.arrive o ch i p) := by
  unfold State.arrive
  dsimp only
  split
  · exact PoolInOrder_frame (deliver_frameTo _ _ _) (PoolInOrder_less (newGrantEvent_poolLess s) h)
  · refine ⟨List.pairwise_append.mpr ⟨h.1, List.pairwise_singleton _ _, fun x hx y hy => ?_⟩, fun r hr => ?_⟩
    · obtain rfl := List.mem_singleton.mp hy
      exact h.2 x hx
    · rcases List.mem_append.mp hr with hr | hr
      · exact (h.2 r hr).trans (Nat.lt_succ_self _)
      · obtain rfl := List.mem_singleton.mp hr
        exact Nat.lt_succ_self _

theorem PoolInOrder_issue (n : Nat) (l : ListId) (h : PoolInOrder s) : PoolInOrder (s.issue n l) := by
  have hstep : ∀ {s : State} (cfg : ListConfig) (ch : ChannelId), PoolInOrder s → PoolInOrder (s.issueStep l cfg ch) := by
    intro s cfg ch h
    unfold State.issueStep
    dsimp only
    split
    · exact h
    · exact PoolInOrder_arrive _ _ _ _ (s := s.setList l _) h
  induction n generalizing s with
  | zero => exact h
  | succ n ih =>
    simp only [State.issue]
    split
    · exact h
    · split
      · split
        · exact h
        · exact ih (hstep _ _ h)
      · exact h

theorem PoolInOrder_startCycle (l : ListId) (h : PoolInOrder s) : PoolInOrder (s.startCycle l) :=
    PoolInOrder_issue _ l (s := s.setList l _) h

theorem PoolInOrder_trigger (l : ListId) (h : PoolInOrder s) : PoolInOrder (s.trigger l) := by
  rw [trigger_cases]
  split
  · exact PoolInOrder_startCycle l h
  · exact h
  · exact h

theorem PoolInOrder_triggerChained (l : ListId) (h : PoolInOrder s) : PoolInOrder (s.triggerChained l) := by
  unfold State.triggerChained
  generalize List.finRange 8 = ms
  induction ms generalizing s with
  | nil => exact h
  | cons m ms ih =>
    rw [List.foldl_cons]
    split
    · exact ih (PoolInOrder_trigger m h)
    · exact ih h

theorem PoolInOrder_endCycle (l : ListId) (h : PoolInOrder s) : PoolInOrder (s.endCycle l) := by
  unfold State.endCycle
  dsimp only
  split
  · exact h
  · split
    · exact PoolInOrder_startCycle l (s := s.countCycle l) h
    · split
      · exact PoolInOrder_startCycle l (s := (s.countCycle l).setList l _) h
      · exact h

theorem PoolInOrder_endDrain (l : ListId) (h : PoolInOrder s) : PoolInOrder (s.endDrain l) := by
  unfold State.endDrain
  split <;> exact h

theorem PoolInOrder_afterRetire (l : ListId) (last : Bool) (h : PoolInOrder s) : PoolInOrder (s.afterRetire l last) := by
  unfold State.afterRetire
  split
  · split
    · exact PoolInOrder_triggerChained l (PoolInOrder_endCycle l h)
    · exact PoolInOrder_issue _ l h
  · split
    · exact PoolInOrder_triggerChained l (PoolInOrder_endDrain l (s := s.countCycle l) h)
    · exact PoolInOrder_endDrain l h
  · exact h

theorem PoolInOrder_retireHead (l : ListId) (admitted : Bool) (h : PoolInOrder s) : PoolInOrder (s.retireHead l admitted) := by
  unfold State.retireHead
  split
  · exact h
  · rename_i c e rest res _
    dsimp only
    have hmonitor : PoolInOrder (s.monitor l e res) := by
      unfold State.monitor
      dsimp only
      split
      · exact h
      · split <;> exact h
    refine PoolInOrder_afterRetire l _ ?_
    split <;> exact hmonitor

theorem PoolInOrder_handOut (n : Nat) (h : PoolInOrder s) : PoolInOrder (s.handOut n) := by
  induction n generalizing s with
  | zero => exact h
  | succ n ih =>
    unfold State.handOut
    split
    · exact h
    · rename_i l rest _
      refine ih ?_
      have hretired : PoolInOrder (({ s with blocked := rest } : State).retireHead l true) :=
        PoolInOrder_retireHead l true (s := { s with blocked := rest }) h
      unfold State.rejoin
      split <;> exact hretired

theorem PoolInOrder_attemptRetire (l : ListId) (h : PoolInOrder s) : PoolInOrder (s.attemptRetire l) := by
  unfold State.attemptRetire
  split
  · exact h
  · split
    · exact PoolInOrder_retireHead l true (s := { s with blocked := s.blocked.erase l }) h
    · split
      · exact PoolInOrder_retireHead l false h
      · split <;> exact h

theorem PoolInOrder_reportSent (h : PoolInOrder s) : PoolInOrder s.reportSent := by
  unfold State.reportSent
  split
  · rename_i n _
    exact PoolInOrder_handOut n (s := { s with tx := none, cutByte := none, reports := s.reports.drop n, credits := s.credits - n }) h
  · exact h

theorem PoolInOrder_startList (l : ListId) (cfg : ListConfig) (h : PoolInOrder s) : PoolInOrder (s.startList l cfg) := by
  unfold State.startList
  dsimp only
  split
  · exact PoolInOrder_startCycle l (s := (s.setList l _).setRunMark l true) h
  · exact PoolInOrder_startCycle l (s := State.setList ((s.setList l _).setRunMark l true) l _) h
  · exact h
  · exact h

theorem PoolInOrder_expirePeriod (l : ListId) (h : PoolInOrder s) : PoolInOrder (s.expirePeriod l) := by
  unfold State.expirePeriod
  split
  · exact PoolInOrder_trigger l (s := State.setList (s.advanceTo _) l _) h
  · exact h

/-! ### The rows -/

theorem PoolInOrder_runCommand {mine : Frame → Bool} {allowed : List Byte → Bool} {own : Frame → State → Answer} (h : PoolInOrder s)
    (hown : ∀ f t, (own f s).state? = some t → PoolInOrder t) : PoolInOrder (s.runCommand mine allowed own) :=
  runCommand_keeps (P := PoolInOrder) (fun _ _ _ _ h => h) h hown

theorem PoolInOrder_after (c : Instr) (h : PoolInOrder s) : PoolInOrder (s.after c) := by
  have hreset : ∀ b, PoolInOrder (s.powerOn b) := fun b => ⟨List.Pairwise.nil, nofun⟩
  cases c
  case powerOnReset b => exact hreset b
  case partReset b =>
    show PoolInOrder (if s.resetDue then s.powerOn b else s)
    split
    · exact hreset b
    · exact h
  case sample =>
    refine PoolInOrder_runCommand h (fun f t ht => ?_)
    obtain ⟨ch, cfg, -, -, -, rfl⟩ := sampleOwn_state ht
    exact PoolInOrder_arrive _ _ _ _ (s := s.defer f.tag (.sample ch)) h
  case startList =>
    refine PoolInOrder_runCommand h (fun f t ht => ?_)
    obtain ⟨l, c, -, -, rfl⟩ := startListOwn_state ht
    exact PoolInOrder_startList l c h
  case stopListAbort =>
    refine PoolInOrder_runCommand h (fun f t ht => ?_)
    obtain ⟨l, -, rfl⟩ := stopListAbortOwn_state ht
    exact PoolInOrder_less (abortList_poolLess s l) h
  case triggerList =>
    refine PoolInOrder_runCommand h (fun f t ht => ?_)
    obtain ⟨l, c, -, rfl⟩ := triggerListOwn_state ht
    exact PoolInOrder_trigger l h
  case takeCoreOffline =>
    refine PoolInOrder_runCommand h (fun f t ht => ?_)
    rcases takeCoreOfflineOwn_state ht with rfl | ⟨c, ⟨-, rfl⟩ | rfl⟩
    · exact h
    · exact PoolInOrder_less (enterOffline_poolLess s c _) h
    · exact h
  case linkReset => exact PoolInOrder_less (resetLink_poolLess s) h
  case grant => exact PoolInOrder_less (grantNext_poolLess s) h
  case checkDischargeEnd core => exact PoolInOrder_less (endCheckDischarge_poolLess s core) h
  case dischargeEnd core => exact PoolInOrder_less (endDischarge_poolLess s core) h
  case holdServed => exact PoolInOrder_less (serveHold_poolLess s) h
  case restEnd input =>
    show PoolInOrder (s.endRest input)
    unfold State.endRest
    split
    · exact PoolInOrder_less (newGrantEvent_poolLess (State.freeInput input (s.advanceTo _))) h
    · exact h
  case periodExpiry list => exact PoolInOrder_expirePeriod list h
  case retire list => exact PoolInOrder_attemptRetire list h
  case reportFrameSent => exact PoolInOrder_reportSent h
  all_goals exact PoolInOrder_frame (after_frameTo _ s) h

theorem poolInOrder_kept : KeptByStep PoolInOrder := by
  refine kept_of_rows (fun s q hs => hs) (fun s hs => ?_) (fun c s hs => PoolInOrder_after c hs)
  unfold State.idle
  split <;> exact hs

/-- Settles O59. -/
theorem everyEntryKeepsItsWork : Obligations.EveryEntryKeepsItsWork := ⟨workSound_kept, poolInOrder_kept⟩

end

end Sys2Proof.Machine
end

