-- ==== Sys2Proof/Proofs/WaitingLists.lean ====
section
/-! PROOF. What a blocked list waits with, a READY head under HOLD, stays in every row that does not retire it (R141). -/

-- One proof after another, as in the tests: side by side they take more threads than memory allows.
set_option Elab.async false

namespace Sys2Proof.Machine

open Sys2Proof.Safety

section
variable {s t u : State} {c : CoreId} {l m : ListId} {r r' : ListRec} {o : Origin} {st : Stage} {w : List Entry}

/-! ### Lists that wait with a READY head under HOLD -/

/-- The list has a READY head and full policy HOLD. -/
def ListRec.Waits (r : ListRec) : Prop := r.readyHead.isSome = true ∧ r.policy = .hold

theorem readyHead_isSome : r.readyHead.isSome = true ↔
    r.config.isSome = true ∧ ∃ e rest, r.window = e :: rest ∧ isReady e.stage = true := by
  constructor
  · intro h
    obtain ⟨⟨cfg, e, rest, res⟩, hhead⟩ := Option.isSome_iff_exists.mp h
    obtain ⟨hc, hw, hstage⟩ := readyHead_eq_some hhead
    exact ⟨by rw [hc]; rfl, e, rest, hw, by rw [hstage]; rfl⟩
  · rintro ⟨hc, e, rest, hw, hready⟩
    obtain ⟨cfg, hc⟩ := Option.isSome_iff_exists.mp hc
    unfold ListRec.readyHead
    rw [hc, hw]
    cases hst : e.stage with
    | ready res => simp [hst]
    | waiting | converting | evaluating => rw [hst] at hready; cases hready

/-- What a list waits with is its configuration and the head of its window. -/
theorem Waits_congr (hc : r'.config = r.config)
    (hw : ∀ e rest, r.window = e :: rest → isReady e.stage = true → ∃ e' rest', r'.window = e' :: rest' ∧ isReady e'.stage = true)
    (h : r.Waits) : r'.Waits := by
  obtain ⟨hhead, hpolicy⟩ := h
  obtain ⟨hsome, e, rest, hwin, hready⟩ := readyHead_isSome.mp hhead
  refine ⟨readyHead_isSome.mpr ⟨by rw [hc]; exact hsome, hw e rest hwin hready⟩, ?_⟩
  unfold ListRec.policy at hpolicy ⊢
  rwa [hc]

theorem Waits_sameWindow (hc : r'.config = r.config) (hw : r'.window = r.window) (h : r.Waits) : r'.Waits :=
  Waits_congr hc (fun e rest hwin hready => ⟨e, rest, hw.trans hwin, hready⟩) h

theorem not_waits_of_window (hw : r.window = []) : ¬ r.Waits := fun h => by
  obtain ⟨-, e, rest, hwin, -⟩ := readyHead_isSome.mp h.1
  exact List.cons_ne_nil e rest (hwin.symm.trans hw)

theorem Waits_setStage {n : Nat} (hst : isReady st = true ∨ ∀ e ∈ r.window, e.step = n → isReady e.stage = false) (h : r.Waits) :
    ({ r with window := setStage n st r.window } : ListRec).Waits := by
  refine Waits_congr (r := r) rfl (fun e rest hwin hready => ?_) h
  refine ⟨if e.step = n then { e with stage := st } else e, setStage n st rest, by show setStage n st r.window = _; rw [hwin]; rfl, ?_⟩
  split
  · rename_i hn
    rcases hst with hst | hopen
    · exact hst
    · exact absurd (hready.symm.trans (hopen e (by rw [hwin]; exact List.mem_cons_self) hn)) (by decide)
  · exact hready

/-- Every list that waits goes on waiting. -/
def State.WaitsTo (s t : State) : Prop := ∀ l, (s.list l).Waits → (t.list l).Waits

theorem WaitsTo_refl (s : State) : s.WaitsTo s := fun _ h => h

theorem WaitsTo_trans (h : s.WaitsTo t) (h2 : t.WaitsTo u) : s.WaitsTo u := fun l hl => h2 l (h l hl)

theorem waitsTo_of_frame {fs : List Field} (hf : s.FrameTo fs t) (hd : (!fs.contains .lists) = true := by rfl) : s.WaitsTo t :=
  fun l h => by rwa [list_of_frame hf hd]

theorem waitsTo_setList (h : (s.list l).Waits → r.Waits) : s.WaitsTo (s.setList l r) := fun m hm => by
  rw [State.list_setList]
  split
  · rename_i hlm
    subst hlm
    exact h hm
  · exact hm

theorem waitsTo_sameWindow (hc : r.config = (s.list l).config) (hw : r.window = (s.list l).window) : s.WaitsTo (s.setList l r) :=
  waitsTo_setList (Waits_sameWindow hc hw)

theorem foldl_waitsTo {α : Type} {g : State → α → State} (hg : ∀ (s : State) (a : α), s.WaitsTo (g s a)) (xs : List α) (s : State) :
    s.WaitsTo (xs.foldl g s) := by
  induction xs generalizing s with
  | nil => exact WaitsTo_refl s
  | cons x xs ih => exact WaitsTo_trans (hg s x) (ih _)

/-! ### Results and stages -/

/-- A stage that is set: READY, or on entries that are not READY. -/
theorem setOriginStage_waitsTo (hst : isReady st = true ∨ ∀ l n, o = .entry l n → ∀ e ∈ (s.list l).window,
    e.step = n → isReady e.stage = false) :
    s.WaitsTo (s.setOriginStage o st) := by
  cases o with
  | sample n => exact WaitsTo_refl s
  | entry l n => exact waitsTo_setList (Waits_setStage (hst.imp_right (fun h => h l n rfl)))

theorem deliver_waitsTo (s : State) (o : Origin) (res : Result) : s.WaitsTo (s.deliver o res) := by
  cases o with
  | sample n => exact waitsTo_of_frame (completeSample_frameTo s n res)
  | entry l n => exact setOriginStage_waitsTo (.inl rfl)

theorem noCoreSweep_waitsTo (s : State) (c : CoreId) : s.WaitsTo (s.noCoreSweep c) :=
  foldl_waitsTo (fun t (q : Request) => deliver_waitsTo t q.origin noCoreResult) _
    { s with pool := s.pool.filter (fun r => !s.lostRequest c r) }

theorem enterOffline_waitsTo (s : State) (c : CoreId) (why : OfflineReason) : s.WaitsTo (s.enterOffline c why) :=
  WaitsTo_trans (t := (s.setCore c { s.core c with state := .offline, offlinePending := false }).raise (.coreOffline c why))
    (fun _ h => h) (noCoreSweep_waitsTo _ c)

theorem settleCore_waitsTo (s : State) (c : CoreId) : s.WaitsTo (s.settleCore c) := by
  unfold State.settleCore
  split
  · exact enterOffline_waitsTo s c _
  · split
    · exact enterOffline_waitsTo s c _
    · exact WaitsTo_refl s

theorem leaveHold_waitsTo (s : State) (c : CoreId) : s.WaitsTo (s.leaveHold c) := by
  refine WaitsTo_trans (t := s.unlatched c) (fun _ h => h) ?_
  show (s.unlatched c).WaitsTo (if ((s.unlatched c).core c).offlinePending then (s.unlatched c).enterOffline c .command
    else ((s.unlatched c).enterIdle c).newGrantEvent)
  split
  · exact enterOffline_waitsTo _ c _
  · exact fun _ h => h

theorem abortCore_waitsTo (s : State) (l : ListId) (c : CoreId) : s.WaitsTo (s.abortCore l c) := by
  unfold State.abortCore
  dsimp only
  split
  · split <;> exact WaitsTo_refl s
  · split
    · exact leaveHold_waitsTo s c
    · exact WaitsTo_refl s

theorem resetLink_waitsTo (s : State) : s.WaitsTo s.resetLink := by
  cases hl : s.lineLow with
  | true => rw [resetLink_of_low hl]; exact WaitsTo_refl s
  | false =>
    have hdrop : ∀ (t : State) (c : CoreId), t.WaitsTo (t.dropSampleLatch c) := fun t c => by
      unfold State.dropSampleLatch
      split
      · exact leaveHold_waitsTo t c
      · exact WaitsTo_refl t
    have hcleared : s.WaitsTo s.linkCleared := fun _ h => h
    have hdropped : s.linkCleared.WaitsTo s.latchesDropped := foldl_waitsTo hdrop (List.finRange 4) s.linkCleared
    rw [resetLink_eq hl]
    exact WaitsTo_trans (WaitsTo_trans (WaitsTo_trans hcleared hdropped) (waitsTo_of_frame (abandonSession_frameTo _)))
      (waitsTo_of_frame (raise_frameTo _ _))

theorem outstandingDone_waitsTo (s : State) (o : Origin) : s.WaitsTo (s.outstandingDone o) := fun l h => by
  rw [outstandingDone_list]
  exact Waits_sameWindow rfl rfl h

/-! ### Work that goes on -/

/-- An entry whose work is live is not READY. -/
theorem open_of_live (h : Balanced [] s) (hlive : (o, st) ∈ liveWork s) :
    ∀ l n, o = .entry l n → ∀ e ∈ (s.list l).window, e.step = n → isReady e.stage = false := by
  rintro l n rfl e he hn
  have hwork : (n, st) ∈ listWork l (liveWork s) := List.mem_filterMap.mpr ⟨_, hlive, if_pos rfl⟩
  have hopen := (h.accounts.entries l).mem_iff.mp hwork
  obtain ⟨e', he', heq⟩ := List.mem_map.mp (List.mem_filter.mp hopen).1
  obtain ⟨hstep, hstage⟩ := Prod.mk.inj heq
  have hsame : e = e' := List.inj_on_of_nodup_map (h.accounts.fresh l).1 he he' (hn.trans hstep.symm)
  rw [hsame, hstage]
  exact not_ready_of_live hlive

theorem joinQueue_waitsTo {e : RatioEntry}
    (hopen : ∀ l n, e.origin = .entry l n → ∀ x ∈ (s.list l).window, x.step = n → isReady x.stage = false) :
      s.WaitsTo (s.joinQueue e) :=
  setOriginStage_waitsTo (s := { s with evalQueue := s.evalQueue ++ [e] }) (.inr hopen)

theorem handOff_waitsTo {k : Core} {p : Params}
    (hopen : k.cancelled = false → ∀ l n, p.origin = .entry l n → ∀ x ∈ (s.list l).window, x.step = n → isReady x.stage = false) :
    s.WaitsTo (s.handOff c k p) := by
  unfold State.handOff
  split
  · exact WaitsTo_trans (outstandingDone_waitsTo s _) (settleCore_waitsTo _ c)
  · rename_i hcancelled
    split
    · exact settleCore_waitsTo s c
    · split
      · exact settleCore_waitsTo s c
      · exact WaitsTo_trans (deliver_waitsTo s _ _) (settleCore_waitsTo _ c)
      · dsimp only
        split
        · exact WaitsTo_trans (joinQueue_waitsTo (hopen (Bool.of_not_eq_true hcancelled))) (settleCore_waitsTo _ c)
        · exact WaitsTo_refl s

theorem mem_liveWork_of_core {x : Origin × Stage} (h : x ∈ coreWork (s.core c)) : x ∈ liveWork s :=
    mem_liveWork.mpr (.inr (.inl ⟨c, h⟩))

theorem endDischarge_waitsTo (c : CoreId) (h : Balanced [] s) : s.WaitsTo (s.endDischarge c) := by
  rcases endDischarge_cases s c with heq | ⟨p, hstate, hparams, heq⟩ <;> rw [heq]
  · exact WaitsTo_refl s
  · have hf := released_frameTo s c p
    refine WaitsTo_trans (waitsTo_of_frame hf) (WaitsTo_trans (handOff_waitsTo (c := c) (k := s.core c) (p := p) (fun hn l n ho => ?_))
      (waitsTo_of_frame (t := State.choose _) (fs := [.nextEvent, .choice]) (frameTo_of_patch rfl)))
    have hwork : (p.origin, Stage.converting) ∈ coreWork (s.core c) := by
      rw [coreWork_of_conversion (by rw [hstate]; rfl) hn hparams]
      exact List.mem_singleton_self _
    rw [list_of_frame hf rfl]
    exact open_of_live h (mem_liveWork_of_core hwork) l n ho

theorem serveHold_waitsTo (hold : HoldSound s) (h : Balanced [] s) : s.WaitsTo s.serveHold := by
  unfold State.serveHold
  split
  · exact WaitsTo_refl s
  · rename_i c rest horder
    split
    · exact WaitsTo_refl s
    · rename_i e hlatch
      split
      · have hhold : (s.core c).state = .hold := (hold.2.1 c).mp (by rw [horder]; exact List.mem_cons_self)
        have hwork : (e.origin, Stage.converting) ∈ coreWork (s.core c) := by
          rw [coreWork_of_latch hhold hlatch]
          exact List.mem_singleton_self _
        exact WaitsTo_trans (WaitsTo_trans (joinQueue_waitsTo (open_of_live h (mem_liveWork_of_core hwork))) (leaveHold_waitsTo _ c))
          (waitsTo_of_frame (choose_frameTo _))
      · exact WaitsTo_refl s

theorem grantNext_waitsTo (h : Balanced [] s) : s.WaitsTo s.grantNext := by
  rcases grantNext_cases s with heq | ⟨q, c, cfg, hmem, -, -, -, heq⟩ <;> rw [heq]
  · exact WaitsTo_refl s
  · have hopen := open_of_live h (mem_liveWork_of_pool hmem)
    exact WaitsTo_trans (t := (({ s with pool := s.pool.erase q } : State).setInput q.input (.claimed c)).setCore c
      ((s.core c).granted (paramsFor q cfg) s.now)) (fun _ hw => hw) (setOriginStage_waitsTo (.inr hopen))

theorem completeEvaluation_waitsTo (s : State) : s.WaitsTo s.completeEvaluation := by
  unfold State.completeEvaluation
  split
  · exact WaitsTo_refl s
  · rename_i e _
    have hhand : s.WaitsTo (s.handResult e (s.evaluationResult e)) := by
      unfold State.handResult
      split
      · exact outstandingDone_waitsTo s _
      · exact deliver_waitsTo s _ _
    refine WaitsTo_trans (WaitsTo_trans hhand ?_) (waitsTo_of_frame (choose_frameTo _))
    unfold State.releaseBank
    split <;> exact fun _ hw => hw

/-! ### The sequencers -/

theorem arrive_waitsTo (s : State) (o : Origin) (ch : ChannelId) (i : InputId) (p : Priority) : s.WaitsTo (s.arrive o ch i p) := by
  unfold State.arrive
  dsimp only
  split
  · exact deliver_waitsTo s.newGrantEvent _ _
  · exact WaitsTo_refl s

theorem issue_waitsTo (n : Nat) (s : State) (l : ListId) : s.WaitsTo (s.issue n l) := by
  have hstep : ∀ (s : State) (cfg : ListConfig) (ch : ChannelId), s.WaitsTo (s.issueStep l cfg ch) := by
    intro s cfg ch
    have hset : s.WaitsTo (s.setList l ((s.list l).issued ch)) := waitsTo_setList (Waits_congr rfl (fun e rest hwin hready =>
      ⟨e, rest ++ [_], by show (s.list l).window ++ [_] = _; rw [hwin]; rfl, hready⟩))
    unfold State.issueStep
    split
    · exact hset
    · exact WaitsTo_trans hset (arrive_waitsTo _ _ _ _ _)
  induction n generalizing s with
  | zero => exact WaitsTo_refl s
  | succ n ih =>
    simp only [State.issue]
    split
    · exact WaitsTo_refl s
    · split
      · split
        · exact WaitsTo_refl s
        · exact WaitsTo_trans (hstep s _ _) (ih _)
      · exact WaitsTo_refl s

theorem startCycle_waitsTo (s : State) (l : ListId) : s.WaitsTo (s.startCycle l) :=
  WaitsTo_trans (waitsTo_sameWindow (r := (s.list l).cycleStarted) rfl rfl) (issue_waitsTo _ _ l)

theorem trigger_waitsTo (s : State) (l : ListId) : s.WaitsTo (s.trigger l) := by
  rw [trigger_cases]
  split
  · exact startCycle_waitsTo s l
  · unfold triggeredRunning
    split <;> exact waitsTo_sameWindow rfl rfl
  · exact WaitsTo_refl s

theorem triggerChained_waitsTo (s : State) (l : ListId) : s.WaitsTo (s.triggerChained l) := by
  refine foldl_waitsTo (fun t m => ?_) _ s
  split
  · exact trigger_waitsTo t m
  · exact WaitsTo_refl t

theorem finishList_waitsTo (s : State) (l : ListId) (why : FinishReason) : s.WaitsTo (s.finishList l why) :=
  waitsTo_sameWindow (r := (s.list l).finished) rfl rfl

theorem countCycle_waitsTo (s : State) (l : ListId) : s.WaitsTo (s.countCycle l) := waitsTo_sameWindow rfl rfl

theorem endCycle_waitsTo (s : State) (l : ListId) : s.WaitsTo (s.endCycle l) := by
  refine WaitsTo_trans (countCycle_waitsTo s l) ?_
  unfold State.endCycle
  generalize s.countCycle l = u
  dsimp only
  split
  · exact finishList_waitsTo _ l _
  · split
    · exact startCycle_waitsTo _ l
    · split
      · refine WaitsTo_trans ?_ (startCycle_waitsTo _ l)
        exact waitsTo_sameWindow rfl rfl
      · exact waitsTo_sameWindow rfl rfl

theorem endDrain_waitsTo (s : State) (l : ListId) : s.WaitsTo (s.endDrain l) := by
  unfold State.endDrain
  split
  · exact finishList_waitsTo s l _
  · exact WaitsTo_refl s

theorem afterRetire_waitsTo (s : State) (l : ListId) (last : Bool) : s.WaitsTo (s.afterRetire l last) := by
  unfold State.afterRetire
  split
  · split
    · exact WaitsTo_trans (endCycle_waitsTo s l) (triggerChained_waitsTo _ l)
    · exact issue_waitsTo _ s l
  · split
    · exact WaitsTo_trans (WaitsTo_trans (countCycle_waitsTo s l) (endDrain_waitsTo _ l)) (triggerChained_waitsTo _ l)
    · exact endDrain_waitsTo s l
  · exact WaitsTo_refl s

/-- A retirement leaves the other lists waiting. -/
theorem retireHead_waits (admitted : Bool) (hm : m ≠ l) (h : (s.list m).Waits) : ((s.retireHead l admitted).list m).Waits := by
  unfold State.retireHead
  split
  · exact h
  · rename_i c e rest res _
    dsimp only
    refine afterRetire_waitsTo _ l _ m ?_
    have hlist : ((s.monitor l e res).setList l (((s.monitor l e res).list l).afterHead e rest)).list m = s.list m := by
      rw [list_setList_of_ne _ hm, monitor_list]
    split
    · exact hlist ▸ h
    · exact hlist ▸ h

theorem startList_waitsTo (s : State) (l : ListId) (cfg : ListConfig) : s.WaitsTo (s.startList l cfg) := by
  have hstarted : s.WaitsTo ((s.setList l ((s.list l).started cfg)).setRunMark l true) :=
    waitsTo_sameWindow (r := (s.list l).started cfg) rfl rfl
  unfold State.startList
  generalize (s.setList l ((s.list l).started cfg)).setRunMark l true = u at hstarted ⊢
  dsimp only
  split
  · exact WaitsTo_trans hstarted (startCycle_waitsTo _ l)
  · refine WaitsTo_trans (WaitsTo_trans hstarted ?_) (startCycle_waitsTo _ l)
    exact waitsTo_sameWindow rfl rfl
  · exact WaitsTo_trans hstarted (waitsTo_sameWindow rfl rfl)
  · exact WaitsTo_trans hstarted (waitsTo_sameWindow rfl rfl)

theorem expirePeriod_waitsTo (s : State) (l : ListId) : s.WaitsTo (s.expirePeriod l) := by
  unfold State.expirePeriod
  split
  · rename_i k c _ _
    have hclock : s.WaitsTo (s.advanceTo k.next) := fun _ h => h
    dsimp only
    generalize s.advanceTo k.next = u at hclock ⊢
    refine WaitsTo_trans (WaitsTo_trans hclock ?_) (trigger_waitsTo _ l)
    exact waitsTo_sameWindow rfl rfl
  · exact WaitsTo_refl s

theorem drainList_waitsTo (s : State) (l : ListId) : s.WaitsTo (s.drainList l) := by
  unfold State.drainList
  split
  · exact finishList_waitsTo s l _
  · exact waitsTo_sameWindow rfl rfl
  · exact WaitsTo_refl s

end

end Sys2Proof.Machine
end

