-- ==== Sys2Proof/Proofs/BlockedKept.lean ====
section
/-! PROOF. A free place of the report queue and a blocked list never exist together (R141, R142). -/

-- One proof after another, as in the tests: side by side they take more threads than memory allows.
set_option Elab.async false

namespace Sys2Proof.Machine

open Sys2Proof.Safety

section
variable {s t u : State} {l m : ListId}

/-! ### The blocked order with places to hand out -/

/-- The blocked order while `n` opened places are still to be handed out: lists that wait, each once, and none with a free place
left over (R142). -/
structure BlockedWith (n : Nat) (s : State) : Prop where
  nodup : s.blocked.Nodup
  waits : ∀ l ∈ s.blocked, (s.list l).Waits
  full : s.blocked ≠ [] → s.reports.length + n = 64

theorem blockedSound_iff : BlockedSound s ↔ BlockedWith 0 s :=
  ⟨fun h => ⟨h.1, h.2.1, h.2.2⟩, fun h => ⟨h.nodup, h.waits, h.full⟩⟩

theorem BlockedWith_waitsTo {n : Nat} (hb : t.blocked = s.blocked) (hr : t.reports = s.reports) (hw : s.WaitsTo t)
    (h : BlockedWith n s) :
    BlockedWith n t where
  nodup := by rw [hb]; exact h.nodup
  waits l hl := hw l (h.waits l (hb ▸ hl))
  full := by rw [hb, hr]; exact h.full

theorem blockedWith_nil {n : Nat} (h : s.blocked = []) : BlockedWith n s :=
  ⟨by rw [h]; exact List.nodup_nil, by rw [h]; exact nofun, fun hne => absurd h hne⟩

/-! ### Retirements -/

theorem retireHead_blocked (s : State) (l : ListId) (admitted : Bool) : (s.retireHead l admitted).blocked = s.blocked := by
  obtain ⟨_, _, _, _, _, _, _, _, h⟩ := retireHead_retiresTo s l admitted
  rw [h]

/-- A head that retires with a place leaves one record more (R63). -/
theorem retireHead_length (admitted : Bool) (h : (s.list l).readyHead.isSome = true) :
    (s.retireHead l admitted).reports.length = s.reports.length + admitted.toNat := by
  obtain ⟨⟨c, e, rest, res⟩, hhead⟩ := Option.isSome_iff_exists.mp h
  unfold State.retireHead
  rw [hhead]
  dsimp only
  rw [afterRetire_reports]
  cases admitted with
  | false => exact congrArg List.length (monitor_reports s l e res)
  | true =>
    show ((s.monitor l e res).reports ++ [_]).length = _
    rw [List.length_append, monitor_reports]
    rfl

/-- A place goes to the oldest blocked list, whose head retires into it. -/
theorem BlockedWith_retireHead {n : Nat} {rest : List ListId} (hb : s.blocked = l :: rest) (h : BlockedWith (n + 1) s) :
    BlockedWith n (({ s with blocked := rest } : State).retireHead l true) ∧ l ∉ rest ∧
      (({ s with blocked := rest } : State).retireHead l true).reports.length + n = 64 ∧
      ((({ s with blocked := rest } : State).retireHead l true).list l).policy = .hold := by
  set u := ({ s with blocked := rest } : State).retireHead l true with hu
  have hnodup := h.nodup
  rw [hb] at hnodup
  obtain ⟨hnot, hrest⟩ := List.nodup_cons.mp hnodup
  obtain ⟨hhead, hpolicy⟩ := h.waits l (by rw [hb]; exact List.mem_cons_self)
  have hreports : u.reports.length = s.reports.length + 1 := retireHead_length (s := { s with blocked := rest }) true hhead
  have hfull := h.full (by rw [hb]; exact List.cons_ne_nil _ _)
  have hlength : u.reports.length + n = 64 := by omega
  have hconfig : (u.list l).config = (s.list l).config :=
    (sameDefinition_of_moves (retireHead_movesTo (b := true) { s with blocked := rest } l true l)).1
  have hblocked : u.blocked = rest := retireHead_blocked { s with blocked := rest } l true
  refine ⟨⟨by rw [hblocked]; exact hrest, fun m hm => ?_, fun _ => hlength⟩, hnot, hlength, ?_⟩
  · rw [hblocked] at hm
    refine retireHead_waits (s := { s with blocked := rest }) true ?_ (h.waits m (by rw [hb]; exact List.mem_cons_of_mem _ hm))
    rintro rfl
    exact hnot hm
  · unfold ListRec.policy at hpolicy ⊢
    rwa [hconfig]

theorem BlockedWith_handOut (n : Nat) (h : BlockedWith n s) : BlockedWith 0 (s.handOut n) := by
  induction n generalizing s with
  | zero => exact h
  | succ n ih =>
    unfold State.handOut
    split
    · rename_i hb
      exact blockedWith_nil hb
    · rename_i l rest hb
      obtain ⟨hretired, hnot, hlength, hpolicy⟩ := BlockedWith_retireHead hb h
      have hblocked : (({ s with blocked := rest } : State).retireHead l true).blocked = rest := retireHead_blocked _ l true
      generalize ({ s with blocked := rest } : State).retireHead l true = u at hretired hlength hpolicy hblocked ⊢
      refine ih ?_
      unfold State.rejoin
      split
      · rename_i hready
        refine ⟨?_, fun m hm => ?_, fun _ => hlength⟩
        · show (u.blocked ++ [l]).Nodup
          refine List.nodup_append.mpr ⟨hretired.nodup, List.nodup_singleton l, fun a ha b hb => ?_⟩
          obtain rfl := List.mem_singleton.mp hb
          rintro rfl
          exact hnot (hblocked ▸ ha)
        · rcases List.mem_append.mp hm with hm | hm
          · exact hretired.waits m hm
          · obtain rfl := List.mem_singleton.mp hm
            exact ⟨hready.1, hpolicy⟩
      · exact hretired

/-- A list that is not in the blocked order retires without a record. -/
theorem BlockedWith_dropHead {n : Nat} (hnot : l ∉ s.blocked) (hhead : (s.list l).readyHead.isSome = true) (h : BlockedWith n s) :
    BlockedWith n (s.retireHead l false) where
  nodup := by rw [retireHead_blocked]; exact h.nodup
  waits m hm := by
    rw [retireHead_blocked] at hm
    exact retireHead_waits false (fun he => hnot (he ▸ hm)) (h.waits m hm)
  full := by
    rw [retireHead_blocked, retireHead_length false hhead]
    exact h.full

theorem BlockedWith_attemptRetire (l : ListId) (hcap : s.reports.length ≤ 64) (h : BlockedWith 0 s) :
    BlockedWith 0 (s.attemptRetire l) := by
  have hchoose : ∀ {t : State}, BlockedWith 0 t → BlockedWith 0 t.choose := fun {t} ht =>
    BlockedWith_waitsTo (s := t) rfl rfl (fun _ hw => hw) ht
  unfold State.attemptRetire
  split
  · exact h
  · rename_i x hx
    have hhead : (s.list l).readyHead.isSome = true := by rw [hx]; rfl
    split
    · rename_i hroom
      have hroom : s.reports.length < 64 := hroom
      have hnil : s.blocked = [] := by
        by_contra hne
        have := h.full hne
        omega
      refine hchoose (blockedWith_nil ?_)
      rw [retireHead_blocked, hnil]
      rfl
    · rename_i hroom
      have hfull : s.reports.length = 64 := le_antisymm hcap (not_lt.mp hroom)
      split
      · rename_i hpolicy
        refine hchoose (BlockedWith_dropHead (fun hl => ?_) hhead h)
        rw [(h.waits l hl).2] at hpolicy
        cases hpolicy
      · rename_i hpolicy
        split
        · exact h
        · rename_i hnot
          refine ⟨?_, fun m hm => ?_, fun _ => hfull⟩
          · show (s.blocked ++ [l]).Nodup
            refine List.nodup_append.mpr ⟨h.nodup, List.nodup_singleton l, fun a ha b hb => ?_⟩
            obtain rfl := List.mem_singleton.mp hb
            exact fun he => hnot (he ▸ ha)
          · rcases List.mem_append.mp hm with hm | hm
            · exact h.waits m hm
            · obtain rfl := List.mem_singleton.mp hm
              exact ⟨hhead, hpolicy⟩

theorem BlockedWith_reportSent (hsending : SendingSound s) (h : BlockedWith 0 s) : BlockedWith 0 s.reportSent := by
  unfold State.reportSent
  split
  · rename_i n hkind
    unfold SendingSound at hsending
    rw [hkind] at hsending
    obtain ⟨-, -, hle, -⟩ := hsending
    have hgiven : BlockedWith n { s with tx := none, cutByte := none, reports := s.reports.drop n, credits := s.credits - n } := by
      refine ⟨h.nodup, h.waits, fun hne => ?_⟩
      have := h.full hne
      show (s.reports.drop n).length + n = 64
      rw [List.length_drop]
      omega
    have hhanded := BlockedWith_handOut n hgiven
    exact BlockedWith_waitsTo (choose_frameTo _ .blocked rfl) (choose_frameTo _ .reports rfl)
        (waitsTo_of_frame (choose_frameTo _)) hhanded
  · exact h

/-! ### Aborts -/

theorem BlockedWith_abortList {n : Nat} (l : ListId) (h : BlockedWith n s) : BlockedWith n (s.abortList l) := by
  have hwork : BlockedWith n (s.abortWork l) := by
    rw [abortWork_eq]
    have hf : (s.withdrawn l).FrameTo [.cores, .notices, .pool, .lists, .deferred, .replies, .idleSince, .holdOrder, .nextEvent]
        ((List.finRange 4).foldl (State.abortCore l) (s.withdrawn l)) := foldl_frameTo (fun t c => abortCore_frameTo t l c) _
    have hwaits : s.WaitsTo ((List.finRange 4).foldl (State.abortCore l) (s.withdrawn l)) :=
      WaitsTo_trans (t := s.withdrawn l) (fun _ hw => hw) (foldl_waitsTo (fun t c => abortCore_waitsTo t l c) _ _)
    have hcores : BlockedWith n ((List.finRange 4).foldl (State.abortCore l) (s.withdrawn l)) :=
      BlockedWith_waitsTo (s := s) (hf .blocked rfl) (hf .reports rfl) hwaits h
    generalize (List.finRange 4).foldl (State.abortCore l) (s.withdrawn l) = u at hcores
    have hblocked : (u.abortRest l (s.abortCount l)).blocked = u.blocked.erase l := rfl
    refine ⟨by rw [hblocked]; exact hcores.nodup.erase l, fun m hm => ?_, fun hne => hcores.full (fun hnil => hne ?_)⟩
    · rw [hblocked] at hm
      obtain ⟨hml, hmem⟩ := hcores.nodup.mem_erase_iff.mp hm
      have hlist : (u.abortRest l (s.abortCount l)).list m = u.list m := list_setList_of_ne u hml _
      rw [hlist]
      exact hcores.waits m hmem
    · rw [hblocked, hnil]
      rfl
  unfold State.abortList
  split
  · exact BlockedWith_waitsTo (s := s) rfl rfl (finishList_waitsTo s l _) h
  · exact hwork
  · exact hwork
  · exact h

/-! ### The rows -/

/-- The rows that write the blocked order or the report queue. -/
def touchesBlocked : Instr → Bool
  | .powerOnReset _ | .partReset _ | .stopListAbort | .retire _ | .reportFrameSent => true
  | _ => false

theorem runCommand_waitsTo {mine : Frame → Bool} {allowed : List Byte → Bool} {own : Frame → State → Answer}
    (hown : ∀ f t, (own f s).state? = some t → s.WaitsTo t) : s.WaitsTo (s.runCommand mine allowed own) :=
  runCommand_keeps (P := fun t => s.WaitsTo t) (fun _ _ _ _ h => h) (WaitsTo_refl s) hown

/-- A list without a window does not wait, whatever becomes of it. -/
theorem waitsTo_defined {r : ListRec} (hw : (s.list l).window = []) : s.WaitsTo ((s.setList l r).setRunMark l false) :=
  WaitsTo_trans (t := s.setList l r) (waitsTo_setList (fun h => absurd h (not_waits_of_window hw))) (fun _ h => h)

theorem after_waitsTo {c : Instr} (hc : touchesBlocked c = false) (hwork : WorkSound s) : s.WaitsTo (s.after c) := by
  have h := balanced_of_workSound hwork
  obtain ⟨hwindows, -, hold, -, -, -⟩ := hwork
  cases c
  case setList =>
    refine runCommand_waitsTo (fun f t ht => ?_)
    obtain ⟨l, c, hst, -, -, -, -, rfl⟩ := setListOwn_state ht
    refine waitsTo_defined (window_nil_of_state (hwindows l) ?_ ?_) <;> rcases hst with hst | hst <;> rw [hst] <;> nofun
  case clearList =>
    refine runCommand_waitsTo (fun f t ht => ?_)
    rcases clearListOwn_state ht with rfl | ⟨l, hst, -, rfl⟩
    · exact WaitsTo_refl _
    · refine waitsTo_defined (window_nil_of_state (hwindows l) ?_ ?_) <;> rw [hst] <;> nofun
  case startList =>
    refine runCommand_waitsTo (fun f t ht => ?_)
    obtain ⟨l, c, -, -, rfl⟩ := startListOwn_state ht
    exact startList_waitsTo s l c
  case stopListDrain =>
    refine runCommand_waitsTo (fun f t ht => ?_)
    obtain ⟨l, -, rfl⟩ := stopListDrainOwn_state ht
    exact drainList_waitsTo s l
  case triggerList =>
    refine runCommand_waitsTo (fun f t ht => ?_)
    obtain ⟨l, c, -, rfl⟩ := triggerListOwn_state ht
    exact trigger_waitsTo s l
  case takeCoreOffline =>
    refine runCommand_waitsTo (fun f t ht => ?_)
    rcases takeCoreOfflineOwn_state ht with rfl | ⟨c, ⟨-, rfl⟩ | rfl⟩
    · exact WaitsTo_refl _
    · exact enterOffline_waitsTo s c _
    · exact fun _ hw => hw
  case linkReset => exact resetLink_waitsTo s
  case grant => exact grantNext_waitsTo h
  case dischargeEnd core => exact endDischarge_waitsTo core h
  case holdServed => exact serveHold_waitsTo hold h
  case evaluationComplete => exact completeEvaluation_waitsTo s
  case periodExpiry list => exact expirePeriod_waitsTo s list
  case abortComplete list =>
    show s.WaitsTo (s.completeAbort list)
    unfold State.completeAbort
    split
    · exact WaitsTo_trans (finishList_waitsTo s list _) (waitsTo_of_frame (choose_frameTo _))
    · exact WaitsTo_refl s
  case powerOnReset | partReset | stopListAbort | retire | reportFrameSent => cases hc
  all_goals exact waitsTo_of_frame (after_frameTo _ s)

theorem blocked_after {c : Instr} (hc : touchesBlocked c = false) (s : State) :
    (s.after c).blocked = s.blocked ∧ (s.after c).reports = s.reports := by
  have hnot : (touched c).contains .blocked = false ∧ (touched c).contains .reports = false := by
    cases c
    case powerOnReset | partReset | stopListAbort | retire | reportFrameSent => cases hc
    all_goals exact ⟨rfl, rfl⟩
  exact ⟨after_frameTo c s .blocked hnot.1, after_frameTo c s .reports hnot.2⟩

theorem BlockedWith_after (c : Instr) (hwork : WorkSound s) (hcap : WithinCapacity s) (h : BlockedWith 0 s) :
    BlockedWith 0 (s.after c) := by
  obtain ⟨-, -, -, hreports, -, -, hsending, -⟩ := hcap
  by_cases hc : touchesBlocked c = false
  · obtain ⟨hblocked, hsame⟩ := blocked_after hc s
    exact BlockedWith_waitsTo hblocked hsame (after_waitsTo hc hwork) h
  · cases c
    case powerOnReset b => exact blockedWith_nil rfl
    case partReset b =>
      show BlockedWith 0 (if s.resetDue then s.powerOn b else s)
      split
      · exact blockedWith_nil rfl
      · exact h
    case stopListAbort =>
      refine runCommand_keeps (P := BlockedWith 0) (fun t _ _ _ ht => BlockedWith_waitsTo (s := t) rfl rfl
          (fun _ hw => hw) ht) h (fun f t ht => ?_)
      obtain ⟨l, -, rfl⟩ := stopListAbortOwn_state ht
      exact BlockedWith_abortList l h
    case retire list => exact BlockedWith_attemptRetire list hreports h
    case reportFrameSent => exact BlockedWith_reportSent hsending h
    all_goals exact absurd rfl hc

/-- Settles O60: lists that wait go on waiting, and an opened place goes to the oldest of them. -/
theorem noFreePlaceWhileBlocked : Obligations.NoFreePlaceWhileBlocked := by
  intro s t hwork hcap h hstep
  refine kept_of_rows (Q := fun u => WorkSound u ∧ WithinCapacity u ∧ BlockedSound u) (P := BlockedSound) (fun s q hs => hs)
    (fun s hs => ?_) (fun c s hs => ?_) s t ⟨hwork, hcap, h⟩ hstep
  · unfold State.idle
    split <;> exact hs.2.2
  · exact blockedSound_iff.mpr (BlockedWith_after c hs.1 hs.2.1 (blockedSound_iff.mp hs.2.2))

end

end Sys2Proof.Machine
end
